-- ==== Sys2Proof/Word.lean ====
section
/-! DEFINITION. The word types of the Barmund 8840 (R4, R5) and nothing else. -/

namespace Sys2Proof

/-- One byte of memory (R4). -/
abbrev Byte := BitVec 8
/-- A V or H register, an FSR, an N32 element (R33). -/
abbrev W32 := BitVec 32
/-- An S or K register (R33). -/
abbrev W64 := BitVec 64
/-- A lane or matrix instruction word (R108), and an A96 accumulator (R92). -/
abbrev W96 := BitVec 96
/-- A virtual address register: SPC, LPC, MPC (R33). -/
abbrev VAddr := BitVec 52
/-- A set of the 32 threads of a group, bit t for thread t (R9). -/
abbrev Mask := BitVec 32
/-- A 64-byte record, command entry, descriptor or ring slot, byte 0 in bits [7:0] (R18, R216). -/
abbrev Slot64 := BitVec 512

end Sys2Proof
end

