-- ==== Sys2Proof/Syntax.lean ====
section
/-! DEFINITION. The instruction type: one constructor per row of spec/opcode_table.json, that is the scalar words
(R112), the lane words (R122), the matrix words (R123) and the device operations and events. -/

namespace Sys2Proof

/-- The condition of a scalar CMP (R113). -/
inductive SCond where
  | eq | ne | lt | ge | le | gt
deriving DecidableEq, Repr

/-- The condition of BRC (R111): six tests of S[A] and the walker flags E0-E5, wanted 1 or 0. -/
inductive BrCond where
  | eqz | nez | ltz | gez | lez | gtz
  | e (n : BitVec 3)
  | ne (n : BitVec 3)
deriving DecidableEq, Repr

/-- WIDTH of the ordered and scratchpad layouts (R110). -/
inductive Width where
  | n8 | n16 | n32 | w64 | i8 | i16 | i32
deriving DecidableEq, Repr

/-- ORDM (R110) and the ORD fields of lane words (R208, R214). -/
inductive OrdMod where
  | relaxed | acq | rel | ar
deriving DecidableEq, Repr

/-- AOP of the scalar ATOM (R110). -/
inductive AtomOp where
  | add | min | max | minN | maxN | and | or | xor | xchg | cas
deriving DecidableEq, Repr

/-- The fields of a lane or matrix word (R115) other than OP. -/
structure LaneWord where
  la : BitVec 4
  gn : Bool
  gp : BitVec 6
  md : BitVec 8
  d : BitVec 8
  a : BitVec 8
  b : BitVec 8
  c : BitVec 8
  x : BitVec 4
  imm : BitVec 32
deriving DecidableEq, Repr

/-- The three instruction streams (R13). -/
inductive Stream where
  | scalar | lane | matrix
deriving DecidableEq, Repr

/-- Who writes a register (R328): the host, a system-die privileged agent, the power governor's I/O core 0,
the self-test controller's I/O core 2, or anyone else (user code of a system core). -/
inductive Writer where
  | host | sys | governor | selfTest | other
deriving DecidableEq, Repr

/-- A group by core, block slot and group slot, as a trap-frame index and DBGCTL name it (R308, R323). -/
structure GroupRef where
  core : BitVec 6
  bslot : BitVec 3
  slot : BitVec 5
deriving DecidableEq, Repr

/-- A block by core and block slot (R24). -/
structure BlockRef where
  core : BitVec 6
  bslot : BitVec 3
deriving DecidableEq, Repr

/-- An engine context: ENGINE 0-63 a copy engine, 64-67 a bulk engine, and its ECTX (R161). -/
structure EngineRef where
  engine : BitVec 8
  ectx : BitVec 4
deriving DecidableEq, Repr

/-- A command of an engine: a chain command by its number (R80), or a group's copy by its number (R81). -/
inductive CmdRef where
  | chain (e : EngineRef) (n : Nat)
  | copy (g : GroupRef) (n : Nat)
deriving DecidableEq, Repr

/-- A unit that self-test tests (R347): the first four it may remove; a lasting fault of the others is fatal. -/
inductive UnitRef where
  | core (n : BitVec 6)
  | island (n : BitVec 5)
  | cacheSlice (n : BitVec 3)
  | bulk (n : BitVec 2)
  | l2Slice (n : BitVec 4)
  | channel (n : BitVec 4)
  | link (n : BitVec 1)
  | systemCore (n : BitVec 6)
deriving DecidableEq, Repr

/-- Every row of spec/opcode_table.json. Scalar words carry the fields of R109-R113, lane and
matrix words the fields of R115, events what the outside party or the device unit names. -/
inductive Instr where
  -- scalar register forms (R113, R142)
  | add (d a b : BitVec 5) (w : Bool)
  | sub (d a b : BitVec 5) (w : Bool)
  | mul (d a b : BitVec 5) (w : Bool)
  | mulh (d a b : BitVec 5) (n : Bool)
  | and (d a b : BitVec 5)
  | or (d a b : BitVec 5)
  | xor (d a b : BitVec 5)
  | shl (d a b : BitVec 5) (w : Bool)
  | shr (d a b : BitVec 5) (w : Bool)
  | sha (d a b : BitVec 5) (w : Bool)
  | min (d a b : BitVec 5) (n : Bool)
  | max (d a b : BitVec 5) (n : Bool)
  | cmp (d a b : BitVec 5) (c : SCond) (n : Bool)
  | sel (d a b c : BitVec 5)
  -- scalar immediate forms (R143, R144)
  | addImmediate (d a : BitVec 5) (imm : BitVec 16)
  | andImmediate (d a : BitVec 5) (imm : BitVec 16)
  | orImmediate (d a : BitVec 5) (imm : BitVec 16)
  | xorImmediate (d a : BitVec 5) (imm : BitVec 16)
  | shlImmediate (d a : BitVec 5) (w : Bool) (amount : BitVec 6)
  | shrImmediate (d a : BitVec 5) (w : Bool) (amount : BitVec 6)
  | shaImmediate (d a : BitVec 5) (w : Bool) (amount : BitVec 6)
  | cmpImmediate (d a : BitVec 5) (c : SCond) (n : Bool) (imm : BitVec 12)
  | movi (d : BitVec 5) (imm : BitVec 16)
  | movhi (d : BitVec 5) (h : BitVec 2) (imm : BitVec 16)
  | lea (d : BitVec 5) (off : BitVec 21)
  -- scalar loads, stores and atomics (R145-R148)
  | ldN8 (d a : BitVec 5) (la : BitVec 4) (disp : BitVec 12)
  | ldN16 (d a : BitVec 5) (la : BitVec 4) (disp : BitVec 12)
  | ldN32 (d a : BitVec 5) (la : BitVec 4) (disp : BitVec 12)
  | ldN64 (d a : BitVec 5) (la : BitVec 4) (disp : BitVec 12)
  | ldI8 (d a : BitVec 5) (la : BitVec 4) (disp : BitVec 12)
  | ldI16 (d a : BitVec 5) (la : BitVec 4) (disp : BitVec 12)
  | ldI32 (d a : BitVec 5) (la : BitVec 4) (disp : BitVec 12)
  | ldOrdered (d a : BitVec 5) (la : BitVec 4) (w : Width) (o : OrdMod) (sc : BitVec 3)
  | stN8 (d a : BitVec 5) (la : BitVec 4) (disp : BitVec 12)
  | stN16 (d a : BitVec 5) (la : BitVec 4) (disp : BitVec 12)
  | stN32 (d a : BitVec 5) (la : BitVec 4) (disp : BitVec 12)
  | stN64 (d a : BitVec 5) (la : BitVec 4) (disp : BitVec 12)
  | stOrdered (d a : BitVec 5) (la : BitVec 4) (w : Width) (o : OrdMod) (sc : BitVec 3)
  | atom (d a : BitVec 5) (la : BitVec 4) (w : Width) (o : OrdMod) (sc : BitVec 3) (op : AtomOp)
  | lds (d a : BitVec 5) (w : Width) (disp : BitVec 9)
  | sts (d a : BitVec 5) (w : Width) (disp : BitVec 9)
  -- scalar control flow (R149, R150)
  | br (off : BitVec 26)
  | brc (c : BrCond) (a : BitVec 5) (off : BitVec 16)
  | call (off : BitVec 26)
  | jmp (a : BitVec 5)
  | calli (a : BitVec 5)
  | ret
  -- lane runs and walkers (R152-R156)
  | lrun (nw : BitVec 5) (loff : BitVec 21)
  | lwait
  | wbind (k : BitVec 3) (a : BitVec 5)
  | wread (d : BitVec 5) (k : BitVec 3)
  -- register count (R157)
  | rgrowB (n : BitVec 5)
  | rgrowC (d : BitVec 5) (n : BitVec 5)
  | rshrink (n : BitVec 5)
  -- barriers and named queues (R159, R160)
  | barArrive (nw : Bool) (b : BitVec 8)
  | barWait (b : BitVec 8)
  | barParrive (nw : Bool) (p : BitVec 8)
  | barWaitPel (p : BitVec 8)
  | qpush (a : BitVec 5) (q : BitVec 3)
  | qpop (d : BitVec 5) (q : BitVec 3)
  -- engines, fences, monitors (R161-R167)
  | ctail (d a : BitVec 5)
  | cclose (d : BitVec 5) (sc : BitVec 3)
  | cwait (a : BitVec 5)
  | tlwait (d a : BitVec 5)
  | tlread (d a : BitVec 5)
  | fenceAcq (sc : BitVec 3)
  | fenceRel (sc : BitVec 3)
  | fenceAr (sc : BitVec 3)
  | fenceI (sc : BitVec 3)
  | lnarm (a : BitVec 5) (m : BitVec 2)
  | lnwait (d a : BitVec 5)
  -- creating work, leaving the stream (R168-R174)
  | spawn (d a : BitVec 5) (q : BitVec 6)
  | join (a : BitVec 5) (sc : BitVec 3)
  | amsend (d a : BitVec 5) (q : BitVec 6)
  | swpt (n : BitVec 16)
  | syscall (code : BitVec 12)
  | trap (code : BitVec 12)
  | yield
  | exit
  | causew (a : BitVec 5)
  | srseed (a : BitVec 5)
  | sprd (d : BitVec 5) (sp : BitVec 8)
  | spwr (a : BitVec 5) (sp : BitVec 8)
  | replay (d a : BitVec 5)
  -- lane arithmetic (R180-R186)
  | iadd (w : LaneWord)
  | isub (w : LaneWord)
  | imul (w : LaneWord)
  | imad (w : LaneWord)
  | imulh (w : LaneWord)
  | idiv (w : LaneWord)
  | imin (w : LaneWord)
  | imax (w : LaneWord)
  | icmp (w : LaneWord)
  | laneShl (w : LaneWord)
  | laneShr (w : LaneWord)
  | laneSha (w : LaneWord)
  | laneAnd (w : LaneWord)
  | laneOr (w : LaneWord)
  | laneXor (w : LaneWord)
  | not (w : LaneWord)
  | bfe (w : LaneWord)
  | bfi (w : LaneWord)
  | popc (w : LaneWord)
  | clz (w : LaneWord)
  | brev (w : LaneWord)
  | bilv (w : LaneWord)
  | bdlv (w : LaneWord)
  -- lane floating point (R187-R194)
  | fadd (w : LaneWord)
  | fmul (w : LaneWord)
  | ffma (w : LaneWord)
  | fmin (w : LaneWord)
  | fmax (w : LaneWord)
  | fcmp (w : LaneWord)
  | frcp (w : LaneWord)
  | frsq (w : LaneWord)
  | fsqrt (w : LaneWord)
  | fexp2 (w : LaneWord)
  | flog2 (w : LaneWord)
  | fsin (w : LaneWord)
  | fcos (w : LaneWord)
  | pkfma (w : LaneWord)
  | pkadd (w : LaneWord)
  | cvt (w : LaneWord)
  | vdot4 (w : LaneWord)
  | vdot8 (w : LaneWord)
  -- predicates, select, move, across threads, control (R195-R204)
  | pand (w : LaneWord)
  | por (w : LaneWord)
  | pxor (w : LaneWord)
  | pnot (w : LaneWord)
  | laneSel (w : LaneWord)
  | mov (w : LaneWord)
  | shfl (w : LaneWord)
  | vote (w : LaneWord)
  | ballot (w : LaneWord)
  | split (w : LaneWord)
  | joinL (w : LaneWord)
  | lcall (w : LaneWord)
  | lret (w : LaneWord)
  -- lane memory, synchronisation, islands, graphics (R211-R231)
  | laneLd (w : LaneWord)
  | laneSt (w : LaneWord)
  | ldc (w : LaneWord)
  | laneLds (w : LaneWord)
  | laneSts (w : LaneWord)
  | ldp (w : LaneWord)
  | stp (w : LaneWord)
  | laneAtom (w : LaneWord)
  | atoms (w : LaneWord)
  | red (w : LaneWord)
  | cpy (w : LaneWord)
  | fenceL (w : LaneWord)
  | mbar (w : LaneWord)
  | isubIsl (w : LaneWord)
  | qread (w : LaneWord)
  | qclose (w : LaneWord)
  | attr (w : LaneWord)
  | trace (w : LaneWord)
  | refill (w : LaneWord)
  | neval (w : LaneWord)
  -- matrix words (R239-R254)
  | mma (w : LaneWord)
  | mloadb (w : LaneWord)
  | mscale (w : LaneWord)
  | aclr (w : LaneWord)
  | aout (w : LaneWord)
  | amove (w : LaneWord)
  | mgear (w : LaneWord)
  | mbudget (w : LaneWord)
  | mstat (w : LaneWord)
  | mwaitq (w : LaneWord)
  | matrixBarArrive (w : LaneWord)
  | matrixBarWait (w : LaneWord)
  | matrixQpop (w : LaneWord)
  | matrixQpush (w : LaneWord)
  | matrixTlwait (w : LaneWord)
  | mend (w : LaneWord)
  | mendLoop (w : LaneWord)
  -- what outside parties do (R264, R327-R332, R314, R304, R323, R57, R46, R277)
  | doorbell (wr : Writer) (v : BitVec 64)
  | d2dsyncRead
  | msigen (wr : Writer) (v : BitVec 64)
  | sysdone (wr : Writer) (v : BitVec 64)
  | faultRetry (wr : Writer) (ctx : BitVec 8) (rsv : BitVec 32) (id : BitVec 16)
  | faultFatal (wr : Writer) (ctx : BitVec 8) (rsv : BitVec 32) (id : BitVec 16)
  | faultPost (ctx : BitVec 8)
  | bind (wr : Writer) (ctx : BitVec 8) (rsv : BitVec 48)
  | makeres (wr : Writer) (ctx : BitVec 8) (rsv : BitVec 48)
  | preempt (wr : Writer) (ctx : BitVec 8) (rsv : BitVec 48)
  | reset (wr : Writer) (ctx : BitVec 8) (rsv : BitVec 48)
  | release (wr : Writer) (ctx : BitVec 8) (rsv : BitVec 48)
  | firstDeadline (ctx : BitVec 8)
  | secondDeadline (ctx : BitVec 8)
  | stop (wr : Writer) (ctx : BitVec 8) (g : GroupRef)
  | resume (wr : Writer) (ctx : BitVec 8) (g : GroupRef)
  | stepL (wr : Writer) (ctx : BitVec 8) (g : GroupRef)
  | stepS (wr : Writer) (ctx : BitVec 8) (g : GroupRef)
  | tlbInvalidatePage (wr : Writer) (ctx : BitVec 8)
  | tlbInvalidateContext (wr : Writer) (ctx : BitVec 8)
  | tlbInvalidateAll (wr : Writer) (ctx : BitVec 8)
  | tlbInvalidationDone
  | scpartWrite (wr : Writer) (n : BitVec 4) (v : BitVec 32)
  | pwrpoolWrite (wr : Writer) (v : BitVec 32)
  | registerWrite (wr : Writer) (off : BitVec 26) (v : BitVec 64)
  -- power, resets, self-test, display, budget (R336-R348)
  | powerSave (wr : Writer)
  | powerOff (wr : Writer)
  | powerReset (wr : Writer)
  | powerGood
  | perst
  | functionLevelReset
  | d3hotEntry
  | d3hotExit
  | gddr7SelfRefresh
  | enter (wr : Writer) (core : BitVec 6)
  | start (wr : Writer) (core : BitVec 6)
  | leave (wr : Writer) (core : BitVec 6)
  | selfTest (u : UnitRef) (errs : BitVec 3)
  | handover (wr : Writer) (head : BitVec 2)
  | headRelease (wr : Writer) (head : BitVec 2)
  | frameStart (head : BitVec 2)
  | budgetGrant (frame : BitVec 64)
  | budgetTick (pbase : BitVec 32)
  | grantTimeout
  -- what the device's own units do (R265-R271, R32, R71, R87, R127)
  | blockRetire (b : BlockRef)
  | writeAcknowledge (core : BitVec 6) (n : Nat)
  | lnwaitTimeout (g : GroupRef)
  | longLatencyResolve (g : GroupRef) (n : Nat) (threads : BitVec 32)
  | nop (c : CmdRef)
  | copy (c : CmdRef)
  | fill (c : CmdRef)
  | link (c : CmdRef)
  | wait (c : CmdRef)
  | commandComplete (c : CmdRef)
  | islandAccept (n : BitVec 5)
  | islandPass (n : BitVec 5)
  | islandDeliver (n : BitVec 5)
  | shaderTableLookup (n : BitVec 5)
  | tileWindowClose (core : BitVec 6)
  | draftTileRun (core : BitVec 6)
  | arrayGrant (core : BitVec 6)
  | attemptEnd (core : BitVec 6)
  | trapEntry (g : GroupRef)
  | powerRemoval (alwaysOn : Bool)
  | fsyncInPulse
  | engineTailWrite (e : EngineRef) (tail : BitVec 64)
  | illegalEncoding (st : Stream)
  -- loader requests (R333)
  | loadobj
  | bindisl
  | relport
  | attest
  | genkey
  | keyinstall
  | keyrevoke
  | lcchange
  -- the dispatcher's own (R263-R271)
  | dispatch
  | launchExpand
  | joinCounterReread
  | candidateAged
  | moveMark
deriving DecidableEq, Repr

end Sys2Proof
end

