-- ==== Sys2Proof/WellFormed.lean ====
section
/-! DEFINITION. The checks of R109-R123 and of each instruction's own field rules that a word meets at decode
(R124): Instr.wf is false exactly when cause 0x02 is raised there. Code 253 outside trap mode (cause 0x03, R116)
and REPLAY (R174) are execution's. -/

namespace Sys2Proof

namespace LaneWord

/-- MOD[6:3], the type code of R119. -/
def ty (w : LaneWord) : Nat := w.md.toNat / 8 % 16
/-- MOD[2:0], the rounding code of R93. -/
def rm (w : LaneWord) : Nat := w.md.toNat % 8
/-- MOD[7], .U (R119). -/
def u (w : LaneWord) : Bool := w.md.getLsbD 7
/-- MOD[6:0]. -/
def md7 (w : LaneWord) : Nat := w.md.toNat % 128
/-- IMM[7:0], the index of a selector code (R121). -/
def ix (w : LaneWord) : Nat := w.imm.toNat % 256

end LaneWord

/-- Codes 0-247 name a V register (R116). -/
def isV (c : BitVec 8) : Bool := c.toNat < 248
/-- Codes 248-253: at most one such field in a word (R116). -/
def isSel (c : BitVec 8) : Bool := 248 ≤ c.toNat && c.toNat ≤ 253

/-- The index bits R116 marks zero, for one selector code. -/
def ixOk (c : BitVec 8) (ix : Nat) : Bool :=
  match c.toNat with
  | 249 => ix < 32
  | 250 => ix < 16
  | 251 | 252 | 253 => ix < 8
  | _ => true

/-- R116 over the operand fields that the word reads or writes. -/
def selOk (w : LaneWord) (fs : List (BitVec 8)) : Bool :=
  (fs.filter isSel).length ≤ 1 && fs.all (fun c => ixOk c w.ix)

/-- R117: the codes a destination may hold. -/
def dstOk (c : BitVec 8) : Bool := isV c || c == 249#8 || c == 250#8 || c == 253#8 || c == 254#8

/-- R179: a 64-bit operand is an even V register, and never code 253. -/
def pairOk (ty : Nat) (c : BitVec 8) : Bool :=
  if ty = 6 || ty = 7 then (!(isV c) || c.toNat % 2 = 0) && c != 253#8 else true

/-- A predicate field (R178). -/
def predOk (c : BitVec 8) : Bool := c.toNat < 48

/-- The guard of a lane word (R118). -/
def guardOk (w : LaneWord) : Bool := w.gp.toNat < 48

/-- A rounding code that is not SR (R93). -/
def rmOk (m : Nat) : Bool := m ≤ 3 || m = 5

/-- A lane word outside the long-latency class (R125). -/
def shortOk (w : LaneWord) : Bool := w.la == 0#4 && guardOk w

/-- R180, R181: integer arithmetic of `n` sources over the types `ts`. -/
def intWf (w : LaneWord) (ts : List Nat) (sat : Bool) (three : Bool) : Bool :=
  let fs := if three then [w.d, w.a, w.b, w.c] else [w.d, w.a, w.b]
  shortOk w && ts.contains w.ty && w.rm ≤ 1 && (sat || w.rm = 0) && w.x == 0#4 &&
  selOk w fs && dstOk w.d && fs.all (pairOk w.ty)

def allInt : List Nat := [0, 1, 2, 3, 4, 5, 6, 7]

def idivWf (w : LaneWord) : Bool :=
  shortOk w && (w.ty = 0 || w.ty = 1) && w.rm ≤ 1 && w.x.toNat ≤ 1 &&
  !(w.rm = 1 && (w.x == 1#4 || w.ty = 1)) && selOk w [w.d, w.a, w.b] && dstOk w.d

def icmpWf (w : LaneWord) : Bool :=
  shortOk w && w.ty < 8 && w.rm = 0 && w.x.toNat < 6 && predOk w.d &&
  selOk w [w.a, w.b] && pairOk w.ty w.a && pairOk w.ty w.b

def shiftWf (w : LaneWord) : Bool :=
  shortOk w && w.ty < 8 && w.rm = 0 && w.x == 0#4 && selOk w [w.d, w.a, w.b] && dstOk w.d &&
  pairOk w.ty w.d && pairOk w.ty w.a

/-- Words on 32 bits with MOD[6:0] and X zero, over the fields `fs` (R183-R185). -/
def plainWf (w : LaneWord) (fs : List (BitVec 8)) : Bool :=
  shortOk w && w.md7 = 0 && w.x == 0#4 && selOk w fs && dstOk w.d

def bfeWf (w : LaneWord) : Bool :=
  shortOk w && (w.ty = 0 || w.ty = 1) && w.rm = 0 && w.x == 0#4 && selOk w [w.d, w.a, w.b] && dstOk w.d

/-- R186. -/
def bilvWf (w : LaneWord) : Bool :=
  shortOk w && w.md7 = 0 && w.x.toNat ≤ 1 && dstOk w.d &&
  selOk w (if w.x == 1#4 then [w.d, w.a, w.b, w.c] else [w.d, w.a, w.b])
def bdlvWf (w : LaneWord) : Bool :=
  shortOk w && w.md7 = 0 && w.x.toNat % 4 ≤ 1 && w.x.toNat / 4 < w.x.toNat % 4 + 2 && dstOk w.d &&
  selOk w [w.d, w.a]

/-- R187, R190: F32 words with a rounding code; `xmax` bounds X. -/
def floatWf (w : LaneWord) (xmax : Nat) (fs : List (BitVec 8)) : Bool :=
  shortOk w && w.ty = 8 && rmOk w.rm && w.x.toNat < xmax && selOk w fs && dstOk w.d
def fminWf (w : LaneWord) : Bool :=
  shortOk w && w.md7 = 64 && w.x == 0#4 && selOk w [w.d, w.a, w.b] && dstOk w.d
def fcmpWf (w : LaneWord) : Bool :=
  shortOk w && w.md7 = 64 && w.x.toNat < 8 && predOk w.d && selOk w [w.a, w.b]
/-- R191. -/
def packWf (w : LaneWord) (fs : List (BitVec 8)) : Bool :=
  shortOk w && (w.ty = 9 || w.ty = 10) && rmOk w.rm && w.x == 0#4 && selOk w fs && dstOk w.d

/-- The byte-select of R99. -/
def bsOk (ty : Nat) (x : BitVec 4) : Bool := x.toNat < 4 && !(ty = 13 && x == 3#4)

/-- R192, the float forms of VDOT4 (E5M2, E4M3) and VDOT8 (E2M1). -/
def vdotFloatWf (w : LaneWord) : Bool :=
  rmOk w.rm && bsOk w.ty w.x && w.ix % 2 = 0
def vdotWf (w : LaneWord) (eight : Bool) : Bool :=
  shortOk w && selOk w [w.d] && dstOk w.d && !(isSel w.a) && !(isSel w.b) && !(isSel w.c) &&
  (if eight then w.ty = 13 && vdotFloatWf w
   else if w.ty = 4 || w.ty = 5 then w.rm ≤ 1 && w.x == 0#4
   else (w.ty = 11 || w.ty = 12) && vdotFloatWf w)

/-- The element width of a format, by its type code (R193). -/
def elemWidth (ty : Nat) : Nat :=
  match ty with
  | 6 | 7 => 64
  | 8 | 0 | 1 => 32
  | 9 | 10 | 2 | 3 => 16
  | 11 | 12 | 4 | 5 | 14 => 8
  | _ => 4
/-- Elements per thread of a CVT (R193). -/
def cvtCount (ws wd : Nat) : Nat := if min ws wd < 32 then 32 / min ws wd else 1
/-- Registers an operand of element width `w` spans (R193). -/
def cvtSpan (n w : Nat) : Nat := max 1 (n * w / 32)
/-- The source type of a CVT, IMM[11:8]. -/
def LaneWord.stype (w : LaneWord) : Nat := w.imm.toNat / 256 % 16
/-- An operand of a CVT: a V register that is a multiple of its span, or, when the operand is one register or a
single 64-bit element, one of the listed codes (R193; R179 keeps code 253 out of a 64-bit operand). -/
def cvtOperandOk (c : BitVec 8) (n wd : Nat) (others : List Nat) : Bool :=
  if isV c then c.toNat % cvtSpan n wd = 0
  else others.contains c.toNat && (cvtSpan n wd = 1 || (n = 1 && wd = 64)) && !(wd = 64 && c == 253#8)
def cvtWf (w : LaneWord) : Bool :=
  let ws := elemWidth w.stype
  let wd := elemWidth w.ty
  let n := cvtCount ws wd
  shortOk w && w.rm ≤ 5 && !(w.rm = 4 && !([9, 10, 11, 12, 13].contains w.ty)) &&
  cvtOperandOk w.a n ws [249, 250, 253, 254, 255] && cvtOperandOk w.d n wd [249, 250, 253, 254] &&
  selOk w [w.d, w.a] &&
  (if w.b == 254#8 then w.x == 0#4
   else isV w.b && [11, 12, 13].contains w.stype && bsOk w.stype w.x)

/-- R195. -/
def pandWf (w : LaneWord) : Bool :=
  shortOk w && w.md7 = 0 && w.x.toNat < 4 && predOk w.d && predOk w.a && predOk w.b
def pnotWf (w : LaneWord) : Bool :=
  shortOk w && w.md7 = 0 && w.x.toNat < 2 && predOk w.d && predOk w.a
/-- R196. -/
def selWf (w : LaneWord) : Bool :=
  shortOk w && w.md7 = 0 && w.x == 0#4 && predOk w.c && selOk w [w.d, w.a, w.b] && dstOk w.d
def movWf (w : LaneWord) : Bool :=
  shortOk w && [0, 1, 6, 7].contains w.ty && w.rm = 0 && w.x == 0#4 && selOk w [w.d, w.a] && dstOk w.d &&
  pairOk w.ty w.d && pairOk w.ty w.a
/-- R197. -/
def shflWf (w : LaneWord) : Bool :=
  shortOk w && w.md == 0#8 && w.x.toNat < 4 && isV w.a && dstOk w.d &&
  (if w.x == 2#4 then selOk w [w.d, w.b, w.c] && (isV w.c || [248, 249, 250, 254].contains w.c.toNat)
   else selOk w [w.d, w.b])
/-- R198, R199. -/
def voteWf (w : LaneWord) : Bool :=
  shortOk w && w.md == 0#8 && w.x.toNat < 8 && predOk w.d && predOk w.a
def ballotWf (w : LaneWord) : Bool :=
  shortOk w && w.md == 0#8 && w.x.toNat < 6 && predOk w.a && dstOk w.d && selOk w [w.d]

/-- The lane control words: no guard, no MOD, no LA (R200); X unused, so zero (R120). -/
def ctrlWf (w : LaneWord) : Bool :=
  w.la == 0#4 && w.gp == 0#6 && !w.gn && w.md == 0#8 && w.x == 0#4
def lcallWf (w : LaneWord) : Bool :=
  ctrlWf w && (isV w.a || [248, 249, 250].contains w.a.toNat) && selOk w [w.a]

namespace LaneWord
/-- The MOD fields of R208. -/
def mwidth (w : LaneWord) : Nat := w.md.toNat / 16 % 8
def mord (w : LaneWord) : Nat := w.md.toNat / 4 % 4
def mhint (w : LaneWord) : Nat := w.md.toNat % 4
/-- The MOD fields of R214. -/
def aop (w : LaneWord) : Nat := w.md.toNat / 8 % 16
def aord (w : LaneWord) : Nat := w.md.toNat / 2 % 4
def aw64 (w : LaneWord) : Bool := w.md.getLsbD 0
end LaneWord

/-- R209: the codes of a memory operand. -/
def addrOk (w : LaneWord) (global : Bool) : Bool :=
  ((isV w.a && (!global || w.a.toNat % 2 = 0)) || [249, 250, 251, 254].contains w.a.toNat) &&
  (isV w.b || w.b == 254#8)
/-- R210: a V register of a data operand of the given WIDTH. -/
def dataV (wd : Nat) (c : BitVec 8) : Bool :=
  isV c && (if wd = 3 then c.toNat % 2 = 0 else if wd = 6 then c.toNat % 4 = 0 else true)
def loadDst (wd : Nat) (c : BitVec 8) : Bool := dataV wd c || c == 254#8
def storeSrc (wd : Nat) (c : BitVec 8) : Bool :=
  dataV wd c || (wd != 6 && [248, 249, 250, 254].contains c.toNat)
def ordScopeOk (ord : Nat) (x : BitVec 4) : Bool := if ord = 0 then x == 0#4 else x.toNat < 7

/-- R208's table for the loads. -/
def loadWf (w : LaneWord) (global : Bool) (ords : List Nat) (hints : Nat) (u long : Bool) : Bool :=
  guardOk w && (long || w.la == 0#4) && w.mwidth ≤ 6 && ords.contains w.mord && w.mhint < hints &&
  ordScopeOk w.mord w.x && (u || !w.u) && addrOk w global && loadDst w.mwidth w.d && selOk w [w.d, w.a, w.b]
/-- R208's table for the stores. -/
def storeWf (w : LaneWord) (global : Bool) (ords : List Nat) (hints : Nat) (long : Bool) : Bool :=
  guardOk w && (long || w.la == 0#4) && [0, 1, 2, 3, 6].contains w.mwidth && ords.contains w.mord &&
  w.mhint < hints && ordScopeOk w.mord w.x && !w.u && addrOk w global && storeSrc w.mwidth w.c &&
  selOk w [w.a, w.b, w.c]

/-- R214: the operand C. -/
def atomSrc (w : LaneWord) : Bool :=
  if w.aop = 9 then isV w.c && w.c.toNat % (if w.aw64 then 4 else 2) = 0
  else (isV w.c && (!w.aw64 || w.c.toNat % 2 = 0)) || [248, 249, 250].contains w.c.toNat
def atomDst (w : LaneWord) : Bool := (isV w.d && (!w.aw64 || w.d.toNat % 2 = 0)) || w.d == 254#8
def atomWf (w : LaneWord) (global long : Bool) : Bool :=
  guardOk w && (long || w.la == 0#4) && !w.u && w.aop ≤ 10 && !(w.aop = 10 && w.aw64) &&
  (if long then ordScopeOk w.aord w.x else w.aord = 0 && w.x == 0#4) &&
  addrOk w global && atomSrc w && atomDst w && selOk w [w.d, w.a, w.b, w.c]
def redWf (w : LaneWord) : Bool :=
  atomWf w true true && w.aop != 8 && w.aop != 9 && w.d == 254#8 && (w.aord = 0 || w.aord = 2)

def cpyWf (w : LaneWord) : Bool :=
  guardOk w && w.md7 = 0 && w.x == 0#4 && [249, 250].contains w.a.toNat && selOk w [w.a]
def fenceLWf (w : LaneWord) : Bool := shortOk w && w.md.toNat < 3 && w.x.toNat < 7
def mbarWf (w : LaneWord) : Bool := shortOk w && w.md == 0#8 && w.x == 0#4

/-- R222-R224. -/
def portOk (w : LaneWord) : Bool := (isV w.b || [248, 249, 250].contains w.b.toNat) && selOk w [w.b]
def isubIslWf (w : LaneWord) : Bool := guardOk w && w.md.toNat < 16 && w.x == 0#4 && isV w.a && portOk w
def qcloseWf (w : LaneWord) : Bool := guardOk w && w.md == 0#8 && w.x == 0#4 && portOk w
def qreadWf (w : LaneWord) : Bool :=
  guardOk w && w.md.toNat < 32 && w.x == 0#4 && w.a == 252#8 && predOk w.c && isV w.d && selOk w [w.a]
/-- R226, R227, R230, R231. -/
def attrWf (w : LaneWord) : Bool :=
  guardOk w && w.md.toNat < 16 && w.x == 0#4 && isV w.d && isV w.a && w.a.toNat % 2 = 0 && isV w.b &&
  [249, 250].contains w.c.toNat && selOk w [w.c]
def traceWf (w : LaneWord) : Bool :=
  guardOk w && w.md.toNat < 64 && w.x == 0#4 && isV w.d && isV w.a &&
  (isV w.b || [248, 249, 250].contains w.b.toNat) && [249, 250].contains w.c.toNat && selOk w [w.b, w.c]
def refillWf (w : LaneWord) : Bool :=
  guardOk w && w.md == 0#8 && w.x.toNat < 7 && isV w.d && [249, 250].contains w.a.toNat && predOk w.c &&
  selOk w [w.a]
def nevalWf (w : LaneWord) : Bool :=
  guardOk w && w.md.toNat < 96 && isV w.d && isV w.a && (isV w.b || [248, 249, 250].contains w.b.toNat) &&
  selOk w [w.b]

/-- What every matrix word shares (R118, R125, R234). -/
def mxWf (w : LaneWord) (long : Bool) : Bool :=
  w.gp == 0#6 && !w.gn && (long || w.la == 0#4)
def mxA (w : LaneWord) (cs : List Nat) : Bool := cs.contains w.a.toNat && selOk w [w.a]

/-- R241. -/
def mmaWf (w : LaneWord) : Bool :=
  let src := w.md.toNat / 64
  mxWf w false && src < 3 && w.md.toNat / 4 % 4 < 2 && w.d.toNat < 128 && w.b.toNat < 128 &&
  mxA w (if src = 0 then [250] else [252]) && (src = 2 || w.x == 0#4) &&
  !(w.md.toNat / 16 % 4 = 3 && w.b.toNat % 2 = 1)
/-- R239, R240. -/
def mloadbWf (w : LaneWord) : Bool :=
  mxWf w true && w.md.toNat / 64 < 2 && w.md.toNat % 16 = 0 && w.b.toNat < 128 && mxA w [250, 254] &&
  w.x == 0#4 && !(w.md.toNat / 16 % 4 = 3 && w.b.toNat % 2 = 1)
def mscaleWf (w : LaneWord) : Bool :=
  mxWf w true && w.md.toNat / 64 < 2 && w.md.toNat % 64 = 0 && mxA w [250, 254] && w.x == 0#4
/-- R248. -/
def aclrWf (w : LaneWord) : Bool := mxWf w false && w.md == 0#8 && w.x == 0#4
def amoveWf (w : LaneWord) : Bool := mxWf w false && w.md.toNat < 2 && w.x == 0#4
/-- R249. -/
def aoutWf (w : LaneWord) : Bool :=
  mxWf w false && [0, 2, 4, 8, 9, 10, 11, 12, 13].contains (w.md.toNat / 16) && w.md.toNat / 2 % 8 < 4 &&
  mxA w [250] && w.x.toNat < 2
/-- R250, R251. -/
def mgearWf (w : LaneWord) : Bool := mxWf w false && w.md == 0#8 && w.x == 0#4 && mxA w [248, 250]
def mstatWf (w : LaneWord) : Bool :=
  mxWf w false && w.md == 0#8 && w.x.toNat < 8 && w.x != 6#4 && w.d == 250#8 && selOk w [w.d]
/-- R253. -/
def mwaitqWf (w : LaneWord) : Bool :=
  mxWf w false && w.md == 0#8 && w.x.toNat < 2 && w.b.toNat < 8 && w.c.toNat ≤ 16
def mbarArriveWf (w : LaneWord) : Bool := mxWf w false && w.md == 0#8 && w.x.toNat < 2 && w.b.toNat < 16
def mbarWaitWf (w : LaneWord) : Bool := mxWf w false && w.md == 0#8 && w.x == 0#4 && w.b.toNat < 16
def mqpopWf (w : LaneWord) : Bool :=
  mxWf w false && w.md == 0#8 && w.x == 0#4 && w.b.toNat < 8 && w.d == 250#8 && selOk w [w.d]
def mqpushWf (w : LaneWord) : Bool :=
  mxWf w false && w.md == 0#8 && w.x == 0#4 && w.b.toNat < 8 && mxA w [248, 250]
def mtlwaitWf (w : LaneWord) : Bool := mxWf w false && w.md == 0#8 && mxA w [250]
/-- R254. -/
def mendWf (w : LaneWord) : Bool := mxWf w false && w.md == 0#8 && w.x == 0#4
def mendLoopWf (w : LaneWord) : Bool := mxWf w false && w.md == 0#8 && w.x == 1#4 && mxA w [250]

/-- A scope field with its ordering modifier (R110). -/
def scopeOk (o : OrdMod) (sc : BitVec 3) : Bool :=
  match o with
  | .relaxed => sc == 0#3
  | _ => sc != 7#3

/-- Every decode-time check that the typed fields of an instruction do not already make (R109-R124). Events that
no word carries are always well formed. -/
def Instr.wf : Instr → Bool
  | .shlImmediate _ _ w n | .shrImmediate _ _ w n | .shaImmediate _ _ w n => !(w && n.getLsbD 5)
  | .ldOrdered _ _ _ _ o sc => o != .rel && scopeOk o sc
  | .stOrdered _ _ _ w o sc => [Width.n8, .n16, .n32, .w64].contains w && o != .acq && scopeOk o sc
  | .atom d _ _ w o sc op =>
      (w == .n32 || w == .w64) && scopeOk o sc && !(op == .cas && (d.toNat % 2 = 1 || d == 0#5))
  | .sts _ _ w _ => [Width.n8, .n16, .n32, .w64].contains w
  | .brc c a _ =>
      match c with
      | .e n | .ne n => n.toNat < 6 && a == 0#5
      | _ => true
  | .barArrive _ b | .barWait b => b.toNat < 16
  | .cclose _ sc | .fenceAcq sc | .fenceRel sc | .fenceAr sc | .join _ sc => sc != 7#3
  | .fenceI sc => sc.toNat < 6
  | .sprd _ sp => sp.toNat < 3
  | .spwr _ sp => sp.toNat < 2
  | .iadd w | .isub w | .imul w => intWf w allInt true false
  | .imad w => intWf w [0, 1, 2, 3, 4, 5] true true
  | .imulh w => intWf w [0, 1] false false
  | .idiv w => idivWf w
  | .imin w | .imax w => intWf w allInt false false
  | .icmp w => icmpWf w
  | .laneShl w | .laneShr w | .laneSha w => shiftWf w
  | .laneAnd w | .laneOr w | .laneXor w => plainWf w [w.d, w.a, w.b]
  | .not w | .popc w | .clz w | .brev w => plainWf w [w.d, w.a]
  | .bfe w => bfeWf w
  | .bfi w => plainWf w [w.d, w.a, w.b, w.c]
  | .bilv w => bilvWf w
  | .bdlv w => bdlvWf w
  | .fadd w => floatWf w 4 [w.d, w.a, w.b]
  | .fmul w => floatWf w 2 [w.d, w.a, w.b]
  | .ffma w => floatWf w 4 [w.d, w.a, w.b, w.c]
  | .fmin w | .fmax w => fminWf w
  | .fcmp w => fcmpWf w
  | .frcp w | .frsq w | .fsqrt w | .fexp2 w | .flog2 w | .fsin w | .fcos w => floatWf w 1 [w.d, w.a]
  | .pkfma w => packWf w [w.d, w.a, w.b, w.c]
  | .pkadd w => packWf w [w.d, w.a, w.b]
  | .cvt w => cvtWf w
  | .vdot4 w => vdotWf w false
  | .vdot8 w => vdotWf w true
  | .pand w | .por w | .pxor w => pandWf w
  | .pnot w => pnotWf w
  | .laneSel w => selWf w
  | .mov w => movWf w
  | .shfl w => shflWf w
  | .vote w => voteWf w
  | .ballot w => ballotWf w
  | .split w => ctrlWf w && predOk w.a
  | .joinL w | .lret w => ctrlWf w
  | .lcall w => lcallWf w
  | .laneLd w => loadWf w true [0, 1, 3] 2 true true
  | .laneSt w => storeWf w true [0, 2, 3] 2 true
  | .ldc w => loadWf w true [0] 1 true true
  | .laneLds w => loadWf w false [0] 1 true false
  | .laneSts w | .stp w => storeWf w false [0] 1 false
  | .ldp w => loadWf w false [0] 1 false false
  | .laneAtom w => atomWf w true true
  | .atoms w => atomWf w false false
  | .red w => redWf w
  | .cpy w => cpyWf w
  | .fenceL w => fenceLWf w
  | .mbar w => mbarWf w
  | .isubIsl w => isubIslWf w
  | .qread w => qreadWf w
  | .qclose w => qcloseWf w
  | .attr w => attrWf w
  | .trace w => traceWf w
  | .refill w => refillWf w
  | .neval w => nevalWf w
  | .mma w => mmaWf w
  | .mloadb w => mloadbWf w
  | .mscale w => mscaleWf w
  | .aclr w => aclrWf w
  | .aout w => aoutWf w
  | .amove w => amoveWf w
  | .mgear w | .mbudget w => mgearWf w
  | .mstat w => mstatWf w
  | .mwaitq w => mwaitqWf w
  | .matrixBarArrive w => mbarArriveWf w
  | .matrixBarWait w => mbarWaitWf w
  | .matrixQpop w => mqpopWf w
  | .matrixQpush w => mqpushWf w
  | .matrixTlwait w => mtlwaitWf w
  | .mend w => mendWf w
  | .mendLoop w => mendLoopWf w
  | _ => true

end Sys2Proof
end

