-- ==== Sys2Proof/Decode.lean ====
section
/-! DEFINITION. Reading an instruction from its bits (R108-R124), total and rejecting by name, and after it the
encoder, written from the same tables. -/

namespace Sys2Proof

/-- Why the bits name no instruction. Each is cause 0x02 in the stream that met it (R124). -/
inductive DecodeError where
  | reservedOpcode
  | reservedField
  | wrongStream
  | illFormed
deriving DecidableEq, Repr

/-- Bits [lo+n-1:lo] of a word. -/
def field {m : Nat} (lo n : Nat) (w : BitVec m) : BitVec n := w.extractLsb' lo n

/-- The instruction, when the fields marked zero are zero (R114). -/
def zeros (ok : Bool) (i : Instr) : Except DecodeError Instr := if ok then .ok i else .error .reservedField

/-- WIDTH (R110); 7 is reserved. -/
def widthOf (n : BitVec 3) : Option Width :=
  match n.toNat with
  | 0 => some .n8 | 1 => some .n16 | 2 => some .n32 | 3 => some .w64
  | 4 => some .i8 | 5 => some .i16 | 6 => some .i32 | _ => none
def widthCode : Width → BitVec 3
  | .n8 => 0 | .n16 => 1 | .n32 => 2 | .w64 => 3 | .i8 => 4 | .i16 => 5 | .i32 => 6
/-- ORDM (R110). -/
def ordOf (n : BitVec 2) : OrdMod :=
  match n.toNat with
  | 0 => .relaxed | 1 => .acq | 2 => .rel | _ => .ar
def ordCode : OrdMod → BitVec 2
  | .relaxed => 0 | .acq => 1 | .rel => 2 | .ar => 3
/-- AOP (R110); 10-15 are reserved. -/
def aopOf (n : BitVec 4) : Option AtomOp :=
  match n.toNat with
  | 0 => some .add | 1 => some .min | 2 => some .max | 3 => some .minN | 4 => some .maxN
  | 5 => some .and | 6 => some .or | 7 => some .xor | 8 => some .xchg | 9 => some .cas | _ => none
def aopCode : AtomOp → BitVec 4
  | .add => 0 | .min => 1 | .max => 2 | .minN => 3 | .maxN => 4
  | .and => 5 | .or => 6 | .xor => 7 | .xchg => 8 | .cas => 9
/-- The condition of CMP (R113); 6-7 are reserved. -/
def scondOf (n : BitVec 3) : Option SCond :=
  match n.toNat with
  | 0 => some .eq | 1 => some .ne | 2 => some .lt | 3 => some .ge | 4 => some .le | 5 => some .gt | _ => none
def scondCode : SCond → BitVec 3
  | .eq => 0 | .ne => 1 | .lt => 2 | .ge => 3 | .le => 4 | .gt => 5
/-- COND of BRC (R111). -/
def brcondOf (n : BitVec 5) : Option BrCond :=
  match n.toNat with
  | 0 => some .eqz | 1 => some .nez | 2 => some .ltz | 3 => some .gez | 4 => some .lez | 5 => some .gtz
  | 8 | 9 | 10 | 11 | 12 | 13 => some (.e (field 0 3 n))
  | 16 | 17 | 18 | 19 | 20 | 21 => some (.ne (field 0 3 n))
  | _ => none
def brcondCode : BrCond → BitVec 5
  | .eqz => 0 | .nez => 1 | .ltz => 2 | .gez => 3 | .lez => 4 | .gtz => 5
  | .e n => 1#2 ++ n
  | .ne n => 2#2 ++ n

/-- The register forms, OP6 0x01, by FN and MOD (R113). -/
def decodeRegister (d a b fn : BitVec 5) (md : BitVec 6) : Except DecodeError Instr :=
  let w := md.getLsbD 5
  let n := md.getLsbD 0
  let low5 := field 0 5 md == 0#5
  let onlyN := field 1 5 md == 0#5
  match fn.toNat with
  | 0 => zeros low5 (.add d a b w)
  | 1 => zeros low5 (.sub d a b w)
  | 2 => zeros low5 (.mul d a b w)
  | 3 => zeros onlyN (.mulh d a b n)
  | 4 => zeros (md == 0#6) (.and d a b)
  | 5 => zeros (md == 0#6) (.or d a b)
  | 6 => zeros (md == 0#6) (.xor d a b)
  | 7 => zeros low5 (.shl d a b w)
  | 8 => zeros low5 (.shr d a b w)
  | 9 => zeros low5 (.sha d a b w)
  | 10 => zeros onlyN (.min d a b n)
  | 11 => zeros onlyN (.max d a b n)
  | 12 =>
    match scondOf (field 1 3 md) with
    | some c => zeros (field 4 2 md == 0#2) (.cmp d a b c n)
    | none => .error .reservedField
  | 13 => zeros (!w) (.sel d a b (field 0 5 md))
  | _ => .error .reservedOpcode

/-- A scalar word, before the checks of Instr.wf (R109-R113). -/
def decodeScalarRaw (w : BitVec 32) : Except DecodeError Instr :=
  let d : BitVec 5 := field 21 5 w
  let a : BitVec 5 := field 16 5 w
  let la : BitVec 4 := field 12 4 w
  let disp : BitVec 12 := field 0 12 w
  let imm : BitVec 16 := field 0 16 w
  let sc : BitVec 3 := field 4 3 w
  let d0 := d == 0#5
  let a0 := a == 0#5
  let i0 := imm == 0#16
  match (field 26 6 w : BitVec 6).toNat with
  | 0x01 => decodeRegister d a (field 11 5 w) (field 6 5 w) (field 0 6 w)
  | 0x02 => .ok (.addImmediate d a imm)
  | 0x03 => .ok (.andImmediate d a imm)
  | 0x04 => .ok (.orImmediate d a imm)
  | 0x05 => .ok (.xorImmediate d a imm)
  | 0x06 =>
    let z := field 6 7 w == 0#7
    let ww := w.getLsbD 13
    match (field 14 2 w : BitVec 2).toNat with
    | 0 => zeros z (.shlImmediate d a ww (field 0 6 w))
    | 1 => zeros z (.shrImmediate d a ww (field 0 6 w))
    | 2 => zeros z (.shaImmediate d a ww (field 0 6 w))
    | _ => .error .reservedField
  | 0x07 =>
    match scondOf (field 13 3 w) with
    | some c => .ok (.cmpImmediate d a c (w.getLsbD 12) disp)
    | none => .error .reservedField
  | 0x08 => zeros a0 (.movi d imm)
  | 0x09 => zeros (field 18 3 w == 0#3) (.movhi d (field 16 2 w) imm)
  | 0x0A => .ok (.lea d (field 0 21 w))
  | 0x10 => .ok (.ldN8 d a la disp)
  | 0x11 => .ok (.ldN16 d a la disp)
  | 0x12 => .ok (.ldN32 d a la disp)
  | 0x13 => .ok (.ldN64 d a la disp)
  | 0x14 => .ok (.ldI8 d a la disp)
  | 0x15 => .ok (.ldI16 d a la disp)
  | 0x16 => .ok (.ldI32 d a la disp)
  | 0x17 =>
    match widthOf (field 9 3 w) with
    | some wd => zeros (field 0 4 w == 0#4) (.ldOrdered d a la wd (ordOf (field 7 2 w)) sc)
    | none => .error .reservedField
  | 0x18 => .ok (.stN8 d a la disp)
  | 0x19 => .ok (.stN16 d a la disp)
  | 0x1A => .ok (.stN32 d a la disp)
  | 0x1B => .ok (.stN64 d a la disp)
  | 0x1C =>
    match widthOf (field 9 3 w) with
    | some wd => zeros (field 0 4 w == 0#4) (.stOrdered d a la wd (ordOf (field 7 2 w)) sc)
    | none => .error .reservedField
  | 0x1D =>
    match widthOf (field 9 3 w), aopOf (field 0 4 w) with
    | some wd, some op => .ok (.atom d a la wd (ordOf (field 7 2 w)) sc op)
    | _, _ => .error .reservedField
  | 0x1E =>
    match widthOf (field 9 3 w) with
    | some wd => zeros (la == 0#4) (.lds d a wd (field 0 9 w))
    | none => .error .reservedField
  | 0x1F =>
    match widthOf (field 9 3 w) with
    | some wd => zeros (la == 0#4) (.sts d a wd (field 0 9 w))
    | none => .error .reservedField
  | 0x20 => .ok (.br (field 0 26 w))
  | 0x21 =>
    match brcondOf d with
    | some c => .ok (.brc c a imm)
    | none => .error .reservedField
  | 0x22 => .ok (.call (field 0 26 w))
  | 0x23 => zeros (d0 && i0) (.jmp a)
  | 0x24 => zeros (d0 && i0) (.calli a)
  | 0x25 => zeros (d0 && a0 && i0) .ret
  | 0x26 => .ok (.lrun d (field 0 21 w))
  | 0x27 => zeros (d0 && a0 && i0) .lwait
  | 0x28 => zeros (field 24 2 w == 0#2 && i0) (.wbind (field 21 3 w) a)
  | 0x29 => zeros (a0 && field 3 13 w == 0#13) (.wread d (field 0 3 w))
  | 0x2A =>
    if w.getLsbD 15 then zeros (a0 && field 5 10 w == 0#10) (.rgrowC d (field 0 5 w))
    else zeros (d0 && a0 && field 5 10 w == 0#10) (.rgrowB (field 0 5 w))
  | 0x2B => zeros (d0 && a0 && field 5 11 w == 0#11) (.rshrink (field 0 5 w))
  | 0x2C =>
    let z := d0 && a0 && field 8 5 w == 0#5
    let nw := w.getLsbD 13
    let b : BitVec 8 := field 0 8 w
    match (field 14 2 w : BitVec 2).toNat with
    | 0 => zeros z (.barArrive nw b)
    | 1 => zeros (z && !nw) (.barWait b)
    | 2 => zeros z (.barParrive nw b)
    | _ => zeros (z && !nw) (.barWaitPel b)
  | 0x2D => zeros (d0 && field 3 13 w == 0#13) (.qpush a (field 0 3 w))
  | 0x2E => zeros (a0 && field 3 13 w == 0#13) (.qpop d (field 0 3 w))
  | 0x30 => zeros i0 (.ctail d a)
  | 0x31 => zeros (a0 && field 7 9 w == 0#9 && field 0 4 w == 0#4) (.cclose d sc)
  | 0x32 => zeros (d0 && i0) (.cwait a)
  | 0x33 => zeros i0 (.tlwait d a)
  | 0x34 => zeros i0 (.tlread d a)
  | 0x35 =>
    let z := d0 && a0 && field 7 6 w == 0#6 && field 0 4 w == 0#4
    match (field 13 3 w : BitVec 3).toNat with
    | 0 => zeros z (.fenceAcq sc)
    | 1 => zeros z (.fenceRel sc)
    | 2 => zeros z (.fenceAr sc)
    | 3 => zeros z (.fenceI sc)
    | _ => .error .reservedField
  | 0x36 => zeros (d0 && field 2 14 w == 0#14) (.lnarm a (field 0 2 w))
  | 0x37 => zeros i0 (.lnwait d a)
  | 0x38 => zeros (field 6 10 w == 0#10) (.spawn d a (field 0 6 w))
  | 0x39 => zeros (d0 && field 7 9 w == 0#9 && field 0 4 w == 0#4) (.join a sc)
  | 0x3A => zeros (field 6 10 w == 0#10) (.amsend d a (field 0 6 w))
  | 0x3B => zeros (d0 && a0) (.swpt imm)
  | 0x3C =>
    let z := d0 && a0
    match (field 12 4 w : BitVec 4).toNat with
    | 0 => zeros z (.syscall disp)
    | 1 => zeros z (.trap disp)
    | 2 => zeros (z && disp == 0#12) .yield
    | 3 => zeros (z && disp == 0#12) .exit
    | _ => .error .reservedField
  | 0x3D =>
    let z := field 8 4 w == 0#4
    let sp : BitVec 8 := field 0 8 w
    match (field 12 4 w : BitVec 4).toNat with
    | 0 => zeros (z && d0 && sp == 0#8) (.causew a)
    | 1 => zeros (z && d0 && sp == 0#8) (.srseed a)
    | 2 => zeros (z && a0) (.sprd d sp)
    | 3 => zeros (z && d0) (.spwr a sp)
    | _ => .error .reservedField
  | 0x3E => .ok (.replay d a)
  | _ => .error .reservedOpcode

/-- REPLAY is decoded whatever its low half (R174); the half must be zero only in loop-buffer mode (R324). -/
def replayLow (w : BitVec 32) : Bool := (field 0 16 w : BitVec 16) == 0#16

/-- The fields of a lane or matrix word (R115). -/
def unpack (w : W96) : Nat × LaneWord :=
  ((field 76 9 w : BitVec 9).toNat,
   { la := field 92 4 w, gn := w.getLsbD 91, gp := field 85 6 w, md := field 68 8 w, d := field 60 8 w,
     a := field 52 8 w, b := field 44 8 w, c := field 36 8 w, x := field 32 4 w, imm := field 0 32 w })

/-- The word of an opcode and its fields (R115). -/
def pack (op : Nat) (w : LaneWord) : W96 :=
  w.la ++ BitVec.ofBool w.gn ++ w.gp ++ BitVec.ofNat 9 op ++ w.md ++ w.d ++ w.a ++ w.b ++ w.c ++ w.x ++ w.imm

/-- R122: the lane opcode map. -/
def laneOf (op : Nat) (w : LaneWord) : Option Instr :=
  match op with
  | 0x001 => some (.iadd w)
  | 0x002 => some (.isub w)
  | 0x003 => some (.imul w)
  | 0x004 => some (.imad w)
  | 0x005 => some (.imulh w)
  | 0x006 => some (.idiv w)
  | 0x007 => some (.imin w)
  | 0x008 => some (.imax w)
  | 0x009 => some (.icmp w)
  | 0x010 => some (.laneShl w)
  | 0x011 => some (.laneShr w)
  | 0x012 => some (.laneSha w)
  | 0x013 => some (.laneAnd w)
  | 0x014 => some (.laneOr w)
  | 0x015 => some (.laneXor w)
  | 0x016 => some (.not w)
  | 0x017 => some (.bfe w)
  | 0x018 => some (.bfi w)
  | 0x019 => some (.popc w)
  | 0x01A => some (.clz w)
  | 0x01B => some (.brev w)
  | 0x01C => some (.bilv w)
  | 0x01D => some (.bdlv w)
  | 0x040 => some (.fadd w)
  | 0x041 => some (.fmul w)
  | 0x042 => some (.ffma w)
  | 0x043 => some (.fmin w)
  | 0x044 => some (.fmax w)
  | 0x045 => some (.fcmp w)
  | 0x048 => some (.frcp w)
  | 0x049 => some (.frsq w)
  | 0x04A => some (.fsqrt w)
  | 0x04B => some (.fexp2 w)
  | 0x04C => some (.flog2 w)
  | 0x04D => some (.fsin w)
  | 0x04E => some (.fcos w)
  | 0x050 => some (.pkfma w)
  | 0x051 => some (.pkadd w)
  | 0x058 => some (.cvt w)
  | 0x05C => some (.vdot4 w)
  | 0x05D => some (.vdot8 w)
  | 0x080 => some (.pand w)
  | 0x081 => some (.por w)
  | 0x082 => some (.pxor w)
  | 0x083 => some (.pnot w)
  | 0x088 => some (.laneSel w)
  | 0x089 => some (.mov w)
  | 0x090 => some (.shfl w)
  | 0x091 => some (.vote w)
  | 0x092 => some (.ballot w)
  | 0x098 => some (.split w)
  | 0x099 => some (.joinL w)
  | 0x09A => some (.lcall w)
  | 0x09B => some (.lret w)
  | 0x0C0 => some (.laneLd w)
  | 0x0C1 => some (.laneSt w)
  | 0x0C2 => some (.laneLds w)
  | 0x0C3 => some (.laneSts w)
  | 0x0C4 => some (.ldp w)
  | 0x0C5 => some (.stp w)
  | 0x0C6 => some (.ldc w)
  | 0x0C8 => some (.laneAtom w)
  | 0x0C9 => some (.atoms w)
  | 0x0CA => some (.red w)
  | 0x0CC => some (.cpy w)
  | 0x0D0 => some (.fenceL w)
  | 0x0D1 => some (.mbar w)
  | 0x100 => some (.isubIsl w)
  | 0x101 => some (.qread w)
  | 0x102 => some (.qclose w)
  | 0x108 => some (.attr w)
  | 0x109 => some (.trace w)
  | 0x10A => some (.refill w)
  | 0x110 => some (.neval w)
  | _ => none

/-- R123, R254: the matrix opcode map; X[0] tells MEND.LOOP from MEND. -/
def matrixOf (op : Nat) (w : LaneWord) : Option Instr :=
  match op with
  | 0x180 => some (.mma w)
  | 0x181 => some (.mloadb w)
  | 0x182 => some (.mscale w)
  | 0x183 => some (.aclr w)
  | 0x184 => some (.aout w)
  | 0x185 => some (.amove w)
  | 0x186 => some (.mgear w)
  | 0x187 => some (.mbudget w)
  | 0x188 => some (.mstat w)
  | 0x189 => some (.mwaitq w)
  | 0x18A => some (.matrixBarArrive w)
  | 0x18B => some (.matrixBarWait w)
  | 0x18C => some (.matrixQpop w)
  | 0x18D => some (.matrixQpush w)
  | 0x18E => some (.matrixTlwait w)
  | 0x18F => if w.x.getLsbD 0 then some (.mendLoop w) else some (.mend w)
  | _ => none

/-- R122, R123: the opcode and the fields of a lane or matrix instruction. -/
def wideOf : Instr → Option (Nat × LaneWord)
  | .iadd w => some (0x001, w)
  | .isub w => some (0x002, w)
  | .imul w => some (0x003, w)
  | .imad w => some (0x004, w)
  | .imulh w => some (0x005, w)
  | .idiv w => some (0x006, w)
  | .imin w => some (0x007, w)
  | .imax w => some (0x008, w)
  | .icmp w => some (0x009, w)
  | .laneShl w => some (0x010, w)
  | .laneShr w => some (0x011, w)
  | .laneSha w => some (0x012, w)
  | .laneAnd w => some (0x013, w)
  | .laneOr w => some (0x014, w)
  | .laneXor w => some (0x015, w)
  | .not w => some (0x016, w)
  | .bfe w => some (0x017, w)
  | .bfi w => some (0x018, w)
  | .popc w => some (0x019, w)
  | .clz w => some (0x01A, w)
  | .brev w => some (0x01B, w)
  | .bilv w => some (0x01C, w)
  | .bdlv w => some (0x01D, w)
  | .fadd w => some (0x040, w)
  | .fmul w => some (0x041, w)
  | .ffma w => some (0x042, w)
  | .fmin w => some (0x043, w)
  | .fmax w => some (0x044, w)
  | .fcmp w => some (0x045, w)
  | .frcp w => some (0x048, w)
  | .frsq w => some (0x049, w)
  | .fsqrt w => some (0x04A, w)
  | .fexp2 w => some (0x04B, w)
  | .flog2 w => some (0x04C, w)
  | .fsin w => some (0x04D, w)
  | .fcos w => some (0x04E, w)
  | .pkfma w => some (0x050, w)
  | .pkadd w => some (0x051, w)
  | .cvt w => some (0x058, w)
  | .vdot4 w => some (0x05C, w)
  | .vdot8 w => some (0x05D, w)
  | .pand w => some (0x080, w)
  | .por w => some (0x081, w)
  | .pxor w => some (0x082, w)
  | .pnot w => some (0x083, w)
  | .laneSel w => some (0x088, w)
  | .mov w => some (0x089, w)
  | .shfl w => some (0x090, w)
  | .vote w => some (0x091, w)
  | .ballot w => some (0x092, w)
  | .split w => some (0x098, w)
  | .joinL w => some (0x099, w)
  | .lcall w => some (0x09A, w)
  | .lret w => some (0x09B, w)
  | .laneLd w => some (0x0C0, w)
  | .laneSt w => some (0x0C1, w)
  | .laneLds w => some (0x0C2, w)
  | .laneSts w => some (0x0C3, w)
  | .ldp w => some (0x0C4, w)
  | .stp w => some (0x0C5, w)
  | .ldc w => some (0x0C6, w)
  | .laneAtom w => some (0x0C8, w)
  | .atoms w => some (0x0C9, w)
  | .red w => some (0x0CA, w)
  | .cpy w => some (0x0CC, w)
  | .fenceL w => some (0x0D0, w)
  | .mbar w => some (0x0D1, w)
  | .isubIsl w => some (0x100, w)
  | .qread w => some (0x101, w)
  | .qclose w => some (0x102, w)
  | .attr w => some (0x108, w)
  | .trace w => some (0x109, w)
  | .refill w => some (0x10A, w)
  | .neval w => some (0x110, w)
  | .mma w => some (0x180, w)
  | .mloadb w => some (0x181, w)
  | .mscale w => some (0x182, w)
  | .aclr w => some (0x183, w)
  | .aout w => some (0x184, w)
  | .amove w => some (0x185, w)
  | .mgear w => some (0x186, w)
  | .mbudget w => some (0x187, w)
  | .mstat w => some (0x188, w)
  | .mwaitq w => some (0x189, w)
  | .matrixBarArrive w => some (0x18A, w)
  | .matrixBarWait w => some (0x18B, w)
  | .matrixQpop w => some (0x18C, w)
  | .matrixQpush w => some (0x18D, w)
  | .matrixTlwait w => some (0x18E, w)
  | .mend w | .mendLoop w => some (0x18F, w)
  | _ => none
/-- A word decoded whole: the checks of R109-R123 after the fields (R124). -/
def checked (r : Except DecodeError Instr) : Except DecodeError Instr :=
  match r with
  | .ok i => if i.wf then .ok i else .error .illFormed
  | .error e => .error e

def decodeScalar (w : BitVec 32) : Except DecodeError Instr := checked (decodeScalarRaw w)

/-- A lane word: a matrix opcode met by the lane stream is illegal (R122). -/
def decodeLane (w : W96) : Except DecodeError Instr :=
  let p := unpack w
  match laneOf p.1 p.2 with
  | some i => checked (.ok i)
  | none => .error (if 0x180 ≤ p.1 then .wrongStream else .reservedOpcode)

/-- A matrix word: a lane opcode met by the sequencer is illegal (R123). -/
def decodeMatrix (w : W96) : Except DecodeError Instr :=
  let p := unpack w
  match matrixOf p.1 p.2 with
  | some i => checked (.ok i)
  | none => .error (if p.1 < 0x180 then .wrongStream else .reservedOpcode)

/-- The word of a scalar instruction (R109-R113). -/
def encodeScalar : Instr → Option (BitVec 32)
  | .add d a b w => some (sr d a b 0 (BitVec.ofBool w ++ 0#5))
  | .sub d a b w => some (sr d a b 1 (BitVec.ofBool w ++ 0#5))
  | .mul d a b w => some (sr d a b 2 (BitVec.ofBool w ++ 0#5))
  | .mulh d a b n => some (sr d a b 3 (0#5 ++ BitVec.ofBool n))
  | .and d a b => some (sr d a b 4 0)
  | .or d a b => some (sr d a b 5 0)
  | .xor d a b => some (sr d a b 6 0)
  | .shl d a b w => some (sr d a b 7 (BitVec.ofBool w ++ 0#5))
  | .shr d a b w => some (sr d a b 8 (BitVec.ofBool w ++ 0#5))
  | .sha d a b w => some (sr d a b 9 (BitVec.ofBool w ++ 0#5))
  | .min d a b n => some (sr d a b 10 (0#5 ++ BitVec.ofBool n))
  | .max d a b n => some (sr d a b 11 (0#5 ++ BitVec.ofBool n))
  | .cmp d a b c n => some (sr d a b 12 (0#2 ++ scondCode c ++ BitVec.ofBool n))
  | .sel d a b c => some (sr d a b 13 (0#1 ++ c))
  | .addImmediate d a i => some (si 0x02 d a i)
  | .andImmediate d a i => some (si 0x03 d a i)
  | .orImmediate d a i => some (si 0x04 d a i)
  | .xorImmediate d a i => some (si 0x05 d a i)
  | .shlImmediate d a w n => some (si 0x06 d a (0#2 ++ BitVec.ofBool w ++ 0#7 ++ n))
  | .shrImmediate d a w n => some (si 0x06 d a (1#2 ++ BitVec.ofBool w ++ 0#7 ++ n))
  | .shaImmediate d a w n => some (si 0x06 d a (2#2 ++ BitVec.ofBool w ++ 0#7 ++ n))
  | .cmpImmediate d a c n i => some (si 0x07 d a (scondCode c ++ BitVec.ofBool n ++ i))
  | .movi d i => some (si 0x08 d 0 i)
  | .movhi d h i => some (si 0x09 d (0#3 ++ h) i)
  | .lea d o => some (0x0A#6 ++ d ++ o)
  | .ldN8 d a la i => some (si 0x10 d a (la ++ i))
  | .ldN16 d a la i => some (si 0x11 d a (la ++ i))
  | .ldN32 d a la i => some (si 0x12 d a (la ++ i))
  | .ldN64 d a la i => some (si 0x13 d a (la ++ i))
  | .ldI8 d a la i => some (si 0x14 d a (la ++ i))
  | .ldI16 d a la i => some (si 0x15 d a (la ++ i))
  | .ldI32 d a la i => some (si 0x16 d a (la ++ i))
  | .ldOrdered d a la w o s => some (si 0x17 d a (la ++ widthCode w ++ ordCode o ++ s ++ 0#4))
  | .stN8 d a la i => some (si 0x18 d a (la ++ i))
  | .stN16 d a la i => some (si 0x19 d a (la ++ i))
  | .stN32 d a la i => some (si 0x1A d a (la ++ i))
  | .stN64 d a la i => some (si 0x1B d a (la ++ i))
  | .stOrdered d a la w o s => some (si 0x1C d a (la ++ widthCode w ++ ordCode o ++ s ++ 0#4))
  | .atom d a la w o s op => some (si 0x1D d a (la ++ widthCode w ++ ordCode o ++ s ++ aopCode op))
  | .lds d a w i => some (si 0x1E d a (0#4 ++ widthCode w ++ i))
  | .sts d a w i => some (si 0x1F d a (0#4 ++ widthCode w ++ i))
  | .br o => some (0x20#6 ++ o)
  | .brc c a o => some (si 0x21 (brcondCode c) a o)
  | .call o => some (0x22#6 ++ o)
  | .jmp a => some (si 0x23 0 a 0)
  | .calli a => some (si 0x24 0 a 0)
  | .ret => some (si 0x25 0 0 0)
  | .lrun n o => some (0x26#6 ++ n ++ o)
  | .lwait => some (si 0x27 0 0 0)
  | .wbind k a => some (si 0x28 (0#2 ++ k) a 0)
  | .wread d k => some (si 0x29 d 0 (0#13 ++ k))
  | .rgrowB n => some (si 0x2A 0 0 (0#11 ++ n))
  | .rgrowC d n => some (si 0x2A d 0 (1#1 ++ 0#10 ++ n))
  | .rshrink n => some (si 0x2B 0 0 (0#11 ++ n))
  | .barArrive nw b => some (si 0x2C 0 0 (0#2 ++ BitVec.ofBool nw ++ 0#5 ++ b))
  | .barWait b => some (si 0x2C 0 0 (1#2 ++ 0#6 ++ b))
  | .barParrive nw b => some (si 0x2C 0 0 (2#2 ++ BitVec.ofBool nw ++ 0#5 ++ b))
  | .barWaitPel b => some (si 0x2C 0 0 (3#2 ++ 0#6 ++ b))
  | .qpush a q => some (si 0x2D 0 a (0#13 ++ q))
  | .qpop d q => some (si 0x2E d 0 (0#13 ++ q))
  | .ctail d a => some (si 0x30 d a 0)
  | .cclose d s => some (si 0x31 d 0 (0#9 ++ s ++ 0#4))
  | .cwait a => some (si 0x32 0 a 0)
  | .tlwait d a => some (si 0x33 d a 0)
  | .tlread d a => some (si 0x34 d a 0)
  | .fenceAcq s => some (si 0x35 0 0 (0#3 ++ 0#6 ++ s ++ 0#4))
  | .fenceRel s => some (si 0x35 0 0 (1#3 ++ 0#6 ++ s ++ 0#4))
  | .fenceAr s => some (si 0x35 0 0 (2#3 ++ 0#6 ++ s ++ 0#4))
  | .fenceI s => some (si 0x35 0 0 (3#3 ++ 0#6 ++ s ++ 0#4))
  | .lnarm a m => some (si 0x36 0 a (0#14 ++ m))
  | .lnwait d a => some (si 0x37 d a 0)
  | .spawn d a q => some (si 0x38 d a (0#10 ++ q))
  | .join a s => some (si 0x39 0 a (0#9 ++ s ++ 0#4))
  | .amsend d a q => some (si 0x3A d a (0#10 ++ q))
  | .swpt n => some (si 0x3B 0 0 n)
  | .syscall c => some (si 0x3C 0 0 (0#4 ++ c))
  | .trap c => some (si 0x3C 0 0 (1#4 ++ c))
  | .yield => some (si 0x3C 0 0 (2#4 ++ 0#12))
  | .exit => some (si 0x3C 0 0 (3#4 ++ 0#12))
  | .causew a => some (si 0x3D 0 a (0#4 ++ 0#12))
  | .srseed a => some (si 0x3D 0 a (1#4 ++ 0#12))
  | .sprd d p => some (si 0x3D d 0 (2#4 ++ 0#4 ++ p))
  | .spwr a p => some (si 0x3D 0 a (3#4 ++ 0#4 ++ p))
  | .replay d a => some (si 0x3E d a 0)
  | _ => none
where
  /-- Format S-R. -/
  sr (d a b fn : BitVec 5) (md : BitVec 6) : BitVec 32 := 1#6 ++ d ++ a ++ b ++ fn ++ md
  /-- Formats S-I, S-M and S-X. -/
  si (op : BitVec 6) (d a : BitVec 5) (low : BitVec 16) : BitVec 32 := op ++ d ++ a ++ low

/-- The words of an instruction that a stream may hold: nbits and the bits (R108). -/
def encode (i : Instr) : Option (Nat × Nat) :=
  match wideOf i with
  | some (op, w) => some (96, (pack op w).toNat)
  | none => (encodeScalar i).map fun w => (32, w.toNat)

/-- The stream whose words carry an instruction; none for a device operation or event. -/
def streamOf (i : Instr) : Option Stream :=
  match wideOf i with
  | some (op, _) => some (if op < 0x180 then .lane else .matrix)
  | none => (encodeScalar i).map fun _ => .scalar

/-- A word of four little-endian bytes at the head of a list (R4, R108). -/
def word32 (bs : List Byte) : BitVec 32 :=
  bs.getD 3 0 ++ bs.getD 2 0 ++ bs.getD 1 0 ++ bs.getD 0 0
/-- A word of twelve little-endian bytes. -/
def word96 (bs : List Byte) : W96 := word32 (bs.drop 8) ++ word32 (bs.drop 4) ++ word32 bs

/-- The instruction a stream reads from the bytes at its program counter. -/
def decodeBytes (st : Stream) (bs : List Byte) : Except DecodeError Instr :=
  match st with
  | .scalar => decodeScalar (word32 bs)
  | .lane => decodeLane (word96 bs)
  | .matrix => decodeMatrix (word96 bs)

/-- The n bytes of a number, lowest first (R4). -/
def leBytes : Nat → Nat → List Byte
  | 0, _ => []
  | n + 1, v => BitVec.ofNat 8 v :: leBytes n (v / 256)

/-- A table word of 96 bits goes to the stream its opcode belongs to. -/
def tableStream (nbits w : Nat) : Stream :=
  if nbits ≤ 32 then .scalar
  else if (unpack (BitVec.ofNat 96 w)).1 < 0x180 then .lane else .matrix

/-- What the decoder reads from an instruction whose bits are w, as spec/opcode_table.json numbers them. -/
def decodeTableWord (nbits w : Nat) : Option Instr :=
  match decodeBytes (tableStream nbits w) (leBytes 12 w) with
  | .ok i => some i
  | .error _ => none

end Sys2Proof
end

