-- ==== Sys2Proof/Machine/Sparse.lean ====
section
/-! DEFINITION. Sparse storage in one canonical form (addresses strictly rising, no entry equal to the value an
unlisted address reads as, which is 0), and the byte-order helpers of R4. Every store of the machine is one of
these: memory, registers by index, scratchpad, ceiling-die stores. -/

namespace Sys2Proof

/-- A store of w-bit cells; an unlisted cell reads 0 (R37 for on-chip stores; memory: assumption 1). -/
abbrev Sparse (w : Nat) := List (Nat × BitVec w)

namespace Sparse

variable {w : Nat}

/-- The value of one cell. -/
def get : Sparse w → Nat → BitVec w
  | [], _ => 0
  | (a, v) :: r, k => if a = k then v else get r k

/-- A cell put in its place; the key is not listed before. -/
def ins (k : Nat) (v : BitVec w) : Sparse w → Sparse w
  | [] => [(k, v)]
  | (a, x) :: r => if k < a then (k, v) :: (a, x) :: r else (a, x) :: ins k v r

/-- Every listing of one cell dropped. -/
def drop (k : Nat) : Sparse w → Sparse w
  | [] => []
  | (a, x) :: r => if a = k then drop k r else (a, x) :: drop k r

/-- One cell written; writing 0 removes its entry. -/
def set (m : Sparse w) (k : Nat) (v : BitVec w) : Sparse w :=
  if v = 0 then drop k m else ins k v (drop k m)

/-- Every cell of [lo, lo + n) cleared. -/
def clear (m : Sparse w) (lo n : Nat) : Sparse w := m.filter fun c => !(lo ≤ c.1 && c.1 < lo + n)

/-- The canonical form: keys strictly rising from `lo`, no cell 0. -/
def wfFrom (lo : Nat) : Sparse w → Bool
  | [] => true
  | (a, v) :: r => lo ≤ a && v != 0 && wfFrom (a + 1) r

/-- The canonical form. -/
def wf (m : Sparse w) : Bool := wfFrom 0 m

/-- n cells from `a`, lowest first. -/
def read (m : Sparse w) (a : Nat) : Nat → List (BitVec w)
  | 0 => []
  | n + 1 => get m a :: read m (a + 1) n

/-- Cells written from `a`, lowest first. -/
def write (m : Sparse w) (a : Nat) : List (BitVec w) → Sparse w
  | [] => m
  | v :: r => write (set m a v) (a + 1) r

end Sparse

/-- The memory of R4: bytes by physical address. -/
abbrev Memory := Sparse 8

/-- The canonical form of a memory. -/
abbrev Memory.wf (m : Memory) : Bool := Sparse.wf m

/-- The number of little-endian bytes (R4). -/
def leNat : List Byte → Nat
  | [] => 0
  | b :: r => b.toNat + 256 * leNat r

/-- The n bytes of a number, lowest first (R4). -/
def bytesOf : Nat → Nat → List Byte
  | 0, _ => []
  | n + 1, v => BitVec.ofNat 8 v :: bytesOf n (v / 256)

/-- Bytes [o, o+n) of a byte string as a number. -/
def fieldAt (bs : List Byte) (o n : Nat) : Nat := leNat ((bs.drop o).take n)

/-- Sign extension of the low n bits of a number, into an integer. -/
def sext (n : Nat) (v : Nat) : Int :=
  let x := v % 2 ^ n
  if 2 * x ≥ 2 ^ n then (x : Int) - (2 ^ n : Nat) else (x : Int)

/-- An integer modulo 2^n. -/
def wrap (n : Nat) (v : Int) : Nat := (v % ((2 ^ n : Nat) : Int)).toNat

/-- Bits [hi:lo] of a number. -/
def bits (v hi lo : Nat) : Nat := v / 2 ^ lo % 2 ^ (hi - lo + 1)

/-- Bit i of a number. -/
def bit (v i : Nat) : Bool := v / 2 ^ i % 2 = 1

/-- The threads of a mask, ascending (R9). -/
def threadsOf (m : Mask) : List Nat := (List.range 32).filter fun t => m.getLsbD t

/-- A mask of the threads that satisfy a test. -/
def maskOf (f : Nat → Bool) : Mask :=
  (List.range 32).foldl (fun m t => if f t then m ||| (1#32 <<< t) else m) 0#32

/-- Replace element i of a list. -/
def listSet {α : Type} : List α → Nat → α → List α
  | [], _, _ => []
  | _ :: r, 0, v => v :: r
  | x :: r, n + 1, v => x :: listSet r n v

end Sys2Proof
end

