-- ==== Sys2Proof/Machine/Num.lean ====
section
/-! DEFINITION. Number formats and arithmetic (R88-R107): exact values as signed fractions, one rounding function
for every format and mode, and the conversions, S1 and S2, A96 and the stochastic generator. -/

namespace Sys2Proof

/-- An exact value: (-1)^neg * num / den with den positive (num 0 is a signed zero), an infinity or a NaN. -/
inductive Val where
  | nan (signalling : Bool)
  | inf (neg : Bool)
  | fin (neg : Bool) (num den : Nat)
deriving DecidableEq, Repr

/-- The exceptions of FSR[4:0] (R95): invalid, divide by zero, overflow, underflow, inexact. -/
structure Exc where
  i : Bool := false
  z : Bool := false
  o : Bool := false
  u : Bool := false
  x : Bool := false
deriving DecidableEq, Repr

namespace Exc
def none : Exc := { }
def or (a b : Exc) : Exc := ⟨a.i || b.i, a.z || b.z, a.o || b.o, a.u || b.u, a.x || b.x⟩
def invalid : Exc := { i := true }
def saturated : Exc := { o := true, x := true }
/-- FSR[4:0]: FX FU FO FZ FI. -/
def toFlags (e : Exc) : BitVec 5 :=
  BitVec.ofBool e.x ++ BitVec.ofBool e.u ++ BitVec.ofBool e.o ++ BitVec.ofBool e.z ++ BitVec.ofBool e.i
end Exc

namespace Val

def zero : Val := .fin false 0 1
def one : Val := .fin false 1 1
def ofNat (n : Nat) : Val := .fin false n 1
def ofInt (v : Int) : Val := .fin (v < 0) v.natAbs 1
def isNan : Val → Bool | .nan _ => true | _ => false
def isSnan : Val → Bool | .nan s => s | _ => false
def isInf : Val → Bool | .inf _ => true | _ => false
def isFinite : Val → Bool | .fin .. => true | _ => false
def isZero : Val → Bool | .fin _ n _ => n = 0 | _ => false
def sign : Val → Bool | .nan _ => false | .inf s => s | .fin s _ _ => s
/-- Negation flips the sign bit (R187). -/
def neg : Val → Val | .nan s => .nan s | .inf s => .inf !s | .fin s n d => .fin (!s) n d
def abs : Val → Val | .nan s => .nan s | .inf _ => .inf false | .fin _ n d => .fin false n d

/-- Signed numerator of a finite value over its denominator. -/
def sInt (s : Bool) (n : Nat) : Int := if s then -(n : Int) else n

/-- v * 2^k. -/
def scale2 (v : Val) (k : Int) : Val :=
  match v with
  | .fin s n d => if 0 ≤ k then .fin s (n * 2 ^ k.toNat) d else .fin s n (d * 2 ^ (-k).toNat)
  | v => v

/-- The exact product, and whether it is an IEEE 754 invalid case (R187). -/
def mul (a b : Val) : Val × Bool :=
  match a, b with
  | .nan s, y => (.nan false, s || y.isSnan)
  | x, .nan s => (.nan false, s || x.isSnan)
  | .inf s, .inf t => (.inf (s != t), false)
  | .inf s, .fin t n _ => if n = 0 then (.nan false, true) else (.inf (s != t), false)
  | .fin t n _, .inf s => if n = 0 then (.nan false, true) else (.inf (s != t), false)
  | .fin s n d, .fin t m e => (.fin (s != t) (n * m) (d * e), false)

/-- The exact sum; an exact zero sum of values of opposite signs takes the sign `zneg` (R90). -/
def add (zneg : Bool) (a b : Val) : Val × Bool :=
  match a, b with
  | .nan s, y => (.nan false, s || y.isSnan)
  | x, .nan s => (.nan false, s || x.isSnan)
  | .inf s, .inf t => if s = t then (.inf s, false) else (.nan false, true)
  | .inf s, _ => (.inf s, false)
  | _, .inf s => (.inf s, false)
  | .fin s n d, .fin t m e =>
    let v := sInt s (n * e) + sInt t (m * d)
    if v = 0 then (.fin (if s = t then s else zneg) 0 1, false) else (.fin (v < 0) v.natAbs (d * e), false)

/-- The comparison of two values that are not NaN. -/
def cmp (a b : Val) : Ordering :=
  match a, b with
  | .inf s, .inf t => if s = t then .eq else if s then .lt else .gt
  | .inf s, _ => if s then .lt else .gt
  | _, .inf s => if s then .gt else .lt
  | .fin s n d, .fin t m e => compare (sInt s (n * e)) (sInt t (m * d))
  | _, _ => .eq

def lt (a b : Val) : Bool := cmp a b == .lt
def eq (a b : Val) : Bool := cmp a b == .eq

end Val

/-- A floating-point layout (R89): exponent and mantissa bits, bias, and the special encodings of R90. -/
structure Fmt where
  ebits : Nat
  mbits : Nat
  bias : Nat
  /-- 0: infinities and NaNs (F32, F16, BF16); 1: E5M2; 2: E4M3 (one NaN, no infinity); 3: E2M1 (neither). -/
  kind : Nat
  /-- The NaN the device produces. -/
  pnan : Nat
  /-- The largest finite encoding. -/
  maxEnc : Nat
deriving DecidableEq, Repr

namespace Fmt
def f32 : Fmt := ⟨8, 23, 127, 0, 0x7FC00000, 0x7F7FFFFF⟩
def f16 : Fmt := ⟨5, 10, 15, 0, 0x7E00, 0x7BFF⟩
def bf16 : Fmt := ⟨8, 7, 127, 0, 0x7FC0, 0x7F7F⟩
def e5m2 : Fmt := ⟨5, 2, 15, 1, 0x7E, 0x7B⟩
def e4m3 : Fmt := ⟨4, 3, 7, 2, 0x7F, 0x7E⟩
def e2m1 : Fmt := ⟨2, 1, 1, 3, 0, 7⟩
def width (f : Fmt) : Nat := 1 + f.ebits + f.mbits
/-- The exponent of the smallest normal magnitude. -/
def emin (f : Fmt) : Int := 1 - (f.bias : Int)

/-- The value of an encoding (R89, R90). Which of E5M2's three NaN codes are signalling, and whether E4M3's is, is open; the
model takes S.11111.01, the top mantissa bit clear, as signalling and E4M3's one NaN as quiet (DESIGN CHOICE, log entry
81). -/
def decode (f : Fmt) (b : Nat) : Val :=
  let neg := bit b (f.ebits + f.mbits)
  let e := bits b (f.ebits + f.mbits - 1) f.mbits
  let m := b % 2 ^ f.mbits
  let top := 2 ^ f.ebits - 1
  if e = top && f.kind ≤ 1 then
    if m = 0 then .inf neg else .nan (!bit m (f.mbits - 1))
  else if e = top && f.kind = 2 && m = 7 then .nan false
  else if e = 0 then (Val.fin neg m 1).scale2 (f.emin - f.mbits)
  else (Val.fin neg (m + 2 ^ f.mbits) 1).scale2 ((e : Int) - f.bias - f.mbits)

/-- The largest finite value. -/
def maxVal (f : Fmt) : Val := f.decode f.maxEnc
def signBit (f : Fmt) (neg : Bool) : Nat := if neg then 2 ^ (f.ebits + f.mbits) else 0
def infEnc (f : Fmt) (neg : Bool) : Nat := f.signBit neg + (2 ^ f.ebits - 1) * 2 ^ f.mbits

end Fmt

/-- The rounding modes of R93 that a rounding uses; SR carries its 32-bit word (R98). -/
inductive Mode where
  | rn | rz | rm | rp
  | sr (word : Nat)
deriving DecidableEq, Repr

/-- floor(log2 (n / d)) for positive n and d. -/
def floorLog2 (n d : Nat) : Int :=
  let k : Int := (n.log2 : Int) - (d.log2 : Int)
  let ge : Bool := if 0 ≤ k then d * 2 ^ k.toNat ≤ n else d ≤ n * 2 ^ (-k).toNat
  if ge then k else k - 1

/-- n / (d * 2^q) as a fraction. -/
def divPow (n d : Nat) (q : Int) : Nat × Nat :=
  if 0 ≤ q then (n, d * 2 ^ q.toNat) else (n * 2 ^ (-q).toNat, d)

/-- Whether a magnitude quo + rem/d goes to its next member away from zero (R93, R98). -/
def roundsUp (mode : Mode) (neg : Bool) (quo rem d : Nat) : Bool :=
  match mode with
  | .rn => 2 * rem > d || (2 * rem = d && quo % 2 = 1)
  | .rz => false
  | .rm => neg && rem ≠ 0
  | .rp => !neg && rem ≠ 0
  | .sr w => w < 2 ^ 32 * rem / d

/-- A positive magnitude n/d rounded to p significant bits and no finer than 2^qmin (R94), and, for the
stochastic mode, no coarser than 2^qmax (R98): the significand, its exponent, and inexactness. -/
def roundMag (mode : Mode) (neg : Bool) (n d p : Nat) (qmin : Int) (qmax : Option Int) : Nat × Int × Bool :=
  let q0 := max (floorLog2 n d - ((p : Int) - 1)) qmin
  let q := match qmax with
    | some m => min q0 m
    | none => q0
  let r := divPow n d q
  let quo := r.1 / r.2
  let rem := r.1 % r.2
  (if roundsUp mode neg quo rem r.2 then quo + 1 else quo, q, rem ≠ 0)

/-- The encoding of m * 2^q, a member with m at most 2^(mbits+1). -/
def Fmt.pack (f : Fmt) (m : Nat) (q : Int) : Nat :=
  let (m, q) := if m = 2 ^ (f.mbits + 1) then (2 ^ f.mbits, q + 1) else (m, q)
  if m < 2 ^ f.mbits then m
  else (q + f.mbits + f.bias).toNat * 2 ^ f.mbits + (m - 2 ^ f.mbits)

/-- R94-R96: a value into a floating-point format, with its exceptions. -/
def Fmt.round (f : Fmt) (mode : Mode) (v : Val) : Nat × Exc :=
  match v with
  | .nan s => if f.kind = 3 then (0, .invalid) else (f.pnan, { i := s })
  | .inf s => if f.kind ≤ 1 then (f.infEnc s, .none) else (f.signBit s + f.maxEnc, .saturated)
  | .fin s n d =>
    if n = 0 then (f.signBit s, .none)
    else
      let sr := match mode with
        | .sr _ => true
        | _ => false
      let beyond := Val.lt f.maxVal (.fin false n d)
      if beyond && f.kind ≠ 0 && !sr then (f.signBit s + f.maxEnc, .saturated)
      else
        let qtop : Int := ((f.maxEnc / 2 ^ f.mbits : Nat) : Int) - f.bias - f.mbits
        let (m, q, inex) := roundMag mode s n d (f.mbits + 1) (f.emin - f.mbits) (if sr then some qtop else none)
        let res := (Val.fin false m 1).scale2 q
        if Val.lt f.maxVal res then
          if f.kind ≠ 0 then (f.signBit s + f.maxEnc, .saturated)
          else match mode with
            | .rz => (f.signBit s + f.maxEnc, .saturated)
            | .rm => (if s then f.infEnc s else f.signBit s + f.maxEnc, .saturated)
            | .rp => (if s then f.signBit s + f.maxEnc else f.infEnc s, .saturated)
            | _ => (f.infEnc s, .saturated)
        else
          let tiny := Val.lt res ((Val.fin false 1 1).scale2 f.emin)
          (f.signBit s + f.pack m q, { x := inex, u := inex && tiny })

/-- An exact value to an integer under a mode: magnitude, sign, inexact (R94). -/
def roundInt (mode : Mode) (s : Bool) (n d : Nat) : Int × Bool :=
  let quo := n / d
  let rem := n % d
  (Val.sInt s (if roundsUp mode s quo rem d then quo + 1 else quo), rem ≠ 0)

/-- The bounds of an integer type of w bits. -/
def intMin (signed : Bool) (w : Nat) : Int := if signed then -(2 ^ (w - 1) : Nat) else 0
def intMax (signed : Bool) (w : Nat) : Int := if signed then (2 ^ (w - 1) : Nat) - 1 else (2 ^ w : Nat) - 1

/-- R107: the clamp to an integer type; sat_i32 is the signed 32-bit one. -/
def satInt (signed : Bool) (w : Nat) (v : Int) : Int := max (intMin signed w) (min (intMax signed w) v)

/-- R96: a value into an integer type, saturating, with its exceptions. Whether R96's last column judges the source or the
rounded value is open; the model judges the rounded one: 127.25 into I8 under RZ is 127, inexact (DESIGN CHOICE, log entry
82). -/
def intRound (signed : Bool) (w : Nat) (mode : Mode) (v : Val) : Nat × Exc :=
  match v with
  | .nan _ => (0, .invalid)
  | .inf s => (wrap w (if s then intMin signed w else intMax signed w), .invalid)
  | .fin s n d =>
    let (r, inex) := roundInt mode s n d
    if r < intMin signed w then (wrap w (intMin signed w), .invalid)
    else if intMax signed w < r then (wrap w (intMax signed w), .invalid)
    else (wrap w r, { x := inex })

/-- The value of an S1 term in units of 2^-6 (R91). -/
def s1Units (b : Nat) : Int :=
  let k := b % 8
  if k = 7 then 0 else if bit b 3 then -(2 ^ (6 - k) : Nat) else (2 ^ (6 - k) : Nat)
/-- The value of an S2 in units of 2^-6. -/
def s2Units (b : Nat) : Int := s1Units (b / 16 % 16) + s1Units (b % 16)

/-- R97 steps 1-4: the canonical S1 and S2 encodings. -/
def s1Canon : List Nat := [7, 0, 1, 2, 3, 4, 5, 6, 8, 9, 10, 11, 12, 13, 14]
def s2Canon (b : Nat) : Bool :=
  let hi := b / 16 % 16
  let lo := b % 16
  let v := s2Units b
  if v = 0 then b = 0x77
  else if s1Canon.any (fun t => s1Units t = v) then lo = 7 && hi % 8 ≠ 7
  else if v = 128 || v = -128 then b = 0x00 || b = 0x88
  else
    let samesign := (List.range 256).any fun c => s2Units c = v && bit c 7 = bit c 3 && c % 8 ≠ 7 && c / 16 % 8 ≠ 7
    hi % 8 ≠ 7 && lo % 8 ≠ 7 && (s1Units lo).natAbs < (s1Units hi).natAbs &&
      (if samesign then bit b 7 = bit b 3 else bit b 7 ≠ bit b 3)

/-- R97: the nearest member of the S1 or S2 value set, a tie to the smaller magnitude. -/
def nearestUnits (cands : List Int) (s : Bool) (n d : Nat) : Int :=
  let v := Val.sInt s (n * 64)
  cands.foldl (fun best c =>
    let dc := (v - c * d).natAbs
    let db := (v - best * d).natAbs
    if dc < db || (dc = db && c.natAbs < best.natAbs) then c else best) 0

/-- R96, R97: a value into S1 (`two` false) or S2. -/
def shiftRound (two : Bool) (v : Val) : Nat × Exc :=
  let codes := if two then (List.range 256).filter s2Canon else s1Canon
  let units := fun c => if two then s2Units c else s1Units c
  let enc := fun u => (codes.find? fun c => units c = u).getD 7
  let top : Nat := if two then 128 else 64
  match v with
  | .nan _ => (enc 0, .invalid)
  | .inf s => (enc (Val.sInt s top), .invalid)
  | .fin s n d =>
    if n * 64 > top * d then (enc (Val.sInt s top), .saturated)
    else
      let r := nearestUnits (codes.map units) s n d
      (enc r, { x := r * d != Val.sInt s (n * 64) })

/-- The float layouts by type code (R119). -/
def fmtOf (ty : Nat) : Fmt :=
  match ty with
  | 9 => .f16 | 10 => .bf16 | 11 => .e5m2 | 12 => .e4m3 | 13 => .e2m1 | _ => .f32

/-- Whether an integer type code is signed (R119). -/
def tySigned (ty : Nat) : Bool := ty % 2 = 0
/-- The width of an integer type code. -/
def tyWidth (ty : Nat) : Nat :=
  match ty with
  | 0 | 1 => 32 | 2 | 3 => 16 | 4 | 5 => 8 | _ => 64

/-- The exact value of an element of any type of R119. -/
def elemVal (ty : Nat) (b : Nat) : Val :=
  if ty < 8 then Val.ofInt (if tySigned ty then sext (tyWidth ty) b else (b % 2 ^ tyWidth ty : Nat))
  else if ty = 14 then .fin (s2Units (b % 256) < 0) (s2Units (b % 256)).natAbs 64
  else if ty = 15 then .fin (s1Units (b % 16) < 0) (s1Units (b % 16)).natAbs 64
  else (fmtOf ty).decode (b % 2 ^ (fmtOf ty).width)

/-- R107 round(v, F, mode): a value into any type of R119. -/
def roundTo (ty : Nat) (mode : Mode) (v : Val) : Nat × Exc :=
  if ty < 8 then intRound (tySigned ty) (tyWidth ty) mode v
  else if ty = 14 then shiftRound true v
  else if ty = 15 then shiftRound false v
  else (fmtOf ty).round mode v

/-- round_rne(v, F32). -/
def rneF32 (v : Val) : W32 := BitVec.ofNat 32 (Fmt.f32.round .rn v).1
def valF32 (b : W32) : Val := Fmt.f32.decode b.toNat
def valE4m3 (b : Nat) : Val := Fmt.e4m3.decode (b % 256)

/-- R92: the value of an A96. -/
def a96Val (b : W96) : Val :=
  let neg := b.getLsbD 95
  let e := bits b.toNat 94 80
  let m := b.toNat % 2 ^ 80
  if e = 0x7FFF then (if m % 2 ^ 79 = 0 then .inf neg else .nan false)
  else if e = 0 then (Val.fin neg m 1).scale2 (-16382 - 79)
  else (Val.fin neg m 1).scale2 ((e : Int) - 16383 - 79)

/-- The NaN and the infinities that the device writes into an accumulator (R92). -/
def a96Nan : W96 := 0x7FFFC0000000000000000000#96
def a96Inf (neg : Bool) : W96 := BitVec.ofBool neg ++ 0x7FFF80000000000000000000#95

/-- R102 round_a96: R94 under RN into A96. -/
def roundA96 (v : Val) : W96 :=
  match v with
  | .nan _ => a96Nan
  | .inf s => a96Inf s
  | .fin s n d =>
    if n = 0 then BitVec.ofBool s ++ 0#95
    else
      let (m, q, _) := roundMag .rn s n d 80 (-16382 - 79) none
      let (m, q) := if m = 2 ^ 80 then (2 ^ 79, q + 1) else (m, q)
      if m < 2 ^ 79 then BitVec.ofBool s ++ BitVec.ofNat 95 m
      else
        let e := (q + 79 + 16383).toNat
        if 0x7FFF ≤ e then a96Inf s
        else BitVec.ofBool s ++ BitVec.ofNat 15 e ++ BitVec.ofNat 80 m

/-- R98: one step of the generator. -/
def lfsrStep (g : W32) : W32 := if g.getLsbD 0 then (g >>> 1) ^^^ 0x80200003#32 else g >>> 1
/-- R98: the word of element e of thread t. -/
def srWord (g : W32) (t e : Nat) : W32 := g.rotateLeft ((7 * t + 11 * e) % 32)
/-- R98: the state at dispatch. -/
def srSeedAt (slot : Nat) : W32 :=
  let g := 0x6A09E667#32 ^^^ (BitVec.ofNat 32 (slot + 1) * 0x9E3779B9#32)
  if g = 0 then 1 else g

end Sys2Proof
end

