-- ==== Sys2Proof/Config.lean ====
section
/-! DEFINITION. What an implementation fixes and the manual does not (free constants, no body), and the
manual's own figures that many rules use. Nothing in Lean can evaluate an opaque constant. -/

namespace Sys2Proof.Config

/-- PLATID.REV, the die revision (R328). -/
opaque revision : BitVec 8
/-- PLATID.GIB, the GDDR7 fitted in GiB, at most 48 (R3, R328). -/
opaque gddrGiB : Fin 49
/-- PLATID.FORM, a fuse: 0 the 8840, 1 the 8840M (R1, R328). -/
opaque form : Fin 2
/-- The link as it trained, as log2 of the lane count, and PLATID.LINKW: x16 at most on the 8840 and x8 on the 8840M (R1, R325,
R328). -/
opaque trainedLanes : Fin 5
def linkWidth : Nat := min trainedLanes.val (if form = 0 then 4 else 3)
/-- The package power in milliwatts the platform configured, G where there is no sideband (R339): 120 to 300 W on the 8840, 150
to 200 W on the 8840M (R1). -/
opaque packagePower : Nat
def configuredPower : BitVec 20 :=
  BitVec.ofNat 20 (if form = 0 then max 120000 (min 300000 packagePower) else max 150000 (min 200000 packagePower))
/-- One display line in arithmetic cycles, as software programs it: the manual gives no timing registers (R341). -/
opaque lineCycles : Nat
/-- The 64-byte measurement DM of the boot ROM's firmware chain (R335, R336). -/
opaque bootMeasure : BitVec 512
/-- Whether verify entry 0 accepts the service firmware at bring-up (R336). -/
opaque firmwareVerifies : Bool
/-- Whether every UCIe link and GDDR7 channel trains at bring-up (R336). -/
opaque channelsTrain : Bool
/-- The fused verify keys, entries 0 to 15 (R334). -/
opaque fusedKey : Nat → BitVec 512
/-- The fused life-cycle state at the factory: 0 DEVELOP, 1 PRODUCTION, 2 RETURNED (R344). -/
opaque fusedLifeCycle : BitVec 2
/-- The device identifier of an attestation report (R335). -/
opaque deviceId : BitVec 128
/-- The device attestation signature over 160 report bytes: the private key is not in the manual (R335). -/
opaque deviceSign : List (BitVec 8) → BitVec 238336
/-- The device's random-number generator, as a stream (R334 GENKEY). -/
opaque randomKey : Nat → BitVec 256
/-- The power key PK of the always-on domain (R337). -/
opaque powerKey : BitVec 256
/-- The signed command blobs of R334 and R344: how long one is, and what it names. The manual gives no layout. -/
opaque blobBytes : Nat
opaque blobSigner : List (BitVec 8) → Nat
opaque blobEntry : List (BitVec 8) → Nat
opaque blobKey : List (BitVec 8) → BitVec 512
opaque blobBody : List (BitVec 8) → List (BitVec 8)
opaque blobSignature : List (BitVec 8) → List (BitVec 8)
opaque blobState : List (BitVec 8) → Nat
/-- Where the header of a power image holds its counter: the manual gives no layout (R338). -/
opaque powerCounterAt : Fin 57
/-- Bytes of a power image that hold the system-core state which the firmware lists (R338): the manual does not give them. -/
opaque imageOverhead : Nat
/-- The stacked-cache slice of a 128-byte line (R46 does not say). -/
opaque sliceOf : Nat → Fin 8
/-- The set of a 128-byte line in its slice: 3 MiB a way are 24,576 sets (R46 does not give the placement). -/
opaque setOf : Nat → Fin 24576
/-- Which of the ways that may be replaced a miss replaces, from the line and the cycle (R46 does not say). -/
opaque victimWay : Nat → Nat → Nat
/-- The L2 slice of a 128-byte line: R45's hash is not given. -/
opaque l2SliceOf : Nat → Fin 16
/-- An unspecified 64-bit value, one per draw of State.fresh. -/
opaque freeValue : Nat → BitVec 64

/-- Cores, lanes per core, block slots per core, groups per block (R3, R9, R24). -/
def cores : Nat := 64
def lanesPerCore : Nat := 128
def blockSlots : Nat := 8
/-- Cycles in a microsecond and a millisecond at 1.2 GHz (R3, R268). -/
def cyclesPerUs : Nat := 1200
def cyclesPerMs : Nat := 1200000

end Sys2Proof.Config
end

