-- ==== Sys2Proof/Machine/State.lean ====
section
/-! DEFINITION. The state of the machine: every piece of state the manual names, as plain data, and State.reset. -/

namespace Sys2Proof.Machine

open Sys2Proof

/-- Why the model stops. -/
inductive Fault where
  /-- Raised by exec when a scalar, lane or matrix instruction is executed with no stream of its kind current: no
  word can be executed outside a stream (R13). Step never does this. Safe: the model stops. -/
  | noStream
deriving DecidableEq, Repr

/-- Why the model has no meaning to give. -/
inductive Refusal where
  /-- Raised by exec's arms for an instruction that has no meaning yet. Safe: the model stops. -/
  | notModelled (mnemonic : String)
deriving DecidableEq, Repr

/-- The stream whose word is being executed (the model's own field). -/
inductive Cur where
  | none
  | scalar (g : GroupRef)
  | lane (g : GroupRef)
  | matrix (b : BlockRef)
deriving DecidableEq, Repr

/-- An agent of a core (R60): a thread's lane accesses, a group's scalar stream, a block's sequencer, the copy engine. -/
inductive Agent where
  | thread (g : GroupRef) (t : Nat)
  | scalar (g : GroupRef)
  | seq (b : BlockRef)
  | engine
deriving DecidableEq, Repr

/-- A cell of an on-chip store (R345), by its place in the store: a V or an H register (R36), private memory, the scratchpad,
an accumulator, B-store, scale memory, an island's memory cells. -/
inductive Spot where
  | vreg (g : GroupRef) (i : Nat)
  | hreg (g : GroupRef) (i : Nat)
  | priv (g : GroupRef) (i : Nat)
  | pad (b : BlockRef) (i : Nat)
  | acc (b : BlockRef) (i : Nat)
  | bstore (b : BlockRef) (i : Nat)
  | scale (b : BlockRef) (i : Nat)
  | cell (island : Nat) (i : Nat)
deriving DecidableEq, Repr

/-- What moves next (the model's own agenda): the scalar unit of a scheduler, which chooses a group by R274; a lane, which
chooses one by R273; a sequencer; a device or outside event; one arithmetic cycle; a write that a system core performs
at L2; a write that the host issues over the die-to-die link, and its completion (R327); an engine context created by
system software; an error that a unit detects; bytes of memory or a cell of a store that become poisoned; or a thermal
event of a unit. -/
inductive Turn where
  | scalar (core : BitVec 6) (sched : BitVec 2)
  | lane (core : BitVec 6) (lane : BitVec 7)
  | matrix (b : BlockRef)
  | event (i : Instr)
  | tick
  | extWrite (pa : Nat) (bytes : List Byte)
  | hostWrite (pa : Nat) (bytes : List Byte)
  | hostDone (i : Nat)
  | engineCreate (e : EngineRef) (ctx : BitVec 8) (base : VAddr) (scope : BitVec 3)
  | detectError (u : UnitRef) (corrected : Bool) (addr : Nat)
  | poison (pa : Nat) (n : Nat)
  | spoil (p : Spot)
  | thermal (u : UnitRef)
deriving DecidableEq, Repr

/-- A reconvergence-stack entry (R151). -/
structure Entry where
  kind : BitVec 4
  lpc : VAddr
  aux : W32
  mask : Mask
deriving DecidableEq, Repr

/-- A lane-queue run (R152) with the values captured for its words and the S registers it marks (R14, R15). -/
structure Run where
  first : VAddr
  words : Nat
  started : Bool
  depth : Nat
  caps : List W64
  marks : List (Nat × BitVec 5)
  /-- The words whose page did not translate at LRUN, and the S and K registers as they stood there (R14). -/
  later : List Nat
  snapS : Sparse 64
  snapK : Sparse 64
deriving DecidableEq, Repr

/-- A run that has left the lane queue with S registers marked that none of its words has written (R15): its range, the
registers, and the cycle at which its last word's occupancy ends. -/
structure LeftRun where
  first : VAddr
  words : Nat
  regs : List (BitVec 5)
  ends : Nat
deriving DecidableEq, Repr

/-- A cause with what the trap frame records of it (R306-R309). -/
structure Cause where
  code : BitVec 8
  sub : BitVec 8
  /-- 0 the word, 1 the sequencer, 2 CAUSEW, 3 deferred. -/
  src : BitVec 2
  /-- The 12-bit TRAP or service code. -/
  aux : BitVec 12
  fpc : VAddr
  rspc : VAddr
  rlpc : VAddr
  tmask : Mask
  faddr : W64
  mpc : VAddr
deriving DecidableEq, Repr

/-- One thread's part of an outstanding load: its virtual and physical address and, once the access is
performed, the value it took. -/
structure LoadPart where
  t : Nat
  va : W64
  pa : Nat
  val : Option (BitVec 128)
deriving DecidableEq, Repr

/-- An outstanding load (R126, R310): its word, where its result goes, and how many more words of its stream may
issue before it resolves. -/
structure Load where
  stream : Stream
  word : W96
  pc : VAddr
  size : Nat
  signed : Bool
  dst : Nat
  discard : Bool
  /-- A .U load: the one result goes to these threads (R210). -/
  spread : Mask
  /-- The predicate a REFILL sets as its items arrive; 0 for none. -/
  pred : Nat
  core : BitVec 6
  parts : List LoadPart
  window : Nat
  /-- The cause of a watch point that its access met, raised once it is complete (R306, R322). -/
  watch : Option Cause
deriving DecidableEq, Repr

/-- A TRACE whose ray records are not all accepted (R126, R127): its word, its rays, and how many more lane words may
issue before it resolves. -/
structure TraceWord where
  word : W96
  rays : List Nat
  window : Nat
deriving DecidableEq, Repr

/-- A replay entry (R310). -/
structure Replay where
  word : W96
  stream : Stream
  cancel : Bool
  unfinished : Bool
  pc : VAddr
  rmask : Mask
  addrs : List W64
deriving DecidableEq, Repr

/-- A walker binding (R154-R156): base, counts, strides, indices; no dimension means unbound. -/
structure Walker where
  base : W64
  counts : List Nat
  strides : List Int
  idx : List Nat
deriving DecidableEq, Repr

/-- A line monitor (R86). -/
inductive MonState where
  | unarmed | armed | triggered | lost
deriving DecidableEq, Repr
/-- A monitor's state, its line, and its place in the order in which monitors were armed. -/
structure Monitor where
  st : MonState
  line : Nat
  age : Nat
deriving DecidableEq, Repr

/-- How a stream is held at a word on translation faults (R58, R59, R314). -/
structure Park where
  /-- Pending-table IDs still to be resolved. -/
  ids : List Nat
  /-- A FATAL verdict was given: the word raises cause 0x07. -/
  fatal : Bool
  /-- Faults that found no free ID, each with its address, access, kind and threads: they post when one frees. -/
  unposted : List (W64 × Nat × Nat × Mask)
  /-- For each ID, the address and the threads that faulted, and those of the FATAL verdict. -/
  seen : List (Nat × W64 × Mask)
  va : W64
  who : Mask
deriving DecidableEq, Repr

/-- The debugger's hold on a group (R323). -/
inductive DebugHold where
  | run | stopped | stepLane | stepScalar
deriving DecidableEq, Repr

/-- A blocked SYSCALL (R171): its slot of system ring 1, and the results once the service has completed it; none of them where
the slot's data was poisoned (R345). -/
structure Call where
  slot : Nat
  result : Option (Option (W64 × W64))
deriving DecidableEq, Repr

/-- An LNWAIT in progress (R87, R167): its issue cycle, its limit (0: none), and whether the limit has passed. -/
structure LnWait where
  start : Nat
  limit : Nat
  timeout : Bool
deriving DecidableEq, Repr

/-- The word a scalar stream is blocked in, beyond those that start again (R175): a SYSCALL, a BAR.PARRIVE whose
arrival is made, an LNWAIT. -/
structure Waits where
  call : Option Call
  pel : Option (BitVec 8)
  ln : Option LnWait
deriving DecidableEq, Repr

/-- A word of a loop buffer with the increments of its fields and of IMM (R324). -/
structure LoopWord where
  word : W96
  inc : W32
  imm : W32
deriving DecidableEq, Repr

/-- A REPLAY in progress (R324). -/
structure Loop where
  /-- The memory lines that its words have touched (R324). -/
  lines : List Nat
  first : VAddr
  words : List LoopWord
  count : Nat
  iter : Nat
  err : Bool
  ended : Bool
deriving DecidableEq, Repr

/-- A group (R9, R25, R33). -/
structure Group where
  ref : GroupRef
  ctx : BitVec 8
  spc : VAddr
  lpc : VAddr
  s : Sparse 64
  /-- V n of thread t at 32n + t; H likewise. -/
  v : Sparse 32
  h : Sparse 32
  /-- P n as a mask of threads; P0 is not stored. -/
  p : Sparse 32
  walkers : List Walker
  e : BitVec 6
  wlast : BitVec 3
  trapm : Bool
  variant : Nat
  vcnt : Nat
  lane : BitVec 7
  pos : Nat
  wide : Bool
  cause : BitVec 8
  fsr : W32
  sr : W32
  /-- Private memory of thread t, byte a, at 128*(a/4) + 4t + a%4 (R40). -/
  priv : Sparse 8
  /-- Cells of `v`, `h` and `priv` whose data an uncorrectable error has poisoned (R345). -/
  badV : List Nat
  badH : List Nat
  badPriv : List Nat
  runs : List Run
  trapRuns : List Run
  /-- Runs whose last word has issued and which have not completed, with marks (R15). -/
  left : List LeftRun
  /-- Newest first; a base entry of KIND 1 at the end (R200). -/
  stack : List Entry
  ras : List VAddr
  /-- How many of the return addresses, newest first, stand in hardware; the others are spilled (R150). -/
  rasHw : Nat
  loads : List Load
  traces : List TraceWord
  replay : List Replay
  /-- While TRAPM is 1, the replay entries of the interrupted streams (R310, R311). -/
  kept : List Replay
  mons : List Monitor
  lastBatch : Nat
  nextCopy : Nat
  parkS : Option Park
  parkL : Option Park
  /-- What the scalar stream waits in, and what it waited in when the trap in progress was taken (R308). -/
  waits : Waits
  frozen : Option Waits
  /-- The threads that a waiting QREAD or ISUB.ISL has already served (R222, R224). -/
  served : Mask
  held : Option Cause
  heldSeq : Option Cause
  pend : Option Cause
  hold : DebugHold
  /-- Where SKIPBP spares the scalar and the lane stream their next breakpoint (R311). -/
  skipbp : Option VAddr
  skipbpL : Option VAddr
  /-- A STOP that waits for the trap in progress to be taken or left (R323). -/
  stopReq : Bool
  exited : Bool
  stamp : Nat
  /-- A word of the scalar or the lane stream that has begun and waits (R175, R308). -/
  blockedS : Bool
  blockedL : Bool
  /-- A FENCE.L that has taken its four cycles holds the lane stream (R125, R220). -/
  fenced : Bool
  /-- The word that each stream has fetched last; 0 where its fetch has not succeeded (R310). -/
  wordS : W96
  wordL : W96
  /-- While replay entries are re-injected (R311): where SPC and LPC resume, and the threads of the entry. -/
  inject : Option (VAddr × VAddr × Mask)
  /-- Streams that wait again in a re-injected word: the address after it, and where the stream goes on instead (R311). -/
  redirect : List (Stream × VAddr × VAddr)
  loop : Option Loop
  /-- The cycle at which the occupancy of its last lane word ends (R10). -/
  laneUntil : Nat
deriving DecidableEq, Repr

/-- A variant of a kernel object (R139). -/
structure Variant where
  vcnt : Nat
  groups : Nat
  scratch : Nat
  priv : Nat
  accrows : Nat
  bslots : Nat
  scalekb : Nat
  msec : Bool
  sentry : VAddr
  lbase : VAddr
  lentry : Nat
  mentry : VAddr
  breload : List Nat
deriving DecidableEq, Repr

/-- A switch-point record (R140). -/
structure SwitchPoint where
  nlive : Nat
  spc : List VAddr
  lpc : List VAddr
  map : List (List Nat)
deriving DecidableEq, Repr

/-- A loaded kernel object (R138). -/
structure Kernel where
  addr : VAddr
  compat : Bool
  draft : Bool
  variants : List Variant
  qdepth : List Nat
  qbind : List (BitVec 8)
  swpts : List SwitchPoint
deriving DecidableEq, Repr

/-- A write of a K register not yet seen by every reader (R17). -/
structure KWrite where
  reg : Nat
  val : W64
  cycle : Nat
  slot : Nat
deriving DecidableEq, Repr

/-- A block barrier (R74): parties that have arrived and not left, and whether the arrival was arrive-only; slot 32 is
the sequencer. -/
structure Barrier where
  reload : Nat
  draining : Bool
  arrivals : Nat
  leaves : Nat
  parties : List (Nat × Bool)
deriving DecidableEq, Repr

/-- An island queue of a block (R295): an entry of words, or an END entry. -/
structure IslandQueue where
  port : Nat
  entries : List (Option (List W32))
deriving DecidableEq, Repr

/-- A matrix pass in progress (R243, R275). -/
structure Pass where
  word : W96
  /-- The scratchpad base of the retained rows. -/
  base : Nat
  gear : Nat
  floorGear : Nat
  ceil : Nat
  budget : BitVec 24
  stamp : Nat
  granted : Bool
  tokens : Nat
  attempts : Nat
  start : Nat
deriving DecidableEq, Repr

/-- A transfer of MLOADB or MSCALE that has not resolved (R126, R235): where its bytes come from, physical addresses or
scratchpad offsets, and where they go. -/
structure MLoad where
  /-- The address of its word. -/
  pc : VAddr
  scratch : Bool
  /-- The bytes go to scale memory, not to a slot. -/
  scale : Bool
  fmt : Nat
  dst : Nat
  spans : List (Nat × Nat)
  /-- The bytes, once the transfer has read them. -/
  data : Option (List Byte)
  window : Nat
deriving DecidableEq, Repr

/-- The block sequencer (R234-R254). -/
structure Seq where
  mpc : VAddr
  /-- Where the sequencer goes on after the word at MPC, and after each that follows: at a restore, the words of abandoned
  transfers execute again first (R247). -/
  redo : List VAddr
  idle : Bool
  halted : Bool
  /-- The group slot that carries the halting cause, and the cause (R237). -/
  carrier : Option (Nat × Cause)
  stopped : Bool
  mbudget : BitVec 24
  mgear : BitVec 4
  last : W64
  count : W64
  draft : W64
  handle : Option W32
  qsTaken : Nat
  pass : Option Pass
  mloads : List MLoad
  park : Option Park
  /-- The word that the sequencer has fetched last. -/
  word : W96
  /-- SKIPBP of a matrix word's breakpoint (R322). -/
  skipbp : Bool
  /-- The cycle from which the next matrix word may issue (R238). -/
  ready : Nat
deriving DecidableEq, Repr

/-- An arrival of a block at a peloton barrier. -/
structure PelArrival where
  peloton : Nat
  slot : Nat
  use : Nat
  owed : Bool
deriving DecidableEq, Repr

/-- A resident block (R9, R25). -/
structure Block where
  ref : BlockRef
  ctx : BitVec 8
  kernel : Kernel
  variant : Nat
  record : Slot64
  extent : W64
  grid : Nat
  /-- PEL and PVALID of its record have meaning: a SPAWN or a launch produced it (R19). -/
  member : Bool
  k : Sparse 64
  kpend : List KWrite
  bars : List Barrier
  queues : List (List W32)
  islq : List IslandQueue
  scratch : Sparse 8
  /-- The units of the shared region that back its scratchpad (R41). -/
  units : List Nat
  lock : Option (Nat × Nat)
  acc : Sparse 96
  bstore : Sparse 8
  scale : Sparse 8
  /-- Cells of `scratch`, `acc`, `bstore` and `scale` that an uncorrectable error has poisoned (R345). -/
  badPad : List Nat
  badAcc : List Nat
  badB : List Nat
  badScale : List Nat
  seq : Seq
  mark : Option Nat
  /-- Entries of a queue claimed by waiting QREADs, oldest first: queue (port + 8 for an island queue), slot, count. -/
  claims : List (Nat × Nat × Nat)
  /-- The last push and the last pop of each named queue: queue, whether a push, cycle, slot (R77). -/
  lastQueue : List (Nat × Bool × Nat × Nat)
  /-- The block's arrivals at pelotons (R74, R75): peloton, group slot, use, and whether a leave is owed. -/
  pels : List PelArrival
  /-- Whether the block left a launch with DONE, and where (R32). -/
  done : Option (W64 × Nat)
  /-- A test block (R348): no context, physical addresses, its lane base. -/
  test : Bool
  /-- An ERR or a cause seen by a test block's groups. -/
  testErr : Bool
  testCause : Bool
deriving DecidableEq, Repr

/-- A write accepted by a core and not yet performed at L2 (R71), with its issuer and the cycle of its word; `uo` while it is
a write of a UO page with no later ordering point of the issuer (R65). -/
structure PendWrite where
  pa : Nat
  bytes : List Byte
  uo : Bool
  who : Agent
  cycle : Nat
deriving DecidableEq, Repr

/-- A copy of a 128-byte line in a cache (R41, R48, R212): its line number, the unit of the shared region that holds it
(L1 only), and its bytes by physical address; an unlisted one is 0. -/
structure LineCopy where
  line : Nat
  unit : Nat
  data : Sparse 8
deriving DecidableEq, Repr

/-- A cached translation (R57): tagged by context and page size. -/
structure TlbEntry where
  ctx : BitVec 8
  base : Nat
  size : Nat
  pte : W64
deriving DecidableEq, Repr

/-- What a scheduler's scalar unit has issued in a cycle (R274): how many words, the last word's group and, for a scalar
ALU word, its destination. -/
structure Issued where
  cycle : Nat
  words : Nat
  last : Option GroupRef
  alu : Option (BitVec 5)
deriving DecidableEq, Repr

/-- A row of the draft unit (R257): its thread, its NEVAL word, its handle and its feature registers. -/
structure DraftRow where
  g : GroupRef
  ctx : BitVec 8
  t : Nat
  word : W96
  handle : W32
  feats : List W32
  /-- The cycle at which it reaches the draft unit, and its network's descriptor, once its table read is made. -/
  at' : Nat
  desc : W64
  /-- The pending-table ID that the row's table read waits on. -/
  wait : Option Nat
  /-- A FATAL verdict on that wait. -/
  fatal : Bool
  /-- Its block has been saved: its results are discarded (R261). -/
  dropped : Bool
deriving DecidableEq, Repr

/-- A layer of a network as a tile has read it (R256, R258). -/
structure NetLayer where
  outw : Nat
  bfmt : Nat
  act : Nat
  tscale : W32
  weights : List Byte
  scales : List Byte
  bias : List W32
deriving DecidableEq, Repr

/-- A network as a tile has read it. -/
structure Net where
  gears : BitVec 4
  budget : BitVec 24
  nin : Nat
  layers : List NetLayer
deriving DecidableEq, Repr

/-- A tile under evaluation (R258): its network, the rows' values, the layer and its attempt. -/
structure TileRun where
  net : Net
  x : List (List W32)
  layer : Nat
  gear : Nat
  attempts : Nat
  stamp : Nat
  granted : Bool
  start : Nat
deriving DecidableEq, Repr

/-- A tile of the draft unit: open until `formed`. -/
structure DraftTile where
  ctx : BitVec 8
  handle : W32
  desc : W64
  opened : Nat
  formed : Option Nat
  rows : List DraftRow
  run : Option TileRun
  /-- The pending-table IDs that the tile waits on (R260). -/
  wait : List Nat
  /-- A FATAL verdict on one of them. -/
  fatal : Bool
deriving DecidableEq, Repr

/-- A NEVAL word still to resolve (R259): the threads without results and the failures met so far. -/
structure NevalWord where
  g : GroupRef
  word : W96
  pc : VAddr
  waiting : Mask
  failed : Mask
  sub : Nat
  handles : List W32
  /-- How many more lane words of the group may issue before it resolves (R126). -/
  window : Nat
  /-- Results that an earlier word of their thread holds back (R259). -/
  held : List (Nat × List W32)
deriving DecidableEq, Repr

/-- A core (R3, R23, R35). -/
structure Core where
  inService : Bool
  detected : Bool
  loopMode : Bool
  pend : List PendWrite
  /-- The lines of the L1 data cache, of the constant cache, of the instruction line buffer of each scheduler and of the
  L1 instruction cache, newest first (R41, R48, R212). -/
  l1 : List LineCopy
  cc : List LineCopy
  ibuf : List (List LineCopy)
  icache : List LineCopy
  /-- The core's TLB, newest first (R57). -/
  tlb : List TlbEntry
  /-- What each scheduler's scalar unit last issued (R274). -/
  scheds : List Issued
  /-- The next position each lane tries (R273). -/
  lanePtr : Sparse 2
  /-- Groups waiting in RGROW.B with the units they ask for, oldest first (R38). -/
  growers : List (GroupRef × Nat)
  /-- The block slot that holds the array, or 8 for the draft unit (R275). -/
  array : Option Nat
  /-- A candidate that keeps its place though an older one has come back: its holder as `array` names it, and its stamp (R275). -/
  chosen : Option (Nat × Nat)
  /-- Tokens its pass holds (R277). -/
  tokens : Nat
  /-- Rows whose table read has not been made. -/
  rowsWait : List DraftRow
  /-- Rows that have reached the draft unit in the cycle under way (R257). -/
  rowsIn : List DraftRow
  tiles : List DraftTile
  nevals : List NevalWord
deriving DecidableEq, Repr

/-- A context's descriptor as bound (R305). -/
structure Desc where
  ptroot : Nat
  flags : BitVec 8
  keyslot : Nat
  d1 : Nat
  d2 : Nat
  tqtab : W64
  porttab : W64
  nettab : W64
  netcount : Nat
  mrcount : Nat
  mrtab : W64
  tfbase : W64
  hspc : W64
  hlbase : W64
  fqbase : W64
  fqlog2 : Nat
  savebase : W64
  savelen : Nat
  bps : List W64
  wps : List (W64 × W64)
deriving DecidableEq, Repr

inductive CtxState where
  | undefined | defined | resident | draining
deriving DecidableEq, Repr

/-- A pending-table entry (R314), with what R59 merges on. -/
structure Pending where
  id : Nat
  kind : BitVec 8
  access : Nat
  va : W64
  /-- For kind 5, the engine context and the command number. -/
  chain : Option (EngineRef × Nat)
deriving DecidableEq, Repr

/-- A fault-queue entry waiting to be written (R312, R313). -/
structure FqEntry where
  kind : BitVec 8
  access : Nat
  id : Nat
  agent : Nat
  unit : Nat
  slots : Nat
  va : W64
  info : W64
deriving DecidableEq, Repr

/-- A record exposed in a task-queue ring (R263-R265). -/
structure Slot where
  q : Nat
  prio : Nat
  /-- The slot number, modulo 2^32. -/
  slot : Nat
  /-- The cycle at which the record was found ready. -/
  ready : Option Nat
  popped : Bool
  /-- The grid of the SPAWN that produced it (R19). -/
  grid : Option Nat
  spawned : Bool
  /-- The record bytes, once read. -/
  read : Option Slot64
  ext : Option Slot64
  wait : Option Nat
  /-- The physical address of its join counter, once registered (R265). -/
  joinPa : Option Nat
  lastJoin : Nat
  /-- Pages declared fatal to a launch's table reads (R22). -/
  dead : List W64
  /-- Whether it is the last record that its doorbell exposed: the next slot cannot be its launch extension (R20, R264). -/
  last : Bool
deriving DecidableEq, Repr

/-- A write to a done counter still to be made (R22, R32, R349): a rejection's code, or a decrement; the launch head; and
the pending-table ID it waits on. Or the leave of a barrier word that a retired block still owed (R74, R75). -/
structure DoneWrite where
  va : W64
  code : Option Nat
  head : W64
  wait : Option Nat
  /-- The core of the block that retired, whose writes the decrement's release covers (R32, R71). -/
  core : Option Nat
  leave : Bool
deriving DecidableEq, Repr

/-- An accepted launch whose blocks are still to be dispatched (R20, R263): its grid, its two slots, the address of its
head, its ready stamp, and the map entries that are not empty, by linear index. -/
structure Expansion where
  grid : Nat
  head : Slot64
  ext : Slot64
  va : W64
  stamp : Nat
  q : Nat
  slot : Nat
  map : List (Nat × Nat)
  /-- The lowest linear index not yet dispatched of the blocks in no gang. -/
  next : Nat
  /-- The gang pelotons whose expanded members are still to be dispatched. -/
  gangs : List Nat
deriving DecidableEq, Repr

/-- A doorbell whose queue descriptor could not be read or written yet (R264, R349): the queue, the priority, the new TAIL,
whether the host rang it, and the pending-table ID it waits on. -/
structure Bell where
  q : Nat
  prio : Nat
  tail : Nat
  host : Bool
  wait : Option Nat
deriving DecidableEq, Repr

/-- A bound island port (R292). -/
structure Port where
  port : Nat
  island : Nat
  role : Nat
  image : Nat
deriving DecidableEq, Repr

/-- A saved block waiting to be restored (R320): its directory index, its image with the body opened, and the MAKERES cycle. -/
structure Restore where
  dir : Nat
  image : List Byte
  stamp : Nat
deriving DecidableEq, Repr

/-- An island image as loaded (R282, R283, R289). -/
structure Image where
  bytes : List Byte
  meas : List Byte
deriving DecidableEq, Repr

/-- A record in an island (R286, R294). -/
structure IslandRecord where
  tag : W32
  port : Nat
  words : List W32
  pass : Nat
  rwords : List W32
  /-- The output, once the last pass is done. -/
  out : Option (List W32)
  /-- A close marker (R223). -/
  close : Bool
  /-- The ray of a TRACE. -/
  ray : Option Nat
  wait : Option Nat
  /-- The results of the cells that a pass had fired when an access of it met a fault; and that fault, while no ID is free
  for it (R288, R314). -/
  res : List W32
  due : Option (W64 × Nat × Nat)
  fatal : Bool
  order : Nat
  /-- The block queue it belongs to is that of this block. -/
  b : BlockRef
deriving DecidableEq, Repr

/-- An island (R281, R303). -/
structure Island where
  state : Nat
  detected : Bool
  image : Option Image
  ctxs : List (BitVec 8)
  creg0 : Sparse 32
  creg1 : Sparse 32
  /-- Byte a of memory cell m at 4096m + a. -/
  cells : Sparse 8
  /-- Its memory cells that an uncorrectable error has poisoned (R345). -/
  badCells : List Nat
  input : List IslandRecord
  flight : List IslandRecord
  out : List IslandRecord
  overruns : Nat
  discards : Nat
  order : Nat
  /-- A stateful image bound afresh: it is loaded again before its context runs (R293). -/
  stale : Bool
deriving DecidableEq, Repr

/-- How far the elements of a COPY or FILL have come (R79, R217): elements read and not yet written out everywhere, with
their values; the writes made, each a target and an element; whether a place its owner does not reach was met. -/
structure Moved where
  got : List (Nat × Nat)
  wrote : List (Nat × Nat)
  lost : Bool
deriving DecidableEq, Repr

/-- A command in flight (R219): its entry's address, its entry once read, whether it has been performed, with which
status, what its accesses, or the stopped chain, wait on, and how far it has moved. -/
structure Cmd where
  n : Nat
  va : W64
  entry : Option Slot64
  status : Nat
  performed : Bool
  completed : Bool
  park : Option Park
  moved : Moved
deriving DecidableEq, Repr

/-- An engine context with its command chain and timeline (R80, R161, R219): the next entry's address and number. -/
structure EngineCtx where
  ref : EngineRef
  ctx : BitVec 8
  gen : W32
  scope : BitVec 3
  next : W64
  nextN : Nat
  tail : W64
  timeline : W64
  stopped : Bool
  cmds : List Cmd
deriving DecidableEq, Repr

/-- A copy of a group (R81, R215). -/
structure GCopy where
  g : GroupRef
  ctx : BitVec 8
  n : Nat
  batch : Option Nat
  entry : Slot64
  va : W64
  status : Nat
  performed : Bool
  done : Bool
  reported : Bool
  park : Option Park
  moved : Moved
deriving DecidableEq, Repr

/-- A batch of a group's copies (R81, R163). -/
structure Batch where
  g : GroupRef
  n : Nat
  scope : BitVec 3
deriving DecidableEq, Repr

/-- What the device keeps of a saved block beside its image (R318 does not carry it; assumption 12). -/
structure SavedBlock where
  dir : Nat
  block : Block
  groups : List Group
  copies : List GCopy
  batches : List Batch
deriving DecidableEq, Repr

/-- A context (R304, R305). -/
structure Ctx where
  id : BitVec 8
  st : CtxState
  desc : Desc
  kernels : List Kernel
  ports : List Port
  att : List Byte
  attN : Nat
  counter : Nat
  images : Nat
  pending : List Pending
  posts : List FqEntry
  seq : Nat
  slots : List Slot
  expansions : List Expansion
  dones : List DoneWrite
  bells : List Bell
  preStart : Option Nat
  saved : List SavedBlock
  restores : List Restore
  /-- The cycle at which the context became resident, and its earlier residencies (R266). -/
  residentAt : Nat
  past : List (Nat × Nat)
  /-- A forced save is under way: the context's streams issue nothing (R317). -/
  saving : Bool
deriving DecidableEq, Repr

/-- A peloton of a grid (R21). -/
structure Peloton where
  index : Nat
  barw : W64
  count : Nat
  barrier : Bool
  gang : Bool
  /-- Uses of its barrier that have completed. -/
  uses : Nat
deriving DecidableEq, Repr

/-- A grid (R19-R21). -/
structure Grid where
  id : Nat
  ctx : BitVec 8
  pels : List Peloton
deriving DecidableEq, Repr

/-- A ray whose status is still to be written (R227, R228). -/
structure Ray where
  id : Nat
  g : GroupRef
  ctx : BitVec 8
  t : Nat
  d : Nat
  table : W64
  ctl : W32
  pc : VAddr
  /-- The traversal output, once delivered. -/
  out : Option (List W32)
  wait : Option Nat
  fatal : Bool
  island : Nat
deriving DecidableEq, Repr

/-- A stacked-cache line (R46, R47). -/
structure CacheLine where
  line : Nat
  way : Nat
  part : Nat
  pinned : Bool
deriving DecidableEq, Repr

/-- A verify-table entry (R334). -/
structure VerifyKey where
  valid : Bool
  revoked : Bool
  key : BitVec 512
deriving DecidableEq, Repr

/-- A system ring (R332). -/
structure Ring where
  base : W64
  log2 : W64
  head : W64
  tail : W64
deriving DecidableEq, Repr

/-- A display head (R341): HEADCTL as it reads; the surface scanned out and where it lies; a flip not yet in effect; a
release whose last frame is being shown; the pin MUXSEL_OUT. -/
structure Head where
  ctl : W32
  surface : W64
  hostSurface : Bool
  pendingFlip : Option W64
  releasing : Bool
  muxsel : Bool
  lockedFrames : Nat
  /-- The cycle of its last FSYNC_IN pulse; that of a frame start with no pulse within the line before it; and the pulses
  that it has driven on FSYNC_OUT. -/
  fsyncAt : Option Nat
  awaits : Option Nat
  fsyncOut : Nat
deriving DecidableEq, Repr

/-- Power states (R337). -/
inductive Power where
  | d0 | d3hot | d3cold
deriving DecidableEq, Repr

/-- What the device keeps of its last power image beside the sealed bytes in host memory (R338; assumption 26): the bytes
of the body before its ranges, and what the body carries. -/
structure PowerImage where
  front : Nat
  ctxs : List Ctx
  images : List Image
  ranges : List (Nat × Nat)
deriving DecidableEq, Repr

/-- The registers of R328 that hold values of their own. -/
structure Regs where
  tlbVa : W64
  tlbBusy : Bool
  tlbErr : Bool
  tlbCtx : BitVec 8
  tlbKind : BitVec 3
  scpart : List W32
  pool : Nat
  age : BitVec 16
  tokmw : W32
  budgetsafe : W32
  ctxBusy : Bool
  ctxResult : BitVec 8
  ctxBusyCtx : BitVec 8
  dbgstat : W64
  ctxbase : W64
  rings : List Ring
  errlog : Ring
  errCount : Nat
  stprog : W64
  stBusy : Bool
  stInmode : Bool
  stCore : BitVec 6
  stResult : BitVec 8
  pimgaddr : W64
  pranges : W64
  pwrstat : W64
  msixTable : Sparse 64
deriving DecidableEq, Repr

/-- The whole machine. -/
structure State where
  mem : Memory
  poison : List Nat
  cycle : Nat
  agenda : List Turn
  choices : List Nat
  fresh : Nat
  /-- Writes that the host has issued over the die-to-die link and that are not yet performed (R327). -/
  hostPend : List (Nat × List Byte)
  cur : Cur
  /-- Whether the word of the current turn has issued, raised a cause or parked: the model's own field (R273, R274). -/
  issued : Bool
  cores : List Core
  groups : List Group
  blocks : List Block
  ctxs : List Ctx
  islands : List Island
  images : List Image
  engines : List EngineCtx
  generations : List (EngineRef × W32)
  copies : List GCopy
  batches : List Batch
  grids : List Grid
  nextGrid : Nat
  rays : List Ray
  nextRay : Nat
  /-- Translations of the units that have no TLB of a core, and of the 16 chambers (R57). -/
  tlb : List TlbEntry
  chamberTlb : List (List TlbEntry)
  /-- The middle level of instruction fetch of each chamber (R48). -/
  imid : List (List LineCopy)
  lines : List CacheLine
  slicesOut : List Nat
  sliceDetected : List Nat
  bulkOut : List Nat
  bulkDetected : List Nat
  dispSlot : Nat
  markOut : Bool
  regs : Regs
  verify : List VerifyKey
  saveKeys : List (Nat × BitVec 256)
  lifeCycle : BitVec 2
  msix : List Nat
  /-- The I/O cores that have had a local interrupt, oldest first (R331). -/
  ioInts : List Nat
  heads : List Head
  power : Power
  alwaysOn : Bool
  rc : W64
  powerImage : Option PowerImage
  budget : Nat
  lastGrant : Option Nat
  demand : List (BitVec 64)
  selfRefresh : Bool
  booted : Bool
  /-- Register writes held until bring-up completes, oldest first (R336). -/
  heldWrites : List Instr
  /-- The context and pending-table ID that the loader's request waits on, and a FATAL verdict on it (R349). -/
  loadWait : Option (BitVec 8 × Nat)
  loadDead : Bool
deriving DecidableEq, Repr

/-- A core at reset: every store wiped (R343). -/
def Core.reset : Core :=
  { inService := true, detected := false, loopMode := false, pend := [], l1 := [], cc := [],
    ibuf := List.replicate 4 [], icache := [], tlb := [], scheds := List.replicate 4 ⟨0, 0, none, none⟩, lanePtr := [],
    growers := [], array := none, chosen := none, tokens := 0, rowsWait := [], rowsIn := [], tiles := [], nevals := [] }

def Island.reset : Island :=
  { state := 0, detected := false, image := none, ctxs := [], creg0 := [], creg1 := [], cells := [], badCells := [], input := [],
    flight := [], out := [], overruns := 0, discards := 0, order := 0, stale := false }

/-- System rings and the error log at reset (assumption 5). -/
def Ring.reset : Ring := ⟨0, 0, 0, 0⟩

/-- A head at reset (R341; the surface and flip registers: assumption 5). -/
def Head.reset : Head :=
  { ctl := 0, surface := 0, hostSurface := false, pendingFlip := none, releasing := false,
    muxsel := false, lockedFrames := 0, fsyncAt := none, awaits := none, fsyncOut := 0 }

/-- The registers at reset: the Reset columns of the manual; the others: assumption 5. -/
def Regs.reset : Regs :=
  { tlbVa := 0, tlbBusy := false, tlbErr := false, tlbCtx := 0, tlbKind := 0,
    scpart := 0x8000FFFF#32 :: List.replicate 15 0, pool := 128, age := 500, tokmw := 293, budgetsafe := 120000,
    ctxBusy := false, ctxResult := 0, ctxBusyCtx := 0, dbgstat := 0, ctxbase := 0,
    rings := List.replicate 18 Ring.reset, errlog := Ring.reset, errCount := 0, stprog := 0, stBusy := false,
    stInmode := false, stCore := 0, stResult := 0, pimgaddr := 0, pranges := 0, pwrstat := 0, msixTable := [] }

/-- Verify entries 0-15 are fused (R334). -/
def verifyReset : List VerifyKey :=
  (List.range 64).map fun i => if i < 16 then ⟨true, false, Config.fusedKey i⟩ else ⟨false, false, 0⟩

/-- The machine right after a cold reset: powered, brought up by R336 with no image to resume, every context UNDEFINED
(R304, R338, R343). -/
def State.reset : State :=
  { mem := [], poison := [], cycle := 0, agenda := [], choices := [], fresh := 0, hostPend := [], cur := .none, issued := false,
    cores := List.replicate Config.cores Core.reset, groups := [], blocks := [], ctxs := [],
    islands := List.replicate 32 Island.reset, images := [], engines := [], generations := [], copies := [],
    batches := [], grids := [], nextGrid := 1, rays := [], nextRay := 1, tlb := [],
    chamberTlb := List.replicate 16 [], imid := List.replicate 16 [], lines := [], slicesOut := [],
    sliceDetected := [], bulkOut := [], bulkDetected := [], dispSlot := 254, markOut := false,
    regs := { Regs.reset with pwrstat := 5 },
    verify := verifyReset, saveKeys := [], lifeCycle := Config.fusedLifeCycle, msix := [], ioInts := [],
    heads := List.replicate 4 Head.reset, power := .d0, alwaysOn := true, rc := 0, powerImage := none,
    budget := Config.configuredPower.toNat, lastGrant := none, demand := [], selfRefresh := false, booted := true, heldWrites := [],
    loadWait := none, loadDead := false }

end Sys2Proof.Machine
end

