-- ==== Sys2Proof/Machine/Access.lean ====
section
/-! DEFINITION. Naming the parts of the state, scopes (R61, R62), address translation (R52-R57), and how a byte is
read and written at L2 and through a core's caches and pending table (R45-R51, R65-R72, R86). -/

namespace Sys2Proof.Machine

open Sys2Proof

/-- The block of a group. -/
def blockOf (g : GroupRef) : BlockRef := ⟨g.core, g.bslot⟩
/-- The frame index of a group: 256*CORE + 32*BSLOT + SLOT (R308). -/
def frameIndex (g : GroupRef) : Nat := 256 * g.core.toNat + 32 * g.bslot.toNat + g.slot.toNat

namespace State

def group? (s : State) (r : GroupRef) : Option Group := s.groups.find? fun g => g.ref = r
def block? (s : State) (r : BlockRef) : Option Block := s.blocks.find? fun b => b.ref = r
def ctx? (s : State) (c : BitVec 8) : Option Ctx := s.ctxs.find? fun x => x.id = c
def core (s : State) (n : Nat) : Core := s.cores.getD n Core.reset
def island (s : State) (n : Nat) : Island := s.islands.getD n Island.reset
def grid? (s : State) (n : Nat) : Option Grid := s.grids.find? fun g => g.id = n
def engine? (s : State) (e : EngineRef) : Option EngineCtx := s.engines.find? fun x => x.ref = e

/-- Change one group; a group that does not exist is no change. -/
def modGroup (s : State) (r : GroupRef) (f : Group → Group) : State :=
  { s with groups := s.groups.map fun g => if g.ref = r then f g else g }
def modBlock (s : State) (r : BlockRef) (f : Block → Block) : State :=
  { s with blocks := s.blocks.map fun b => if b.ref = r then f b else b }
def modCtx (s : State) (c : BitVec 8) (f : Ctx → Ctx) : State :=
  { s with ctxs := s.ctxs.map fun x => if x.id = c then f x else x }
def modCore (s : State) (n : Nat) (f : Core → Core) : State :=
  { s with cores := listSet s.cores n (f (s.core n)) }
def modIsland (s : State) (n : Nat) (f : Island → Island) : State :=
  { s with islands := listSet s.islands n (f (s.island n)) }
def modEngine (s : State) (e : EngineRef) (f : EngineCtx → EngineCtx) : State :=
  { s with engines := s.engines.map fun x => if x.ref = e then f x else x }
def modRegs (s : State) (f : Regs → Regs) : State := { s with regs := f s.regs }

/-- The next open choice; with none listed it is 0 (assumption 4). -/
def choose (s : State) : Nat × State :=
  match s.choices with
  | [] => (0, s)
  | c :: r => (c, { s with choices := r })

/-- A value the manual leaves open (assumption 4). -/
def free (s : State) : W64 × State := (Config.freeValue s.fresh, { s with fresh := s.fresh + 1 })

/-- The groups of a block, ascending in slot. -/
def groupsOf (s : State) (b : BlockRef) : List Group := s.groups.filter fun g => blockOf g.ref = b
/-- The blocks resident on a core. -/
def blocksOn (s : State) (c : Nat) : List Block := s.blocks.filter fun b => b.ref.core.toNat = c

end State

namespace Group

/-- S0 reads 0 and ignores writes (R33). -/
def readS (g : Group) (n : BitVec 5) : W64 := if n = 0 then 0 else g.s.get n.toNat
def writeS (g : Group) (n : BitVec 5) (v : W64) : Group :=
  if n = 0 then g else { g with s := g.s.set n.toNat v }
def readV (g : Group) (n t : Nat) : W32 := g.v.get (32 * n + t)
/-- A V register written: data written anew is not poisoned (assumption 13). -/
def writeV (g : Group) (n t : Nat) (v : W32) : Group :=
  { g with v := g.v.set (32 * n + t) v, badV := g.badV.filter (· ≠ 32 * n + t) }
def readH (g : Group) (n t : Nat) : W32 := g.h.get (32 * n + t)
def writeH (g : Group) (n t : Nat) (v : W32) : Group :=
  { g with h := g.h.set (32 * n + t) v, badH := g.badH.filter (· ≠ 32 * n + t) }
/-- P0 reads 1 and ignores writes (R33). -/
def readP (g : Group) (n : Nat) : Mask := if n = 0 then 0xFFFFFFFF#32 else g.p.get n
def writeP (g : Group) (n : Nat) (m : Mask) : Group := if n = 0 then g else { g with p := g.p.set n m }
/-- The threads `m` of P n take the bits of `v` (R178). -/
def setP (g : Group) (n : Nat) (m v : Mask) : Group := g.writeP n ((g.readP n &&& ~~~m) ||| (v &&& m))
/-- The active set (R200): the MASK of the top reconvergence entry. -/
def active (g : Group) : Mask :=
  match g.stack with
  | e :: _ => e.mask
  | [] => 0
/-- Entries that count toward the limit of 64: in trap mode the trap pair does not (R200). -/
def counted (g : Group) : Nat := if g.trapm then g.stack.length - 2 else g.stack.length
/-- VCNT / 8. -/
def vunits (g : Group) : Nat := g.vcnt / 8
/-- The lane queue in use: the trap-mode queue while TRAPM (R308). -/
def queue (g : Group) : List Run := if g.trapm then g.trapRuns else g.runs
def setQueue (g : Group) (q : List Run) : Group := if g.trapm then { g with trapRuns := q } else { g with runs := q }
/-- R311: a spared breakpoint is spared once, at its own address. -/
def skipAfter (p : Option VAddr) (pc : VAddr) : Option VAddr := if p = some pc then none else p

end Group

namespace Block

/-- The K registers as every reader sees them in cycle `now`: a write of cycle c shows from c + 3 (R17). -/
def settled (b : Block) (now : Nat) : Sparse 64 :=
  b.kpend.foldl (fun k w => if w.cycle + 3 ≤ now then k.set w.reg w.val else k) b.k
def readK (b : Block) (now n : Nat) : W64 := (b.settled now).get n
/-- R17: writes stand in cycle order, and in slot order within a cycle. -/
def insKWrite (w : KWrite) : List KWrite → List KWrite
  | [] => [w]
  | x :: r => if x.cycle < w.cycle || (x.cycle = w.cycle && x.slot ≤ w.slot) then x :: insKWrite w r else w :: x :: r
def writeK (b : Block) (now n slot : Nat) (v : W64) : Block :=
  { b with k := b.settled now, kpend := insKWrite ⟨n, v, now, slot⟩ (b.kpend.filter fun w => now < w.cycle + 3) }
/-- Whether a party still has a K write that some reader does not see (R17). -/
def kPending (b : Block) (now slot : Nat) : Bool := b.kpend.any fun w => w.slot = slot && now < w.cycle + 3
/-- The variant a group runs. -/
def variantAt (b : Block) (v : Nat) : Variant :=
  b.kernel.variants.getD v ⟨8, 1, 0, 32, 0, 0, 0, false, 0, 0, 0, 0, []⟩
def ownVariant (b : Block) : Variant := b.variantAt b.variant

/-- Cells of a list outside [a, a + n): those still poisoned after a write (assumption 13). -/
def clean (l : List Nat) (a n : Nat) : List Nat := l.filter fun x => !(a ≤ x && x < a + n)
/-- Bytes of the scratchpad, the B-store and scale memory, and an accumulator, written. -/
def putPad (b : Block) (a : Nat) (bs : List Byte) : Block :=
  { b with scratch := b.scratch.write a bs, badPad := clean b.badPad a bs.length }
def putB (b : Block) (a : Nat) (bs : List Byte) : Block :=
  { b with bstore := b.bstore.write a bs, badB := clean b.badB a bs.length }
def putScale (b : Block) (a : Nat) (bs : List Byte) : Block :=
  { b with scale := b.scale.write a bs, badScale := clean b.badScale a bs.length }
def putAcc (b : Block) (i : Nat) (v : W96) : Block := { b with acc := b.acc.set i v, badAcc := clean b.badAcc i 1 }

end Block

/-- Whether a list of poisoned cells meets [a, a + n). -/
def spoiled (l : List Nat) (a n : Nat) : Bool := l.any fun x => a ≤ x && x < a + n

/-- Chamber of a core and the hop count of two chambers (R61). -/
def chamberOf (core : Nat) : Nat := core / 4
def hops (a b : Nat) : Nat :=
  let dx := (a % 4 : Int) - (b % 4 : Int)
  let dy := (a / 4 : Int) - (b / 4 : Int)
  dx.natAbs + dy.natAbs

/-- Whether core d lies within scope n of core c (R61); scopes 5 and 6 hold every core in service, and a core out of
service is in no scope and has none. -/
def inScope (s : State) (c d n : Nat) : Bool :=
  (s.core c).inService && (s.core d).inService &&
  match n with
  | 0 => c = d
  | 1 => chamberOf c = chamberOf d
  | 2 => hops (chamberOf c) (chamberOf d) ≤ 1
  | 3 => hops (chamberOf c) (chamberOf d) ≤ 2
  | 4 => hops (chamberOf c) (chamberOf d) ≤ 3
  | _ => true

/-- A byte of the scope table (R62). -/
def scopeByte (s : State) (o : Nat) : Byte :=
  let maskOf := fun (f : Nat → Bool) => (List.range 64).foldl (fun a d => if f d then a + 2 ^ d else a) 0
  if o = 0 then 1
  else if 8 ≤ o && o < 16 then BitVec.ofNat 8 (maskOf (fun d => (s.core d).inService) / 256 ^ (o - 8))
  else if 64 ≤ o && o < 320 then BitVec.ofNat 8 (hops ((o - 64) / 16) ((o - 64) % 16))
  else if 512 ≤ o && o < 2560 then
    let c := (o - 512) / 32
    let n := (o - 512) % 32 / 8 + 1
    BitVec.ofNat 8 (maskOf (fun d => inScope s c d n) / 256 ^ ((o - 512) % 8))
  else 0

/-- Physical space has 47 bits (R52); the model keeps the scope table's page above it. -/
def physTop : Nat := 2 ^ 47
def scopePage : Nat := 0x000FFFFFFFFFF000
/-- The on-chip windows (R50). -/
def inWindow (pa : Nat) : Bool := 0x7E0000000000 ≤ pa && pa ≤ 0x7E01FFFFFFFF

/-- The byte at L2 (R45). -/
def memByte (s : State) (pa : Nat) : Byte := if physTop ≤ pa then scopeByte s (pa - physTop) else s.mem.get pa
/-- n bytes at L2. -/
def memBytes (s : State) (pa n : Nat) : List Byte := (List.range n).map fun i => memByte s (pa + i)
def memNat (s : State) (pa n : Nat) : Nat := leNat (memBytes s pa n)
/-- Whether any of n bytes is poisoned (R345). -/
def poisoned (s : State) (pa n : Nat) : Bool := spoiled s.poison pa n

/-- A write performed at L2 triggers every armed monitor on its lines (R86). -/
def triggerMonitors (s : State) (pa n : Nat) : State :=
  { s with groups := s.groups.map fun g =>
      { g with mons := g.mons.map fun m =>
          if m.st = .armed && pa / 128 ≤ m.line && m.line ≤ (pa + n - 1) / 128 then { m with st := .triggered } else m } }

/-- A write performed at L2 (R71); bytes rewritten are no longer poisoned (assumption 13). -/
def performWrite (s : State) (pa : Nat) (bytes : List Byte) : State :=
  if bytes.isEmpty || physTop ≤ pa then s
  else triggerMonitors
    { s with mem := s.mem.write pa bytes
             poison := s.poison.filter fun a => !(pa ≤ a && a < pa + bytes.length) } pa bytes.length

/-- Writes of a core still pending that meet [pa, pa + n). -/
def overlaps (w : PendWrite) (pa n : Nat) : Bool := w.pa < pa + n && pa < w.pa + w.bytes.length
def pendOverlap (s : State) (core pa n : Nat) : Bool := (s.core core).pend.any fun w => overlaps w pa n

/-- The pending table laid over a byte: the newest write wins (R71). -/
def pendByte (ws : List PendWrite) (pa : Nat) (b : Byte) : Byte :=
  ws.foldl (fun b w => if w.pa ≤ pa && pa < w.pa + w.bytes.length then w.bytes.getD (pa - w.pa) 0 else b) b

/-- The 128-byte lines that n bytes lie in. -/
def linesOf (pa n : Nat) : List Nat := (List.range ((pa + n - 1) / 128 + 1 - pa / 128)).map (pa / 128 + ·)
/-- A line as it stands at L2. -/
def lineAt (s : State) (l unit : Nat) : LineCopy := ⟨l, unit, s.mem.filter fun c => c.1 / 128 = l⟩
/-- Whether a cache holds every line of n bytes, and the bytes that it serves. -/
def holdsLines (c : List LineCopy) (pa n : Nat) : Bool := (linesOf pa n).all fun l => c.any fun k => k.line = l
def copyByte (c : List LineCopy) (a : Nat) : Byte := ((c.find? fun k => k.line = a / 128).map fun k => k.data.get a).getD 0
def copyBytes (c : List LineCopy) (pa n : Nat) : List Byte := (List.range n).map fun i => copyByte c (pa + i)
/-- Bytes put into the lines that a cache holds of them. -/
def patch (c : List LineCopy) (pa : Nat) (bs : List Byte) : List LineCopy :=
  c.map fun k =>
    if (linesOf pa bs.length).contains k.line then
      { k with data := (bs.zipIdx).foldl (fun d (b, i) => if (pa + i) / 128 = k.line then d.set (pa + i) b else d) k.data }
    else k
/-- A line put into a cache of `cap` lines: the oldest makes room. -/
def putLine (cap : Nat) (k : LineCopy) (c : List LineCopy) : List LineCopy := (k :: c.filter fun x => x.line ≠ k.line).take cap

/-- Fields of a page-table entry (R54). -/
structure Pte where
  v : Bool
  leaf : Bool
  size : Bool
  rd : Bool
  w : Bool
  x : Bool
  a : Bool
  d : Bool
  ord : Nat
  cpol : Nat
  part : Nat
  pin : Bool
  onchip : Bool
  wf : Bool
  pa : Nat
  rsv : Nat
deriving DecidableEq, Repr

def pteOf (e : Nat) : Pte :=
  { v := bit e 0, leaf := bit e 1, size := bit e 2, rd := bit e 3, w := bit e 4, x := bit e 5, a := bit e 6,
    d := bit e 7, ord := bits e 9 8, cpol := bits e 12 10, part := bits e 16 13, pin := bit e 17,
    onchip := bit e 18, wf := bit e 19, pa := bits e 54 20 * 4096, rsv := bits e 57 55 }

/-- The access kinds of R58; a read-modify-write needs Rd and W and is posted as a write (assumption 15). -/
inductive Access where
  | read | write | exec | atomic
deriving DecidableEq, Repr
def Access.code : Access → Nat | .read => 0 | .write => 1 | .exec => 2 | .atomic => 1
def Access.writes : Access → Bool | .write | .atomic => true | _ => false

/-- How a walk ends (R53-R56). -/
inductive Walk where
  | leaf (entryPa : Nat) (pte : Nat) (size : Nat)
  | notPresent
  | malformed
  | error (entryPa : Nat)
deriving DecidableEq, Repr

/-- The page size of a leaf at a level, 0 where no leaf is allowed (R53). -/
def leafSize (level : Nat) (size : Bool) : Nat :=
  match level with
  | 2 => if size then 0 else 2 ^ 30
  | 1 => if size then 2 ^ 25 else 2 ^ 21
  | 0 => if size then 2 ^ 16 else 2 ^ 12
  | _ => 0

/-- Whether a valid entry is malformed at its level (R51, R54). -/
def badPte (level : Nat) (e : Nat) (window : Bool) : Bool :=
  let p := pteOf e
  if p.leaf then
    leafSize level p.size = 0 || p.rsv ≠ 0 || p.ord = 3 || 4 ≤ p.cpol || (p.cpol = 3 && p.ord ≠ 0) ||
    p.pa % leafSize level p.size ≠ 0 || p.onchip != inWindow p.pa || (p.onchip && !(p.cpol = 3 && window))
  else level = 0 || bits e 19 2 ≠ 0 || p.rsv ≠ 0

/-- R55: the 16 entries of a large page, equal but for A and D. -/
def groupEqual (s : State) (base : Nat) : Bool :=
  let strip := fun (e : Nat) => e - e / 64 % 4 * 64
  let es := (List.range 16).map fun i => strip (memNat s (base + 8 * i) 8)
  es.all fun e => e = es.getD 0 0

/-- A walk from a level's table (R53); an uncorrectable error in any entry that it reads ends it (R55, R56). -/
def walk (s : State) (window : Bool) (va : Nat) : Nat → Nat → Walk
  | level, table =>
    let idx := if level = 4 then bits va 51 48 else bits va (20 + 9 * level) (12 + 9 * level)
    let epa := table + 8 * idx
    if poisoned s epa 8 then .error epa
    else
      let e := memNat s epa 8
      let p := pteOf e
      let first := epa - 8 * (idx % 16)
      if !p.v then .notPresent
      else if badPte level e window then .malformed
      else if p.leaf then
        if p.size && poisoned s first 128 then .error first
        else if p.size && !(groupEqual s first) then .malformed
        else .leaf epa e (leafSize level p.size)
      else match level with
        | 0 => .malformed
        | l + 1 => walk s window va l p.pa

/-- Why one access does not translate. -/
inductive Deny where
  | notPresent | malformed | notify | protection | error
deriving DecidableEq, Repr

/-- A translated access. -/
structure Xlat where
  pa : Nat
  pte : Pte
deriving DecidableEq, Repr

/-- The page of R62: read only, strongly ordered, cached. -/
def scopePte : Nat := 0x9 + 2 + 0x40

/-- Permission for an access (R58, R51); `engine` may reach windows. -/
def permit (p : Pte) (k : Access) (engine : Bool) : Option Deny :=
  if p.onchip && !engine then some .protection
  else match k with
    | .read => if p.rd then none else some .protection
    | .exec => if p.x then none else some .protection
    | .write => if p.w then none else if p.wf then some .notify else some .protection
    | .atomic => if !p.rd then some .protection else if p.w then none else if p.wf then some .notify else some .protection

/-- The unit whose TLB serves an access: a core's, with its chamber's behind it; or none, for a unit that has neither
(R57; assumption 77). -/
abbrev Site := Option Nat

/-- A cached translation that serves an access: a write it permits needs D set (R56). -/
def tlbFind (l : List TlbEntry) (c : BitVec 8) (va : Nat) (k : Access) : Option TlbEntry :=
  l.find? fun e => e.ctx = c && e.base ≤ va && va < e.base + e.size &&
    !(k.writes && (pteOf e.pte.toNat).w && !(pteOf e.pte.toNat).d)
/-- An entry put into a TLB of `cap` entries, one per page: the oldest makes room (R57). -/
def putTlb (cap : Nat) (e : TlbEntry) (l : List TlbEntry) : List TlbEntry :=
  (e :: l.filter fun t => !(t.ctx = e.ctx && t.base = e.base && t.size = e.size)).take cap
def chamberEntries (s : State) (h : Nat) : List TlbEntry := s.chamberTlb.getD h []
/-- What the TLBs of a site hold for an access: the core's own entry, and its chamber's. -/
def tlbHits (s : State) (site : Site) (c : BitVec 8) (va : Nat) (k : Access) : Option TlbEntry × Option TlbEntry :=
  match site with
  | none => (tlbFind s.tlb c va k, none)
  | some n => (tlbFind (s.core n).tlb c va k, tlbFind (chamberEntries s (chamberOf n)) c va k)
/-- An entry put into the TLB nearest to a site, or into every TLB of the site. -/
def fillNear (s : State) (site : Site) (e : TlbEntry) : State :=
  match site with
  | none => { s with tlb := putTlb 4096 e s.tlb }
  | some n => s.modCore n fun k => { k with tlb := putTlb 256 e k.tlb }
def fillTlb (s : State) (site : Site) (e : TlbEntry) : State :=
  match site with
  | none => fillNear s site e
  | some n =>
    fillNear { s with chamberTlb := listSet s.chamberTlb (chamberOf n) (putTlb 4096 e (chamberEntries s (chamberOf n))) } site e

/-- The end of the GDDR7 fitted. -/
def gddrTop : Nat := Config.gddrGiB.val * 2 ^ 30
/-- Whether the stacked cache allocates a line: one of the GDDR7 that it stands before (R46), in a slice that allocates (R347). -/
def sliceTakes (s : State) (line : Nat) : Bool :=
  128 * line < gddrTop && !(s.slicesOut.contains (Config.sliceOf line).val) && !(s.sliceDetected.contains (Config.sliceOf line).val)
/-- Whether two lines share a set of a slice (R46). -/
def sameSet (a b : Nat) : Bool := Config.sliceOf a = Config.sliceOf b && Config.setOf a = Config.setOf b
/-- The lines of the stacked cache after a miss on a line by an access of partition `part` (R46, R47): a free way of the
partition, else one whose line is not pinned; with every way pinned nothing is allocated. -/
def stackedAfter (s : State) (part : Nat) (pin : Bool) (l : Nat) : List CacheLine :=
  let r := s.regs.scpart.getD part 0
  if !r.getLsbD 31 || s.lines.any (·.line = l) || !(sliceTakes s l) then s.lines
  else
    let new : Nat → CacheLine := fun w => ⟨l, w, part, pin && r.getLsbD 16⟩
    let set := s.lines.filter fun k => sameSet k.line l
    let ways := (List.range 16).filter fun w => r.getLsbD w
    let open' := ways.filter fun w => !(set.any fun k => k.way = w && k.pinned)
    match ways.filter fun w => !(set.any fun k => k.way = w) with
    | w :: _ => new w :: s.lines
    | [] =>
      if open'.isEmpty then s.lines
      else
        let w := open'.getD (Config.victimWay l s.cycle % open'.length) 0
        new w :: s.lines.filter fun k => !(sameSet k.line l && k.way = w)
/-- The stacked cache after an access to n bytes through a page (R46, R47, R54): pages with CPOL 2 and 3 and windows do
not reach it. -/
def allocateIn (s : State) (part : Nat) (pin : Bool) (pa n : Nat) : State :=
  (linesOf pa n).foldl (fun s l => { s with lines := stackedAfter s part pin l }) s
def allocate (s : State) (p : Pte) (pa n : Nat) : State :=
  if physTop ≤ pa || p.onchip || 2 ≤ p.cpol then s else allocateIn s p.part p.pin pa n

/-- Word i of the MSI-X table and pending bits (R325), by the layout of PCI Express (assumption 90): entry v in words 2v and
2v + 1, its mask bit set at reset; pending bits from word 4096 on. -/
def Regs.msixWord (r : Regs) (i : Nat) : W64 := r.msixTable.get i ^^^ (if i < 4096 && i % 2 = 1 then 0x100000000#64 else 0)
def Regs.setMsixWord (r : Regs) (i : Nat) (v : W64) : Regs :=
  { r with msixTable := r.msixTable.set i (v ^^^ (if i < 4096 && i % 2 = 1 then 0x100000000#64 else 0)) }
def Regs.msixMasked (r : Regs) (v : Nat) : Bool := (r.msixWord (2 * v + 1)).getLsbD 32
def Regs.msixPending (r : Regs) (v : Nat) : Bool := (r.msixWord (4096 + v / 64)).getLsbD (v % 64)
def Regs.setPending (r : Regs) (v : Nat) (b : Bool) : Regs :=
  let i := 4096 + v / 64
  let m : W64 := 1#64 <<< (v % 64)
  r.setMsixWord i (if b then r.msixWord i ||| m else r.msixWord i &&& ~~~m)
/-- An MSI-X message of a vector (R330); a masked vector's stands pending (R325). -/
def sendMsi (s : State) (v : Nat) : State :=
  if s.regs.msixMasked v then s.modRegs fun r => r.setPending v true else { s with msix := s.msix ++ [v] }

/-- A local interrupt of an I/O core at a post to its queue (R331). -/
def notifyIo (s : State) (n : Nat) : State := { s with ioInts := s.ioInts ++ [n] }

/-- R346: an error-log entry; a full ring merges it into the newest entry's COUNT. An unset ring (LOG2 0) only
counts (assumption 14). -/
def logError (s : State) (cls kind unit result addr : Nat) : State :=
  let r := s.regs.errlog
  let s := s.modRegs fun g => { g with errCount := g.errCount + 1 }
  let cap := 2 ^ r.log2.toNat
  if r.log2 = 0 then s
  else if cap ≤ (r.tail - r.head).toNat then
    let at' := r.base.toNat + 32 * ((r.tail - 1).toNat % cap)
    sendMsi (performWrite s (at' + 4) (bytesOf 4 (memNat s (at' + 4) 4 + 1))) 0
  else
    let bs := bytesOf 1 cls ++ bytesOf 1 kind ++ bytesOf 1 unit ++ bytesOf 1 result ++ bytesOf 4 1 ++ bytesOf 8 addr ++
      bytesOf 8 (s.cycle / 12) ++ bytesOf 8 0
    let pa := r.base.toNat + 32 * (r.tail.toNat % cap)
    let s := performWrite (allocateIn s 0 false pa 32) pa bs
    notifyIo (sendMsi (s.modRegs fun g => { g with errlog := { g.errlog with tail := g.errlog.tail + 1 } }) 0) 28

/-- Class DROP of R346: a dropped doorbell, write or command, by its register offset. -/
def logDrop (s : State) (off : Nat) : State := logError s 5 0 0 0 off

/-- A consumer has met poisoned data of a core's store, of an island's, or of memory (R345): the error is logged; the core or
the island takes no new work until it has been tested (R347). -/
def logSpoiled (s : State) (core : Nat) : State := (logError s 2 1 core 0 0).modCore core fun c => { c with detected := true }
def logCell (s : State) (n : Nat) : State := (logError s 2 2 n 0 0).modIsland n fun i => { i with detected := true }
def logPoison (s : State) (pa : Nat) : State := logError s 2 5 (Config.l2SliceOf (pa / 128)).val 0 pa

/-- Translation of one address of a context (R52-R57): the state carries the A and D updates and the TLB fill, or the log
entry of an uncorrectable error in a table (R345). An open
choice says which of the entries that could serve it have been replaced since: 1 the core's own, 2 the chamber's too. A walk
and its A and D updates allocate no line of the stacked cache (DESIGN CHOICE, assumption 95). -/
def translate (s : State) (site : Site) (c : BitVec 8) (k : Access) (engine : Bool) (va : W64) : State × Except Deny Xlat :=
  let va := va.toNat
  if 2 ^ 52 ≤ va then (s, .error .protection)
  else if va / 4096 * 4096 = scopePage then
    match permit (pteOf scopePte) k engine with
    | some d => (s, .error d)
    | none => (s, .ok ⟨physTop + va % 4096, pteOf scopePte⟩)
  else match s.ctx? c with
    | none => (s, .error .notPresent)
    | some x =>
      let (near, far) := tlbHits s site c va k
      let (lost, s) := if near.isSome || far.isSome then s.choose else (0, s)
      match (if lost = 0 then near.or far else if lost = 1 then far else none) with
      | some e =>
        let p := pteOf e.pte.toNat
        let s := if near.isSome && lost = 0 then s else fillNear s site e
        match permit p k engine with
        | some d => (s, .error d)
        | none => (s, .ok ⟨p.pa + va % e.size, p⟩)
      | none =>
        match walk s (x.desc.flags.getLsbD 2) va 4 x.desc.ptroot with
        | .notPresent => (s, .error .notPresent)
        | .malformed => (s, .error .malformed)
        | .error epa => (logPoison s epa, .error .error)
        | .leaf epa e size =>
          let p := pteOf e
          let d := k.writes && p.w && !p.d
          let e' := e + (if p.a then 0 else 0x40) + (if d then 0x80 else 0)
          let s := if e' = e then s else performWrite s epa (bytesOf 8 e')
          let s := fillTlb s site ⟨c, va / size * size, size, BitVec.ofNat 64 e'⟩
          match permit p k engine with
          | some d => (s, .error d)
          | none => (s, .ok ⟨p.pa + va % size, p⟩)

/-- Bytes at a physical address that a unit of the system die reads, none with an uncorrectable error among them (R345),
which is logged; and writes: such an access carries partition 0 (R46). -/
def physRead (s : State) (pa n : Nat) : State × Option (List Byte) :=
  if poisoned s pa n then (logPoison s pa, none) else (allocateIn s 0 false pa n, some (memBytes s pa n))
def physWrite (s : State) (pa : Nat) (bs : List Byte) : State := performWrite (allocateIn s 0 false pa bs.length) pa bs

/-- The parts of an access by page, each with its length: the physical bytes, and the strongest kind among the pages (R66). -/
def partPas (ps : List (Xlat × Nat)) : List Nat := ps.flatMap fun (x, n) => (List.range n).map (x.pa + ·)
def partKind (ps : List (Xlat × Nat)) : Nat := ps.foldl (fun k x => min k x.1.pte.ord) 2
/-- An access of a unit that acts for a context outside any word, or of an engine (R349), page by page; a failure
names its address. -/
def translateSpan (s : State) (site : Site) (c : BitVec 8) (k : Access) (engine : Bool) :
    Nat → W64 → Nat → State × Except (Deny × W64) (List (Xlat × Nat))
  | 0, _, _ => (s, .ok [])
  | f + 1, va, n =>
    if n = 0 then (s, .ok [])
    else
      let step := min n (4096 - va.toNat % 4096)
      match translate s site c k engine va with
      | (s, .error d) => (s, .error (d, va))
      | (s, .ok x) =>
        match translateSpan s site c k engine f (va + BitVec.ofNat 64 step) (n - step) with
        | (s, .error d) => (s, .error d)
        | (s, .ok ps) => (allocate s x.pte x.pa step, .ok ((x, step) :: ps))

/-- The parts of n bytes at va, for a unit at a site, and their physical bytes. -/
def partsAt (s : State) (site : Site) (c : BitVec 8) (k : Access) (engine : Bool) (va : W64) (n : Nat) :
    State × Except (Deny × W64) (List (Xlat × Nat)) :=
  translateSpan s site c k engine (n / 4096 + 2) va n
def spanAt (s : State) (site : Site) (c : BitVec 8) (k : Access) (engine : Bool) (va : W64) (n : Nat) :
    State × Except (Deny × W64) (List Nat) :=
  match partsAt s site c k engine va n with
  | (s, .error d) => (s, .error d)
  | (s, .ok ps) => (s, .ok (partPas ps))
/-- The same for a unit that has no TLB of a core. -/
def spanOf (s : State) (c : BitVec 8) (k : Access) (engine : Bool) (va : W64) (n : Nat) :
    State × Except (Deny × W64) (List Nat) :=
  spanAt s none c k engine va n

/-- Bytes read at L2 for a context by a unit; an uncorrectable error is the last check (R345). -/
def readVirt (s : State) (c : BitVec 8) (engine : Bool) (va : W64) (n : Nat) :
    State × Except (Deny × W64) (List Byte) :=
  match spanOf s c .read engine va n with
  | (s, .error d) => (s, .error d)
  | (s, .ok pas) =>
    match pas.find? fun a => s.poison.contains a with
    | some a => (logPoison s a, .error (.error, va))
    | none => (s, .ok (pas.map (memByte s)))

/-- Bytes written at L2, one address each, lowest first. -/
def writeEach (s : State) : List Nat → List Byte → State
  | a :: as, b :: bs => writeEach (performWrite s a [b]) as bs
  | _, _ => s
/-- Whether addresses follow one another. -/
def consecutive (a : Nat) : List Nat → Bool
  | [] => true
  | x :: r => x = a && consecutive (a + 1) r
/-- Bytes written at L2, as one write where they lie together. -/
def writePas (s : State) (pas : List Nat) (bytes : List Byte) : State :=
  if consecutive (pas.headD 0) pas && pas.length = bytes.length then performWrite s (pas.headD 0) bytes else writeEach s pas bytes

/-- Bytes written at L2 for a context by a unit. -/
def writeVirt (s : State) (c : BitVec 8) (va : W64) (bytes : List Byte) : State × Except (Deny × W64) Unit :=
  match spanOf s c .write false va bytes.length with
  | (s, .error d) => (s, .error d)
  | (s, .ok pas) => (writePas s pas bytes, .ok ())

/-- The units of a core's shared region that no scratchpad holds: its L1 data cache (R41). -/
def l1Units (s : State) (core : Nat) : List Nat :=
  (List.range 64).filter fun u => !((s.blocksOn core).any fun b => b.units.contains u)
/-- A line filled into L1 (R41): a unit holds 128 lines, the oldest makes room; the unit of a line is the model's choice
(assumption 46). -/
def fillLine (s : State) (core l : Nat) : State :=
  let us := l1Units s core
  let u := us.getD (l % us.length) 0
  s.modCore core fun c =>
    let rest := c.l1.filter fun k => k.line ≠ l
    { c with l1 := putLine 128 (lineAt s l u) (rest.filter fun k => k.unit = u) ++ rest.filter fun k => k.unit ≠ u }
/-- The lines of n bytes filled into L1. -/
def fillL1 (s : State) (core pa n : Nat) : State := (linesOf pa n).foldl (fun s l => fillLine s core l) s
/-- The copies that a core's L1 holds of n bytes take their values at L2: a later read of the same agent goes no further
back (R67). -/
def renewL1 (s : State) (core pa n : Nat) : State :=
  s.modCore core fun c => { c with l1 := patch c.l1 pa (memBytes s pa n) }

/-- Whether an agent is a stream of a group. -/
def Agent.ofGroup (a : Agent) (r : GroupRef) : Bool :=
  match a with
  | .thread g _ | .scalar g => g = r
  | _ => false

/-- A write of a UO page that no ordering point of its agent has followed: a UO read of that agent may go behind it (R65). -/
def unordered (who : Agent) (w : PendWrite) : Bool := w.uo && w.who = who
/-- The pending writes that a read by an agent sees: all of them, but a UO read may, by an open choice, pass those of its own
that are unordered (R65). -/
def pendSeen (s : State) (core : Nat) (who : Agent) (p : Pte) (pa n : Nat) : List PendWrite × State :=
  let ws := (s.core core).pend
  let (past, s) := if p.ord = 2 && ws.any fun w => unordered who w && overlaps w pa n then s.choose else (0, s)
  (if past = 0 then ws else ws.filter fun w => !(unordered who w), s)
/-- A read by an agent of a core (R65, R71): the pending table over L2, or over an L1 copy where the page kind and
an open choice allow one; a read that missed fills whole lines. -/
def coreRead (s : State) (core : Nat) (who : Agent) (p : Pte) (stream : Bool) (pa n : Nat) : State × List Byte :=
  let (ws, s) := pendSeen s core who p pa n
  let cacheable := p.ord ≠ 0 && (p.cpol = 0 || p.cpol = 2) && pa < physTop
  let hit := cacheable && holdsLines (s.core core).l1 pa n
  let (old, s) := if hit then s.choose else (0, s)
  let bs := if hit && old ≠ 0 then copyBytes (s.core core).l1 pa n else memBytes s pa n
  let s := if hit && old ≠ 0 then s
    else if cacheable && !stream then fillL1 s core pa n else renewL1 s core pa n
  (s, (List.range n).map fun i => pendByte ws (pa + i) (bs.getD i 0))

/-- LDC reads through the constant cache, which never observes writes (R212). -/
def constRead (s : State) (core pa n : Nat) : State × List Byte :=
  let hit := holdsLines (s.core core).cc pa n
  let (old, s) := if hit then s.choose else (0, s)
  if hit && old ≠ 0 then (s, copyBytes (s.core core).cc pa n)
  else
    let bs := (List.range n).map fun i => pendByte (s.core core).pend (pa + i) (memByte s (pa + i))
    (s.modCore core fun c =>
      { c with cc := patch ((linesOf pa n).map (fun l => lineAt s l 0) ++ c.cc.filter fun k => !((linesOf pa n).contains k.line)) pa bs }, bs)

/-- The middle level of a chamber, and its cores. -/
def midOf (s : State) (h : Nat) : List LineCopy := s.imid.getD h []
def coresOf (h : Nat) : List Nat := (List.range 4).map (4 * h + ·)
/-- Lines kept in a core's L1 instruction cache, and in its line buffers, which that cache includes (R48). -/
def keepCode (c : Core) (f : Nat → Bool) : Core :=
  { c with icache := c.icache.filter fun k => f k.line, ibuf := c.ibuf.map fun b => b.filter fun k => f k.line }
/-- The code caches of a core and its chamber emptied of some lines: a line dropped from the middle level is dropped from
its four cores (R48). -/
def keepMid (s : State) (h : Nat) (f : Nat → Bool) : State :=
  (coresOf h).foldl (fun s n => s.modCore n fun c => keepCode c f)
    { s with imid := listSet s.imid h ((midOf s h).filter fun k => f k.line) }
/-- A line put into the middle level (8,192 lines), the L1 instruction cache (1,024) and a scheduler's line buffer (16), what
makes room dropped from the levels that include less (R48). -/
def fillMid (s : State) (h : Nat) (k : LineCopy) : State :=
  let mid := putLine 8192 k (midOf s h)
  keepMid { s with imid := listSet s.imid h mid } h fun l => mid.any (·.line = l)
def fillCode (s : State) (core : Nat) (k : LineCopy) : State :=
  s.modCore core fun c =>
    let l1 := putLine 1024 k c.icache
    keepCode { c with icache := l1 } fun l => l1.any (·.line = l)
def fillBuffer (s : State) (core : Nat) (sched : Option Nat) (k : LineCopy) : State :=
  match sched with
  | none => s
  | some d => s.modCore core fun c => { c with ibuf := listSet c.ibuf d (putLine 16 k (c.ibuf.getD d [])) }
/-- A device-wide invalidation of the levels of instruction fetch (R49). -/
def dropCode (s : State) : State :=
  { s with imid := s.imid.map (fun _ => []), cores := s.cores.map fun c => keepCode c fun _ => false }
/-- A line of code as a core's stream fetches it: through its scheduler's line buffer, the L1 instruction cache and the
chamber's middle level, none of which observes writes (R48). An open choice says which levels have replaced the line:
0 all of them, 1 none, 2 the buffer, 3 the L1 instruction cache too. -/
def fetchLine (s : State) (core : Nat) (sched : Option Nat) (l : Nat) : State × LineCopy :=
  let h := chamberOf core
  let at' := fun (c : List LineCopy) => c.find? fun k => k.line = l
  let buf := sched.bind fun d => at' ((s.core core).ibuf.getD d [])
  let l1 := at' (s.core core).icache
  let mid := at' (midOf s h)
  let (lost, s) := if mid.isSome then s.choose else (0, s)
  match (if lost = 1 then buf else none), (if lost = 1 || lost = 2 then l1 else none), (if lost = 0 then none else mid) with
  | some k, _, _ => (s, k)
  | none, some k, _ => (fillBuffer s core sched k, k)
  | none, none, some k => (fillBuffer (fillCode s core k) core sched k, k)
  | none, none, none =>
    let k := lineAt s l 0
    let s := if mid.isSome then keepMid s h fun x => x ≠ l else s
    (fillBuffer (fillCode (fillMid s h k) core k) core sched k, k)
/-- The lines of some bytes of code, and the bytes. -/
def fetchLines (s : State) (core : Nat) (sched : Option Nat) : List Nat → State × List LineCopy
  | [] => (s, [])
  | l :: ls =>
    let (s, k) := fetchLine s core sched l
    let (s, ks) := fetchLines s core sched ls
    (s, k :: ks)
def fetchBytes (s : State) (core : Nat) (sched : Option Nat) (pas : List Nat) : State × List Byte :=
  let (s, ks) := fetchLines s core sched ((pas.map (· / 128)).eraseDups)
  (s, pas.map (copyByte ks))

/-- A write performed at L2 by an agent of a core; the core's own L1 copy takes the bytes (R41, R67). -/
def l2Write (s : State) (core pa : Nat) (bytes : List Byte) : State :=
  (performWrite s pa bytes).modCore core fun c => { c with l1 := patch c.l1 pa bytes }

/-- A write accepted by a core: it waits in the pending table (R71); an SO write is performed at once (R65). -/
def coreWrite (s : State) (core : Nat) (who : Agent) (p : Pte) (pa : Nat) (bytes : List Byte) : State :=
  if p.ord = 0 then l2Write s core pa bytes
  else s.modCore core fun c => { c with pend := c.pend ++ [⟨pa, bytes, p.ord = 2, who, s.cycle⟩] }

/-- An ordering point of some agents of a core: their earlier writes of UO pages are ordered before their later ones
(R65). -/
def sealWrites (s : State) (core : Nat) (f : Agent → Bool) : State :=
  s.modCore core fun c => { c with pend := c.pend.map fun w => if f w.who then { w with uo := false } else w }

/-- Entry i of a core's pending table is performed and acknowledged; the core's own copy follows it. A write of 16 bytes
or more is performed whole: that its aligned 8-byte parts, each single-copy atomic by R63, never show apart is the
model's choice (assumption 78). -/
def acknowledge (s : State) (core i : Nat) : State :=
  match (s.core core).pend[i]? with
  | none => s
  | some w =>
    (l2Write s core w.pa w.bytes).modCore core fun c => { c with pend := c.pend.eraseIdx i }

/-- An acquire at scope 1 or wider by an agent of a core (R71, R212). -/
def acquire (s : State) (core scope : Nat) : State :=
  if scope = 0 then s else s.modCore core fun c => { c with l1 := [], cc := [] }

/-- Whether a release at a scope may act now (R71): every write of the core acknowledged. -/
def released (s : State) (core scope : Nat) : Bool := scope = 0 || (s.core core).pend.isEmpty

end Sys2Proof.Machine
end

