-- ==== Sys2Proof/Machine/Place.lean ====
section
/-! DEFINITION. The units of lane slices, scratchpad and ceiling-die shares, and the placement of a block's groups on
the lanes of a core (R23, R24, R35, R38, R41, R44). -/

namespace Sys2Proof.Machine

open Sys2Proof

/-- Whether a core takes work: in service, with no detected error being handled (R347), not in loop-buffer mode. -/
def coreTakes (s : State) (c : Nat) : Bool := (s.core c).inService && !(s.core c).detected && !(s.core c).loopMode

/-- R35: a footprint in units of 1 KiB. -/
def footprint (vcnt priv : Nat) : Nat := 1 + vcnt / 8 + priv / 32

/-- A group as it stands on the lanes of its core. -/
structure Placed where
  lane : Nat
  pos : Nat
  wide : Bool
  units : Nat
deriving DecidableEq, Repr

/-- The private bytes per thread of a group's variant. -/
def privOf (b : Block) (g : Group) : Nat := (b.variantAt g.variant).priv

def placedOf (s : State) (g : Group) : Placed :=
  let b := s.block? (blockOf g.ref)
  ⟨g.lane.toNat, g.pos, g.wide, footprint g.vcnt ((b.map (privOf · g)).getD 32)⟩

/-- The groups that hold lane space on a core: an exited group's is free at once (R32). -/
def placedOn (s : State) (core : Nat) : List Placed :=
  (s.groups.filter fun g => g.ref.core.toNat = core && !g.exited).map (placedOf s)

/-- Units of a lane's own slice in use; a wide group fills the odd slice first (assumption 16). -/
def usedUnits (ps : List Placed) (lane : Nat) : Nat :=
  ps.foldl (fun n p =>
    if p.wide then (if p.lane = lane then n + (p.units - 24) else if p.lane + 1 = lane then n + min 24 p.units else n)
    else if p.lane = lane then n + p.units else n) 0
/-- R38: free units of a lane, or of a wide group's pair. -/
def freeUnits (ps : List Placed) (lane : Nat) (wide : Bool) : Nat :=
  (24 - usedUnits ps lane) + if wide then 24 - usedUnits ps (lane + 1) else 0
/-- Resident groups of a lane; the odd lane of a wide group takes none (R23). -/
def laneCount (ps : List Placed) (lane : Nat) : Nat := (ps.filter (·.lane = lane)).length
def blockedOdd (ps : List Placed) (lane : Nat) : Bool := ps.any fun p => p.wide && p.lane + 1 = lane
/-- The lowest free position of a lane (R273). -/
def freePos (ps : List Placed) (lane : Nat) : Nat :=
  ((List.range 4).find? fun i => !(ps.any fun p => p.lane = lane && p.pos = i)).getD 0

/-- The lowest units of the shared region that no scratchpad on a core holds, as many as n bytes of scratchpad take (R41;
assumption 46). -/
def scratchUnits (s : State) (core n : Nat) : List Nat := (l1Units s core).take ((n + 16383) / 16384)
/-- Units of a core's L1 that a dispatch takes lose their lines, and the new block acquires what its record and its launch
or join were released with: no L1 or constant line of the core outlives it (R41, R168, R169, R212). -/
def clearForBlock (s : State) (core : Nat) (us : List Nat) : State :=
  acquire (s.modCore core fun c => { c with l1 := c.l1.filter fun k => !(us.contains k.unit) }) core 5

/-- The lane with the fewest resident groups among those that pass a test, the lowest on a tie. -/
def bestLane (ps : List Placed) (ok : Nat → Bool) : Option Nat :=
  (List.range Config.lanesPerCore).foldl (fun best l =>
    if !(ok l) then best
    else match best with
      | none => some l
      | some k => if laneCount ps l < laneCount ps k then some l else some k) none

/-- R23: one group of a footprint. -/
def placeOne (ps : List Placed) (units : Nat) : Option Placed :=
  if units ≤ 24 then
    (bestLane ps fun l => laneCount ps l < 4 && !(blockedOdd ps l) && units ≤ 24 - usedUnits ps l).map
      fun l => ⟨l, freePos ps l, false, units⟩
  else
    (bestLane ps fun l => l % 2 = 0 && laneCount ps l < 4 && laneCount ps (l + 1) = 0 && !(blockedOdd ps (l + 1)) &&
      units ≤ freeUnits ps l true).map fun l => ⟨l, freePos ps l, true, units⟩

/-- The result of R38's request of n units. -/
def growResult (s : State) (g : Group) (priv n : Nat) (first : Bool) : Nat :=
  let new := g.vcnt + 8 * n
  if n = 0 then 0
  else if 248 < new || (if g.wide then 48 else 24) < footprint new priv then 2
  else if first && n ≤ freeUnits (placedOn s g.ref.core.toNat) g.lane.toNat g.wide then 0
  else 1

/-- No request of the same lane waits before this one (R38). -/
def growFirst (s : State) (g : Group) : Bool :=
  let waits := (s.core g.ref.core.toNat).growers.filter fun r => (s.group? r.1).any (·.lane = g.lane)
  match waits with
  | [] => true
  | r :: _ => r.1 = g.ref

/-- The granted registers read zero (R37). -/
def grow (s : State) (g : Group) (n : Nat) : State :=
  s.modGroup g.ref fun g => { g with vcnt := g.vcnt + 8 * n, v := g.v.clear (32 * g.vcnt) (256 * n), badV := Block.clean g.badV (32 * g.vcnt) (256 * n) }
def leaveGrowers (s : State) (r : GroupRef) : State :=
  s.modCore r.core.toNat fun c => { c with growers := c.growers.filter fun w => w.1 != r }

/-- Freed units serve a waiting RGROW.B at once: its word completes (R38, R39). -/
def serveGrower (s : State) (w : GroupRef × Nat) : State :=
  match s.group? w.1 with
  | none => leaveGrowers s w.1
  | some g =>
    let priv := ((s.block? (blockOf g.ref)).map (privOf · g)).getD 32
    if growFirst s g && growResult s g priv w.2 true = 0 then
      (leaveGrowers (grow s g w.2) w.1).modGroup w.1 fun g =>
        { g with spc := g.spc + 4, blockedS := false, skipbp := Group.skipAfter g.skipbp g.spc, stamp := s.cycle }
    else s
def serveGrowers (s : State) (core : Nat) : State := (s.core core).growers.foldl serveGrower s

end Sys2Proof.Machine
end

