-- ==== Sys2Proof/Machine/Ops.lean ====
section
/-! DEFINITION. The named operations that meanings share: posting faults and log entries, parking (R58, R59),
raising a cause, taking it (trap entry, R308) and returning from it (R311), the forced reset (R321), and the frame
of every scalar, lane and matrix word. -/

namespace Sys2Proof.Machine

open Sys2Proof

/-- Lexicographic order of keys. -/
def keyLt : List Nat → List Nat → Bool
  | a :: as, b :: bs => a < b || (a = b && keyLt as bs)
  | [], _ :: _ => true
  | _, [] => false
def insertKey {α : Type} (key : α → List Nat) (x : α) : List α → List α
  | [] => [x]
  | y :: r => if keyLt (key x) (key y) then x :: y :: r else y :: insertKey key x r
def sortKeys {α : Type} (key : α → List Nat) (l : List α) : List α := l.foldl (fun acc x => insertKey key x acc) []

/-- An entry for a context's fault queue; FAULT_POST writes it (R312). -/
def post (s : State) (c : BitVec 8) (e : FqEntry) : State :=
  s.modCtx c fun x => { x with posts := x.posts ++ [e] }

/-- An entry of a kind that takes no pending ID (R313). -/
def postPlain (s : State) (c : BitVec 8) (kind agent unit slots : Nat) (va info : W64) : State :=
  post s c ⟨BitVec.ofNat 8 kind, 0, 0xFFFF, agent, unit, slots, va, info⟩

/-- The lowest pending ID that is free, if any (R314). -/
def freeId (x : Ctx) : Option Nat := (List.range 64).find? fun i => !(x.pending.any (·.id = i))

/-- The KIND of a translation fault (R313). -/
def faultKind : Deny → Option Nat
  | .notPresent => some 1
  | .malformed => some 2
  | .notify => some 3
  | _ => none

/-- One fault of an agent: attached to a pending entry of the same context, page, access and kind, or posted with
a new ID (R59, R314); none when no ID is free. -/
def postFault (s : State) (c : BitVec 8) (kind k : Nat) (va : W64) (agent unit slots : Nat) : State × Option Nat :=
  match s.ctx? c with
  | none => (s, none)
  | some x =>
    let page : W64 := BitVec.ofNat 64 (va.toNat / 4096 * 4096)
    match x.pending.find? fun p => p.va = page && p.access = k && p.kind.toNat = kind with
    | some p => (s, some p.id)
    | none =>
      match freeId x with
      | none => (s, none)
      | some i =>
        let s := s.modCtx c fun x => { x with pending := x.pending ++ [⟨i, BitVec.ofNat 8 kind, k, page, none⟩] }
        (post s c ⟨BitVec.ofNat 8 kind, k, i, agent, unit, slots, page, 0⟩, some i)

/-- A faulting access as a word reports it: page, access, kind. -/
structure PageFault where
  va : W64
  access : Access
  kind : Nat
  /-- The threads that met it. -/
  who : Mask
deriving DecidableEq, Repr

/-- Distinct faults in ascending address order (R59). -/
def insFault (f : PageFault) : List PageFault → List PageFault
  | [] => [f]
  | x :: r =>
    let a := f.va.toNat / 4096
    let b := x.va.toNat / 4096
    if a = b && f.access = x.access && f.kind = x.kind then { x with who := x.who ||| f.who } :: r
    else if a < b then f :: x :: r else x :: insFault f r
def sortFaults (l : List PageFault) : List PageFault := l.foldl (fun acc f => insFault f acc) []

/-- A park that waits on nothing yet. -/
def Park.empty : Park := { ids := [], fatal := false, unposted := [], seen := [], va := 0, who := 0 }

/-- Faults (address, access, kind, threads) posted or attached to a park; one that finds no free ID stays unposted
(R314). -/
def postInto (s : State) (c : BitVec 8) (agent unit slots : Nat) (p : Park) (fs : List (W64 × Nat × Nat × Mask)) : State × Park :=
  fs.foldl (fun (s, p) f =>
    match postFault s c f.2.2.1 f.2.1 f.1 agent unit slots with
    | (s, some i) => (s, { p with ids := if p.ids.contains i then p.ids else p.ids ++ [i], seen := p.seen ++ [(i, f.1, f.2.2.2)] })
    | (s, none) => (s, { p with unposted := p.unposted ++ [f] })) (s, p)
/-- R59: every fault of a word posted or attached; the park that holds the stream. -/
def postAll (s : State) (c : BitVec 8) (agent unit slots : Nat) (fs : List PageFault) : State × Park :=
  postInto s c agent unit slots Park.empty ((sortFaults fs).map fun f => (f.va, f.access.code, f.kind, f.who))
/-- R314: an ID has freed: the faults of a park that are not posted yet try again. -/
def repostPark (s : State) (c : BitVec 8) (agent unit slots : Nat) (p : Park) : State × Park :=
  postInto s c agent unit slots { p with unposted := [] } p.unposted

/-- SLOTS of R313. -/
def slotsOf (b g : Nat) : Nat := 32 * b + g

/-- What a word comes to. -/
inductive WordRes where
  /-- Its effect is made; the stream goes on with the next word. -/
  | done (s : State)
  /-- As done, and a watch point was met by the accesses of some threads (R322). -/
  | watched (s : State) (who : Mask)
  /-- Its effect is made and it set its own program counter. -/
  | jump (s : State)
  /-- It has not issued yet. -/
  | wait (s : State)
  /-- It has issued and holds its lane stream until it is complete (R125, R220). -/
  | hold (s : State)
  /-- It has begun and waits (R175, R308). -/
  | block (s : State)
  /-- It parks on translation faults (R58). -/
  | park (s : State) (fs : List PageFault)
  /-- It raises a cause precisely, with no effect. -/
  | cause (code sub : Nat) (tmask : Mask) (faddr : W64)
  /-- As cause, for a denied access: what the table walks did stands (R56). -/
  | denied (s : State) (code : Nat) (tmask : Mask) (faddr : W64)
  /-- It raises a cause after its effect (TRAP). -/
  | after (s : State) (code aux : Nat)
deriving DecidableEq, Repr

/-- What a list of accesses comes to, before any effect (R58). -/
inductive AccessRes where
  | ok (xs : List (Nat × W64 × Xlat))
  | cause (code : Nat) (tmask : Mask) (faddr : W64)
  | park (fs : List PageFault)
deriving DecidableEq, Repr

def threadBit (t : Nat) : Mask := 1#32 <<< t

/-- One access of a word. A test block's addresses are physical and reach no window (R348). -/
def translateWord (s : State) (site : Site) (test : Bool) (c : BitVec 8) (k : Access) (va : W64) : State × Except Deny Xlat :=
  if test then
    if physTop ≤ va.toNat || inWindow va.toNat then (s, .error .protection)
    else (s, .ok ⟨va.toNat, pteOf 0x13B⟩)
  else translate s site c k false va

/-- Every access translated; the findings of all of them. -/
def translateEach (s : State) (site : Site) (test : Bool) (c : BitVec 8) (k : Access) :
    List (Nat × W64) → State × List (Nat × W64 × Except Deny Xlat)
  | [] => (s, [])
  | (t, va) :: r =>
    let (s, x) := translateWord s site test c k va
    let (s, xs) := translateEach s site test c k r
    (s, (t, va, x) :: xs)

/-- R52 and R58 on the accesses of one word: an address beyond 52 bits, then an uncorrectable error in a table,
then faults, then permissions; a write notify parks only when it is the only permission finding. -/
def judge (k : Access) (xs : List (Nat × W64 × Except Deny Xlat)) : AccessRes :=
  let pick := fun (f : Deny → Bool) => xs.filter fun (_, _, x) => match x with
    | .error d => f d
    | .ok _ => false
  let who := fun (l : List (Nat × W64 × Except Deny Xlat)) => l.foldl (fun m (t, _, _) => m ||| threadBit t) 0#32
  let first := fun (l : List (Nat × W64 × Except Deny Xlat)) => (l.head?.map fun (_, va, _) => va).getD 0
  let high := xs.filter fun (_, va, _) => 2 ^ 52 ≤ va.toNat
  let err := pick (· == .error)
  let flt := pick fun d => d == .notPresent || d == .malformed
  let prot := pick (· == .protection)
  let note := pick (· == .notify)
  let faults := fun (l : List (Nat × W64 × Except Deny Xlat)) => l.filterMap fun (t, va, x) => match x with
    | .error d => (faultKind d).map fun n => PageFault.mk va k n (threadBit t)
    | .ok _ => none
  if !high.isEmpty then .cause 6 (who high) (first high)
  else if !err.isEmpty then .cause 1 (who err) (first err)
  else if !flt.isEmpty then .park (faults flt)
  else if !prot.isEmpty then .cause 6 (who prot) (first prot)
  else if !note.isEmpty then .park (faults note)
  else .ok (xs.filterMap fun (t, va, x) => match x with
    | .ok y => some (t, va, y)
    | .error _ => none)

/-- The access checks of R58 for the threads of a word, each of `size` bytes: alignment first, then translation of
every one, then permission. -/
def access (s : State) (site : Site) (test : Bool) (c : BitVec 8) (k : Access) (size : Nat) (vas : List (Nat × W64)) : State × AccessRes :=
  let mis := vas.filter fun (_, va) => va.toNat % size ≠ 0
  if !mis.isEmpty then
    (s, .cause 5 (mis.foldl (fun m (t, _) => m ||| threadBit t) 0#32) ((mis.head?.map (·.2)).getD 0))
  else
    let (s, xs) := translateEach s site test c k vas
    (s, judge k xs)

/-- R322: the threads whose accesses meet a watch point of their context. -/
def watchHit (s : State) (c : BitVec 8) (k : Access) (size : Nat) (vas : List (Nat × W64)) : Mask :=
  match s.ctx? c with
  | none => 0
  | some x =>
    let meets := fun (va : W64) => x.desc.wps.any fun (a, b) =>
      let kind := bits a.toNat 63 62
      let l := b.toNat % 64
      let lo := bits a.toNat 51 0 / 2 ^ l * 2 ^ l
      (kind = 3 || (kind = 1 && (k == .read || k == .atomic)) || (kind = 2 && k.writes)) &&
        va.toNat < lo + 2 ^ l && lo < va.toNat + size
    vas.foldl (fun m (t, va) => if meets va then m ||| threadBit t else m) 0

/-- The strongest ordering kind among the pages of a word (R66): 0 SO, 1 RC, 2 UO. -/
def strongest (xs : List (Nat × W64 × Xlat)) : Nat := xs.foldl (fun m (_, _, x) => min m x.pte.ord) 2

/-- R314: a pending ID is no longer held by a park. -/
def Park.release (p : Option Park) (i : Nat) (fatal : Bool) : Option Park :=
  match p with
  | none => none
  | some p =>
    if p.ids.contains i then
      let p := { p with ids := p.ids.filter (· ≠ i), fatal := p.fatal || fatal }
      let p := if fatal then
          match p.seen.find? (·.1 = i) with
          | some (_, va, who) => { p with va := va, who := who }
          | none => p
        else p
      if p.ids.isEmpty && p.unposted.isEmpty && !p.fatal then none else some p
    else some p

/-- Release the array and the tokens that a core's block slot holds (R246, R247). -/
def dropArray (s : State) (core : Nat) (slot : Nat) : State :=
  if (s.core core).array = some slot then s.modCore core fun c => { c with array := none, tokens := 0 } else s

/-- A context's records leave an island, wherever they stand (R301). -/
def purgeIsland (s : State) (n : Nat) (c : BitVec 8) : State :=
  let keep := fun (l : List IslandRecord) => l.filter fun r => r.tag.extractLsb' 24 8 != c
  s.modIsland n fun i => { i with input := keep i.input, flight := keep i.flight, out := keep i.out,
                                  ctxs := i.ctxs.filter (· != c) }

/-- R321 step 5: EN cleared in the 64 task-queue descriptors, and the port table's entries. -/
def disableQueues (s : State) (c : BitVec 8) (d : Desc) : State :=
  (List.range 64).foldl (fun s q =>
    let va := d.tqtab + BitVec.ofNat 64 (128 * q + 9)
    match readVirt s c false va 1 with
    | (s, .ok [b]) => (writeVirt s c va [b &&& 0xFE#8]).1
    | (s, _) => s) s
def unbindPorts (s : State) (c : BitVec 8) (d : Desc) (ps : List Port) : State :=
  ps.foldl (fun s p => (writeVirt s c (d.porttab + BitVec.ofNat 64 (8 * p.port)) (bytesOf 8 0)).1) s

/-- A tile has the array, or keeps it between its layers (R275). -/
def DraftTile.active (t : DraftTile) : Bool := t.run.any fun u => u.granted || u.layer ≠ 0

/-- What a context, and its blocks, leave on a core. -/
def purgeCore (c : BitVec 8) (refs : List BlockRef) (k : Core) : Core :=
  let tiles := k.tiles.filter fun t => t.ctx != c
  let idle := k.array = some 8 && !(tiles.any (·.active))
  { k with
    rowsWait := k.rowsWait.filter fun r => r.ctx != c
    rowsIn := k.rowsIn.filter fun r => r.ctx != c
    tiles := tiles
    array := if idle then none else k.array
    tokens := if idle then 0 else k.tokens
    nevals := k.nevals.filter fun n => !(refs.contains (blockOf n.g))
    growers := k.growers.filter fun g => !(refs.contains (blockOf g.1)) }

/-- R271: the marks of one downward set are outstanding while a block is marked for a lower variant. -/
def settleMarks (s : State) : State := { s with markOut := s.blocks.any fun b => b.mark.any (· < b.variant) }

/-- R321: the forced reset of a context, in its order; `command` when a RESET command makes it. -/
def forcedReset (s : State) (c : BitVec 8) (command : Bool) : State :=
  match s.ctx? c with
  | none => s
  | some x =>
    let mine := s.blocks.filter fun b => b.ctx = c && !b.test
    let s := mine.foldl (fun s b => dropArray s b.ref.core.toNat b.ref.bslot.toNat) s
    let refs := mine.map (·.ref)
    let s := { s with
      groups := s.groups.filter fun g => !(refs.contains (blockOf g.ref))
      blocks := s.blocks.filter fun b => !(refs.contains b.ref)
      engines := s.engines.map fun e => if e.ctx = c then { e with stopped := true } else e
      copies := s.copies.filter fun k => k.ctx != c
      batches := s.batches.filter fun b => !(refs.contains (blockOf b.g))
      rays := s.rays.filter fun r => r.ctx != c
      cores := s.cores.map (purgeCore c refs) }
    let s := settleMarks s
    let s := (List.range Config.cores).foldl serveGrowers s
    let s := (List.range 32).foldl (fun s n => purgeIsland s n c) s
    let s := { s.modCtx c (fun x => { x with pending := [] }) with
      loadWait := if s.loadWait.any (·.1 = c) then none else s.loadWait }
    let s := disableQueues s c x.desc
    let s := unbindPorts s c x.desc x.ports
    let s := s.modCtx c fun x => { x with ports := [], counter := x.counter + 1, slots := [], expansions := [], dones := [], bells := [],
                                          restores := [], saved := [], preStart := none, saving := false }
    let s := postPlain s c 8 0 0 0 0 0
    let s := s.modCtx c fun x => { x with st := .defined }
    if command then s
    else if s.regs.ctxBusy && s.regs.ctxBusyCtx = c then
      s.modRegs fun r => { r with ctxBusy := false, ctxResult := 7 }
    else s

/-- The bytes of the six-byte predicate field of thread t (R309): bit n is Pn. -/
def predBytes (g : Group) (t : Nat) : List Byte :=
  bytesOf 6 ((List.range 48).foldl (fun a n => if n ≠ 0 && (g.readP n).getLsbD t then a + 2 ^ n else a) 0)

/-- A replay entry's 288 bytes (R310). -/
def replayBytes (r : Replay) : List Byte :=
  bytesOf 12 r.word.toNat ++ bytesOf 1 (if r.stream = .scalar then 1 else 0) ++
  bytesOf 1 ((if r.cancel then 1 else 0) + if r.unfinished then 2 else 0) ++ bytesOf 2 0 ++ bytesOf 8 r.pc.toNat ++
  bytesOf 4 r.rmask.toNat ++ bytesOf 4 0 ++
  ((List.range 32).map fun t => bytesOf 8 (r.addrs.getD t 0).toNat).flatten

/-- A load still outstanding as a replay entry (R308, R310): the threads not yet returned. -/
def replayOf (l : Load) : Replay :=
  { word := l.word, stream := l.stream, cancel := false, unfinished := false, pc := l.pc,
    rmask := if l.spread ≠ 0 then l.spread else l.parts.foldl (fun m p => m ||| threadBit p.t) 0
    addrs := (List.range 32).map fun t => ((l.parts.find? (·.t = t)).map (·.va)).getD 0 }

/-- The selected threads of a lane word (R118); a re-injected one acts for the threads of its entry (R311). -/
def selectedOf (g : Group) (w : LaneWord) : Mask :=
  let p := g.readP w.gp.toNat
  let m := g.active &&& (if w.gn then ~~~p else p)
  match g.inject with
  | some (_, _, r) => r
  | none => m

/-- Where a stream of a group stands; while an entry is re-injected, where the return put it (R311). -/
def Group.place (g : Group) (st : Stream) : VAddr :=
  match g.inject with
  | some (a, b, _) => if st = .scalar then a else b
  | none => if st = .scalar then g.spc else g.lpc
/-- The word that a stream is executing: the captured word of an entry while it is re-injected. -/
def Group.wordOf (g : Group) (st : Stream) : W96 :=
  match g.inject, g.replay with
  | some _, e :: _ => e.word
  | _, _ => if st = .scalar then g.wordS else g.wordL
/-- A word of a stream that waited waits no longer; a re-injected one leaves the stream's own word as it is. -/
def Group.unblocked (g : Group) (st : Stream) : Group :=
  if g.inject.isSome then g else if st = .scalar then { g with blockedS := false } else { g with blockedL := false }
/-- The words of a group that have begun and wait, as UNFINISHED entries (R308), with the threads still to complete (R310);
WORD is the captured word, or 0 where its own fetch is what it waits on (assumption 79). -/
def unfinishedOf (g : Group) : List Replay :=
  let word := fun (st : Stream) (w : W96) =>
    Replay.mk w st false true (g.place st)
      (if st = .scalar then 1 else selectedOf { g with inject := none } (unpack w).2 &&& ~~~g.served) (List.replicate 32 0)
  (if g.blockedL then [word .lane g.wordL] else []) ++ (if g.blockedS then [word .scalar g.wordS] else [])
/-- A stream's park holds a replay entry, not the stream's own next word (R311, R315). -/
def Group.entryParked (g : Group) (st : Stream) : Bool :=
  (g.inject.isSome && g.replay.head?.any fun e => e.stream = st) || g.replay.any fun e => e.unfinished && e.stream = st
/-- A group whose parked words count as begun, as a stop finds them (R315). -/
def Group.heldUp (g : Group) : Group :=
  { g with blockedS := g.blockedS || (g.parkS.isSome && !(g.entryParked .scalar))
           blockedL := g.blockedL || (g.parkL.isSome && !(g.entryParked .lane)) }
/-- Unfinished loads and UNFINISHED words of a group (R310), and its NEVAL words, which a save makes UNFINISHED (R261). -/
def inFlight (s : State) (g : Group) : Nat :=
  let n := fun (b : Bool) => if b then 1 else 0
  g.loads.length + g.replay.length + n g.heldUp.blockedS + n g.heldUp.blockedL +
    ((s.core g.ref.core.toNat).nevals.filter fun n => n.g = g.ref).length

/-- The frame-header layout of R309, bytes 0-511. -/
def frameHead (g : Group) (blk : Option Block) (c : Cause) (stopped : Bool) (n : Nat) : List Byte :=
  let mh := blk.bind fun b => if c.src = 1 then b.seq.handle else none
  let qs := (blk.map fun b => if c.src = 1 then b.seq.qsTaken else 0).getD 0
  bytesOf 8 (c.code.toNat + 2 ^ 8 * c.sub.toNat + 2 ^ 16 * c.src.toNat +
    2 ^ 18 * (if c.code = 0x30 then 1 else 0) + 2 ^ 19 * (if stopped then 1 else 0) + 2 ^ 20 * c.aux.toNat) ++
  bytesOf 8 c.rspc.toNat ++ bytesOf 8 c.rlpc.toNat ++ bytesOf 8 c.fpc.toNat ++ bytesOf 4 c.tmask.toNat ++
  bytesOf 4 g.active.toNat ++ bytesOf 8 c.faddr.toNat ++ bytesOf 8 (if c.src = 1 then c.mpc.toNat else 0) ++
  bytesOf 4 g.fsr.toNat ++ bytesOf 1 n ++ bytesOf 3 0 ++
  ((List.range 31).map fun i => bytesOf 8 (g.readS (BitVec.ofNat 5 (i + 1))).toNat).flatten ++
  bytesOf 4 (mh.getD 0).toNat ++ bytesOf 2 (qs % 4096 + if mh.isSome then 32768 else 0) ++ bytesOf 2 0 ++
  ((List.range 32).map (predBytes g)).flatten

/-- The whole frame (R309). -/
def frameBytes (g : Group) (blk : Option Block) (c : Cause) (stopped : Bool) (rs : List Replay) : List Byte :=
  let rs := rs.take 12
  frameHead g blk c stopped rs.length ++ (rs.map replayBytes).flatten ++
  List.replicate (4096 - 512 - 288 * rs.length) 0#8

/-- Whether a group has results that trap entry waits for (R308 step 2): a TRACE status or a NEVAL result. -/
def resultsOut (s : State) (r : GroupRef) : Bool :=
  (s.rays.any fun y => y.g = r) || (s.core r.core.toNat).nevals.any fun n => n.g = r

/-- The replay entries of a stopping group: those not re-injected yet, its outstanding loads, its waiting words. -/
def stopEntries (g : Group) : List Replay :=
  g.replay ++ g.loads.map replayOf ++ unfinishedOf g

/-- Where a stream that stands at an address goes on: elsewhere, after a re-injected word in which it waited (R311). -/
def Group.goesOn (g : Group) (st : Stream) (pc : VAddr) : VAddr :=
  ((g.redirect.find? fun r => r.1 = st && r.2.1 = pc).map (·.2.2)).getD pc

/-- Where the streams of a stopping group resume: a waiting word is an entry of its own, so its stream resumes
after it; within a re-injection, at the values the return gave (R311). -/
def resumePcs (g : Group) : VAddr × VAddr :=
  (g.goesOn .scalar (if g.blockedS then g.place .scalar + 4 else g.place .scalar),
   g.goesOn .lane (if g.blockedL then g.place .lane + 12 else g.place .lane))

/-- The AGENT of an entry for a group's cause (R313): the sequencer, or the stream whose word raised it. -/
def causeAgent (s : State) (g : Group) (c : Cause) : Nat :=
  if c.src = 1 then 2
  else match s.cur with
    | .lane _ => 0
    | .scalar _ => 1
    | _ => if c.fpc ≠ g.spc && c.fpc + 4 ≠ g.spc && (c.fpc = g.lpc || c.fpc + 12 = g.lpc) then 0 else 1

/-- A double fault (R307): an entry of kind DOUBLE, then the forced reset. -/
def doubleFault (s : State) (g : Group) (c : Cause) : State :=
  let s := postPlain s g.ctx 7 (causeAgent s g c) g.ref.core.toNat (slotsOf g.ref.bslot.toNat g.ref.slot.toNat) 0 0
  forcedReset s g.ctx false

/-- A stopping group withdraws what it has offered to islands and not had accepted, and its claims (R224, R294). -/
def withdraw (s : State) (r : GroupRef) : State :=
  { s.modBlock (blockOf r) (fun b => { b with claims := b.claims.filter fun c => c.2.1 != r.slot.toNat }) with
    islands := s.islands.map fun i => { i with
      input := i.input.filter fun x => x.ray.isSome || !(x.b = blockOf r && x.tag.extractLsb' 10 5 = r.slot) } }

/-- R308 steps 3-6: the frame is written and the group enters its handler. -/
def enterTrap (s : State) (g : Group) (c : Cause) (x : Ctx) : State :=
  let fva := x.desc.tfbase + BitVec.ofNat 64 (4096 * frameIndex g.ref)
  let rs := stopEntries g
  let bs := frameBytes g (s.block? (blockOf g.ref)) c false rs
  match writeVirt s g.ctx fva bs with
  | (s, .error _) => doubleFault s g c
  | (s, .ok ()) =>
    let s := withdraw (leaveGrowers s g.ref) g.ref
    let ret : Entry := ⟨2, c.rlpc, BitVec.ofNat 32 (frameIndex g.ref), g.active⟩
    s.modGroup g.ref fun g =>
      { (((g.writeS 1 fva).writeS 2 (BitVec.ofNat 64 (fieldAt bs 0 8)))) with
        loads := [], traces := [], replay := [], kept := rs, pend := none, blockedS := false, blockedL := false
        fenced := false, left := [], inject := none, redirect := [], hold := if c.code = 0x31 then .run else g.hold
        parkS := none, parkL := none
        stack := ⟨0, 0, 0, g.active⟩ :: ret :: g.stack
        trapm := true, cause := c.code, trapRuns := [], served := 0
        frozen := some g.waits, waits := ⟨none, none, none⟩
        spc := x.desc.hspc.setWidth 52 }

/-- What a group's parks are to its replay entries: a FATAL verdict still to be raised at an unfinished word of the
stream, or nothing (R315). -/
def Group.keepParks (g : Group) : Group :=
  let keep := fun (st : Stream) (p : Option Park) =>
    if g.replay.any fun e => e.unfinished && e.stream = st then (p.filter (·.fatal)).map fun x => { x with ids := [], unposted := [] }
    else none
  { g with parkS := keep .scalar g.parkS, parkL := keep .lane g.parkL }

/-- A debugger stop (R323): steps 1-3 of R308 and the frame with STOPPED; no handler runs. A parked word is unfinished
and its pending ID stays (R315). -/
def stopGroup (s : State) (g : Group) (c : Cause) : State :=
  match s.ctx? g.ctx with
  | none => s
  | some x =>
    let fva := x.desc.tfbase + BitVec.ofNat 64 (4096 * frameIndex g.ref)
    let held := g.heldUp
    let rs := stopEntries held
    let r := resumePcs held
    let c := { c with rspc := r.1, rlpc := r.2 }
    match writeVirt s g.ctx fva (frameBytes g (s.block? (blockOf g.ref)) c true rs) with
    | (s, .error _) => forcedReset s g.ctx false
    | (s, .ok ()) =>
      let s := (withdraw (leaveGrowers s g.ref) g.ref).modGroup g.ref fun g =>
        { g with hold := .stopped, spc := r.1, lpc := r.2, served := 0, loads := [], traces := [], replay := rs, pend := none, blockedS := false, blockedL := false,
                 fenced := false, left := [], inject := none, redirect := [] }
      s.modRegs fun r => { r with dbgstat := BitVec.ofNat 64 (c.code.toNat + 2 ^ 8) }

/-- Whether a context is under a debugger (R305, R322). -/
def debugMode (s : State) (c : BitVec 8) : Bool := (s.ctx? c).any fun x => x.desc.flags.getLsbD 4
/-- Whether a pending cause stops the group for the debugger: a STOP (code 0), or in DBGMODE one of causes 0x30-0x32
(R308, R322, R323). -/
def stopsFor (s : State) (g : Group) (c : Cause) : Bool :=
  (c.src ≠ 2 && c.code = 0) ||
  (debugMode s g.ctx && 0x30 ≤ c.code.toNat && c.code.toNat ≤ 0x32)

/-- TRAP_ENTRY: the pending cause is taken once the results it waits for are written (R308); a stop of a group in trap
mode waits for its return (assumption 21). -/
def tryEnter (s : State) (r : GroupRef) : State :=
  match s.group? r with
  | none => s
  | some g =>
    match g.pend, s.ctx? g.ctx with
    | some c, some x =>
      if resultsOut s r || g.trapm || g.hold = .stopped then s else if stopsFor s g c then stopGroup s g c else enterTrap s g c x
    | _, _ => s

/-- A cause in a test block: it ends a REPLAY's loop (R324), else the group, with no handler (R348). -/
def endTestGroup (s : State) (g : Group) : State :=
  (s.modGroup g.ref fun g =>
    match g.loop with
    | some l =>
      let depth := (g.runs.head?.map (·.depth)).getD g.stack.length
      { g with loop := some { l with err := true, ended := true }, runs := []
               stack := g.stack.drop (g.stack.length - depth), blockedL := false }
    | none => { g with exited := true }).modBlock (blockOf g.ref) fun b => { b with testCause := true }

/-- Raise a cause in a group (R307): a precise cause in trap mode is a double fault, one from the sequencer is
held, and held too while the debugger has the group stopped; debug causes stop the group in DBGMODE; every other cause is
taken by R308. -/
def raise (s : State) (g : Group) (c : Cause) : State :=
  let waits := g.trapm || g.hold = .stopped
  if (s.block? (blockOf g.ref)).any (·.test) then
    if c.src = 1 then s.modBlock (blockOf g.ref) fun b => { b with testCause := true } else endTestGroup s g
  else if waits && c.src = 1 then s.modGroup g.ref fun g => { g with heldSeq := some c }
  else if waits && c.src = 3 then s.modGroup g.ref fun g => { g with held := some c }
  else if g.trapm then doubleFault s g c
  else
    let s := if debugMode s g.ctx && 0x30 ≤ c.code.toNat && c.code.toNat ≤ 0x32 then
        postPlain s g.ctx 9 (causeAgent s g c) g.ref.core.toNat (slotsOf g.ref.bslot.toNat g.ref.slot.toNat) 0 0
      else s
    tryEnter (s.modGroup g.ref fun g => { g with pend := some c }) g.ref

/-- A cause of a word of the group, at `pc`, resuming at the words given (R306). -/
def causeAt (g : Group) (code sub : Nat) (src : BitVec 2) (aux : Nat) (pc : VAddr) (tmask : Mask) (faddr : W64) : Cause :=
  let r := resumePcs g
  { code := BitVec.ofNat 8 code, sub := BitVec.ofNat 8 sub, src := src, aux := BitVec.ofNat 12 aux, fpc := pc,
    rspc := r.1, rlpc := r.2, tmask := tmask, faddr := faddr, mpc := 0 }

/-- A word of a stream, at `pc`, raises a cause precisely (R306): one that had waited is no longer begun. -/
def raiseWord (s : State) (g : Group) (st : Stream) (pc : VAddr) (code sub : Nat) (tmask : Mask) (faddr : W64) : State :=
  let g := g.unblocked st
  raise (s.modGroup g.ref (·.unblocked st)) g (causeAt g code sub 0 0 pc tmask faddr)

/-- A deferred cause is kept until the group's next lane word; only the lowest code is kept (R307). -/
def deferCause (s : State) (r : GroupRef) (code sub : Nat) (pc : VAddr) (tmask : Mask) (faddr : W64) : State :=
  s.modGroup r fun g =>
    let c := causeAt g code sub 3 0 pc tmask faddr
    match g.held with
    | some h => if h.code.toNat ≤ code then g else { g with held := some c }
    | none => { g with held := some c }

/-- R237: a sequencer's cause passes to the lowest group slot that has not exited; with none left the sequencer is
stopped and the cause is posted. -/
def passCause (s : State) (b : Block) (c : Cause) : State :=
  match (s.groupsOf b.ref).filter (fun g => !g.exited) with
  | [] =>
    let s := s.modBlock b.ref fun b => { b with seq := { b.seq with stopped := true, carrier := none } }
    if b.test then s.modBlock b.ref fun b => { b with testCause := true }
    else postPlain s b.ctx 6 2 b.ref.core.toNat (slotsOf b.ref.bslot.toNat 0)
      (c.mpc.setWidth 64) (BitVec.ofNat 64 (c.code.toNat + 256 * c.sub.toNat))
  | g :: gs =>
    let low := gs.foldl (fun m x => if x.ref.slot.toNat < m.ref.slot.toNat then x else m) g
    let r := resumePcs low
    let c := { c with rspc := r.1, rlpc := r.2 }
    let s := s.modBlock b.ref fun b => { b with seq := { b.seq with carrier := some (low.ref.slot.toNat, c) } }
    if low.trapm || low.pend.isSome then s.modGroup low.ref fun g => { g with heldSeq := some c }
    else raise s low c

/-- R237: a matrix word's cause halts the sequencer. -/
def raiseSeq (s : State) (b : Block) (code sub : Nat) (faddr : W64) : State :=
  passCause (s.modBlock b.ref fun b => { b with seq := { b.seq with halted := true } }) b
    { code := BitVec.ofNat 8 code, sub := BitVec.ofNat 8 sub, src := 1, aux := 0, fpc := b.seq.mpc, rspc := 0, rlpc := 0,
      tmask := 0, faddr := faddr, mpc := b.seq.mpc }

/-- R237: the group that carries a sequencer's cause has exited; the cause passes on. -/
def passOn (s : State) (r : GroupRef) : State :=
  match s.block? (blockOf r) with
  | none => s
  | some b =>
    match b.seq.carrier with
    | some (slot, c) => if slot = r.slot.toNat then passCause s b c else s
    | none => s

/-- Whether an S register has a write pending (R15, R141): a mark of a queued run or of one that has not completed, or an
outstanding scalar load. A word that LRUN could not read may mark any register (assumption 17). -/
def Group.pendingS (g : Group) (n : BitVec 5) : Bool :=
  n != 0 && ((g.queue.any fun r => !r.later.isEmpty || r.marks.any fun m => m.2 = n) || (g.left.any fun r => r.regs.contains n) ||
    g.loads.any fun l => l.stream = .scalar && l.dst = n.toNat)

/-- LWAIT's condition (R15): no run of the stream's own queue is left, its last word's occupancy included (R10), nor a
long-latency lane word unresolved. -/
def lanesDone (s : State) (g : Group) : Bool :=
  g.queue.isEmpty && g.laneUntil ≤ s.cycle && !(g.loads.any fun l => l.stream = .lane) && g.traces.isEmpty && !((s.core g.ref.core.toNat).nevals.any fun n => n.g = g.ref)

/-- How many more words of a stream may issue before each of its long-latency words resolves (R126, R127): loads, and on
the lane stream TRACE and NEVAL words. -/
def windowsOf (s : State) (g : Group) (st : Stream) : List Nat :=
  ((g.loads.filter fun l => l.stream = st).map (·.window)) ++
  if st = .lane then (g.traces.map (·.window)) ++ (((s.core g.ref.core.toNat).nevals.filter fun n => n.g = g.ref).map (·.window))
  else []
/-- Whether the lookahead of a stream lets another word issue (R126). -/
def windowOpen (s : State) (g : Group) (st : Stream) (closes : Bool) : Bool :=
  (windowsOf s g st).all fun w => !closes && 0 < w
/-- The windows of a stream after one more word of it has issued. -/
def Group.issued (g : Group) (st : Stream) : Group :=
  { g with loads := g.loads.map fun l => if l.stream = st then { l with window := l.window - 1 } else l
           traces := if st = .lane then g.traces.map fun w => { w with window := w.window - 1 } else g.traces }
def ageNevals (s : State) (r : GroupRef) : State :=
  s.modCore r.core.toNat fun c => { c with nevals := c.nevals.map fun n => if n.g = r then { n with window := n.window - 1 } else n }

/-- A parked group stream (R58). -/
def parkStream (s : State) (g : Group) (st : Stream) (fs : List PageFault) : State :=
  let agent := if st = .scalar then 1 else 0
  let (s, p) := postAll s g.ctx agent g.ref.core.toNat (slotsOf g.ref.bslot.toNat g.ref.slot.toNat) fs
  s.modGroup g.ref fun g => if st = .scalar then { g with parkS := some p } else { g with parkL := some p }

/-- The run that a lane stream is in. -/
def Group.run? (g : Group) : Option Run := g.queue.head?

/-- The index of a word within its run, when it lies in the run's range (R205). -/
def Run.index (r : Run) (pc : VAddr) : Option Nat :=
  let d := (pc - r.first).toNat
  if d % 12 = 0 && d / 12 < r.words then some (d / 12) else none

/-- A word of the head run, at `pc`, has written the S register that it names: its mark is cleared (R15). -/
def Group.clearMarks (g : Group) (pc : VAddr) : Group :=
  match g.queue with
  | [] => g
  | q :: qs =>
    match q.index pc with
    | some i => g.setQueue ({ q with marks := q.marks.filter fun m => m.1 ≠ i } :: qs)
    | none => g

/-- The S registers that a run still marks; a word that LRUN could not read may mark any (assumption 17). -/
def Run.marked (q : Run) : List (BitVec 5) :=
  if q.later.isEmpty then q.marks.map (·.2) else (List.range 32).map (BitVec.ofNat 5)
/-- The run ends when LPC is at its end address with the stack depth that it began with (R205); registers that it marks stay
marked until it has completed (R15). -/
def Group.runOver (g : Group) : Group :=
  match g.queue with
  | [] => g
  | q :: qs =>
    if q.started && g.lpc = q.first + BitVec.ofNat 52 (12 * q.words) && g.stack.length = q.depth then
      let g := g.setQueue qs
      if q.marked.isEmpty then g else { g with left := g.left ++ [⟨q.first, q.words, q.marked, g.laneUntil⟩] }
    else g
/-- Whether a run that has left the queue has completed (R15): its last word's occupancy is over, and no long-latency word of
its range is outstanding. -/
def LeftRun.complete (s : State) (g : Group) (r : LeftRun) : Bool :=
  let inside := fun (pc : VAddr) => (pc - r.first).toNat < 12 * r.words
  r.ends ≤ s.cycle && !(g.loads.any fun l => l.stream = .lane && inside l.pc) && g.traces.isEmpty &&
    !((s.core g.ref.core.toNat).nevals.any fun n => n.g = g.ref && inside n.pc)
/-- The marks of completed runs are gone (R15). -/
def clearLeft (s : State) (r : GroupRef) : State := s.modGroup r fun g => { g with left := g.left.filter fun l => !(l.complete s g) }

/-- A word of a stream has issued: the program counters as given, or, at a re-injected entry, those of the return, the
entry done (R311). -/
def Group.issuedAt (g : Group) (st : Stream) (pc spc lpc : VAddr) (now : Nat) : Group :=
  let g := g.issued st
  match g.inject with
  | some (a, b, _) => Group.runOver { g with spc := a, lpc := b, inject := none, replay := g.replay.drop 1 }
  | none =>
    if st = .scalar then { g with spc := spc, blockedS := false, skipbp := skipAfter g.skipbp pc, stamp := now }
    else Group.runOver { g with lpc := lpc, blockedL := false, fenced := false, skipbpL := skipAfter g.skipbpL pc }

/-- The destination of a scalar ALU instruction (R125), and the registers that it reads; none for every other. -/
def aluUse (i : Instr) : Option (BitVec 5 × List (BitVec 5)) :=
  match i with
  | .add d a b _ | .sub d a b _ | .mul d a b _ | .mulh d a b _ | .and d a b | .or d a b | .xor d a b | .shl d a b _
  | .shr d a b _ | .sha d a b _ | .min d a b _ | .max d a b _ | .cmp d a b _ _ => some (d, [a, b])
  | .sel d a b c => some (d, [a, b, c])
  | .addImmediate d a _ | .andImmediate d a _ | .orImmediate d a _ | .xorImmediate d a _ | .shlImmediate d a _ _
  | .shrImmediate d a _ _ | .shaImmediate d a _ _ | .cmpImmediate d a _ _ _ => some (d, [a])
  | .movhi d _ _ => some (d, [d])
  | .movi d _ | .lea d _ | .sprd d _ => some (d, [])
  | _ => none
/-- The destination of a scalar ALU word (R125), and the registers that it reads. -/
def aluOf (w : BitVec 32) : Option (BitVec 5 × List (BitVec 5)) :=
  match decodeScalar w with
  | .ok i => aluUse i
  | .error _ => none
/-- R274: what a scheduler's scalar unit has issued, after a word of a group. -/
def issueScalar (s : State) (g : Group) : State :=
  s.modCore g.ref.core.toNat fun c =>
    let n := g.lane.toNat / 32
    let r := c.scheds.getD n ⟨0, 0, none, none⟩
    let words := if r.cycle = s.cycle then r.words + 1 else 1
    { c with scheds := listSet c.scheds n ⟨s.cycle, words, some g.ref, (aluOf ((g.wordOf .scalar).setWidth 32)).map (·.1)⟩ }
/-- R10, R11, R125: the cycles for which a lane word of a group occupies its lane. -/
def occupancy (g : Group) (v : W96) : Nat :=
  let (op, w) := unpack v
  let n := (threadsOf (selectedOf g w)).length
  if w.u || (0x098 ≤ op && op ≤ 0x09B) || op = 0x0D0 || op = 0x0D1 then 4
  else if op = 6 || (0x048 ≤ op && op ≤ 0x04E) then max (2 * n) 4 else max n 4
/-- R10, R273: a lane word of a group begins its occupancy, and the lane's pointer moves past the group. -/
def occupyLane (s : State) (g : Group) : State :=
  { (s.modCore g.ref.core.toNat fun c => { c with lanePtr := c.lanePtr.set g.lane.toNat (BitVec.ofNat 2 (g.pos + 1)) }).modGroup
    g.ref fun h => { h with laneUntil := s.cycle + occupancy g (g.wordOf .lane) } with issued := true }
/-- A scalar word that had begun in an earlier turn was counted then (R274). -/
def Group.begunS (g : Group) : Bool := g.blockedS && g.inject.isNone
/-- A word of a stream has issued: its unit is told, but of one that it has been told of when it began to wait. -/
def issueWord (s : State) (g : Group) (st : Stream) : State :=
  if st = .scalar then (if g.begunS then s else issueScalar { s with issued := true } g)
  else ageNevals (if g.fenced then s else occupyLane s g) g.ref

/-- R311: an UNFINISHED word that has executed again and waits again: its stream waits in it, as it did before the stop, and
the other entries and words go on (assumption 75). -/
def Group.waitsAgain (g : Group) (st : Stream) : Group :=
  match g.inject, g.replay with
  | some (a, b, r), e :: es =>
    if e.unfinished && e.stream = st then
      let next := if st = .scalar then g.spc + 4 else g.lpc + 12
      let goal := if st = .scalar then a else b
      { g with inject := none, replay := es
               wordS := if st = .scalar then e.word else g.wordS
               wordL := if st = .lane then e.word else g.wordL
               redirect := (if next = goal then [] else [(st, next, goal)]) ++ g.redirect.filter (·.1 ≠ st)
               served := if st = .lane then g.served ||| (g.active &&& ~~~r) else g.served }
    else g
  | _, _ => g

/-- Whether the debugger's step ends with a word of this stream (R323). -/
def Group.steps (g : Group) (st : Stream) : Bool :=
  !g.trapm && g.inject.isNone && ((g.hold = .stepLane && st = .lane) || (g.hold = .stepScalar && st = .scalar))
/-- The cause that a completed word raises, if any: a step's (`stepped`) before the word's own (R306, R307). One of a load is
raised when the load is complete, and no word of its stream issues before. -/
def afterWord (s : State) (r : GroupRef) (stepped : Bool) (pc : VAddr) (loads : Nat) (own : Option (Nat × Nat × Mask)) : State :=
  match s.group? r with
  | none => s
  | some g =>
    match (if stepped then some (0x31, 0, 0) else if g.trapm && (own.any fun c => c.1 = 0x32) then none else own) with
    | none => s
    | some (code, aux, tm) =>
      let c := causeAt g code 0 0 aux pc tm 0
      if loads < g.loads.length then
        s.modGroup r fun g => { g with loads := (g.loads.zipIdx).map fun (l, i) =>
          if i + 1 = g.loads.length then { l with watch := some c, window := 0 } else l }
      else raise s g c

/-- The common end of a word of a group: its result turned into the next state. A word that waits, or that would be
one more UNFINISHED word than R310 allows, has not issued. -/
def finishWord (s0 : State) (g : Group) (st : Stream) (step : VAddr) (r : WordRes) : State :=
  let pc := if st = .scalar then g.spc else g.lpc
  let who := fun (tm : Mask) => if st = .scalar then 0#32 else tm
  let adv := fun (s : State) => (issueWord s g st).modGroup g.ref fun g => g.issuedAt st pc (g.spc + step) (g.lpc + step) s.cycle
  let keep := fun (s : State) => (issueWord s g st).modGroup g.ref fun g => g.issuedAt st pc g.spc g.lpc s.cycle
  let begun := g.inject.isSome || (if st = .scalar then g.blockedS else g.blockedL)
  let full := !begun && 12 ≤ inFlight s0 g
  let told := fun (s : State) => { s with issued := true }
  let after := fun (s : State) (own : Option (Nat × Nat × Mask)) => afterWord s g.ref (g.steps st) pc g.loads.length own
  match r with
  | .done s => after (adv s) none
  | .watched s tm => after (adv s) (some (0x32, 0, who tm))
  | .jump s => after (keep s) none
  | .wait s => s
  | .hold s => if g.fenced then s else (occupyLane s g).modGroup g.ref fun g => { g with fenced := true }
  | .block s =>
    if full then s0
    else (if st = .scalar then issueWord s g st else s).modGroup g.ref fun g =>
      (if st = .scalar then { g with blockedS := true } else { g with blockedL := true } : Group).waitsAgain st
  | .park s fs => if full then s0 else told (parkStream s g st fs)
  | .cause code sub tm fa => told (raiseWord s0 g st pc code sub (who tm) fa)
  | .denied s code tm fa => told (raiseWord s g st pc code 0 (who tm) fa)
  | .after s code aux => after (adv s) (some (code, aux, 0))

/-- The outcome type of every meaning. -/
abbrev Out := Host.Outcome State Fault Refusal

/-- A scalar word (R141): it stalls while a register it uses has a write pending or the lookahead of its stream
holds it; `closes` for the words that close a window (R126). -/
def scalarWord (s : State) (uses : List (BitVec 5)) (closes : Bool) (f : Group → Block → WordRes) : Out :=
  match s.cur with
  | .scalar r =>
    match s.group? r, s.block? (blockOf r) with
    | some g, some b =>
      .next (if uses.any g.pendingS || !(windowOpen s g .scalar closes) then s
        else finishWord s g .scalar 4 (f g b))
    | _, _ => .fault .noStream
  | _ => .fault .noStream

/-- R158, R174, R124: a word that only raises a decode-time cause. -/
def illegalWord (s : State) (code : Nat) : Out :=
  match s.cur with
  | .scalar r =>
    match s.group? r with
    | some g => .next (finishWord s g .scalar 4 (.cause code 0 0 0))
    | none => .fault .noStream
  | .lane r =>
    match s.group? r with
    | some g => .next (finishWord s g .lane 12 (.cause code 0 0 0))
    | none => .fault .noStream
  | .matrix r =>
    match s.block? r with
    | some b => .next (raiseSeq s b code 0 0)
    | none => .fault .noStream
  | .none => .fault .noStream

/-- Registers that outstanding lane loads are still to write (R126, R207). -/
def Load.regs (l : Load) : List Nat :=
  if l.discard then [] else (List.range (max 1 (l.size / 4))).map (l.dst + ·)
/-- Whether a lane word that meets these V registers and predicates depends on an outstanding load; a REFILL writes a
predicate too. -/
def Group.dependsLane (g : Group) (vs ps : List Nat) : Bool :=
  g.loads.any fun l => l.stream = .lane && (l.regs.any vs.contains || (l.pred ≠ 0 && ps.contains l.pred))
/-- Registers that a TRACE or a NEVAL of the group is still to write. -/
def pendingV (s : State) (r : GroupRef) (vs : List Nat) : Bool :=
  (s.rays.any fun y => y.g = r && vs.contains y.d) ||
  (s.core r.core.toNat).nevals.any fun n => n.g = r &&
    (List.range (bits n.word.toNat 35 32 + 1)).any fun i => vs.contains (bits n.word.toNat 67 60 + i)

/-- The lowest selected thread (R15). -/
def lowest (m : Mask) : Nat := ((threadsOf m).head?).getD 0
/-- The threads whose pass is made: with .U the lowest selected one, for all (R11). -/
def passes (w : LaneWord) (sel : Mask) : Mask := if w.u && sel ≠ 0 then threadBit (lowest sel) else sel

/-- The threads of which a V register that a word reads is poisoned (R345). -/
def spoiledV (g : Group) (rs : List Nat) (sel : Mask) : Mask :=
  if g.badV.isEmpty then 0
  else (threadsOf sel).foldl (fun m t => if rs.any fun n => g.badV.contains (32 * n + t) then m ||| threadBit t else m) 0

/-- The threads of which the H register that a word reads by code 253 is poisoned (R36, R345). -/
def spoiledH (g : Group) (w : LaneWord) (src : List (BitVec 8)) (sel : Mask) : Mask :=
  if g.badH.isEmpty || !(src.contains 253#8) then 0
  else (threadsOf sel).foldl (fun m t => if g.badH.contains (32 * (w.ix % 8) + t) then m ||| threadBit t else m) 0

/-- What a lane word declares beside its effect: the operand codes it uses (cause 0x03), the V registers it reads
or writes (cause 0x08, R37, and the dependencies of R126), the predicates it reads or writes beside its guard, the V
registers and the operand codes it reads (cause 0x01 where their data is poisoned, R345), and whether it is a lane control
word. -/
structure LaneUse where
  codes : List (BitVec 8)
  vs : List Nat
  ps : List Nat := []
  rs : List Nat := []
  src : List (BitVec 8) := []
  control : Bool := false
deriving DecidableEq, Repr

/-- A lane word (R118, R124, R178, R307): the dependencies of its operands; code 253 outside trap mode, which is met at decode;
poisoned registers and the register range, for a word with a selected thread, the lower cause first; then its own effect for the
selected threads. -/
def laneWord (s : State) (w : LaneWord) (u : LaneUse) (f : Group → Block → Mask → WordRes) : Out :=
  match s.cur with
  | .lane r =>
    match s.group? r, s.block? (blockOf r) with
    | some g, some b =>
      .next
        (if !(windowOpen s g .lane u.control) || g.dependsLane u.vs (w.gp.toNat :: u.ps) || pendingV s r u.vs then s
         else
          let sel := if u.control then g.active else selectedOf g w
          let bad := spoiledV g u.rs (passes w sel) ||| spoiledH g w u.src (passes w sel)
          let res :=
            if !g.trapm && u.codes.contains 253#8 then .cause 3 0 sel 0
            else if bad ≠ 0 then .denied (logSpoiled s g.ref.core.toNat) 1 bad 0
            else if sel ≠ 0 && u.vs.any (fun n => g.vcnt ≤ n) then .cause 8 0 sel 0
            else f g b sel
          finishWord s g .lane 12 res)
    | _, _ => .fault .noStream
  | _ => .fault .noStream

/-- What a matrix word comes to. -/
inductive MatRes where
  | done (s : State)
  | jump (s : State)
  | wait (s : State)
  | park (s : State) (fs : List PageFault)
  | cause (s : State) (code sub : Nat) (faddr : W64)
deriving DecidableEq, Repr

/-- A parked sequencer (R237). -/
def parkSeq (s : State) (b : Block) (fs : List PageFault) : State :=
  let (s, p) := postAll s b.ctx 2 b.ref.core.toNat (slotsOf b.ref.bslot.toNat 0) fs
  s.modBlock b.ref fun b => { b with seq := { b.seq with park := some p } }

/-- The bytes of a transfer: those it has read, else as the sequencer's core sees them now (R235, R239). -/
def transferBytes (s : State) (b : Block) (m : MLoad) : List Byte :=
  m.data.getD (m.spans.flatMap fun (a, n) =>
    if m.scratch then b.scratch.read a n
    else (List.range n).map fun i => pendByte (s.core b.ref.core.toNat).pend (a + i) (memByte s (a + i)))
/-- Transfers of a sequencer that a test names read their bytes now. -/
def captureTransfers (s : State) (r : BlockRef) (f : MLoad → Bool) : State :=
  s.modBlock r fun b => { b with seq := { b.seq with mloads := b.seq.mloads.map (fun m =>
    if f m then { m with data := some (transferBytes s b m) } else m) } }
/-- R65, R69: an ordering point of a sequencer. -/
def captureSeq (s : State) (r : BlockRef) : State :=
  sealWrites (captureTransfers s r fun m => !m.scratch) r.core.toNat fun a => a = .seq r

/-- A tile's bytes as they lie in the B-store from slot 0 of the transfer (R42, R239). -/
def tileBytes (fmt : Nat) (bs : List Byte) : List Byte :=
  if fmt = 1 then bs.flatMap fun b => [b &&& 0x0F#8, b >>> 4]
  else if fmt = 3 then
    ((bs.zipIdx).filter fun x => x.2 % 2 = 0).map (·.1) ++ ((bs.zipIdx).filter fun x => x.2 % 2 = 1).map (·.1)
  else bs

/-- A transfer reaches its store (R239, R240). -/
def performTransfer (s : State) (r : BlockRef) (m : MLoad) : State :=
  s.modBlock r fun b =>
    let bs := transferBytes s b m
    if m.scale then b.putScale m.dst bs else b.putB (16384 * m.dst) (tileBytes m.fmt bs)

/-- The oldest transfer of a sequencer resolves. -/
def resolveTransfer (s : State) (b : Block) : State :=
  match b.seq.mloads with
  | [] => s
  | m :: ms => (performTransfer s b.ref m).modBlock b.ref fun b => { b with seq := { b.seq with mloads := ms } }

/-- R238: the cycles from a matrix word's issue to that of the next, a long-latency word's one; an MMA's are its attempts', so
none are left when it commits (R276). -/
def contractOf (v : W96) : Nat :=
  let (op, w) := unpack v
  if op = 0x180 then 0
  else if op < 0x183 then 1
  else if op = 0x183 then 4 + (bits w.imm.toNat 20 10 + 16) / 16
  else if op ≤ 0x185 then 4 + 2 * (w.c.toNat + 1)
  else 2
/-- A matrix word has issued: its contract latency begins (R238), the windows of earlier transfers shrink (R126), and MPC
moves on, past a word that executes again to where the sequencer stood (R247). -/
def seqIssued (now : Nat) (b : Block) : Block :=
  { b with seq := { b.seq with skipbp := false, ready := now + contractOf b.seq.word
                               mloads := b.seq.mloads.map fun m => { m with window := m.window - 1 } } }
def seqNext (now : Nat) (b : Block) : Block :=
  { seqIssued now b with seq := { (seqIssued now b).seq with mpc := (b.seq.redo.head?).getD (b.seq.mpc + 12), redo := b.seq.redo.drop 1 } }

/-- A matrix word (R235, R237): transfers whose window it closes, or whose destination it meets, resolve first. -/
def matrixWord (s : State) (closes : Bool) (clash : MLoad → Bool) (f : Block → MatRes) : Out :=
  match s.cur with
  | .matrix r =>
    match s.block? r with
    | some b =>
      .next (if b.seq.mloads.any fun m => closes || m.window = 0 || clash m then resolveTransfer s b
        else
          match f b with
          | .done s => s.modBlock r (seqNext s.cycle)
          | .jump s => s.modBlock r (seqIssued s.cycle)
          | .wait s => s
          | .park s fs => parkSeq s b fs
          | .cause s code sub fa => raiseSeq s b code sub fa)
    | none => .fault .noStream
  | _ => .fault .noStream

/-- An event of a device unit or an outside party: it acts on no stream. -/
def event (s : State) : Out := .next s

end Sys2Proof.Machine
end

