-- ==== Sys2Proof/Machine/Flags.lean ====
section
/-! DEFINITION. The float status register (R95) and the walker flags of GSR (R34, R156). -/

namespace Sys2Proof.Machine

open Sys2Proof

/-- FSR bits that a write may change: RM, the enables and the sticky flags (R95). -/
def fsrWritable : W32 := 0x0000FF1F#32

/-- The lowest enabled exception as its cause, 0x20-0x24 (R95). -/
def enabledCause (fsr : W32) (e : Exc) : Option Nat :=
  if e.i && fsr.getLsbD 8 then some 0x20
  else if e.z && fsr.getLsbD 9 then some 0x21
  else if e.o && fsr.getLsbD 10 then some 0x22
  else if e.u && fsr.getLsbD 11 then some 0x23
  else if e.x && fsr.getLsbD 12 then some 0x24
  else none

/-- Exceptions ORed into the sticky flags (R95). -/
def stickyFlags (fsr : W32) (e : Exc) : W32 := fsr ||| e.toFlags.setWidth 32

/-- FSR.RM as a mode: codes 0-3 (R95). -/
def modeOfCode (m : Nat) : Mode :=
  match m with
  | 1 => .rz | 2 => .rm | 3 => .rp | _ => .rn

/-- The mode of a rounding code (R93): DYN reads FSR.RM, SR takes its word. -/
def modeOf (rm : Nat) (fsr : W32) (sr : W32) : Mode :=
  match rm with
  | 5 => modeOfCode (bits fsr.toNat 15 13)
  | 4 => .sr sr.toNat
  | m => modeOfCode m

/-- GSR as a program reads it (R34). -/
def gsr (g : Group) (compat : Bool) : W64 :=
  BitVec.ofNat 64
    (g.e.toNat + 2 ^ 6 * g.wlast.toNat + 2 ^ 9 * g.ref.slot.toNat + 2 ^ 14 * g.ref.bslot.toNat +
     2 ^ 17 * (if g.wide then 1 else 0) + 2 ^ 18 * g.lane.toNat + 2 ^ 25 * g.ref.core.toNat +
     2 ^ 31 * (g.vunits % 32) + 2 ^ 36 * (g.variant % 4) + 2 ^ 38 * (if compat then 1 else 0) +
     2 ^ 39 * (if g.trapm then 1 else 0) + 2 ^ 40 * g.ctx.toNat)

/-- BASE plus the indices times the strides, modulo 2^64 (R156). -/
def walkerAddr (w : Walker) : W64 :=
  BitVec.ofInt 64 ((w.idx.zip w.strides).foldl (fun a p => a + (p.1 : Int) * p.2) (w.base.toNat : Int))

/-- E of a read (R156): the running "last" of each dimension, copied above the top one. -/
def walkerFlags (w : Walker) : BitVec 6 :=
  let last := fun (d : Nat) => ((w.idx.zip w.counts).take (d + 1)).all fun p => p.1 + 1 = p.2
  (List.range 6).foldl (fun e d => if last d then e ||| (1#6 <<< d) else e) 0#6

/-- The indices after a read (R156). -/
def stepIndex : List Nat → List Nat → List Nat
  | i :: is, c :: cs => if i + 1 < c then (i + 1) :: is else 0 :: stepIndex is cs
  | is, _ => is

/-- R156: one read of walker k. An unbound walker gives 0 and sets E to ones. -/
def readWalker (g : Group) (k : Nat) : W64 × Group :=
  match g.walkers[k]? with
  | none => (0, { g with e := 0x3F, wlast := BitVec.ofNat 3 k })
  | some w =>
    if w.counts.isEmpty then (0, { g with e := 0x3F, wlast := BitVec.ofNat 3 k })
    else (walkerAddr w,
      { g with e := walkerFlags w, wlast := BitVec.ofNat 3 k
               walkers := listSet g.walkers k { w with idx := stepIndex w.idx w.counts } })

end Sys2Proof.Machine
end

