-- ==== Sys2Proof/Machine/Operands.lean ====
section
/-! DEFINITION. The operand forms of lane words (R116, R117, R129, R179, R209), the queues behind Q registers (R16,
R138), and the frames that arithmetic and predicate words share. -/

namespace Sys2Proof.Machine

open Sys2Proof


/-- A K register as a lane word reads it live. -/
def liveS (s : State) (g : Group) (b : Block) (code : BitVec 8) (ix : Nat) : W64 :=
  if code = 249#8 then g.readS (BitVec.ofNat 5 ix) else b.readK s.cycle (ix % 16)

/-- An S or K register as it stood at a run's LRUN (R14). -/
def heldAt (r : Run) (code : BitVec 8) (ix : Nat) : W64 :=
  if code = 249#8 then (if ix = 0 then 0 else r.snapS.get ix) else r.snapK.get (ix % 16)

/-- Codes 249 and 250: the value captured at LRUN for a word in its run's range, else the live one (R14, R205,
R308). -/
def scalarOperand (s : State) (g : Group) (b : Block) (code : BitVec 8) (ix : Nat) : W64 :=
  if g.trapm || g.loop.isSome then liveS s g b code ix
  else match g.run? with
    | none => liveS s g b code ix
    | some r =>
      match r.index g.lpc with
      | some i => if r.later.contains i then heldAt r code ix else r.caps.getD i 0
      | none => liveS s g b code ix

/-- The port of a context (R292). -/
def portOf (s : State) (c : BitVec 8) (p : Nat) : Option Port := (s.ctx? c).bind fun x => x.ports.find? (·.port = p)

/-- R297, R313: a sub-code of island `n` whose group has exited is posted. -/
def postIsland (s : State) (c : BitVec 8) (n port sub : Nat) : State :=
  postPlain s c 6 5 n 0 (BitVec.ofNat 64 port) (BitVec.ofNat 64 (0x11 + 256 * sub))
/-- A port as a block reaches it; a test block belongs to no context (R348). -/
def portFor (s : State) (b : Block) (p : Nat) : Option Port := if b.test then none else portOf s b.ctx p
/-- A byte of the image bound at a port. -/
def imageByte (s : State) (p : Port) (o : Nat) : Nat := ((s.images[p.image]?.map fun (i : Image) => i.bytes.getD o 0).getD 0).toNat
/-- INW + 1 and OUTW + 1 of a port's image (R282). -/
def portIn (s : State) (p : Port) : Nat := imageByte s p 8 + 1
def portOut (s : State) (p : Port) : Nat := imageByte s p 9 + 1

/-- What a read of a queue comes to. -/
inductive QueueRes where
  | value (v : W32) (s : State)
  | empty
  | cause (code sub port : Nat)
deriving DecidableEq, Repr

/-- The island queue of a block for an index (R295). -/
def islandQueue (b : Block) (p : Nat) : Option IslandQueue := b.islq.find? (·.port = p)
def setIslandQueue (b : Block) (p : Nat) (es : List (Option (List W32))) : Block :=
  { b with islq := b.islq.map fun q => if q.port = p then { q with entries := es } else q }

/-- The entries of a queue that QREADs older than this party's own pop have claimed (R224). -/
def Block.claimed (b : Block) (key party : Nat) : Nat :=
  ((b.claims.takeWhile fun c => !(c.1 = key && c.2.1 = party)).filter (·.1 = key)).foldl (fun n c => n + c.2.2) 0
def Block.setClaim (b : Block) (key party n : Nat) : Block :=
  { b with claims :=
      if n = 0 then b.claims.filter fun c => !(c.1 = key && c.2.1 = party)
      else if b.claims.any fun c => c.1 = key && c.2.1 = party then
        b.claims.map fun c => if c.1 = key && c.2.1 = party then (key, party, n) else c
      else b.claims ++ [(key, party, n)] }

/-- Whether a party may push to, or pop from, a named queue now (R77): in one cycle ascending slots go in order, so one that
comes after a higher slot goes in a later cycle; the sequencer is slot 32. -/
def Block.queueTurn (b : Block) (q : Nat) (push : Bool) (now slot : Nat) : Bool :=
  !(b.lastQueue.any fun (n, p, c, k) => n = q && p = push && c = now && slot < k)
def Block.noteQueue (b : Block) (q : Nat) (push : Bool) (now slot : Nat) : Block :=
  { b with lastQueue := (q, push, now, slot) :: b.lastQueue.filter fun (n, p, _, _) => !(n = q && p = push) }
def Block.setQueueAt (b : Block) (q : Nat) (l : List W32) : Block := { b with queues := listSet b.queues q l }

/-- One pop of the queue that QBIND binds to Q register k, as a one-word read (R16, R138). -/
def popQ (s : State) (b : Block) (party k : Nat) : QueueRes :=
  let q := (b.kernel.qbind.getD k 0).toNat
  match q / 64 with
  | 1 =>
    let l := b.queues.getD (q % 8) []
    let i := b.claimed (q % 8) party
    match l[i]? with
    | none => .empty
    | some v =>
      if b.queueTurn (q % 8) false s.cycle party then
        .value v (s.modBlock b.ref fun b => (b.noteQueue (q % 8) false s.cycle party).setQueueAt (q % 8) (l.eraseIdx i))
      else .empty
  | 2 =>
    match portFor s b (q % 64) with
    | none => .cause 0x11 1 (q % 64)
    | some p =>
      if portOut s p ≠ 1 then .cause 0x11 2 (q % 64)
      else
        let es := ((islandQueue b (q % 64)).map (·.entries)).getD []
        let i := b.claimed (q % 64 + 8) party
        match es[i]? with
        | some (some ws) =>
          if b.queueTurn (q % 64 + 8) false s.cycle party then
            .value (ws.getD 0 0) (s.modBlock b.ref fun b =>
              setIslandQueue (b.noteQueue (q % 64 + 8) false s.cycle party) (q % 64) (es.eraseIdx i))
          else .empty
        | some none => .cause 0x11 7 (q % 64)
        | none => .empty
  | _ => .cause 0x0B 0 0

/-- What resolving the one selector operand of a word comes to (R116). -/
inductive SelRes where
  | ok (s : State) (v : W64)
  | block
  | cause (code sub : Nat) (faddr : W64)
deriving DecidableEq, Repr

/-- The value that the word's selector field gives every thread; walkers advance and queues pop once (R16). -/
def selector (s : State) (g : Group) (b : Block) (w : LaneWord) (codes : List (BitVec 8)) : SelRes :=
  match codes.find? (fun c => 249 ≤ c.toNat && c.toNat ≤ 252) with
  | none => .ok s 0
  | some c =>
    if c = 251#8 then
      let (v, g') := readWalker g (w.ix % 8)
      .ok (s.modGroup g.ref fun _ => g') v
    else if c = 252#8 then
      match popQ s b g.ref.slot.toNat (w.ix % 8) with
      | .value v s => .ok s (v.setWidth 64)
      | .empty => .block
      | .cause code sub p => .cause code sub (BitVec.ofNat 64 p)
    else .ok s (scalarOperand s g b c w.ix)

/-- What a word's operands are read from: the group as it stood, the word, and the selector's value. -/
structure Env where
  g : Group
  w : LaneWord
  gv : W64

namespace Env

/-- A 32-bit operand of thread t (R116). -/
def r32 (e : Env) (c : BitVec 8) (t : Nat) : W32 :=
  if isV c then e.g.readV c.toNat t
  else match c.toNat with
    | 248 => e.w.imm
    | 253 => e.g.readH (e.w.ix % 8) t
    | 254 => 0
    | 255 => BitVec.ofNat 32 t
    | _ => e.gv.setWidth 32

/-- A V pair, low half first (R179). -/
def pair (e : Env) (n t : Nat) : W64 := e.g.readV (n + 1) t ++ e.g.readV n t

/-- A 64-bit operand (R179): IMM sign-extended when `signed`. -/
def r64 (e : Env) (c : BitVec 8) (t : Nat) (signed : Bool) : W64 :=
  if isV c then e.pair c.toNat t
  else match c.toNat with
    | 248 => if signed then e.w.imm.signExtend 64 else e.w.imm.setWidth 64
    | 253 => (e.g.readH (e.w.ix % 8) t).setWidth 64
    | 254 => 0
    | 255 => BitVec.ofNat 64 t
    | _ => e.gv

/-- An integer element of type code `ty` as an exact integer (R179). -/
def int (e : Env) (ty : Nat) (c : BitVec 8) (t : Nat) : Int :=
  let v := if ty ≥ 6 then (e.r64 c t (ty = 6)).toNat else (e.r32 c t).toNat
  if tySigned ty then sext (tyWidth ty) v else (v % 2 ^ tyWidth ty : Nat)

def f32 (e : Env) (c : BitVec 8) (t : Nat) : Val := valF32 (e.r32 c t)

end Env

/-- A result as it is written into 64 bits (R178, R179): w bits, sign-extended or not. -/
def widen (w : Nat) (signed : Bool) (v : Nat) : W64 :=
  if signed then BitVec.ofInt 64 (sext w v) else BitVec.ofNat 64 (v % 2 ^ w)

/-- Registers that a V operand of a word spans: one, or a pair. -/
def vregs (wide : Bool) (cs : List (BitVec 8)) : List Nat :=
  (cs.filter isV).flatMap fun c => if wide then [c.toNat, c.toNat + 1] else [c.toNat]

/-- A destination written for the selected threads (R117, R178): V and H per thread, S and K from the lowest; a write of
an S register clears the word's mark (R15). -/
def writeDst (s : State) (g : Group) (w : LaneWord) (sel : Mask) (wide : Bool) (val : Nat → W64) : State :=
  let c := w.d
  if isV c then
    s.modGroup g.ref fun g => (threadsOf sel).foldl (fun g t =>
      let g := g.writeV c.toNat t ((val t).setWidth 32)
      if wide then g.writeV (c.toNat + 1) t ((val t).extractLsb' 32 32) else g) g
  else match c.toNat with
    | 249 => s.modGroup g.ref fun h => (h.writeS (BitVec.ofNat 5 w.ix) (val (lowest sel))).clearMarks g.lpc
    | 250 => s.modBlock (blockOf g.ref) fun b => b.writeK s.cycle (w.ix % 16) g.ref.slot.toNat (val (lowest sel))
    | 253 => s.modGroup g.ref fun g => (threadsOf sel).foldl (fun g t => g.writeH (w.ix % 8) t ((val t).setWidth 32)) g
    | _ => s

/-- The exceptions of all selected threads together (R95). -/
def combine (sel : Mask) (f : Nat → Exc) : Exc := (threadsOf sel).foldl (fun e t => e.or (f t)) Exc.none

/-- The thread that thread t's result comes from (R11). -/
def passOf (w : LaneWord) (sel : Mask) (t : Nat) : Nat := if w.u then lowest sel else t

/-- The value checks of a word, before any effect: a cause, its threads. -/
abbrev Check := Env → Mask → Option (Nat × Mask)
def noCheck : Check := fun _ _ => none

/-- An arithmetic word (R178): `cs` the source codes, `vs` every V register it meets, those of D first, `ps` the predicates it reads, `val` the 64-bit result and
the exceptions of one thread. With no selected thread it has no effect. The value that R206 records for diagnostics on cause
0x04 has no place in the spec, and is recorded nowhere (DESIGN CHOICE, assumption 102). -/
def arithWord (s : State) (w : LaneWord) (cs : List (BitVec 8)) (vs : List Nat) (wide : Bool) (check : Check)
    (val : Env → Nat → W64 × Exc) (ps : List Nat := []) : Out :=
  laneWord s w { codes := w.d :: cs, vs := vs, ps := ps, rs := vs.drop (vregs wide [w.d]).length, src := cs } fun g b sel =>
    if sel = 0 then .done s
    else match selector s g b w cs with
      | .block => .block s
      | .cause code sub fa => .cause code sub sel fa
      | .ok s gv =>
        let e : Env := ⟨g, w, gv⟩
        match check e (passes w sel) with
        | some (code, tm) => .cause code 0 tm 0
        | none =>
          let ex := combine (passes w sel) fun t => (val e t).2
          match enabledCause g.fsr ex with
          | some code => .cause code 0 ((threadsOf (passes w sel)).foldl (fun m t =>
              if enabledCause g.fsr (val e t).2 = some code then m ||| threadBit t else m) 0) 0
          | none =>
            .done (writeDst (s.modGroup g.ref fun g => { g with fsr := stickyFlags g.fsr ex })
              g w sel wide fun t => (val e (passOf w sel t)).1)

/-- An integer word of type `ty` (R179): its exact value, wrapped or saturated, written extended. -/
def intWord (s : State) (w : LaneWord) (cs : List (BitVec 8)) (check : Check) (val : Env → Nat → Int) : Out :=
  let ty := w.ty
  arithWord s w cs (vregs (ty ≥ 6) (w.d :: cs)) (ty ≥ 6) check fun e t =>
    (widen (tyWidth ty) (tySigned ty) (wrap (tyWidth ty) (val e t)), Exc.none)

/-- A 32-bit word without a type: zero-extended into S or K (R178). -/
def wordWord (s : State) (w : LaneWord) (cs : List (BitVec 8)) (val : Env → Nat → W32) (ps : List Nat := []) : Out :=
  arithWord s w cs (vregs false (w.d :: cs)) false noCheck (fun e t => ((val e t).setWidth 64, Exc.none)) ps

/-- A word whose D is a predicate field (R178): bit t of the result for each selected thread. -/
def predWord (s : State) (w : LaneWord) (cs : List (BitVec 8)) (wide : Bool) (val : Env → Mask → Nat → Bool × Exc)
    (ps : List Nat := []) : Out :=
  laneWord s w { codes := cs, vs := vregs wide cs, ps := w.d.toNat :: ps, rs := vregs wide cs, src := cs } fun g b sel =>
    if sel = 0 then .done s
    else match selector s g b w cs with
      | .block => .block s
      | .cause code sub fa => .cause code sub sel fa
      | .ok s gv =>
        let e : Env := ⟨g, w, gv⟩
        let ex := combine (passes w sel) fun t => (val e sel t).2
        match enabledCause g.fsr ex with
        | some code => .cause code 0 ((threadsOf (passes w sel)).foldl (fun m t =>
            if enabledCause g.fsr (val e sel t).2 = some code then m ||| threadBit t else m) 0) 0
        | none =>
          .done (s.modGroup g.ref fun g => { g with fsr := stickyFlags g.fsr ex }.setP w.d.toNat sel
            (maskOf fun t => (val e sel (passOf w sel t)).1))

/-- The signed displacement of R129. -/
def disp24 (w : LaneWord) : Int := sext 24 (w.imm.toNat / 256)

/-- R209: the address of thread t, modulo 2^64. -/
def addrOf (e : Env) (global : Bool) (t : Nat) : W64 :=
  let base : W64 := if isV e.w.a then (if global then e.pair e.w.a.toNat t else (e.g.readV e.w.a.toNat t).setWidth 64)
    else if e.w.a = 254#8 then 0 else e.gv
  let idx : W64 := if isV e.w.b then (e.g.readV e.w.b.toNat t).signExtend 64 else 0
  base + idx + BitVec.ofInt 64 (disp24 e.w)

/-- V registers of a memory operand. -/
def addrRegs (w : LaneWord) (global : Bool) : List Nat := vregs global [w.a] ++ vregs false [w.b]

end Sys2Proof.Machine
end

