-- ==== Sys2Proof/Machine/MemOps.lean ====
section
/-! DEFINITION. What scalar and lane memory words share: outstanding loads (R126, R127, R310), ordering (R65-R73), the
scratchpad (R41, R245) and atomic operations (R72, R73, R147, R214). -/

namespace Sys2Proof.Machine

open Sys2Proof

/-- n bytes at L2 as an agent of the core sees them at this moment (R71). -/
def freshRead (s : State) (core pa n : Nat) : List Byte :=
  (List.range n).map fun i => pendByte (s.core core).pend (pa + i) (memByte s (pa + i))

/-- The value of a load's part, performed now. -/
def performPart (s : State) (l : Load) (p : LoadPart) : LoadPart :=
  if p.val.isSome then p
  else { p with val := some (BitVec.ofNat 128 (leNat (freshRead s l.core.toNat p.pa l.size))) }

/-- Deferred loads of a group that a test names are performed; later reads of their bytes go no further back (R67). -/
def captureLoads (s : State) (r : GroupRef) (f : Load → LoadPart → Bool) : State :=
  let due := fun (l : Load) => l.parts.filter fun p => p.val.isNone && f l p
  let s' := s.modGroup r fun g => { g with loads := g.loads.map fun l =>
    { l with parts := l.parts.map fun p => if f l p then performPart s l p else p } }
  match s.group? r with
  | none => s'
  | some g => g.loads.foldl (fun s l => (due l).foldl (fun s p => renewL1 s l.core.toNat p.pa l.size) s) s'

/-- R67: an agent's later access to bytes that an earlier load of it still defers. -/
def captureMeeting (s : State) (r : GroupRef) (st : Stream) (t pa n : Nat) : State :=
  captureLoads s r fun l p => l.stream = st && p.t = t && p.pa < pa + n && pa < p.pa + l.size

/-- R65, R69: an ordering point of lane threads performs their earlier reads, and their earlier UO writes keep their order
from here on. -/
def captureThreads (s : State) (r : GroupRef) (m : Mask) : State :=
  sealWrites (captureLoads s r fun l p => l.stream = .lane && m.getLsbD p.t) r.core.toNat fun a => match a with
    | .thread g t => g = r && m.getLsbD t
    | _ => false

/-- R65, R69: an ordering point of a group's scalar stream. -/
def captureStream (s : State) (r : GroupRef) : State :=
  sealWrites (captureLoads s r fun l _ => l.stream = .scalar) r.core.toNat fun a => a = .scalar r

/-- A loaded element extended to 64 bits. -/
def extendTo (size : Nat) (signed : Bool) (v : Nat) : W64 := widen (8 * size) signed v

/-- An element loaded into the V registers of thread t (R210). -/
def putElement (g : Group) (d t size : Nat) (signed : Bool) (v : BitVec 128) : Group :=
  if size ≤ 4 then g.writeV d t ((extendTo size signed v.toNat).setWidth 32)
  else (List.range (size / 4)).foldl (fun g i => g.writeV (d + i) t (v.extractLsb' (32 * i) 32)) g

/-- A returned part written to its destination (R145, R210). -/
def deliverPart (g : Group) (l : Load) (t : Nat) (v : BitVec 128) : Group :=
  let g := if l.discard then g
    else if l.stream = .scalar then g.writeS (BitVec.ofNat 5 l.dst) (extendTo l.size l.signed v.toNat)
    else
      let ts := if l.spread ≠ 0 then threadsOf l.spread else [t]
      ts.foldl (fun g t => putElement g l.dst t l.size l.signed v) g
  if l.pred = 0 then g else g.setP l.pred (threadBit t) 0xFFFFFFFF#32

/-- LONG_LATENCY_RESOLVE of load i of a group for some threads (R127): their values arrive. A watched load that is complete
raises its cause (R306, R322); while the group has another cause to take, such a load stays out, and meets its watch point again
when its entry is re-injected (R308, R311). -/
def resolveLoad (s : State) (r : GroupRef) (i : Nat) (m : Mask) : State :=
  match s.group? r with
  | none => s
  | some g =>
    match g.loads[i]? with
    | none => s
    | some l =>
      if l.watch.isSome && g.pend.isSome then s else
      let now := l.parts.filter fun p => m.getLsbD p.t
      let rest := l.parts.filter fun p => !(m.getLsbD p.t)
      let s := (now.filter fun p => p.val.isNone).foldl (fun s p => renewL1 s l.core.toNat p.pa l.size) s
      let g := now.foldl (fun g p => deliverPart g l p.t ((performPart s l p).val.getD 0)) g
      let g := { g with loads := if rest.isEmpty then g.loads.eraseIdx i else g.loads.set i { l with parts := rest } }
      let s := s.modGroup r fun _ => g
      match (if rest.isEmpty then l.watch else none) with
      | some c => if g.trapm then s else raise s g { c with rspc := (resumePcs g).1, rlpc := (resumePcs g).2 }
      | none => s

/-- R310: a group holds at most 12 unfinished loads and words. -/
def loadRoom (s : State) (g : Group) : Bool := inFlight s g < 12

/-- Whether an uncorrectable error stands in the bytes of an access (R345). -/
def poisonedAt (s : State) (n : Nat) (xs : List (Nat × W64 × Xlat)) : List (Nat × W64 × Xlat) :=
  xs.filter fun (_, _, x) => poisoned s x.pa n
def poisonCause (s : State) (xs : List (Nat × W64 × Xlat)) : WordRes :=
  .denied (logPoison s ((xs.head?.map fun (_, _, x) => x.pa).getD 0)) 1 (xs.foldl (fun m (t, _, _) => m ||| threadBit t) 0) ((xs.head?.map fun (_, va, _) => va).getD 0)

/-- The stacked-cache allocations of a word's accesses (R47). -/
def allocateAll (s : State) (n : Nat) (xs : List (Nat × W64 × Xlat)) : State := xs.foldl (fun s (_, _, x) => allocate s x.pte x.pa n) s

/-- The lines that a word of a REPLAY's loop touches (R324). -/
def touchLines (s : State) (b : Block) (r : GroupRef) (n : Nat) (xs : List (Nat × W64 × Xlat)) : State :=
  if b.test then
    s.modGroup r fun g => { g with loop := g.loop.map fun l => { l with lines := (xs.flatMap fun (_, _, x) => linesOf x.pa n) ++ l.lines } }
  else s

/-- The checked accesses of a word, then its body; a watched word is marked (R322). -/
def withAccess (s : State) (g : Group) (b : Block) (k : Access) (size : Nat) (vas : List (Nat × W64))
    (body : State → List (Nat × W64 × Xlat) → WordRes) : WordRes :=
  match access s (some g.ref.core.toNat) b.test g.ctx k size vas with
  | (s, .cause code tm fa) => .denied s code tm fa
  | (s, .park fs) => .park s fs
  | (s, .ok xs) =>
    let bad := if k = .write then [] else poisonedAt s size xs
    if !bad.isEmpty then poisonCause s bad
    else
      let m := if b.test then 0 else watchHit s g.ctx k size vas
      match body (allocateAll s size xs) xs with
      | .done s => if m ≠ 0 then .watched s m else .done (touchLines s b g.ref size xs)
      | .watched s m' => .watched s (m ||| m')
      | r => r

/-- R66: every access of a word takes the strongest kind among its pages. -/
def asKind (k : Nat) (x : Xlat) : Pte := { x.pte with ord := k }

/-- R65: an SO access follows every earlier write of its core. -/
def kindReady (s : State) (core kind : Nat) : Bool := kind ≠ 0 || released s core 6
def soReady (s : State) (core : Nat) (xs : List (Nat × W64 × Xlat)) : Bool := kindReady s core (strongest xs)

/-- R65: the fence at scope 6 after an SO access. -/
def soAfter (s : State) (core kind : Nat) : State := if kind = 0 then acquire s core 6 else s

/-- The bytes that a scalar word reads at once at translated addresses, `size` at each, all of the strongest kind among its
pages: a strongly ordered word is an ordering point before and after (R65, R66). -/
def readNow (s : State) (g : Group) (size : Nat) (xs : List (Nat × W64 × Xlat)) : State × List Byte :=
  let k := strongest xs
  let s := if k = 0 then captureStream s g.ref
    else xs.foldl (fun s (_, _, x) => captureMeeting s g.ref .scalar 0 x.pa size) s
  let (s, bs) := xs.foldl (fun (s, bs) (_, _, x) =>
    let (s, b) := coreRead s g.ref.core.toNat (.scalar g.ref) (asKind k x) (x.pte.cpol = 1) x.pa size
    (s, bs ++ b)) (s, [])
  (soAfter s g.ref.core.toNat k, bs)

/-- R245: a store to a locked byte stalls. -/
def lockedAt (b : Block) (a n : Nat) : Bool :=
  match b.lock with
  | none => false
  | some (base, len) => a < base + len && base < a + n

/-- The scratchpad size of a block (R41, R139, R348). -/
def Block.scratchSize (b : Block) : Nat := b.ownVariant.scratch

/-- R41: alignment, then the bound, of scratchpad addresses. -/
def scratchCause (b : Block) (size : Nat) (vas : List (Nat × W64)) : Option WordRes :=
  let bad := vas.filter fun (_, a) => a.toNat % size ≠ 0
  let out := vas.filter fun (_, a) => b.scratchSize < a.toNat + size
  let go := fun (code : Nat) (l : List (Nat × W64)) =>
    some (WordRes.cause code 0 (l.foldl (fun m (t, _) => m ||| threadBit t) 0) ((l.head?.map (·.2)).getD 0))
  if !bad.isEmpty then go 5 bad else if !out.isEmpty then go 6 out else none
/-- R345: poisoned bytes among those that scratchpad accesses read. -/
def spoiledPad (s : State) (b : Block) (size : Nat) (vas : List (Nat × W64)) : Option WordRes :=
  match vas.filter fun (_, a) => spoiled b.badPad a.toNat size with
  | [] => none
  | (t, a) :: l => some (.denied (logSpoiled s b.ref.core.toNat) 1 (l.foldl (fun m (t, _) => m ||| threadBit t) (threadBit t)) a)
/-- The checks of scratchpad addresses that a word reads. -/
def padReadCause (s : State) (b : Block) (size : Nat) (vas : List (Nat × W64)) : Option WordRes :=
  (scratchCause b size vas).or (spoiledPad s b size vas)

/-- The operations of an atomic on w bits: the new value (R147, R214). Code 10 is FADD (R73). -/
def atomApply (op w : Nat) (x y : Nat) : Nat :=
  let si := fun (v : Nat) => sext w v
  match op with
  | 0 => (x + y) % 2 ^ w
  | 1 => if si y < si x then y else x
  | 2 => if si x < si y then y else x
  | 3 => min x y
  | 4 => max x y
  | 5 => x &&& y
  | 6 => x ||| y
  | 7 => x ^^^ y
  | 8 => y
  | _ => (rneF32 (Val.add false (valF32 (BitVec.ofNat 32 x)) (valF32 (BitVec.ofNat 32 y))).1).toNat

/-- R265: an atomic that leaves a registered join counter at zero makes its record ready. -/
def notifyJoins (s : State) (pa n : Nat) : State :=
  { s with ctxs := s.ctxs.map fun x => { x with slots := x.slots.map fun k =>
      if k.ready.isNone && !k.popped && (k.joinPa.any fun j => j < pa + n && pa < j + 4 && memNat s j 4 = 0) then
        { k with ready := some s.cycle } else k } }

/-- The write of an atomic request by an agent of a core (R72); `atomKept` where it writes nothing. -/
def atomKept (s : State) (core pa n : Nat) : State := renewL1 s core pa n
def atomWrite (s : State) (core pa : Nat) (bytes : List Byte) : State := notifyJoins (l2Write s core pa bytes) pa bytes.length

/-- The codes of R110. -/
def atomCode : AtomOp → Nat
  | .add => 0 | .min => 1 | .max => 2 | .minN => 3 | .maxN => 4 | .and => 5 | .or => 6 | .xor => 7 | .xchg => 8 | .cas => 9

/-- The release part of a word at a scope: whether it may act now (R64, R71). -/
def relReady (s : State) (core : Nat) (o : OrdMod) (sc : Nat) : Bool :=
  match o with
  | .rel | .ar => released s core sc
  | _ => true
/-- The acquire part (R71). -/
def acqNow (s : State) (core : Nat) (o : OrdMod) (sc : Nat) : State :=
  match o with
  | .acq | .ar => acquire s core sc
  | _ => s

end Sys2Proof.Machine
end

