-- ==== Sys2Proof/Machine/Runs.lean ====
section
/-! DEFINITION. Lane runs, walkers and the register count (R152-R157, R14, R15, R38, R39). -/

namespace Sys2Proof.Machine

open Sys2Proof

/-- The operand fields of a lane word that may name an S or K register as a source (R14, R116). -/
def laneSources (i : Instr) : List (BitVec 8) :=
  match i with
  | .iadd w | .isub w | .imul w | .imulh w | .idiv w | .imin w | .imax w | .icmp w | .laneShl w | .laneShr w
  | .laneSha w | .laneAnd w | .laneOr w | .laneXor w | .bfe w | .fadd w | .fmul w | .fmin w | .fmax w | .fcmp w
  | .pkadd w | .laneSel w | .laneLd w | .ldc w | .laneLds w | .ldp w => [w.a, w.b]
  | .imad w | .bfi w | .ffma w | .pkfma w | .laneSt w | .laneSts w | .stp w | .laneAtom w | .atoms w | .red w =>
    [w.a, w.b, w.c]
  | .bilv w => if w.x == 1#4 then [w.a, w.b, w.c] else [w.a, w.b]
  | .not w | .popc w | .clz w | .brev w | .bdlv w | .frcp w | .frsq w | .fsqrt w | .fexp2 w | .flog2 w | .fsin w
  | .fcos w | .cvt w | .mov w | .lcall w | .cpy w | .refill w => [w.a]
  | .shfl w => if w.x == 2#4 then [w.b, w.c] else [w.b]
  | .isubIsl w | .qclose w | .neval w => [w.b]
  | .attr w => [w.c]
  | .trace w => [w.b, w.c]
  | _ => []

/-- The S register that a lane word names as its destination through code 249 (R15, R117). -/
def laneMark (i : Instr) : Option (BitVec 5) :=
  let d := fun (w : LaneWord) => if w.d = 249#8 then some (BitVec.ofNat 5 w.ix) else none
  match i with
  | .iadd w | .isub w | .imul w | .imad w | .imulh w | .idiv w | .imin w | .imax w | .laneShl w | .laneShr w
  | .laneSha w | .laneAnd w | .laneOr w | .laneXor w | .not w | .bfe w | .bfi w | .popc w | .clz w | .brev w
  | .bilv w | .bdlv w | .fadd w | .fmul w | .ffma w | .fmin w | .fmax w | .frcp w | .frsq w | .fsqrt w | .fexp2 w
  | .flog2 w | .fsin w | .fcos w | .pkfma w | .pkadd w | .cvt w | .vdot4 w | .vdot8 w | .laneSel w | .mov w
  | .shfl w | .ballot w => d w
  | _ => none

/-- The selector that a word captures: its code and index. -/
def captureOf (i : Instr) : Option (BitVec 8 × Nat) :=
  match wideOf i with
  | none => none
  | some (_, w) => ((laneSources i).find? fun c => c = 249#8 || c = 250#8).map fun c => (c, w.ix)

/-- The physical bytes of a word of a group's code, where they translate (R108, R348). -/
def codeSpan (s : State) (site : Site) (test : Bool) (c : BitVec 8) (pc : VAddr) (n : Nat) :
    State × Except (Deny × W64) (List Nat) :=
  if test then
    if physTop < pc.toNat + n || inWindow pc.toNat then (s, .error (.protection, pc.setWidth 64))
    else (s, .ok ((List.range n).map (pc.toNat + ·)))
  else spanAt s site c .exec false (pc.setWidth 64) n

/-- A lane word as LRUN scans it: none while it does not translate; one that does not decode captures and marks nothing
(R14, R15; assumption 17). -/
def scanWord (s : State) (g : Group) (test : Bool) (pc : VAddr) : Option (Option Instr) :=
  match (codeSpan s (some g.ref.core.toNat) test g.ctx pc 12).2 with
  | .error _ => none
  | .ok pas =>
    match decodeBytes .lane (pas.map (memByte s)) with
    | .ok i => some (some i)
    | .error _ => some none

/-- The words of a queued run that LRUN could not read, scanned again: their captures are the values that stood at LRUN,
and their marks are set (R14, R15). -/
def rescanRun (s : State) (g : Group) (test : Bool) (r : Run) : Run :=
  r.later.foldl (fun r i =>
    match scanWord s g test (r.first + BitVec.ofNat 52 (12 * i)) with
    | none => r
    | some w =>
      { r with
        later := r.later.filter (· ≠ i)
        caps := r.caps.set i (((w.bind captureOf).map fun (c, n) => heldAt r c n).getD 0)
        marks := r.marks ++ ((w.bind laneMark).map fun d => (i, d)).toList }) r
def rescan (s : State) (g : Group) : State :=
  if g.queue.all fun r => r.later.isEmpty then s
  else
    let test := (s.block? (blockOf g.ref)).any (·.test)
    s.modGroup g.ref fun g => g.setQueue (g.queue.map (rescanRun s g test))

/-- R308: in trap mode the runs come from HLBASE. -/
def laneBase (s : State) (g : Group) (b : Block) : VAddr :=
  if g.trapm then ((s.ctx? g.ctx).map fun x => x.desc.hlbase.setWidth 52).getD 0
  else (b.variantAt g.variant).lbase

/-- R152. -/
def execLrun (nw : BitVec 5) (loff : BitVec 21) (s : State) : Out :=
  scalarWord s [] true fun g b =>
    if (if g.trapm then 4 else 16) ≤ g.queue.length then .block s
    else
      let first := laneBase s g b + BitVec.ofNat 52 (12 * loff.toNat)
      let ws := (List.range (nw.toNat + 1)).map fun i => scanWord s g b.test (first + BitVec.ofNat 52 (12 * i))
      let cap := fun (w : Option (Option Instr)) => w.join.bind captureOf
      let later := ((ws.zipIdx).filter fun (w, _) => w.isNone).map (·.2)
      if (ws.any fun w => (cap w).any fun (c, n) => c = 249#8 && g.pendingS (BitVec.ofNat 5 n)) ||
          (!later.isEmpty && (List.range 32).any fun n => g.pendingS (BitVec.ofNat 5 n)) then .wait s
      else
        let run : Run :=
          { first := first, words := nw.toNat + 1, started := false, depth := 0
            caps := ws.map fun w => ((cap w).map fun (c, n) => liveS s g b c n).getD 0
            marks := (ws.zipIdx).filterMap fun (w, i) => (w.join.bind laneMark).map fun d => (i, d)
            later := later
            snapS := if later.isEmpty then [] else g.s
            snapK := if later.isEmpty then [] else b.settled s.cycle }
        .done (s.modGroup g.ref fun g => g.setQueue (g.queue ++ [run]))

/-- A word that begins only as LWAIT does (R153). -/
def afterLanes (g : Group) (s : State) (r : WordRes) : WordRes := if lanesDone s g then r else .wait s

/-- R153, R15. -/
def execLwait (s : State) : Out :=
  scalarWord s [] true fun g _ => if lanesDone s g then .done s else .block s

/-- R154, R155: a descriptor's 64 bytes, none where it is misuse. -/
def walkerOf (bs : List Byte) : Option Walker :=
  let base := fieldAt bs 0 8
  let nd := fieldAt bs 8 1
  let counts := (List.range 6).map fun d => fieldAt bs (16 + 8 * d) 4
  let strides := (List.range 6).map fun d => fieldAt bs (20 + 8 * d) 4
  let low := counts.take nd
  let bad := nd = 0 || 6 < nd || 2 ^ 52 ≤ base || fieldAt bs 9 7 ≠ 0 || low.any (· = 0) ||
    (counts.drop nd).any (· ≠ 0) || (strides.drop nd).any (· ≠ 0)
  if bad then none
  else some { base := BitVec.ofNat 64 base, counts := low, strides := (strides.take nd).map (sext 32),
              idx := low.map fun _ => 0 }

def execWbind (k : BitVec 3) (a : BitVec 5) (s : State) : Out :=
  scalarWord s [a] false fun g b =>
    let va := g.readS a
    afterLanes g s (withAccess s g b .read 8 ((List.range 8).map fun i => (0, va + BitVec.ofNat 64 (8 * i))) fun s xs =>
      if !(soReady s g.ref.core.toNat xs) then .wait s
      else
        let (s, bs) := readNow s g 8 xs
        match walkerOf bs with
        | none => .denied s 0x0B 0 va
        | some w => .done (s.modGroup g.ref fun g => { g with walkers := listSet g.walkers k.toNat w }))

/-- R156. -/
def execWread (d : BitVec 5) (k : BitVec 3) (s : State) : Out :=
  scalarWord s [d] false fun g _ =>
    let (v, g') := readWalker g k.toNat
    .done (s.modGroup g.ref fun _ => g'.writeS d v)

def execRgrowB (n : BitVec 5) (s : State) : Out :=
  scalarWord s [] false fun g b =>
    afterLanes g s (match growResult s g (privOf b g) n.toNat (growFirst s g) with
      | 0 => .done (leaveGrowers (grow s g n.toNat) g.ref)
      | 1 => .block (if (s.core g.ref.core.toNat).growers.any (·.1 = g.ref) then s
               else s.modCore g.ref.core.toNat fun c => { c with growers := c.growers ++ [(g.ref, n.toNat)] })
      | _ => .cause 8 0 0 0)

def execRgrowC (d : BitVec 5) (n : BitVec 5) (s : State) : Out :=
  scalarWord s [d] false fun g b =>
    afterLanes g s (
      let r := growResult s g (privOf b g) n.toNat (growFirst s g)
      let s := if r = 0 then grow s g n.toNat else s
      .done (s.modGroup g.ref fun g => g.writeS d (BitVec.ofNat 64 r)))

/-- R39. -/
def execRshrink (n : BitVec 5) (s : State) : Out :=
  scalarWord s [] false fun g _ =>
    afterLanes g s (
      if n = 0 then .done s
      else if g.vcnt < 8 * n.toNat + 8 then .cause 8 0 0 0
      else .done (serveGrowers (s.modGroup g.ref fun g =>
        { g with vcnt := g.vcnt - 8 * n.toNat, v := g.v.clear (32 * (g.vcnt - 8 * n.toNat)) (256 * n.toNat) })
        g.ref.core.toNat))

end Sys2Proof.Machine
end

