-- ==== Sys2Proof/Machine/Sync.lean ====
section
/-! DEFINITION. Block and peloton barriers (R74-R76, R159), named queues (R77, R160), engine-context handles, chains,
batches and timelines as a scalar stream meets them (R161-R164), fences (R69, R165) and line monitors (R166, R167). -/

namespace Sys2Proof.Machine

open Sys2Proof

/-- R74: draining ends when the leaves reach the reload count. -/
def Barrier.settle (x : Barrier) : Barrier :=
  if x.draining && x.reload ≤ x.leaves then { x with draining := false, arrivals := 0, leaves := 0, parties := [] } else x

/-- R74: an arrival; at completion the arrive-only arrivals count as their own leaves. -/
def Barrier.arrive (x : Barrier) (party : Nat) (nw : Bool) : Barrier :=
  let x := { x with arrivals := x.arrivals + 1, parties := x.parties ++ [(party, nw)] }
  if x.reload ≤ x.arrivals then
    Barrier.settle { x with draining := true, leaves := x.leaves + (x.parties.filter (·.2)).length
                            parties := x.parties.filter fun p => !p.2 }
  else x

/-- R74: a leave. -/
def Barrier.leave (x : Barrier) (party : Nat) : Barrier :=
  Barrier.settle { x with leaves := x.leaves + 1, parties := x.parties.filter fun p => p.1 != party }

/-- R74, retirement: an arrival not yet matched counts its leave; before completion it becomes arrive-only. -/
def Barrier.retire (x : Barrier) (party : Nat) : Barrier :=
  if x.parties.any fun p => p.1 = party && !p.2 then
    if x.draining then x.leave party
    else { x with parties := x.parties.map fun p => if p.1 = party then (party, true) else p }
  else x

/-- What an arrival finds (R159). -/
inductive ArriveRes where
  | misuse | stall
  | counted (x : Barrier)
deriving DecidableEq, Repr

def Barrier.tryArrive (x : Barrier) (party : Nat) (nw : Bool) : ArriveRes :=
  if x.reload = 0 || x.parties.any (·.1 = party) then .misuse
  else if x.draining then .stall
  else .counted (x.arrive party nw)

/-- What a wait finds: none while the use has not completed. -/
def Barrier.tryLeave (x : Barrier) (party : Nat) : Option ArriveRes :=
  if !(x.parties.any fun p => p.1 = party && !p.2) then some .misuse
  else if x.draining then some (.counted (x.leave party))
  else none

def Barrier.none : Barrier := ⟨0, false, 0, 0, []⟩
def Block.barrier (b : Block) (n : Nat) : Barrier := b.bars.getD n Barrier.none
def setBarrier (s : State) (b : Block) (n : Nat) (x : Barrier) : State :=
  s.modBlock b.ref fun b => { b with bars := listSet b.bars n x }

def execBarArrive (nw : Bool) (n : BitVec 8) (s : State) : Out :=
  scalarWord s [] false fun g b =>
    let party := g.ref.slot.toNat
    afterLanes g s (
      match (b.barrier n.toNat).tryArrive party nw with
      | .misuse => .cause 0x0B 0 0 0
      | .stall => .wait s
      | .counted x =>
        if b.kPending s.cycle party then .wait s
        else .done (setBarrier (captureStream s g.ref) b n.toNat x))

def execBarWait (n : BitVec 8) (s : State) : Out :=
  scalarWord s [] false fun g b =>
    match (b.barrier n.toNat).tryLeave g.ref.slot.toNat with
    | none => .block s
    | some (.counted x) => .done (setBarrier (captureStream s g.ref) b n.toNat x)
    | some _ => .cause 0x0B 0 0 0

/-- The peloton indices that a record's PEL and PVALID make valid (R18). -/
def pelotonsOf (r : Slot64) : List Nat :=
  let v := bits r.toNat 291 288
  (List.range 4).filterMap fun i => if bit v i then some (bits r.toNat (263 + 8 * i) (256 + 8 * i)) else none
/-- The pelotons that a block names: none where its record came of neither a SPAWN nor a launch (R19). -/
def Block.pelotons (b : Block) : List Nat := if b.member then pelotonsOf b.record else []
/-- The peloton p of a block's grid, where the block names it. -/
def pelotonOf (s : State) (b : Block) (p : Nat) : Option Peloton :=
  if b.pelotons.contains p then (s.grid? b.grid).bind fun g => g.pels.find? (·.index = p) else none

/-- R75: the fields of a barrier word, none where it is invalid. -/
structure BarWord where
  draining : Bool
  reload : Nat
  arrived : Nat
  left : Nat
deriving DecidableEq, Repr
def barWordOf (v : Nat) : Option BarWord :=
  let st := bits v 63 62
  let rl := bits v 47 40
  if 2 ≤ st || bits v 61 48 ≠ 0 || bits v 39 32 ≠ 0 || bits v 23 16 ≠ 0 || bits v 7 0 ≠ 0 || rl = 0 || 64 < rl then none
  else some ⟨st = 1, rl, bits v 31 24, bits v 15 8⟩
def BarWord.encode (w : BarWord) : Nat :=
  (if w.draining then 2 ^ 62 else 0) + 2 ^ 40 * (w.reload % 256) + 2 ^ 24 * (w.arrived % 256) + 2 ^ 8 * (w.left % 256)

/-- Draining ends when the leaves reach the reload count (R74). -/
def BarWord.settle (w : BarWord) : BarWord :=
  if w.draining && w.reload ≤ w.left then { w with draining := false, arrived := 0, left := 0 } else w
/-- An arrival at the word; an arrive-only one counts its leave with it. Whether the use completes. -/
def BarWord.arrive (w : BarWord) (nw : Bool) : BarWord × Bool :=
  let w := { w with arrived := w.arrived + 1, left := w.left + if nw then 1 else 0 }
  if w.reload ≤ w.arrived then (BarWord.settle { w with draining := true }, true) else (w, false)
def BarWord.leave (w : BarWord) : BarWord := BarWord.settle { w with left := w.left + 1 }

/-- The use of peloton p that is under way, counted at its home. -/
def pelUse (s : State) (b : Block) (p : Nat) : Nat :=
  (((s.grid? b.grid).bind fun g => g.pels.find? (·.index = p)).map (·.uses)).getD 0
def completeUse (s : State) (grid p : Nat) : State :=
  { s with grids := s.grids.map fun g => if g.id = grid then
      { g with pels := g.pels.map fun x => if x.index = p then { x with uses := x.uses + 1 } else x } else g }

/-- The word at BARW, translated for a write of the arriving stream (R75). -/
def withBarWord (s : State) (g : Group) (b : Block) (p : Peloton) (f : State → Nat → BarWord → WordRes) : WordRes :=
  withAccess s g b .write 8 [(0, p.barw)] fun s xs =>
    match xs with
    | (_, _, x) :: _ =>
      if !(released s g.ref.core.toNat 5) then .wait s
      else match barWordOf (memNat s x.pa 8) with
        | none => .denied s 0x0B 0 0
        | some w => f s x.pa w
    | [] => .done s

/-- R159: the block's leave that ends a wait for its own arrival. -/
def pelLeave (s : State) (g : Group) (b : Block) (p : Peloton) : WordRes :=
  if b.pels.any fun a => a.peloton = p.index && a.slot = g.ref.slot.toNat && a.owed && pelUse s b p.index ≤ a.use then .block s
  else withBarWord s g b p fun s pa w =>
    let s := atomWrite s g.ref.core.toNat pa (bytesOf 8 w.leave.encode)
    let s := s.modBlock b.ref fun b => { b with pels := b.pels.map fun a =>
      if a.peloton = p.index && a.slot = g.ref.slot.toNat then { a with owed := false } else a }
    let s := s.modGroup g.ref fun g => { g with waits := { g.waits with pel := none } }
    .done (acquire s g.ref.core.toNat 5)

def execBarParrive (nw : Bool) (n : BitVec 8) (s : State) : Out :=
  scalarWord s [] false fun g b =>
    afterLanes g s (
      match pelotonOf s b n.toNat with
      | none => .cause 0x0B 0 0 0
      | some p =>
        if !p.barrier then .cause 0x0B 0 0 0
        else if g.waits.pel = some n then pelLeave s g b p
        else if b.pels.any fun a => a.peloton = p.index && (a.owed || pelUse s b p.index ≤ a.use) then .cause 0x0B 0 0 0
        else if b.kPending s.cycle g.ref.slot.toNat then .wait s
        else withBarWord s g b p fun s pa w =>
          if w.draining then .wait s
          else
            let (w, full) := w.arrive nw
            let s := captureStream s g.ref
            let use := pelUse s b p.index
            let s := atomWrite s g.ref.core.toNat pa (bytesOf 8 w.encode)
            let s := s.modBlock b.ref fun b => { b with pels :=
              (b.pels.filter fun a => a.peloton != p.index) ++ [⟨p.index, g.ref.slot.toNat, use, !nw⟩] }
            let s := if full then completeUse s b.grid p.index else s
            if nw then .done s
            else .block (s.modGroup g.ref fun g => { g with waits := { g.waits with pel := some n } }))

/-- R159: a wait for every use in which the block has arrived, with no leave. -/
def execBarWaitPel (n : BitVec 8) (s : State) : Out :=
  scalarWord s [] false fun g b =>
    match b.pels.filter fun a => a.peloton = n.toNat with
    | [] => .cause 0x0B 0 0 0
    | as =>
      if as.any fun a => pelUse s b n.toNat ≤ a.use then .block s
      else .done (acquire (captureStream s g.ref) g.ref.core.toNat 5)

/-- R160, R77: a release at scope 0; it blocks while the send allowance is zero. -/
def execQpush (a : BitVec 5) (q : BitVec 3) (s : State) : Out :=
  scalarWord s [a] false fun g b =>
    let depth := b.kernel.qdepth.getD q.toNat 0
    let l := b.queues.getD q.toNat []
    afterLanes g s (
      if depth = 0 then .cause 0x0B 0 0 0
      else if depth ≤ l.length then .block s
      else if b.kPending s.cycle g.ref.slot.toNat || !(b.queueTurn q.toNat true s.cycle g.ref.slot.toNat) then .wait s
      else .done ((captureStream s g.ref).modBlock b.ref fun b =>
        (b.noteQueue q.toNat true s.cycle g.ref.slot.toNat).setQueueAt q.toNat (l ++ [(g.readS a).setWidth 32])))

def execQpop (d : BitVec 5) (q : BitVec 3) (s : State) : Out :=
  scalarWord s [d] false fun g b =>
    if b.kernel.qdepth.getD q.toNat 0 = 0 then .cause 0x0B 0 0 0
    else
      let l := b.queues.getD q.toNat []
      let i := b.claimed q.toNat g.ref.slot.toNat
      match l[i]? with
      | none => .block s
      | some v =>
        if !(b.queueTurn q.toNat false s.cycle g.ref.slot.toNat) then .wait s
        else .done (((captureStream s g.ref).modBlock b.ref fun b =>
          (b.noteQueue q.toNat false s.cycle g.ref.slot.toNat).setQueueAt q.toNat (l.eraseIdx i)).modGroup g.ref fun g =>
            g.writeS d (v.setWidth 64))

/-- A handle's fields (R161). -/
def handleRef (h : W64) : EngineRef := ⟨h.extractLsb' 40 8, h.extractLsb' 32 4⟩
def handleBad (h : W64) : Bool := bits h.toNat 63 48 ≠ 0 || bits h.toNat 39 36 ≠ 0 || 68 ≤ bits h.toNat 47 40
/-- The engine context that a handle of a context names, where it is owned and current. -/
def handleCtx (s : State) (c : BitVec 8) (h : W64) : Option EngineCtx :=
  (s.engine? (handleRef h)).bind fun e => if e.ctx = c && e.gen = h.setWidth 32 then some e else none

/-- A word on a handle (R161). -/
def withHandle (s : State) (g : Group) (h : W64) (f : EngineCtx → WordRes) : WordRes :=
  if handleBad h then .cause 0x0B 0 0 0
  else match (if (s.block? (blockOf g.ref)).any (·.test) then none else handleCtx s g.ctx h) with
    | some e => f e
    | none => .cause 6 0 0 0

/-- The scope at which an engine context acts: its declared one, 5 for an engine that is no copy engine (R61, R80). -/
def EngineCtx.acts (e : EngineCtx) : Nat := if 64 ≤ e.ref.engine.toNat then max 5 e.scope.toNat else e.scope.toNat

/-- R162. -/
def execCtail (d a : BitVec 5) (s : State) : Out :=
  scalarWord s [d, a] false fun g _ =>
    afterLanes g s (withHandle s g (g.readS a) fun e =>
      let own := e.ref.engine.toNat = g.ref.core.toNat
      if !(released s g.ref.core.toNat (if own then 0 else 5)) then .wait s
      else
        let v := g.readS d
        .done ((captureStream s g.ref).modEngine e.ref fun e => { e with tail := if e.tail.ult v then v else e.tail }))

/-- The copies of a group in the batches up to b (R81). -/
def copiesTo (s : State) (r : GroupRef) (b : Nat) : List GCopy :=
  s.copies.filter fun c => c.g = r && c.batch.any (· ≤ b)
/-- The scope of batch b of a group. -/
def batchScope (s : State) (r : GroupRef) (b : Nat) : Nat := ((s.batches.find? fun x => x.g = r && x.n = b).map (·.scope.toNat)).getD 0
/-- Whether batch b of a group has completed: its copies and those of every batch below, and its release at its scope
(R69, R81; assumption 89). -/
def batchDone (s : State) (r : GroupRef) (b : Nat) : Bool :=
  (copiesTo s r b).all (·.done) && released s r.core.toNat (batchScope s r b)

/-- R163, R81: the open copies closed into the next batch. -/
def closeBatch (s : State) (g : Group) (sc : BitVec 3) : State :=
  let n := g.lastBatch + 1
  { (s.modGroup g.ref fun g => { g with lastBatch := n }) with
    copies := s.copies.map fun c => if c.g = g.ref && c.batch = none then { c with batch := some n } else c
    batches := s.batches ++ [⟨g.ref, n, sc⟩] }

def execCclose (d : BitVec 5) (sc : BitVec 3) (s : State) : Out :=
  scalarWord s [d] false fun g _ =>
    afterLanes g s (
      .done ((closeBatch (captureStream s g.ref) g sc).modGroup g.ref fun x =>
        x.writeS d (BitVec.ofNat 64 (g.lastBatch + 1))))

/-- The cause of a failed copy (R219). -/
def copyCause (status : Nat) : Nat := match status with | 4 => 7 | 5 => 1 | _ => 6

/-- R163, R81, R219: the wait, the report of the lowest failed copy, the acquire. -/
def execCwait (a : BitVec 5) (s : State) : Out :=
  scalarWord s [a] false fun g _ =>
    let b := (g.readS a).toNat
    if b = 0 || g.lastBatch < b then .done s
    else if !(batchDone s g.ref b) then .block s
    else
      let fails := (copiesTo s g.ref b).filter fun c => c.status ≠ 0 && !c.reported
      match fails with
      | c :: cs =>
        let low := cs.foldl (fun m c => if c.n < m.n then c else m) c
        .denied { s with copies := s.copies.map fun c => if c.g = g.ref && c.n = low.n then { c with reported := true } else c }
          (copyCause low.status) 0 0
      | [] =>
        .done (acquire (captureStream s g.ref) g.ref.core.toNat (batchScope s g.ref b))

/-- R164. -/
def execTlwait (d a : BitVec 5) (s : State) : Out :=
  scalarWord s [d, a] false fun g _ =>
    withHandle s g (g.readS a) fun e =>
      if e.timeline.ult (g.readS d) then .block s
      else .done (acquire (captureStream s g.ref) g.ref.core.toNat e.acts)
def execTlread (d a : BitVec 5) (s : State) : Out :=
  scalarWord s [d, a] false fun g _ =>
    withHandle s g (g.readS a) fun e => .done (s.modGroup g.ref fun g => g.writeS d e.timeline)

/-- R165, R69, R71: a fence of the scalar stream. -/
def scalarFence (s : State) (rel acq : Bool) (sc : Nat) : Out :=
  scalarWord s [] false fun g _ =>
    if rel && (!(lanesDone s g) || !(released s g.ref.core.toNat sc)) then .wait s
    else
      let s := captureStream s g.ref
      .done (if acq then acquire s g.ref.core.toNat sc else s)
def execFenceAcq (sc : BitVec 3) (s : State) : Out := scalarFence s false true sc.toNat
def execFenceRel (sc : BitVec 3) (s : State) : Out := scalarFence s true false sc.toNat
def execFenceAr (sc : BitVec 3) (s : State) : Out := scalarFence s true true sc.toNat

/-- R49: every instruction cache of the cores in scope is invalidated; a middle level includes those of its whole
chamber (R48), so scope 0 reaches as far as scope 1. -/
def invalidateCode (s : State) (core sc : Nat) : State :=
  (List.range Config.cores).foldl (fun s c =>
    if inScope s core c (max 1 sc) || c = core then
      { s.modCore c (fun k => keepCode k fun _ => false) with imid := listSet s.imid (chamberOf c) [] } else s) s
/-- R49: FENCE.I waits for the stores of its own group, in whichever stream, to be performed at L2, which acknowledges them at
every scope (R71). -/
def execFenceI (sc : BitVec 3) (s : State) : Out :=
  scalarWord s [] false fun g _ =>
    if (s.core g.ref.core.toNat).pend.any (·.who.ofGroup g.ref) then .wait s
    else .done (invalidateCode s g.ref.core.toNat sc.toNat)

/-- Armed monitors of the device on the lines of an L2 slice. -/
def tracked (s : State) (slice : Fin 16) : List Monitor :=
  (s.groups.flatMap (·.mons)).filter fun m => m.st = .armed && Config.l2SliceOf m.line = slice
/-- R86: a slice whose tracking capacity is exhausted gives up its oldest monitors; the capacity is not given, so how many
is an open choice (assumption 4). -/
def giveUpOldest (s : State) (slice : Fin 16) (n : Nat) : State :=
  let l := tracked s slice
  let lose := fun (m : Monitor) =>
    if m.st = .armed && Config.l2SliceOf m.line = slice && (l.filter fun x => x.age < m.age).length < n then { m with st := .lost } else m
  if n = 0 then s else { s with groups := s.groups.map fun g => { g with mons := g.mons.map lose } }

/-- R166: the arming comes before every later access of the stream, so the core's copy of the line is renewed with it. -/
def execLnarm (a : BitVec 5) (m : BitVec 2) (s : State) : Out :=
  scalarWord s [a] false fun g b =>
    let va := g.readS a
    match access s (some g.ref.core.toNat) b.test g.ctx .read 1 [(0, va)] with
    | (s, .cause code tm fa) => .denied s code tm fa
    | (s, .park fs) => .park s fs
    | (s, .ok ((_, _, x) :: _)) =>
      let age := (s.groups.flatMap (·.mons)).foldl (fun n (m : Monitor) => max n m.age) 0 + 1
      let mon : Monitor := ⟨if x.pte.cpol = 3 then .lost else .armed, x.pa / 128, age⟩
      let s := s.modGroup g.ref fun g => { g with mons := listSet g.mons m.toNat mon }
      let s := renewL1 s g.ref.core.toNat (128 * mon.line) 128
      let (n, s) := s.choose
      .done (giveUpOldest s (Config.l2SliceOf mon.line) n)
    | (s, .ok []) => .done s

/-- The monitors in a state, as a mask (R87). -/
def monMask (g : Group) (st : MonState) : Nat :=
  (List.range 4).foldl (fun a m => if (g.mons.getD m ⟨.unarmed, 0, 0⟩).st = st then a + 2 ^ m else a) 0

/-- R87: the completion word, while the wait is over. -/
def lnDone (g : Group) : Option Nat :=
  let fired := monMask g .triggered
  let lost := monMask g .lost
  let say := fun (code : Nat) => some (code + 2 ^ 8 * fired + 2 ^ 12 * lost)
  if fired ≠ 0 then say 0
  else if lost ≠ 0 then say 1
  else if monMask g .armed = 0 then some 3
  else if g.waits.ln.any (·.timeout) then say 2
  else none

/-- R167: 0, and 2^40 or more, mean no limit. -/
def execLnwait (d a : BitVec 5) (s : State) : Out :=
  scalarWord s [d, a] false fun g _ =>
    match lnDone g with
    | some v => .done (s.modGroup g.ref fun g =>
        { g.writeS d (BitVec.ofNat 64 v) with
          mons := List.replicate 4 ⟨.unarmed, 0, 0⟩, waits := { g.waits with ln := none } })
    | none =>
      let lim := (g.readS a).toNat
      let ln := g.waits.ln.getD ⟨s.cycle, if 2 ^ 40 ≤ lim then 0 else lim, false⟩
      .block (s.modGroup g.ref fun g => { g with waits := { g.waits with ln := some ln } })

end Sys2Proof.Machine
end

