-- ==== Sys2Proof/Machine/Copy.lean ====
section
/-! DEFINITION. Command entries (R216), the bytes that a copy or fill moves (R217), and CPY's targets (R218). -/

namespace Sys2Proof.Machine

open Sys2Proof

/-- The fields of a command entry (R216). -/
structure CopyEntry where
  kind : Nat
  ndim : Nat
  esize : Nat
  flags : Nat
  skind : Nat
  dkind : Nat
  rsv : Nat
  src : Nat
  dst : Nat
  counts : List Nat
  strides : List Nat
  target : Nat
deriving DecidableEq, Repr

def entryOf (r : Slot64) : CopyEntry :=
  let f := fun (o n : Nat) => bits r.toNat (8 * (o + n) - 1) (8 * o)
  { kind := f 0 1, ndim := f 1 1, esize := f 2 1, flags := f 3 1, skind := f 4 1, dkind := f 5 1, rsv := f 6 2
    src := f 8 8, dst := f 16 8, counts := (List.range 6).map fun d => f (24 + 2 * d) 2
    strides := (List.range 5).map fun d => f (36 + 4 * d) 4, target := f 56 8 }

namespace CopyEntry

def mcast (e : CopyEntry) : Nat := e.flags / 2 % 4
def elem (e : CopyEntry) : Nat := 2 ^ e.esize

/-- The checks of a COPY or a FILL (R216). -/
def moveOk (e : CopyEntry) (chain : Bool) (pels : List Nat) : Bool :=
  let fill := e.kind = 2
  1 ≤ e.ndim && e.ndim ≤ 6 && e.esize ≤ (if fill then 3 else 4) && e.flags < 6 && e.skind ≤ 1 && e.dkind ≤ 3 &&
  (e.counts.take e.ndim).all (· ≠ 0) && (e.counts.drop e.ndim).all (· = 0) &&
  (e.strides.drop (e.ndim - 1)).all (· = 0) && e.strides.all (fun x => x % e.elem = 0) &&
  e.dst % e.elem = 0 && (fill || e.src % e.elem = 0) && !(fill && e.skind ≠ 0) &&
  !(e.mcast ≠ 0 && (e.skind ≠ 0 || e.dkind = 0)) && !(chain && (e.skind ≠ 0 || e.dkind ≠ 0)) &&
  !(e.skind = 1 && e.dkind = 1) &&
  (match e.mcast with
   | 0 => e.target = 0
   | 1 => true
   | _ => e.target < 256 && pels.contains e.target)

/-- The fields that NOP, LINK and WAIT keep zero (R216). -/
def plain (e : CopyEntry) : Bool :=
  e.ndim = 0 && e.esize = 0 && e.flags = 0 && e.skind = 0 && e.dkind = 0 && e.counts.all (· = 0) &&
  e.strides.all (· = 0) && e.target = 0

/-- R216: whether an entry passes its checks; `pels` are the valid pelotons of the issuing block. -/
def ok (e : CopyEntry) (chain : Bool) (pels : List Nat) : Bool :=
  e.rsv = 0 &&
  match e.kind with
  | 0 => e.plain && e.src = 0 && e.dst = 0
  | 1 | 2 => e.moveOk chain pels
  | 3 => e.plain && e.dst = 0 && e.src % 64 = 0
  | 4 => e.plain && !(handleBad (BitVec.ofNat 64 e.src))
  | _ => false

/-- Elements moved (R217). -/
def count (e : CopyEntry) : Nat := (e.counts.take e.ndim).foldl (· * ·) 1

/-- The index vector of element k, i0 first. -/
def indexOf : List Nat → Nat → List Nat
  | [], _ => []
  | c :: r, k => k % c :: indexOf r (k / c)

/-- The strided offset of an index vector (R217). -/
def strided (e : CopyEntry) (ix : List Nat) : Int :=
  (ix.headD 0 : Int) * e.elem + ((ix.drop 1).zip e.strides).foldl (fun a p => a + (p.1 : Int) * sext 32 p.2) 0

/-- The source and the destination address of element k, modulo 2^64 (R217). -/
def element (e : CopyEntry) (k : Nat) : W64 × W64 :=
  let st := BitVec.ofInt 64 (e.strided (indexOf (e.counts.take e.ndim) k))
  let dn := BitVec.ofNat 64 (k * e.elem)
  let s := BitVec.ofNat 64 e.src
  let d := BitVec.ofNat 64 e.dst
  if e.flags % 2 = 0 then (s + st, d + dn) else (s + dn, d + st)

end CopyEntry

end Sys2Proof.Machine
end

