-- ==== Sys2Proof/Machine/LaneMem.lean ====
section
/-! DEFINITION. The lane memory words: loads, stores, scratchpad and private accesses, atomics, CPY, FENCE.L and MBAR
(R207-R221). -/

namespace Sys2Proof.Machine

open Sys2Proof

/-- Bytes of a WIDTH code (R208) and whether it sign-extends. -/
def laneSize (wd : Nat) : Nat :=
  match wd with
  | 0 | 4 => 1
  | 1 | 5 => 2
  | 3 => 8
  | 6 => 16
  | _ => 4
def laneSigned (wd : Nat) : Bool := wd = 4 || wd = 5
/-- An ORD code (R208, R214). -/
def laneOrd (o : Nat) : OrdMod :=
  match o with
  | 0 => .relaxed | 1 => .acq | 2 => .rel | _ => .ar
/-- The V registers of a data operand (R210). -/
def dataRegs (size : Nat) (c : BitVec 8) : List Nat :=
  if isV c then (List.range (max 1 (size / 4))).map (c.toNat + ·) else []

/-- The walker that a word names is stepped once, when the word takes effect (R16). -/
def stepWalker (s : State) (r : GroupRef) (w : LaneWord) (codes : List (BitVec 8)) : State :=
  if codes.contains 251#8 then s.modGroup r fun g => (readWalker g (w.ix % 8)).2 else s

/-- A memory word with a selected thread (R207), with the V registers that it writes (`ds`) and reads (`rs`) and the predicates
that it meets: its selector is read, and a walker steps when the word is done. -/
def memWord (s : State) (w : LaneWord) (codes : List (BitVec 8)) (ds rs : List Nat) (ps : List Nat)
    (f : Group → Block → Mask → Env → WordRes) : Out :=
  laneWord s w { codes := codes, vs := ds ++ rs, ps := ps, rs := rs, src := codes } fun g b sel =>
    if sel = 0 then .done s
    else match selector s g b w codes with
      | .block => .block s
      | .cause code sub fa => .cause code sub sel fa
      | .ok _ gv =>
        match f g b sel ⟨g, w, gv⟩ with
        | .done s => .done (stepWalker s g.ref w codes)
        | .watched s m => .watched (stepWalker s g.ref w codes) m
        | r => r

/-- The addresses of threads (R209). -/
def addrsOf (e : Env) (global : Bool) (ts : List Nat) : List (Nat × W64) := ts.map fun t => (t, addrOf e global t)

/-- The parts of a global load: each thread's value taken now, or later where an open choice defers it (R65, R211). -/
def loadParts (core : Nat) (r : GroupRef) (size kind : Nat) (defer stream const : Bool) :
    State → List (Nat × W64 × Xlat) → State × List LoadPart
  | s, [] => (s, [])
  | s, (t, va, x) :: rest =>
    let s := if defer && kind = 1 then captureMeeting s r .lane t x.pa size else s
    let (later, s) := if defer then s.choose else (0, s)
    let (s, val) := if later ≠ 0 then (s, none)
      else
        let (s, bs) := if const then constRead s core x.pa size
          else coreRead s core (.thread r t) (asKind kind x) (stream || x.pte.cpol = 1) x.pa size
        (s, some (BitVec.ofNat 128 (leNat bs)))
    let (s, ps) := loadParts core r size kind defer stream const s rest
    (s, ⟨t, va, x.pa, val⟩ :: ps)

/-- R211, R212: LD, and LDC as a UO read of the constant cache. -/
def laneLoad (s : State) (w : LaneWord) (op : Nat) (const : Bool) : Out :=
  let size := laneSize w.mwidth
  memWord s w [w.a] (dataRegs size w.d) (addrRegs w true) [] fun g b sel e =>
    let core := g.ref.core.toNat
    let o := laneOrd w.mord
    let sc := w.x.toNat
    let acts := passes w sel
    if !(loadRoom s g) then .wait s
    else withAccess s g b .read size (addrsOf e true (threadsOf acts)) fun s xs =>
      let kind := if const then 2 else strongest xs
      if (!const && !(soReady s core xs)) || !(relReady s core o sc) then .wait s
      else
        let relaxed := o = .relaxed && kind ≠ 0
        let s := if relaxed then s else captureThreads s g.ref acts
        let (s, ps) := loadParts core g.ref size kind relaxed (w.mhint = 1) const s xs
        let s := soAfter (acqNow s core o sc) core kind
        .done (s.modGroup g.ref fun g => { g with loads := g.loads ++
          [{ stream := .lane, word := pack op w, pc := g.lpc, size := size, signed := laneSigned w.mwidth, dst := w.d.toNat,
             discard := !(isV w.d), spread := if w.u then sel else 0, pred := 0, core := g.ref.core, parts := ps,
             window := w.la.toNat + 1, watch := none }] })

def execLaneLd (w : LaneWord) (s : State) : Out := laneLoad s w 0x0C0 false
def execLdc (w : LaneWord) (s : State) : Out := laneLoad s w 0x0C6 true

/-- The data of a store of thread t (R210). -/
def storeData (e : Env) (size t : Nat) : Nat :=
  let c := e.w.c
  if size ≤ 4 then (e.r32 c t).toNat
  else if size = 8 then (e.r64 c t false).toNat
  else (List.range 4).foldr (fun i v => (e.g.readV (c.toNat + i) t).toNat + 2 ^ 32 * v) 0

/-- R211: stores apply in ascending thread index. -/
def execLaneSt (w : LaneWord) (s : State) : Out :=
  let size := laneSize w.mwidth
  memWord s w [w.a, w.c] [] (dataRegs size w.c ++ addrRegs w true) [] fun g b sel e =>
    let core := g.ref.core.toNat
    let o := laneOrd w.mord
    withAccess s g b .write size (addrsOf e true (threadsOf sel)) fun s xs =>
      if !(soReady s core xs) || !(relReady s core o w.x.toNat) then .wait s
      else
        let kind := strongest xs
        let s := if o = .relaxed && kind ≠ 0
          then xs.foldl (fun s (t, _, x) => captureMeeting s g.ref .lane t x.pa size) s
          else captureThreads s g.ref sel
        .done (soAfter (xs.foldl (fun s (t, _, x) =>
          coreWrite s core (.thread g.ref t) (asKind kind x) x.pa (bytesOf size (storeData e size t))) s) core kind)

/-- R213: LDS, performed at once (DESIGN CHOICE, assumption 104). -/
def execLaneLds (w : LaneWord) (s : State) : Out :=
  let size := laneSize w.mwidth
  memWord s w [w.a] (dataRegs size w.d) (addrRegs w false) [] fun g b sel e =>
    let vas := addrsOf e false (threadsOf (passes w sel))
    match padReadCause s b size vas with
    | some r => r
    | none =>
      let val := fun (a : W64) => BitVec.ofNat 128 (leNat (b.scratch.read a.toNat size))
      if !(isV w.d) then .done s
      else .done (s.modGroup g.ref fun g => (threadsOf sel).foldl (fun g t =>
        putElement g w.d.toNat t size (laneSigned w.mwidth) (val (addrOf e false (passOf w sel t)))) g)

/-- R213: STS; a store to a locked byte stalls (R245). It is performed at once: no load of the block sees an older value of it
(DESIGN CHOICE, assumption 104). -/
def execLaneSts (w : LaneWord) (s : State) : Out :=
  let size := laneSize w.mwidth
  memWord s w [w.a, w.c] [] (dataRegs size w.c ++ addrRegs w false) [] fun g b sel e =>
    let vas := addrsOf e false (threadsOf sel)
    match scratchCause b size vas with
    | some r => r
    | none =>
      if vas.any fun (_, a) => lockedAt b a.toNat size then .wait s
      else .done (s.modBlock (blockOf g.ref) fun b =>
        vas.foldl (fun b (t, a) => b.putPad a.toNat (bytesOf size (storeData e size t))) b)

/-- R40: byte a of thread t's private memory. -/
def privAt (t a : Nat) : Nat := 128 * (a / 4) + 4 * t + a % 4
def privRead (p : Sparse 8) (t a size : Nat) : Nat := leNat ((List.range size).map fun i => p.get (privAt t (a + i)))
def privWrite (p : Sparse 8) (t a : Nat) (bs : List Byte) : Sparse 8 :=
  (bs.zipIdx).foldl (fun p (v, i) => p.set (privAt t (a + i)) v) p

def putPriv (g : Group) (t a : Nat) (bs : List Byte) : Group :=
  { g with priv := privWrite g.priv t a bs, badPriv := g.badPriv.filter fun x => !((List.range bs.length).any fun i => x = privAt t (a + i)) }

/-- R213, R40: misalignment, then the reach of private offsets. -/
def privCause (g : Group) (b : Block) (size : Nat) (vas : List (Nat × W64)) : Option WordRes :=
  let bad := vas.filter fun (_, a) => a.toNat % size ≠ 0
  let out := vas.filter fun (_, a) => privOf b g < a.toNat + size + 32
  let go := fun (code : Nat) (l : List (Nat × W64)) =>
    some (WordRes.cause code 0 (l.foldl (fun m (t, _) => m ||| threadBit t) 0) ((l.head?.map (·.2)).getD 0))
  if !bad.isEmpty then go 5 bad else if !out.isEmpty then go 6 out else none
/-- The threads that read poisoned private memory (R345). -/
def spoiledPriv (g : Group) (size : Nat) (vas : List (Nat × W64)) : Mask :=
  vas.foldl (fun m (t, a) => if (List.range size).any fun i => g.badPriv.contains (privAt t (a.toNat + i)) then m ||| threadBit t else m) 0

def execLdp (w : LaneWord) (s : State) : Out :=
  let size := laneSize w.mwidth
  memWord s w [w.a] (dataRegs size w.d) (addrRegs w false) [] fun g b sel e =>
    let vas := addrsOf e false (threadsOf sel)
    match privCause g b size vas with
    | some r => r
    | none =>
      if spoiledPriv g size vas ≠ 0 then .denied (logSpoiled s g.ref.core.toNat) 1 (spoiledPriv g size vas) 0
      else if !(isV w.d) then .done s
      else .done (s.modGroup g.ref fun g => (threadsOf sel).foldl (fun g t =>
        putElement g w.d.toNat t size (laneSigned w.mwidth)
          (BitVec.ofNat 128 (privRead g.priv t (addrOf e false t).toNat size))) g)
def execStp (w : LaneWord) (s : State) : Out :=
  let size := laneSize w.mwidth
  memWord s w [w.a, w.c] [] (dataRegs size w.c ++ addrRegs w false) [] fun g b sel e =>
    let vas := addrsOf e false (threadsOf sel)
    match privCause g b size vas with
    | some r => r
    | none => .done (s.modGroup g.ref fun g => vas.foldl (fun g (t, a) => putPriv g t a.toNat (bytesOf size (storeData e size t))) g)

/-- R73, the fold of the threads after the first: the folded operand, and each one's result. -/
def foldRest (op n old p : Nat) : List Nat → Nat × List Nat
  | [] => (p, [])
  | v :: r =>
    let (q, ds) := foldRest op n old (atomApply op n p v) r
    (q, atomApply op n old p :: ds)

/-- R73: the new value of one location, none where nothing is written, and the results in thread order; `swaps` are
the swap values of a compare-and-swap. -/
def foldCas (old : Nat) : List (Nat × Nat) → Option Nat × List Nat
  | [] => (none, [])
  | (c, x) :: r =>
    let (m, ds) := foldCas (if old = c then x else old) r
    (m.or (if old = c then some x else none), old :: ds)
def foldAtom (op n old : Nat) (vals swaps : List Nat) : Option Nat × List Nat :=
  match op, vals with
  | _, [] => (none, [])
  | 8, v :: r => ((v :: r).getLast?, old :: (v :: r).dropLast)
  | 9, v :: r => foldCas old ((v :: r).zip swaps)
  | _, v :: r =>
    let (p, ds) := foldRest op n old v r
    (some (atomApply op n old p), old :: ds)

/-- The operand of an atomic for thread t (R214), and its swap value. -/
def atomOperand (e : Env) (n t : Nat) : Nat :=
  if n = 64 then (e.r64 e.w.c t false).toNat else (e.r32 e.w.c t).toNat
def atomSwap (e : Env) (n t : Nat) : Nat :=
  let c := e.w.c.toNat
  if n = 64 then (e.pair (c + 2) t).toNat else (e.g.readV (c + 1) t).toNat

/-- The registers that C of an atomic spans (R214). -/
def atomRegs (w : LaneWord) : List Nat :=
  (if isV w.c then (List.range ((if w.aw64 then 2 else 1) * if w.aop = 9 then 2 else 1)).map (w.c.toNat + ·) else [])

/-- Distinct keys in order of first use, with their threads in order (R73). -/
def groupBy : List (Nat × Nat) → List (Nat × List Nat)
  | [] => []
  | (t, a) :: r =>
    let rest := groupBy (r)
    match rest.find? (·.1 = a) with
    | some (_, ts) => (a, t :: ts) :: rest.filter (·.1 ≠ a)
    | none => (a, [t]) :: rest

/-- One request: the threads of one address (R73); `put` none where it writes nothing. -/
def atomRequest (e : Env) (n : Nat) (get : State → Nat) (put : State → Option Nat → State) (r : GroupRef) (s : State)
    (ts : List Nat) : State :=
  let (new, ds) := foldAtom e.w.aop n (get s) (ts.map (atomOperand e n)) (ts.map (atomSwap e n))
  let s := put s new
  if !(isV e.w.d) then s
  else s.modGroup r fun g => (ts.zip ds).foldl (fun g (t, d) =>
    putElement g e.w.d.toNat t (n / 8) false (BitVec.ofNat 128 d)) g

/-- R214, R73: ATOM and RED. The requests of a word, unordered by R73, are made in one turn, in the order of their first threads
(DESIGN CHOICE, assumption 99). -/
def laneAtomic (s : State) (w : LaneWord) : Out :=
  let n := if w.aw64 then 64 else 32
  let size := n / 8
  memWord s w [w.a, w.c] (vregs w.aw64 [w.d]) (atomRegs w ++ addrRegs w true) [] fun g b sel e =>
    let core := g.ref.core.toNat
    let o := laneOrd w.aord
    let vas := addrsOf e true (threadsOf sel)
    withAccess s g b .atomic size vas fun s xs =>
      if !(soReady s core xs) || !(relReady s core o w.x.toNat) || xs.any (fun (_, _, x) => pendOverlap s core x.pa size) then
        .wait s
      else
        let s := captureThreads s g.ref sel
        let paOf := fun (a : Nat) => ((xs.find? fun (_, va, _) => va.toNat = a).map fun (_, _, x) => x.pa).getD 0
        let s := (groupBy (vas.map fun (t, a) => (t, a.toNat))).foldl (fun s (a, ts) =>
          atomRequest e n (fun s => memNat s (paOf a) size) (fun s v => match v with
            | some v => atomWrite s core (paOf a) (bytesOf size v)
            | none => atomKept s core (paOf a) size) g.ref s ts) s
        .done (soAfter (acqNow s core o w.x.toNat) core (strongest xs))
def execLaneAtom (w : LaneWord) (s : State) : Out := laneAtomic s w
def execRed (w : LaneWord) (s : State) : Out := laneAtomic s w

/-- R214: ATOMS, in the scratchpad; its writes stall on a locked byte (R245). -/
def execAtoms (w : LaneWord) (s : State) : Out :=
  let n := if w.aw64 then 64 else 32
  let size := n / 8
  memWord s w [w.a, w.c] (vregs w.aw64 [w.d]) (atomRegs w ++ addrRegs w false) [] fun g b sel e =>
    let vas := addrsOf e false (threadsOf sel)
    match padReadCause s b size vas with
    | some r => r
    | none =>
      if vas.any fun (_, a) => lockedAt b a.toNat size then .wait s
      else
        let r := blockOf g.ref
        let get := fun (a : Nat) (s : State) => ((s.block? r).map fun b => leNat (b.scratch.read a size)).getD 0
        let put := fun (a : Nat) (s : State) (v : Option Nat) => match v with
          | some v => s.modBlock r fun b => b.putPad a (bytesOf size v)
          | none => s
        .done ((groupBy (vas.map fun (t, a) => (t, a.toNat))).foldl (fun s (a, ts) =>
          atomRequest e n (get a) (put a) g.ref s ts) s)

/-- A word's result with every selected thread named in its cause. -/
def forThreads (sel : Mask) : WordRes → WordRes
  | .cause code sub _ fa => .cause code sub sel fa
  | .denied s code _ fa => .denied s code sel fa
  | r => r

/-- R215: the entry is read and checked, and becomes the group's next open copy. -/
def execCpy (w : LaneWord) (s : State) : Out :=
  memWord s w [w.a] [] [] [] fun g b sel e =>
    let va := e.gv + BitVec.ofInt 64 (disp24 w)
    forThreads sel (withAccess (captureThreads s g.ref 0xFFFFFFFF#32) g b .read 64 [(lowest sel, va)] fun s xs =>
      match xs with
      | (_, _, x) :: _ =>
        if !(soReady s g.ref.core.toNat xs) then .wait s
        else
          let (s, bs) := coreRead s g.ref.core.toNat (.thread g.ref (lowest sel)) x.pte (x.pte.cpol = 1) x.pa 64
          let s := soAfter s g.ref.core.toNat x.pte.ord
          let r : Slot64 := BitVec.ofNat 512 (leNat bs)
          let c := entryOf r
          if c.kind ≤ 2 && c.ok false b.pelotons then
            let copy : GCopy := { g := g.ref, ctx := g.ctx, n := g.nextCopy, batch := none, entry := r, va := va, status := 0,
                                  performed := false, done := false, reported := false, park := none, moved := ⟨[], [], false⟩ }
            .done { (s.modGroup g.ref fun g => { g with nextCopy := g.nextCopy + 1 }) with copies := s.copies ++ [copy] }
          else .denied s 0x0B sel 0
      | [] => .done s)

/-- R220: a fence of every selected thread; it occupies its lane for four cycles and then holds its stream until it is complete
(R125). -/
def execFenceL (w : LaneWord) (s : State) : Out :=
  laneWord s w { codes := [], vs := [] } fun g _ sel =>
    let core := g.ref.core.toNat
    if sel = 0 then .done s
    else if w.md ≠ 0#8 && !(released s core w.x.toNat) then .hold s
    else
      let s := captureThreads s g.ref sel
      .done (if w.md = 1#8 then s else acquire s core w.x.toNat)

/-- R221: every earlier access of the selected threads is performed; at scope 0 a write accepted by the core is. -/
def execMbar (w : LaneWord) (s : State) : Out :=
  laneWord s w { codes := [], vs := [] } fun g _ sel => .done (captureThreads s g.ref sel)

end Sys2Proof.Machine
end

