-- ==== Sys2Proof/Machine/LaneIsland.lean ====
section
/-! DEFINITION. The lane words that reach islands and queues: ISUB.ISL, QCLOSE and QREAD (R222-R224, R294). -/

namespace Sys2Proof.Machine

open Sys2Proof

/-- The submitter tag (R294). -/
def tagOf (g : Group) (t : Nat) : W32 :=
  g.ctx ++ g.ref.core ++ g.ref.bslot ++ g.ref.slot ++ BitVec.ofNat 5 t ++ 0#5

/-- What a port operand comes to (R222, R227, R292). -/
inductive PortRes where
  | ok (p : Port)
  | cause (code sub : Nat) (faddr : W64)
deriving DecidableEq, Repr

/-- R222, R227: a uniform port value, bound in the context to an island in service, traversal or not. -/
def portCheck (s : State) (b : Block) (vs : List W32) (traversal : Bool) : PortRes :=
  let v := vs.headD 0
  if vs.any (· ≠ v) then .cause 4 0 0
  else
    let bad : PortRes := .cause 0x11 1 (v.setWidth 64)
    if 64 ≤ v.toNat then bad
    else match portFor s b v.toNat with
      | none => bad
      | some p => if (p.role = 2) != traversal || (s.island p.island).state ≠ 2 then bad else .ok p

/-- The close marker or a record as it enters an island, its place in the order of acceptance taken (R294). -/
def recordIn (s : State) (g : Group) (p : Port) (t : Nat) (words : List W32) (close : Bool) : IslandRecord :=
  { tag := tagOf g t, port := p.port, words := words, pass := 0, rwords := [], out := none, close := close, ray := none, wait := none, res := [], due := none,
    fatal := false, order := (s.island p.island).order, b := blockOf g.ref }

/-- R222: each selected thread's record is offered at the port; the word is done when all have been accepted. -/
def execIsubIsl (w : LaneWord) (s : State) : Out :=
  let n := w.md.toNat + 1
  let regs := (List.range n).map (w.a.toNat + ·) ++ vregs false [w.b]
  laneWord s w { codes := [w.b], vs := regs, rs := regs, src := [w.b] } fun g b sel =>
    if sel = 0 then .done s
    else match selector s g b w [w.b] with
      | .block => .block s
      | .cause code sub fa => .cause code sub sel fa
      | .ok s gv =>
        let e : Env := ⟨g, w, gv⟩
        match portCheck s b ((threadsOf sel).map (e.r32 w.b)) false with
        | .cause code sub fa => .cause code sub sel fa
        | .ok p =>
          if portIn s p ≠ n then .cause 0x11 2 sel (BitVec.ofNat 64 p.port)
          else
            let left := sel &&& ~~~g.served
            if left = 0 then .done (s.modGroup g.ref fun g => { g with served := 0 })
            else
              let s := captureThreads s g.ref left
              let offered := fun (t : Nat) => (s.island p.island).input.any (·.tag = tagOf g t)
              let new := ((threadsOf left).filter fun t => !(offered t)).map fun t =>
                recordIn s g p t ((List.range n).map fun i => g.readV (w.a.toNat + i) t) false
              .block (s.modIsland p.island fun i => { i with input := i.input ++ new })

/-- R223: the marker follows every record that the group submitted on the port. -/
def execQclose (w : LaneWord) (s : State) : Out :=
  laneWord s w { codes := [w.b], vs := vregs false [w.b], rs := vregs false [w.b], src := [w.b] } fun g b sel =>
    if sel = 0 then .done s
    else match selector s g b w [w.b] with
      | .block => .block s
      | .cause code sub fa => .cause code sub sel fa
      | .ok s gv =>
        let e : Env := ⟨g, w, gv⟩
        match portCheck s b ((threadsOf sel).map (e.r32 w.b)) false with
        | .cause code sub fa => .cause code sub sel fa
        | .ok p => .done (s.modIsland p.island fun i =>
            { i with out := i.out ++ [recordIn s g p 0 [] true], order := i.order + 1 })

/-- The queue bound to Q register k, as QREAD of n words meets it: its key and its entries (R224). -/
def readQueue (s : State) (b : Block) (k n : Nat) : Except (Nat × Nat × Nat) (Nat × List (Option (List W32))) :=
  let q := (b.kernel.qbind.getD k 0).toNat
  match q / 64 with
  | 1 => if n ≠ 1 then .error (0x0B, 0, 0) else .ok (q % 8, (b.queues.getD (q % 8) []).map fun v => some [v])
  | 2 =>
    match portFor s b (q % 64) with
    | none => .error (0x11, 1, q % 64)
    | some p =>
      if portOut s p ≠ n then .error (0x11, 2, q % 64)
      else .ok (q % 64 + 8, ((islandQueue b (q % 64)).map (·.entries)).getD [])
  | _ => .error (0x0B, 0, 0)

/-- The entries of a queue, by its key. -/
def setQueueAt (b : Block) (key : Nat) (es : List (Option (List W32))) : Block :=
  if key < 8 then { b with queues := listSet b.queues key (es.map fun e => (e.getD []).headD 0) }
  else setIslandQueue b (key - 8) es

/-- R224: one thread's entry. -/
def takeEntry (w : LaneWord) (g : Group) (t : Nat) : Option (List W32) → Group
  | none => g.setP w.c.toNat (threadBit t) 0
  | some ws => ((ws.zipIdx).foldl (fun g (v, i) => g.writeV (w.d.toNat + i) t v) g).setP w.c.toNat (threadBit t) (threadBit t)

def execQread (w : LaneWord) (s : State) : Out :=
  let n := w.md.toNat % 16 + 1
  let nb := w.md.getLsbD 4
  laneWord s w { codes := [w.a], vs := (List.range n).map (w.d.toNat + ·), ps := [w.c.toNat], src := [w.a] } fun g b sel =>
    if sel = 0 then .done s
    else match readQueue s b (w.ix % 8) n with
      | .error (code, sub, p) => .cause code sub sel (BitVec.ofNat 64 p)
      | .ok (key, es) =>
        let party := g.ref.slot.toNat
        let i := b.claimed key party
        let left := threadsOf (sel &&& ~~~g.served)
        let now := (es.drop i).take left.length
        let took := left.take now.length
        if !now.isEmpty && !(b.queueTurn key false s.cycle party) then .block s
        else
        let s := if now.isEmpty then s else s.modBlock b.ref fun b => b.noteQueue key false s.cycle party
        let s := if key < 8 then captureThreads s g.ref sel else s
        let s := s.modBlock b.ref fun b => setQueueAt b key (es.take i ++ es.drop (i + now.length))
        let s := s.modGroup g.ref fun g =>
          let g := (took.zip now).foldl (fun g (t, e) => takeEntry w g t e) g
          { g with served := g.served ||| took.foldl (fun m t => m ||| threadBit t) 0 }
        let short := left.length - now.length
        if nb || short = 0 then
          .done ((s.modBlock b.ref fun b => b.setClaim key party 0).modGroup g.ref fun g =>
            { (left.drop now.length).foldl (fun g t => takeEntry w g t none) g with served := 0 })
        else .block (s.modBlock b.ref fun b => b.setClaim key party short)

end Sys2Proof.Machine
end

