-- ==== Sys2Proof/Machine/Tasks.lean ====
section
/-! DEFINITION. Continuation records (R18-R20), accesses that a device unit makes for a context (R349), task-queue
descriptors and rings (R262, R263), and how a record in a ring becomes ready (R264, R265). -/

namespace Sys2Proof.Machine

open Sys2Proof

/-- Why a unit's access is not made: it waits for a pending ID (none: no ID was free), or it fails (R349). -/
inductive Hold where
  | wait (id : Option Nat)
  | fail
deriving DecidableEq, Repr

/-- A denied access of a unit: posted where it waits (R59, R349). -/
def unitHold (s : State) (c : BitVec 8) (k : Access) (agent unit : Nat) (d : Deny × W64) : State × Hold :=
  match faultKind d.1 with
  | none => (s, .fail)
  | some n =>
    match postFault s c n k.code d.2 agent unit 0 with
    | (s, i) => (s, .wait i)

/-- n bytes read for a context by a unit. -/
def unitRead (s : State) (c : BitVec 8) (agent unit : Nat) (va : W64) (n : Nat) : State × Except Hold (List Byte) :=
  match readVirt s c false va n with
  | (s, .ok bs) => (s, .ok bs)
  | (s, .error d) =>
    let (s, h) := unitHold s c .read agent unit d
    (s, .error h)

/-- Bytes written for a context by a unit. -/
def unitWrite (s : State) (c : BitVec 8) (agent unit : Nat) (va : W64) (bytes : List Byte) : State × Except Hold Unit :=
  match writeVirt s c va bytes with
  | (s, .ok ()) => (s, .ok ())
  | (s, .error d) =>
    let (s, h) := unitHold s c .write agent unit d
    (s, .error h)

/-- The physical address of an aligned read-modify-write that a unit makes for a context; it allocates no line of the stacked
cache (DESIGN CHOICE, assumption 95). -/
def unitAtomic (s : State) (c : BitVec 8) (agent unit : Nat) (va : W64) : State × Except Hold Nat :=
  match translate s none c .atomic false va with
  | (s, .ok x) => if poisoned s x.pa 4 then (logPoison s x.pa, .error .fail) else (s, .ok x.pa)
  | (s, .error d) =>
    let (s, h) := unitHold s c .atomic agent unit (d, va)
    (s, .error h)

/-- Fields of a record (R18). -/
def rf (r : Slot64) (hi lo : Nat) : Nat := bits r.toNat hi lo
def recVset (r : Slot64) : Nat := rf r 63 60
def recCode (r : Slot64) : VAddr := BitVec.ofNat 52 (64 * rf r 51 6)
def recFrame (r : Slot64) : Nat := rf r 115 64
def recJoin (r : Slot64) : W64 := r.extractLsb' 128 64
def recBidx (r : Slot64) : Nat := rf r 239 192
def recPel (r : Slot64) : Nat := rf r 287 256
def recPvalid (r : Slot64) : Nat := rf r 291 288
def recPrio (r : Slot64) : Nat := rf r 298 296
def recForm (r : Slot64) : Nat := rf r 305 304
/-- Whether a reserved field is not zero (R19). -/
def recReserved (r : Slot64) : Bool :=
  rf r 59 52 ≠ 0 || rf r 5 0 ≠ 0 || rf r 127 116 ≠ 0 || rf r 255 240 ≠ 0 || rf r 295 292 ≠ 0 || rf r 303 299 ≠ 0 ||
  rf r 311 306 ≠ 0 || rf r 319 312 ≠ 0

/-- The 64 bytes of a record. -/
def slotOf (bs : List Byte) : Slot64 := BitVec.ofNat 512 (leNat (bs.take 64))
def slotBytes (r : Slot64) : List Byte := bytesOf 64 r.toNat

/-- A task-queue descriptor that is enabled (R262). -/
structure QDesc where
  base : Nat
  cap : Nat
  hostdb : Bool
  heads : List Nat
  tails : List Nat
deriving DecidableEq, Repr

/-- R262: a reserved field, or LOG2CAP outside 1-16, counts as not enabled. -/
def queueDesc (bs : List Byte) : Option QDesc :=
  let l := fieldAt bs 8 1
  let f := fieldAt bs 9 1
  if 16 < l || l = 0 || 4 ≤ f || f % 2 = 0 || fieldAt bs 10 54 ≠ 0 then none
  else some { base := fieldAt bs 0 8, cap := l, hostdb := f / 2 % 2 = 1
              heads := (List.range 8).map fun p => fieldAt bs (64 + 8 * p) 4
              tails := (List.range 8).map fun p => fieldAt bs (68 + 8 * p) 4 }

/-- Records of ring p, modulo 2^32. -/
def QDesc.count (d : QDesc) (p : Nat) : Nat := (d.tails.getD p 0 + 2 ^ 32 - d.heads.getD p 0) % 2 ^ 32
/-- R263: whether n more slots would pass the capacity. -/
def QDesc.full (d : QDesc) (p n : Nat) : Bool := 2 ^ d.cap < d.count p + n
/-- The address of slot h of ring p. -/
def QDesc.slotVa (d : QDesc) (p h : Nat) : W64 := BitVec.ofNat 64 (d.base + p * 64 * 2 ^ d.cap + 64 * (h % 2 ^ d.cap))

/-- The address of a context's descriptor of queue q. -/
def queueVa (s : State) (c : BitVec 8) (q : Nat) : W64 :=
  ((s.ctx? c).map fun x => x.desc.tqtab + BitVec.ofNat 64 (128 * q)).getD 0

/-- A record fault (R313, kind 4). -/
def recordFault (s : State) (c : BitVec 8) (va : W64) (reason : Nat) : State :=
  postPlain s c 4 7 0 0 va (BitVec.ofNat 64 reason)

/-- One slot of a context changed. -/
def modSlot (s : State) (c : BitVec 8) (q p h : Nat) (f : Slot → Slot) : State :=
  s.modCtx c fun x => { x with slots := x.slots.map fun k => if k.q = q && k.prio = p && k.slot = h then f k else k }

/-- Slots that a record takes: two for a launch (R20). -/
def Slot.span (k : Slot) : Nat := if k.ext.isSome then 2 else 1

/-- HEAD advanced past popped slots; which are popped is the context's scheduling state (R263). -/
def advanceFrom (x : Ctx) (q p : Nat) : Nat → Nat → Nat × List Slot
  | 0, h => (h, x.slots)
  | f + 1, h =>
    match x.slots.find? fun k => k.q = q && k.prio = p && k.slot = h && k.popped with
    | none => (h, x.slots)
    | some k => advanceFrom { x with slots := x.slots.filter fun j => !(j.q = q && j.prio = p && j.slot = h) } q p f
        ((h + k.span) % 2 ^ 32)
def advanceHead (s : State) (c : BitVec 8) (q p : Nat) : State :=
  match s.ctx? c with
  | none => s
  | some x =>
    let va := queueVa s c q + BitVec.ofNat 64 (64 + 8 * p)
    match readVirt s c false va 4 with
    | (s, .error _) => s
    | (s, .ok bs) =>
      let (h, slots) := advanceFrom x q p x.slots.length (leNat bs)
      if h = leNat bs then s
      else match writeVirt s c va (bytesOf 4 h) with
        | (s, .error _) => s
        | (s, .ok ()) => s.modCtx c fun x => { x with slots := slots }

/-- A record leaves its ring: popped, or discarded. -/
def popSlot (s : State) (c : BitVec 8) (k : Slot) : State :=
  advanceHead (modSlot s c k.q k.prio k.slot fun k => { k with popped := true }) c k.q k.prio

/-- The address of a slot in its ring. -/
def slotAddr (s : State) (c : BitVec 8) (k : Slot) : State × Except Hold W64 :=
  match unitRead s c 7 0 (queueVa s c k.q) 128 with
  | (s, .error h) => (s, .error h)
  | (s, .ok bs) => (s, .ok (BitVec.ofNat 64 (fieldAt bs 0 8 + k.prio * 64 * 2 ^ (fieldAt bs 8 1 % 32) +
      64 * (k.slot % 2 ^ (fieldAt bs 8 1 % 32)))))

/-- The outcome of a held access of a slot (R349): it waits, or the record is discarded with reason 3. -/
def holdSlot (s : State) (c : BitVec 8) (k : Slot) (va : W64) : Hold → State
  | .wait id => modSlot s c k.q k.prio k.slot fun k => { k with wait := id }
  | .fail => popSlot (recordFault s c va 3) c k

/-- The device reads a record that stands in its ring (R264), its extension with it. -/
def readSlot (s : State) (c : BitVec 8) (k : Slot) : State :=
  match slotAddr s c k with
  | (s, .error h) => holdSlot s c k 0 h
  | (s, .ok va) =>
    match unitRead s c 7 0 va 64 with
    | (s, .error h) => holdSlot s c k va h
    | (s, .ok bs) =>
      let r := slotOf bs
      if recForm r ≠ 1 then modSlot s c k.q k.prio k.slot fun k => { k with read := some r }
      else
        match slotAddr s c { k with slot := (k.slot + 1) % 2 ^ 32 } with
        | (s, .error h) => holdSlot s c k va h
        | (s, .ok va2) =>
          match unitRead s c 7 0 va2 64 with
          | (s, .error h) => holdSlot (absorb s 0) c k va h
          | (s, .ok es) => absorb (modSlot s c k.q k.prio k.slot fun k => { k with read := some r }) (slotOf es)
where
  /-- The second slot of a launch is no record of its own (R20); while it is not read it stands as 0. -/
  absorb (s : State) (e : Slot64) : State :=
    let s := s.modCtx c fun x => { x with slots := x.slots.filter fun j =>
      !(j.q = k.q && j.prio = k.prio && j.slot = (k.slot + 1) % 2 ^ 32) }
    modSlot s c k.q k.prio k.slot fun k => { k with ext := some e }

/-- R265: a record that is read and not ready has its counter read; zero makes it ready for good. -/
def checkJoin (s : State) (c : BitVec 8) (k : Slot) : State :=
  match k.read with
  | none => s
  | some r =>
    if recJoin r = 0 then modSlot s c k.q k.prio k.slot fun k => { k with ready := some s.cycle }
    else match unitRead s c 7 0 (recJoin r) 4 with
      | (s, .error h) =>
        let s := modSlot s c k.q k.prio k.slot fun k => { k with lastJoin := s.cycle }
        match slotAddr s c k with
        | (s, .ok va) => holdSlot s c k va h
        | (s, .error _) => holdSlot s c k 0 h
      | (s, .ok bs) =>
        let pa := match translate s none c .read false (recJoin r) with
          | (_, .ok x) => some x.pa
          | (_, .error _) => none
        modSlot s c k.q k.prio k.slot fun k =>
          { k with wait := none, lastJoin := s.cycle, joinPa := pa, ready := if leNat bs = 0 then some s.cycle else none }

/-- One look at a waiting record, by its place: it is read if it is not yet, then its counter is (R264, R265). An unread slot
behind an unread one of its doorbell may be that record's extension and is left (assumption 18). -/
def tendSlot (s : State) (c : BitVec 8) (q p h : Nat) : State :=
  let find := fun (s : State) => (s.ctx? c).bind fun x => x.slots.find? fun k => k.q = q && k.prio = p && k.slot = h
  let behind := (s.ctx? c).any fun x => x.slots.any fun k =>
    k.q = q && k.prio = p && (k.slot + 1) % 2 ^ 32 = h && k.read.isNone && !k.popped && !k.last
  match find s with
  | none => s
  | some k =>
    if k.popped || k.ready.isSome || k.wait.isSome || (behind && k.read.isNone) then s
    else
      let s := if k.read.isNone then readSlot s c k else s
      match find s with
      | none => s
      | some k => if k.popped || k.wait.isSome then s else checkJoin s c k

/-- A record placed in a ring: it is exposed to the dispatcher. -/
def exposeSlot (s : State) (c : BitVec 8) (q p h : Nat) (grid : Option Nat) (r e : Option Slot64) : State :=
  let k : Slot := { q := q, prio := p, slot := h, ready := none, popped := false, grid := grid, spawned := grid.isSome
                    read := r, ext := e, wait := none, joinPa := none, lastJoin := s.cycle, dead := [], last := true }
  tendSlot (s.modCtx c fun x => { x with slots := x.slots ++ [k] }) c q p h

/-- What an enqueue by a device unit comes to. -/
inductive EnqRes where
  | accepted (s : State)
  | full (s : State)
  | closed (s : State)
  | held (s : State) (h : Hold) (va : W64)
deriving DecidableEq, Repr

/-- A record enqueued by a unit for a context (R228, R263, R349). -/
def unitEnqueue (s : State) (c : BitVec 8) (agent unit q : Nat) (r : Slot64) : EnqRes :=
  let dva := queueVa s c q
  let p := recPrio r
  match unitRead s c agent unit dva 128 with
  | (s, .error h) => .held s h dva
  | (s, .ok bs) =>
    match queueDesc bs with
    | none => .closed s
    | some d =>
      if d.full p 1 then .full s
      else
        let t := d.tails.getD p 0
        let tva := dva + BitVec.ofNat 64 (68 + 8 * p)
        match spanOf s c .write false tva 4 with
        | (s, .error e) =>
          let (s, h) := unitHold s c .write agent unit e
          .held s h tva
        | (s, .ok tpas) =>
          match unitWrite s c agent unit (d.slotVa p t) (slotBytes r) with
          | (s, .error h) => .held s h (d.slotVa p t)
          | (s, .ok ()) =>
            let s := writePas s tpas (bytesOf 4 ((t + 1) % 2 ^ 32))
            .accepted (exposeSlot s c q p t none (some r) none)

/-- The I/O core bound to a system ring (R331). -/
def ringCore (n : Nat) : Nat := match n with | 0 => 1 | 1 => 3 | k => 6 + k
/-- A 64-byte slot posted to a system ring, and its number; none when it is full or not set up (R332). -/
def postRing (s : State) (n : Nat) (bs : List Byte) : Option (State × Nat) :=
  let r := s.regs.rings.getD n Ring.reset
  let lg := r.log2.toNat
  if lg < 4 || 16 < lg || 2 ^ lg ≤ (r.tail - r.head).toNat then none
  else
    let i := r.tail.toNat % 2 ^ lg
    let pa := r.base.toNat + 64 * i
    let s := performWrite (allocateIn s 0 false pa 64) pa bs
    some (notifyIo (s.modRegs fun g => { g with rings := listSet g.rings n { r with tail := r.tail + 1 } }) (ringCore n), i)

end Sys2Proof.Machine
end

