-- ==== Sys2Proof/Machine/Graphics.lean ====
section
/-! DEFINITION. The graphics words: ATTR, TRACE and REFILL (R225-R230). -/

namespace Sys2Proof.Machine

open Sys2Proof

/-- A finite exact value with its sign: a numerator over a positive denominator. -/
structure Frac where
  n : Int
  d : Nat
deriving DecidableEq, Repr

namespace Frac
def ofVal : Val → Frac
  | .fin s n d => ⟨Val.sInt s n, d⟩
  | _ => ⟨0, 1⟩
def ofNat (n : Nat) : Frac := ⟨n, 1⟩
def add (a b : Frac) : Frac := ⟨a.n * b.d + b.n * a.d, a.d * b.d⟩
def sub (a b : Frac) : Frac := ⟨a.n * b.d - b.n * a.d, a.d * b.d⟩
def mul (a b : Frac) : Frac := ⟨a.n * b.n, a.d * b.d⟩
/-- The divisor is not zero. -/
def div (a b : Frac) : Frac := if 0 ≤ b.n then ⟨a.n * b.d, a.d * b.n.natAbs⟩ else ⟨-(a.n * b.d), a.d * b.n.natAbs⟩
def toVal (a : Frac) : Val := .fin (a.n < 0) a.n.natAbs a.d
end Frac

/-- A point of the screen (R226). -/
abbrev Point := Frac × Frac
/-- E(a, b, c) of R226. -/
def edge (a b c : Point) : Frac :=
  ((b.1.sub a.1).mul (c.2.sub a.2)).sub ((b.2.sub a.2).mul (c.1.sub a.1))

/-- A vertex at its place on the screen: s_i of R226, where w is not zero. -/
def screenOf (vw vh : Nat) (x y w : Frac) : Point :=
  let half := fun (n : Nat) => Frac.mk n 2
  (((x.div w).add (.ofNat 1)).mul (half vw), ((Frac.ofNat 1).sub (y.div w)).mul (half vh))

/-- The three exact barycentrics of a pixel, none where R226 calls the input degenerate. -/
def barycentrics (vw vh px py : Nat) (pos : List Val) : Option (Frac × Frac × Frac) :=
  let at' := fun (i j : Nat) => Frac.ofVal (pos.getD (4 * i + j) .zero)
  if pos.any fun v => !v.isFinite then none
  else if (List.range 3).any fun i => (at' i 3).n = 0 then none
  else
    let sc := fun (i : Nat) => screenOf vw vh (at' i 0) (at' i 1) (at' i 3)
    let p : Point := (⟨2 * px + 1, 2⟩, ⟨2 * py + 1, 2⟩)
    let l := edge (sc 0) (sc 1) (sc 2)
    if l.n = 0 then none
    else
      let q0 := ((edge (sc 1) (sc 2) p).div l).div (at' 0 3)
      let q1 := ((edge (sc 2) (sc 0) p).div l).div (at' 1 3)
      let q2 := ((edge (sc 0) (sc 1) p).div l).div (at' 2 3)
      let sum := (q0.add q1).add q2
      if sum.n = 0 then none else some (q0.div sum, q1.div sum, q2.div sum)

/-- The outputs of one thread: b1, b2 and the attributes (R226); `att` holds word k of vertex i at 3k + i. -/
def attrOut (vw vh px py n : Nat) (pos att : List W32) : List W32 :=
  let a := fun (i k : Nat) => att.getD (3 * k + i) 0
  let nanAny := fun (k : Nat) => (List.range 3).any fun i => (valF32 (a i k)).isNan
  match barycentrics vw vh px py (pos.map valF32) with
  | none => 0 :: 0 :: (List.range n).map fun k => if nanAny k then 0x7FC00000#32 else a 0 k
  | some (b0, b1, b2) =>
    rneF32 b1.toVal :: rneF32 b2.toVal :: (List.range n).map fun k =>
      if nanAny k then 0x7FC00000#32
      else
        let term := fun (b : Frac) (i : Nat) => (Val.mul b.toVal (valF32 (a i k))).1
        rneF32 (Val.add false (Val.add false (term b0 0) (term b1 1)).1 (term b2 2)).1

/-- Values taken by lane threads at translated addresses, as relaxed accesses of one kind. -/
def laneNow (s : State) (g : Group) (kind size : Nat) (xs : List (Nat × W64 × Xlat)) : State × List Nat :=
  let s := if kind = 0 then xs.foldl (fun s (t, _, _) => captureThreads s g.ref (threadBit t)) s
    else xs.foldl (fun s (t, _, x) => captureMeeting s g.ref .lane t x.pa size) s
  let (s, vs) := xs.foldl (fun (s, vs) (t, _, x) =>
    let (s, bs) := coreRead s g.ref.core.toNat (.thread g.ref t) (asKind kind x) (x.pte.cpol = 1) x.pa size
    (s, vs ++ [leNat bs])) (s, [])
  (soAfter s g.ref.core.toNat kind, vs)

/-- Relaxed global reads of lane threads, their values in order; `kind` is the strongest kind among the other pages of the
word (R66). -/
def laneReads (s : State) (g : Group) (b : Block) (kind size : Nat) (vas : List (Nat × W64))
    (f : State → List Nat → WordRes) : WordRes :=
  if vas.isEmpty then f s []
  else withAccess s g b .read size vas fun s xs =>
    let kind := min kind (strongest xs)
    if !(kindReady s g.ref.core.toNat kind) then .wait s
    else
      let (s, vs) := laneNow s g kind size xs
      f s vs

/-- What accesses of a word that are still to be made will meet, as memory stands: the strongest kind among their pages, and
the values. -/
def peekReads (s : State) (g : Group) (b : Block) (size : Nat) (vas : List (Nat × W64)) : Nat × List Nat :=
  match (access s (some g.ref.core.toNat) b.test g.ctx .read size vas).2 with
  | .ok xs => (strongest xs, xs.map fun (_, _, x) => leNat (freshRead s g.ref.core.toNat x.pa size))
  | _ => (2, [])

/-- Piece i of a list cut into pieces of n. -/
def piece {α : Type} (n : Nat) (l : List α) (i : Nat) : List α := (l.drop (n * i)).take n

/-- The pixel's visibility word and place, and its instance entry once read (R225, R226). -/
structure Pixel where
  t : Nat
  prim : Nat
  px : Nat
  py : Nat
  entry : Nat
deriving DecidableEq, Repr

/-- Whether an entry gives 0x7FC00000 everywhere (R226). -/
def Pixel.bad (p : Pixel) : Bool := bits p.entry 239 224 = 0 || bits p.entry 255 240 = 0 || bits p.entry 207 192 % 4 ≠ 0

/-- The words written for a thread. -/
def putWords (g : Group) (d t : Nat) (ws : List W32) : Group :=
  (ws.zipIdx).foldl (fun g (v, i) => g.writeV (d + i) t v) g

/-- The visibility word of a thread, and the threads that see a primitive (R226). -/
def visOf (e : Env) (t : Nat) : Nat := (e.pair e.w.a.toNat t).toNat
def liveOf (e : Env) (sel : Mask) : List Nat := (threadsOf sel).filter fun t => bits (visOf e t) 39 20 ≠ 0xFFFFF
/-- The pixels of the live threads, their entries `es` read. -/
def pixelsOf (e : Env) (live es : List Nat) : List Pixel :=
  (live.zip es).map fun (t, en) =>
    let pix := (e.g.readV e.w.b.toNat t).toNat
    Pixel.mk t (bits (visOf e t) 19 0) (pix % 65536) (pix / 65536) en
/-- The addresses that ATTR reads: the instance entries, the indices `ix` of the vertices, their positions, and their attribute
words (R225, R226). -/
def entryVas (e : Env) (live : List Nat) : List (Nat × W64) :=
  live.map fun t => (t, e.gv + BitVec.ofNat 64 (64 * bits (visOf e t) 39 20))
def indexVas (good : List Pixel) : List (Nat × W64) :=
  good.flatMap fun p => (List.range 3).map fun i => (p.t, BitVec.ofNat 64 (bits p.entry 63 0 + 12 * p.prim + 4 * i))
def positionVas (good : List Pixel) (ix : List Nat) : List (Nat × W64) :=
  (good.zipIdx).flatMap fun (p, k) => (piece 3 ix k).flatMap fun v => (List.range 4).map fun j =>
    (p.t, BitVec.ofNat 64 (bits p.entry 127 64 + 16 * v + 4 * j))
def attributeVas (n : Nat) (good : List Pixel) (ix : List Nat) : List (Nat × W64) :=
  (good.zipIdx).flatMap fun (p, k) => (List.range n).flatMap fun j => (piece 3 ix k).map fun v =>
    (p.t, BitVec.ofNat 64 (bits p.entry 191 128 + bits p.entry 207 192 * v + 4 * j))
/-- The strongest kind among the pages that an ATTR will touch, as memory stands when it issues (R66; assumption 96). -/
def attrKind (s : State) (b : Block) (e : Env) (sel : Mask) : Nat :=
  let (k0, es) := peekReads s e.g b 64 (entryVas e (liveOf e sel))
  let good := (pixelsOf e (liveOf e sel) es).filter fun p => !p.bad
  let (k1, ix) := peekReads s e.g b 4 (indexVas good)
  let k2 := (peekReads s e.g b 4 (positionVas good ix)).1
  let k3 := (peekReads s e.g b 4 (attributeVas (e.w.md.toNat % 16) good ix)).1
  min (min k0 k1) (min k2 k3)

/-- R226: every read of the word takes the strongest kind among its pages (R66). -/
def execAttr (w : LaneWord) (s : State) : Out :=
  let n := w.md.toNat % 16
  memWord s w [w.c] ((List.range (n + 2)).map (w.d.toNat + ·)) [w.a.toNat, w.a.toNat + 1, w.b.toNat] [] fun g b sel e =>
    let live := liveOf e sel
    let kind := attrKind s b e sel
    if e.gv.toNat % 64 ≠ 0 then .cause 5 0 sel e.gv
    else laneReads s g b kind 64 (entryVas e live) fun s es =>
      let ps := pixelsOf e live es
      let good := ps.filter fun p => !p.bad
      laneReads s g b kind 4 (indexVas good) fun s ix =>
        laneReads s g b kind 4 (positionVas good ix) fun s pos =>
          laneReads s g b kind 4 (attributeVas n good ix) fun s att =>
            let w32 := fun (l : List Nat) => l.map (BitVec.ofNat 32)
            .done (s.modGroup g.ref fun g =>
              let g := ((threadsOf sel).filter fun t => !(live.contains t)).foldl (fun g t =>
                putWords g w.d.toNat t (List.replicate (n + 2) 0)) g
              let g := (ps.filter (·.bad)).foldl (fun g p =>
                putWords g w.d.toNat p.t (List.replicate (n + 2) 0x7FC00000#32)) g
              (good.zipIdx).foldl (fun g (p, k) => putWords g w.d.toNat p.t
                (attrOut (bits p.entry 239 224) (bits p.entry 255 240) p.px p.py n (w32 (piece 12 pos k))
                  (w32 (piece (3 * n) att k)))) g)

/-- R227: whether a ray receives status INVALID. -/
def rayBad (ws : List Val) : Bool :=
  let v := fun (i : Nat) => ws.getD i .zero
  [0, 1, 2, 4, 5, 6].any (fun i => !(v i).isFinite) || [4, 5, 6].all (fun i => (v i).isZero) ||
  !(v 3).isFinite || Val.lt (v 3) .zero || (!(v 7).isNan && Val.lt (v 7) (v 3))

/-- R227: the valid rays are offered to the port, in thread order; the word resolves when all have been accepted (R127), their
statuses come later. -/
def execTrace (w : LaneWord) (s : State) : Out :=
  let p := w.md.toNat % 64
  memWord s w [w.b, w.c] [w.d.toNat] ((List.range 8).map (w.a.toNat + ·) ++ vregs false [w.b]) [] fun g b sel e =>
    match portCheck s b [BitVec.ofNat 32 p] true with
    | .cause code sub fa => .cause code sub sel fa
    | .ok port =>
      if e.gv.toNat % 64 ≠ 0 then .cause 5 0 sel e.gv
      else
        let words := fun (t : Nat) => (List.range 8).map fun i => g.readV (w.a.toNat + i) t
        let bad := (threadsOf sel).filter fun t => rayBad ((words t).map valF32)
        let good := (threadsOf sel).filter fun t => !(bad.contains t)
        let s := captureThreads s g.ref sel
        let s := s.modGroup g.ref fun g => bad.foldl (fun g t => g.writeV w.d.toNat t 5) g
        let ids := (List.range good.length).map (s.nextRay + ·)
        let s := if good.isEmpty then s else s.modGroup g.ref fun g =>
          { g with traces := g.traces ++ [⟨pack 0x109 w, ids, w.la.toNat + 1⟩] }
        .done (good.foldl (fun s t =>
          let ctl := e.r32 w.b t
          let ray : Ray := { id := s.nextRay, g := g.ref, ctx := g.ctx, t := t, d := w.d.toNat, table := e.gv, ctl := ctl,
                             pc := g.lpc, out := none, wait := none, fatal := false, island := port.island }
          let r := { recordIn s g port t (words t ++ [ctl]) false with ray := some s.nextRay }
          { s.modIsland port.island (fun i => { i with input := i.input ++ [r] }) with
            rays := s.rays ++ [ray], nextRay := s.nextRay + 1 }) s)

/-- The values of the items of a REFILL, each read by its thread. -/
def itemParts (core : Nat) (r : GroupRef) (kind : Nat) : State → List (Nat × W64 × Xlat) → State × List LoadPart
  | s, [] => (s, [])
  | s, (t, va, x) :: rest =>
    let (s, bs) := coreRead s core (.thread r t) (asKind kind x) (x.pte.cpol = 1) x.pa 4
    let (s, ps) := itemParts core r kind s rest
    (s, ⟨t, va, x.pa, some (BitVec.ofNat 128 (leNat bs))⟩ :: ps)
/-- The item reads of a REFILL, once its atomic is made: an outstanding load, or, where an item does not translate, an
entry that is performed before the group's next word (R230, R310, R311). They take the strongest kind among the pages of the
word (R66); the threads whose items meet a watch point are given (R322). -/
def refillReads (s : State) (g : Group) (b : Block) (w : LaneWord) (kind : Nat) (items : List (Nat × W64)) : State × Mask :=
  let entry := fun (s : State) =>
    let r : Replay := { word := pack 0x10A w, stream := .lane, cancel := false, unfinished := false, pc := g.lpc,
                        rmask := items.foldl (fun m (t, _) => m ||| threadBit t) 0
                        addrs := (List.range 32).map fun t => ((items.find? (·.1 = t)).map (·.2)).getD 0 }
    s.modGroup g.ref fun g => { g with replay := g.replay ++ [r] }
  let core := g.ref.core.toNat
  match access s (some core) b.test g.ctx .read 4 items with
  | (s, .ok xs) =>
    if !(poisonedAt s 4 xs).isEmpty then (entry s, 0)
    else
      let met := if b.test then 0 else watchHit s g.ctx .read 4 items
      let (s, parts) := itemParts core g.ref kind (allocateAll (touchLines s b g.ref 4 xs) 4 xs) xs
      let l : Load := { stream := .lane, word := pack 0x10A w, pc := g.lpc, size := 4, signed := false, dst := w.d.toNat,
                        discard := false, spread := 0, pred := w.c.toNat, core := g.ref.core, parts := parts,
                        window := w.la.toNat + 1, watch := none }
      ((soAfter s core kind).modGroup g.ref fun g => { g with loads := g.loads ++ [l] }, met)
  | (s, _) => (entry s, 0)

/-- Whether items stand in the way of a REFILL before its atomic: those of a handler (assumption 19). -/
def refillHold (s : State) (g : Group) (b : Block) (items : List (Nat × W64)) : Option WordRes :=
  if !g.trapm then none
  else match access s (some g.ref.core.toNat) b.test g.ctx .read 4 items with
    | (s, .cause code tm fa) => some (.denied s code tm fa)
    | (s, .park fs) => some (.park s fs)
    | (_, .ok _) => none

/-- R230. -/
def execRefill (w : LaneWord) (s : State) : Out :=
  memWord s w [w.a] [w.d.toNat] [] [w.c.toNat] fun g b sel e =>
    let core := g.ref.core.toNat
    let va := e.gv
    let m := threadsOf sel
    let who := lowest sel
    if !(loadRoom s g) then .wait s
    else if va.toNat % 64 ≠ 0 then .cause 5 0 sel va
    else forThreads sel (laneReads s g b 2 64 [(who, va)] fun s ds =>
      let d := ds.headD 0
      let size := bits d 135 128
      let base := bits d 127 64
      if 24 < size || d / 2 ^ 136 ≠ 0 then .denied s 0x0B sel va
      else if base % 4 ≠ 0 then .denied s 5 sel (BitVec.ofNat 64 base)
      else withAccess s g b .atomic 8 [(who, va)] fun s xs =>
        match xs with
        | (_, _, x) :: _ =>
          let ctrl := memNat s x.pa 8
          let h := ctrl % 2 ^ 32
          let k := min m.length ((ctrl / 2 ^ 32 + 2 ^ 32 - h) % 2 ^ 32)
          let items := ((m.take k).zipIdx).map fun (t, j) =>
            (t, BitVec.ofNat 64 (base + 4 * ((h + j) % 2 ^ 32 % 2 ^ size)))
          let kind := min (strongest xs) (peekReads s g b 4 items).1
          if !(kindReady s core kind) || !(released s core w.x.toNat) || pendOverlap s core x.pa 8 then .wait s
          else
            match refillHold s g b items with
            | some r => r
            | none =>
              let s := captureThreads s g.ref sel
              let s := atomWrite s core x.pa (bytesOf 8 (ctrl / 2 ^ 32 * 2 ^ 32 + (h + k) % 2 ^ 32))
              let s := soAfter (acquire s core w.x.toNat) core kind
              let none' := (m.drop k).foldl (fun m t => m ||| threadBit t) 0
              let s := s.modGroup g.ref fun g => g.setP w.c.toNat none' 0
              let (s, met) := if items.isEmpty then (s, 0) else refillReads s g b w kind items
              if met ≠ 0 then .watched s met else .done s
        | [] => .done s)

end Sys2Proof.Machine
end

