-- ==== Sys2Proof/Machine/Pass.lean ====
section
/-! DEFINITION. The arithmetic of a matrix pass: gears (R101), one output (R102), the monitors (R104) and the gear of an
attempt (R105, R106), over any A rows, B tile and scales. -/

namespace Sys2Proof.Machine

open Sys2Proof

/-- A dyadic number m * 2^e. -/
structure Dyadic where
  m : Int
  e : Int
deriving DecidableEq, Repr

namespace Dyadic
/-- A finite value whose denominator is a power of two. -/
def ofFin (neg : Bool) (n d : Nat) : Dyadic := ⟨Val.sInt neg n, -(d.log2 : Int)⟩
def add (a b : Dyadic) : Dyadic :=
  let e := min a.e b.e
  ⟨a.m * 2 ^ (a.e - e).toNat + b.m * 2 ^ (b.e - e).toNat, e⟩
def toVal (a : Dyadic) : Val := (Val.fin (a.m < 0) a.m.natAbs 1).scale2 a.e
/-- floor(log2 |a|), for a that is not zero. -/
def log2 (a : Dyadic) : Int := (a.m.natAbs.log2 : Int) + a.e
/-- floor(a / 2^u), and whether it is exact. -/
def floorAt (a : Dyadic) (u : Int) : Int × Bool :=
  if u ≤ a.e then (a.m * 2 ^ (a.e - u).toNat, true)
  else let p : Int := 2 ^ (u - a.e).toNat; (a.m / p, a.m % p = 0)
end Dyadic

/-- A sum of products with its special values (R102). -/
structure Sum where
  nan : Bool
  pinf : Bool
  ninf : Bool
  v : Dyadic
deriving DecidableEq, Repr

def Sum.zero : Sum := ⟨false, false, false, ⟨0, 0⟩⟩
def Sum.add (s : Sum) (v : Val) : Sum :=
  match v with
  | .nan _ => { s with nan := true }
  | .inf true => { s with ninf := true }
  | .inf false => { s with pinf := true }
  | .fin neg n d => if n = 0 then s else { s with v := s.v.add (.ofFin neg n d) }
def Sum.toVal (s : Sum) : Val :=
  if s.nan || (s.pinf && s.ninf) then .nan false else if s.pinf then .inf false else if s.ninf then .inf true else s.v.toVal

/-- The format of a gear (R101). -/
def gearFmt (g : Nat) : Fmt := match g with | 0 => .e2m1 | 1 => .e4m3 | 2 => .bf16 | _ => .f32

/-- quantize_gear of R101: the value, its saturation and its underflow. -/
def quantizeGear (g : Nat) (x : Val) : Val × Bool × Bool :=
  let f := gearFmt g
  let top := fun (neg : Bool) => if neg then f.maxVal.neg else f.maxVal
  match x with
  | .nan _ => if g ≤ 1 then (top false, true, false) else (x, false, false)
  | .inf s => if g ≤ 1 then (top s, true, false) else (x, false, false)
  | .fin s n _ =>
    let r := f.round .rn x
    let q := f.decode r.1
    if r.2.o || Val.lt f.maxVal x.abs then (top s, true, false) else (q, false, n ≠ 0 && q.isZero)

/-- The operands of a pass of m rows: A as retained, B, and the block scales (R102, R242). -/
structure PassData where
  m : Nat
  a : Nat → Nat → Val
  b : Nat → Nat → Val
  sa : Nat → Nat → Val
  sb : Nat → Nat → Val

/-- The exact scaled sum of block q of an output (R102). -/
def blockSum (d : PassData) (row : List Val) (i j q : Nat) : Val :=
  let sum := (List.range 32).foldl (fun (s : Sum) k => s.add (Val.mul (row.getD (32 * q + k) .zero) (d.b (32 * q + k) j)).1) Sum.zero
  (Val.mul (Val.mul sum.toVal (d.sa i q)).1 (d.sb q j)).1

/-- The dyadic value of a finite block. -/
def dyadicOf : Val → Dyadic
  | .fin s n d => .ofFin s n d
  | _ => ⟨0, 0⟩

/-- P of finite blocks that are not all zero, and whether it is a cancellation (R102, R104). -/
def windowSum (bs : List Dyadic) : Dyadic × Bool :=
  let nz := bs.filter fun b => b.m ≠ 0
  let top := nz.foldl (fun m b => max m b.log2) (((nz.head?).map (·.log2)).getD 0)
  let u := top - 93
  let ts := bs.map fun b => b.floorAt u
  let sticky := ts.any fun t => !t.2
  let s := ts.foldl (fun a t => a + t.1) 0
  let p : Dyadic := ⟨2 * s + if sticky then 1 else 0, u - 1⟩
  let big := nz.foldl (fun (m : Dyadic) b => if Val.lt m.toVal.abs b.toVal.abs then b else m) ⟨0, 0⟩
  (p, Val.lt (p.toVal.abs.scale2 12) big.toVal.abs)

/-- One output of a pass: P, and whether it counts as a cancellation. -/
def passOutput (d : PassData) (row : List Val) (i j : Nat) : Val × Bool :=
  let bs := (List.range 4).map fun q => blockSum d row i j q
  if bs.any (·.isNan) || (bs.any fun b => b.isInf && b.sign) && (bs.any fun b => b.isInf && !b.sign) then (.nan false, false)
  else match bs.find? (·.isInf) with
    | some v => (v, false)
    | none =>
      if bs.all (·.isZero) then (.zero, false)
      else let r := windowSum (bs.map dyadicOf); (r.1.toVal, r.2)

/-- The quantised rows of an attempt with each element's counts. -/
def quantRows (d : PassData) (gear : Nat) : List (List (Val × Bool × Bool)) :=
  (List.range d.m).map fun i => (List.range 128).map fun k => quantizeGear gear (d.a i k)

/-- An attempt's outputs, and its counts kept to 16 bits: rows under `rows` and columns under `cols` are counted (R104,
R258). -/
structure Attempt where
  out : List (List Val)
  sat : Nat
  und : Nat
  can : Nat
deriving DecidableEq, Repr

def attemptAt (d : PassData) (gear rows cols : Nat) : Attempt :=
  let qs := quantRows d gear
  let counted := (qs.take rows).flatten
  let outs := (qs.zipIdx).map fun (r, i) => let row := r.map (·.1); (List.range 128).map fun j => passOutput d row i j
  let cap := fun (n : Nat) => min n 65535
  { out := outs.map fun (r : List (Val × Bool)) => r.map (·.1)
    sat := cap (counted.filter fun x => x.2.1).length
    und := cap (counted.filter fun x => x.2.2).length
    can := cap (((outs.take rows).flatMap fun r => r.take cols).filter fun (x : Val × Bool) => x.2).length }

/-- R104: whether a count is above its limit in MBUDGET. -/
def Attempt.passes (a : Attempt) (budget : BitVec 24) : Bool :=
  let f := fun (c : Nat) (l : Nat) => l ≠ 255 && l < c
  f a.sat (bits budget.toNat 23 16) || f a.und (bits budget.toNat 15 8) || f a.can (bits budget.toNat 7 0)

/-- R106: the first gear of MGEAR; R246: the tokens of a gear; R125: the cycles of an attempt. -/
def firstGear (mgear : BitVec 4) : Nat := min (bits mgear.toNat 3 2) (bits mgear.toNat 1 0)
def gearTokens (g : Nat) : Nat := match g with | 0 => 6 | 1 => 4 | 2 => 3 | _ => 2
def attemptCycles (rows g : Nat) : Nat :=
  12 + match g with
    | 0 => (rows + 1) / 2
    | 1 => rows
    | 2 => 2 * rows
    | _ => 8 * rows

end Sys2Proof.Machine
end

