-- ==== Sys2Proof/Machine/Work.lean ====
section
/-! DEFINITION. The scalar words that create work and leave the stream (R168-R174, R158, R324). -/

namespace Sys2Proof.Machine

open Sys2Proof

/-- n aligned bytes read by the scalar stream as relaxed accesses of `size` bytes each. -/
def readFor (s : State) (g : Group) (b : Block) (size : Nat) (vas : List W64)
    (f : State → List Byte → WordRes) : WordRes :=
  withAccess s g b .read size (vas.map fun va => (0, va)) fun s xs =>
    if !(soReady s g.ref.core.toNat xs) then .wait s
    else
      let (s, bs) := readNow s g size xs
      f s bs

/-- A status written to S[D]. -/
def status (s : State) (g : Group) (d : BitVec 5) (v : Nat) : WordRes :=
  .done (s.modGroup g.ref fun g => g.writeS d (BitVec.ofNat 64 v))

/-- The record that SPAWN and AMSEND read at S[A]: 64 bytes, 128 for a launch where the word takes one (R168). -/
def withRecord (s : State) (g : Group) (b : Block) (a : BitVec 5) (launch : Bool)
    (f : State → Slot64 → Option Slot64 → WordRes) : WordRes :=
  let va := g.readS a
  readFor s g b 64 [va] fun s bs =>
    let r := slotOf bs
    if launch && recForm r = 1 then readFor s g b 64 [va + 64] fun s es => f s r (some (slotOf es))
    else f s r none

/-- R168: SPAWN. The ring slots and TAIL are written as accesses of the stream, all checked before any is made. -/
def execSpawn (d a : BitVec 5) (q : BitVec 6) (s : State) : Out :=
  scalarWord s [d, a] false fun g b =>
    withRecord s g b a true fun s r e =>
      if 2 ≤ recForm r then status s g d 3
      else if b.test then status s g d 2
      else
        let dva := queueVa s g.ctx q.toNat
        readFor s g b 64 [dva, dva + 64] fun s bs =>
          match queueDesc bs with
          | none => status s g d 2
          | some qd =>
            let p := recPrio r
            let n := if e.isSome then 2 else 1
            if qd.full p n then status s g d 1
            else
              let t := qd.tails.getD p 0
              let slots := (List.range n).map fun i => (0, qd.slotVa p (t + i))
              withAccess s g b .write 4 [(0, dva + BitVec.ofNat 64 (68 + 8 * p))] fun s tx =>
                withAccess s g b .write 64 slots fun s xs =>
                  let kind := strongest (xs ++ tx)
                  if !(kindReady s g.ref.core.toNat kind) then .wait s
                  else if !(released s g.ref.core.toNat 5) && (xs ++ tx).any (fun (_, _, x) => pendOverlap s g.ref.core.toNat x.pa 64) then .wait s
                  else
                    let s := if kind = 0 then captureStream s g.ref else s
                    let body := slotBytes r ++ (e.map slotBytes).getD []
                    let s := (xs.zipIdx).foldl (fun s (x, i) =>
                      l2Write s g.ref.core.toNat x.2.2.pa ((body.drop (64 * i)).take 64)) s
                    let s := tx.foldl (fun s (_, _, x) =>
                      l2Write s g.ref.core.toNat x.pa (bytesOf 4 ((t + n) % 2 ^ 32))) s
                    status (exposeSlot (soAfter s g.ref.core.toNat kind) g.ctx q.toNat p t (some b.grid) (some r) e) g d 0

/-- A message-route entry (R305): whether it is valid, whether it names a system queue, context and queue. -/
def routeOf (v : Nat) : Option (Bool × BitVec 8 × Nat) :=
  if !(bit v 63) || bits v 61 48 ≠ 0 || bits v 39 38 ≠ 0 || bits v 31 0 ≠ 0 then none
  else some (bit v 62, BitVec.ofNat 8 (bits v 47 40), bits v 37 32)

/-- R168, R332: AMSEND's destination; CLOSED, as for a page that does not translate for a write, comes before FULL. -/
def sendTo (s : State) (g : Group) (d : BitVec 5) (r : Slot64) (route : Option (Bool × BitVec 8 × Nat)) : WordRes :=
  match route with
  | none => status s g d 2
  | some (true, _, q) =>
    if 16 ≤ q then status s g d 2
    else match postRing s (2 + q) (slotBytes r) with
      | none => status s g d 1
      | some (s, _) => status s g d 0
  | some (false, c, q) =>
    let dva := queueVa s c q
    let lost := fun (s : State) (va : W64) => status (recordFault s c va 3) g d 2
    match readVirt s c false dva 128 with
    | (s, .error _) => lost s dva
    | (s, .ok bs) =>
      match queueDesc bs with
      | none => status s g d 2
      | some qd =>
        let p := recPrio r
        let t := qd.tails.getD p 0
        match spanOf s c .write false (dva + BitVec.ofNat 64 (68 + 8 * p)) 4 with
        | (s, .error _) => lost s dva
        | (s, .ok tpas) =>
          match spanOf s c .write false (qd.slotVa p t) 64 with
          | (s, .error _) => lost s (qd.slotVa p t)
          | (s, .ok pas) =>
            if qd.full p 1 then status s g d 1
            else
              let s := writePas (writePas s pas (slotBytes r)) tpas (bytesOf 4 ((t + 1) % 2 ^ 32))
              status (exposeSlot s c q p t none (some r) none) g d 0

def execAmsend (d a : BitVec 5) (q : BitVec 6) (s : State) : Out :=
  scalarWord s [d, a] false fun g b =>
    withRecord s g b a false fun s r _ =>
      if recForm r ≠ 2 then status s g d 3
      else match (if b.test then none else s.ctx? g.ctx) with
        | none => status s g d 2
        | some x =>
          if x.desc.mrcount ≤ q.toNat then status s g d 2
          else readFor s g b 8 [x.desc.mrtab + BitVec.ofNat 64 (8 * q.toNat)] fun s bs =>
            sendTo s g d r (routeOf (leNat bs))

/-- R169. -/
def execJoin (a : BitVec 5) (sc : BitVec 3) (s : State) : Out :=
  scalarWord s [a] false fun g b =>
    let core := g.ref.core.toNat
    afterLanes g s (withAccess s g b .atomic 4 [(0, g.readS a)] fun s xs =>
      match xs with
      | (_, _, x) :: _ =>
        if !(released s core sc.toNat) || !(soReady s core xs) || pendOverlap s core x.pa 4 then .wait s
        else
          let v := memNat s x.pa 4
          if v = 0 then .denied s 0x0B 0 (g.readS a)
          else .done (soAfter (atomWrite (captureStream s g.ref) core x.pa (bytesOf 4 (v - 1))) core x.pte.ord)
      | [] => .done s)

/-- R140: the registers of variant t after a move from the group's own variant. -/
def movedV (g : Group) (p : SwitchPoint) (t : Nat) : Sparse 32 :=
  let src := p.map.getD g.variant []
  let dst := p.map.getD t []
  (src.zip dst).foldl (fun v (a, b) => (List.range 32).foldl (fun v th => v.set (32 * b + th) (g.readV a th)) v) []

/-- R271: a mark is cleared when every group of the block has moved or exited; a block whose groups have moved runs the
target from then on. -/
def clearMark (s : State) (r : BlockRef) : State :=
  match s.block? r with
  | none => s
  | some b =>
    let moved := fun (g : Group) => decide (b.mark = some g.variant)
    if b.mark.isSome && (s.groupsOf r).all (fun g => g.exited || moved g) then
      settleMarks (s.modBlock r fun b =>
        { b with mark := none, variant := if (s.groupsOf r).any moved then b.mark.getD b.variant else b.variant })
    else s

/-- R170, R28, R272. -/
def execSwpt (n : BitVec 16) (s : State) : Out :=
  scalarWord s [] false fun g b =>
    afterLanes g s (
      match b.kernel.swpts[n.toNat]? with
      | none => .cause 2 0 0 0
      | some p =>
        let open' := s.copies.any fun c => c.g = g.ref && c.batch.isNone
        let rays := s.rays.any fun y => y.g = g.ref
        match b.mark with
        | none => .done s
        | some t =>
          let v := b.variantAt t
          let need := v.vcnt / 8 - g.vunits
          if g.trapm || g.variant = t || open' || rays ||
              freeUnits (placedOn s g.ref.core.toNat) g.lane.toNat g.wide < need then .done s
          else
            let s := s.modGroup g.ref fun g =>
              { g with v := movedV g p t, variant := t, vcnt := v.vcnt, spc := p.spc.getD t 0, lpc := p.lpc.getD t 0 }
            .jump (clearMark (serveGrowers s g.ref.core.toNat) b.ref))

/-- R171: the call record. -/
def callRecord (g : Group) (code : BitVec 12) : List Byte :=
  bytesOf 2 code.toNat ++ bytesOf 1 g.ctx.toNat ++ bytesOf 1 g.ref.core.toNat ++
  bytesOf 1 (slotsOf g.ref.bslot.toNat g.ref.slot.toNat) ++ bytesOf 3 0 ++ bytesOf 4 g.active.toNat ++ bytesOf 4 0 ++
  ((List.range 6).map fun i => bytesOf 8 (g.readS (BitVec.ofNat 5 (i + 1))).toNat).flatten

/-- R171: the record is posted once, then the stream waits for the service. -/
def execSyscall (code : BitVec 12) (s : State) : Out :=
  scalarWord s ((List.range 6).map fun i => BitVec.ofNat 5 (i + 1)) false fun g _ =>
    afterLanes g s (
      match g.waits.call with
      | some ⟨_, some (some (v1, v2))⟩ => .done (s.modGroup g.ref fun g =>
          { (g.writeS 1 v1).writeS 2 v2 with waits := { g.waits with call := none } })
      | some ⟨_, some none⟩ => .denied (s.modGroup g.ref fun g => { g with waits := { g.waits with call := none } }) 1 0 0
      | some ⟨_, none⟩ => .block s
      | none =>
        match postRing s 1 (callRecord g code) with
        | none => .wait s
        | some (s, i) =>
          .block (s.modGroup g.ref fun g => { g with waits := { g.waits with call := some ⟨i, none⟩ } }))

/-- R172; it is one of the words that close a window (R126). -/
def execTrap (code : BitVec 12) (s : State) : Out := scalarWord s [] true fun _ _ => .after s 0x40 code.toNat
/-- R172, R274: the ready stamp becomes the cycle of issue, as for every scalar word. -/
def execYield (s : State) : Out := scalarWord s [] false fun _ _ => .done s

/-- R74, R173: the arrivals of a group that are not matched count their leaves. -/
def retireArrivals (s : State) (b : BlockRef) (party : Nat) : State :=
  s.modBlock b fun b => { b with bars := b.bars.map fun x => x.retire party }

/-- The leaves that a group still owes its pelotons (R74, R173), each with what EXIT's access to its barrier word finds. -/
def owedLeaves (s : State) (g : Group) (b : Block) : State × List (PelArrival × AccessRes) :=
  (b.pels.filter fun a => a.owed && a.slot = g.ref.slot.toNat).foldl (fun (s, l) a =>
    match pelotonOf s b a.peloton with
    | none => (s, l)
    | some p =>
      let (s, r) := access s (some g.ref.core.toNat) b.test g.ctx .write 8 [(0, p.barw)]
      (s, l ++ [(a, r)])) (s, [])
/-- A leave that EXIT may make is made; one whose access is denied is left to the block's retirement (R75). -/
def leaveNow (s : State) (b : Block) (l : PelArrival × AccessRes) : State :=
  match l.2 with
  | .ok ((_, _, x) :: _) =>
    match barWordOf (memNat s x.pa 8) with
    | none => s
    | some w =>
      (atomWrite s b.ref.core.toNat x.pa (bytesOf 8 w.leave.encode)).modBlock b.ref fun b =>
        { b with pels := b.pels.map fun y => if y = l.1 then { y with owed := false } else y }
  | _ => s

/-- R297: an island's cause that a group has not raised when it exits is posted, in the name of the island that its port is
bound to (0 where it is bound no more). -/
def postHeld (s : State) (g : Group) : State :=
  match g.held with
  | some c => if c.code = 0x11#8 then postIsland s g.ctx ((portOf s g.ctx c.faddr.toNat).elim 0 (·.island)) c.faddr.toNat c.sub.toNat else s
  | none => s

/-- R32, R173, R233: every load, ray and draft result has returned; then the group ends. -/
def execExit (s : State) : Out :=
  scalarWord s [] true fun g b =>
    afterLanes g s (
      let (s, owed) := owedLeaves s g b
      let faults := owed.flatMap fun l => match l.2 with
        | .park fs => fs
        | _ => []
      if !g.loads.isEmpty || resultsOut s g.ref then .wait s
      else if !faults.isEmpty then .park s faults
      else
        let s := if s.copies.any fun c => c.g = g.ref && c.batch.isNone then closeBatch s g 0 else s
        let s := retireArrivals s b.ref g.ref.slot.toNat
        let s := owed.foldl (fun s l => leaveNow s b l) s
        let s := s.modGroup g.ref fun g =>
          { g with exited := true, mons := List.replicate 4 ⟨.unarmed, 0, 0⟩
                   walkers := List.replicate 8 ⟨0, [], [], []⟩ }
        .jump (passOn (clearMark (serveGrowers (postHeld s g) g.ref.core.toNat) b.ref) g.ref))

/-- The codes of R306 and code 0. -/
def causeKnown (c : Nat) : Bool :=
  c ≤ 0x0B || (0x10 ≤ c && c ≤ 0x12) || (0x20 ≤ c && c ≤ 0x24) || c = 0x28 || (0x30 ≤ c && c ≤ 0x32) || c = 0x40

/-- R158. -/
def execCausew (a : BitVec 5) (s : State) : Out :=
  scalarWord s [a] false fun g _ =>
    let c := (g.readS a).toNat % 256
    if !(causeKnown c) then .cause 2 0 0 0
    else if g.trapm then .done (s.modGroup g.ref fun g => { g with cause := BitVec.ofNat 8 c })
    else if c = 0 then .done s
    else .wait { raise s g (causeAt g c 0 2 0 g.spc 0 0) with issued := true }
/-- R158. -/
def execSrseed (a : BitVec 5) (s : State) : Out :=
  scalarWord s [a] false fun g _ =>
    afterLanes g s (
      let v : W32 := (g.readS a).setWidth 32
      .done (s.modGroup g.ref fun g => { g with sr := if v = 0 then 1 else v }))
def execSprd (d : BitVec 5) (sp : BitVec 8) (s : State) : Out :=
  scalarWord s [d] false fun g b =>
    match sp.toNat with
    | 0 => .done (s.modGroup g.ref fun g => g.writeS d (gsr g b.kernel.compat))
    | 1 => afterLanes g s (.done (s.modGroup g.ref fun g => g.writeS d (g.fsr.setWidth 64)))
    | 2 => .done (s.modGroup g.ref fun g => g.writeS d (g.cause.setWidth 64))
    | _ => .cause 2 0 0 0
/-- R158, R95: a write that sets RM to 4-7 raises cause 0x02. -/
def execSpwr (a : BitVec 5) (sp : BitVec 8) (s : State) : Out :=
  scalarWord s [a] false fun g _ =>
    match sp.toNat with
    | 0 => afterLanes g s (.done s)
    | 1 => afterLanes g s (
        let v : W32 := (g.readS a).setWidth 32
        if v.getLsbD 15 then .cause 2 0 0 0
        else .done (s.modGroup g.ref fun g => { g with fsr := v &&& fsrWritable }))
    | _ => .cause 2 0 0 0

/-- R324: a loop-buffer descriptor's 528 bytes; none where it is malformed. -/
def loopOf (va : W64) (bs : List Byte) : Option Loop :=
  let nw := fieldAt bs 0 1
  let count := fieldAt bs 2 2
  let words := (List.range nw).map fun i =>
    LoopWord.mk (BitVec.ofNat 96 (fieldAt bs (16 + 32 * i) 12)) (BitVec.ofNat 32 (fieldAt bs (28 + 32 * i) 4))
      (BitVec.ofNat 32 (fieldAt bs (32 + 32 * i) 4))
  let rsv := (List.range nw).any fun i => fieldAt bs (36 + 32 * i) 12 ≠ 0
  if nw = 0 || 16 < nw || count = 0 || fieldAt bs 1 1 ≠ 0 || fieldAt bs 4 12 ≠ 0 || rsv then none
  else some { lines := linesOf va.toNat 528, first := (va + 16).setWidth 52, words := words, count := count, iter := 0, err := false, ended := false }

/-- R174, R324: REPLAY runs only in loop-buffer mode; elsewhere cause 0x03. The loop's words run as one lane run over
all 32 threads; the word waits until the loop is over, then S[D] receives its result. -/
def execReplay (d a : BitVec 5) (s : State) : Out :=
  scalarWord s [d, a] false fun g b =>
    if !(b.test && (s.core g.ref.core.toNat).loopMode) then .cause 3 0 0 0
    else match g.loop with
      | some l =>
        if !l.ended then .block s
        else
          let err := l.err
          let s := s.modGroup g.ref fun g =>
            { g.writeS d (BitVec.ofNat 64 (l.iter * 2 ^ 32 + if err then 1 else 0)) with loop := none }
          .done (if err then s.modBlock b.ref fun b => { b with testErr := true } else s)
      | none =>
        let va := g.readS a
        let bad := .done ((s.modGroup g.ref fun g => g.writeS d 1).modBlock b.ref fun b => { b with testErr := true })
        if va.toNat % 16 ≠ 0 then bad
        else readFor s g b 16 ((List.range 33).map fun i => va + BitVec.ofNat 64 (16 * i)) fun s bs =>
          match loopOf va bs with
          | none => bad
          | some l =>
            let run : Run := { first := l.first, words := l.words.length, started := false, depth := 0, caps := [], marks := []
                               later := [], snapS := [], snapK := [] }
            .block (s.modGroup g.ref fun g => { g with loop := some l, runs := g.runs ++ [run] })

end Sys2Proof.Machine
end

