-- ==== Sys2Proof/Machine/Matrix.lean ====
section
/-! DEFINITION. The matrix words (R234-R254). -/

namespace Sys2Proof.Machine

open Sys2Proof

/-- The share of a block (R44, R139). -/
def Block.accRows (b : Block) : Nat := b.ownVariant.accrows
def Block.slots (b : Block) : Nat := b.ownVariant.bslots
def Block.scaleSize (b : Block) : Nat := 1024 * b.ownVariant.scalekb

/-- K as the sequencer reads it at issue (R234). -/
def seqK (s : State) (b : Block) (n : Nat) : W64 := b.readK s.cycle (n % 16)
def seqWriteK (s : State) (b : Block) (n : Nat) (v : W64) : State :=
  s.modBlock b.ref fun b => b.writeK s.cycle (n % 16) 32 v
/-- An operand that is IMM or K. -/
def immOrK (s : State) (b : Block) (w : LaneWord) (c : BitVec 8) : W64 :=
  if c = 248#8 then w.imm.setWidth 64 else if c = 250#8 then seqK s b w.ix else 0

/-- No transfer stands in the word's way. -/
def noClash : MLoad → Bool := fun _ => false
def meets (a n b m : Nat) : Bool := a < b + m && b < a + n
/-- The slots a tile takes (R42). -/
def tileSlots (fmt : Nat) : Nat := if fmt = 3 then 2 else 1
def clashSlots (slot n : Nat) (m : MLoad) : Bool := !m.scale && meets slot n m.dst (tileSlots m.fmt)
def clashScale (o n : Nat) (m : MLoad) : Bool := m.scale && meets o n m.dst ((m.spans.map (·.2)).foldl (· + ·) 0)

/-- Accesses of the sequencer: checked and translated as one word (R58, R237). Transfers that still defer their reads read the
bytes that the word meets first, and all of them at an SO access (R65, R67). -/
def seqAccess (s : State) (b : Block) (k : Access) (size : Nat) (vas : List W64)
    (f : State → List (Nat × W64 × Xlat) → MatRes) : MatRes :=
  match access s (some b.ref.core.toNat) b.test b.ctx k size (vas.map fun va => (0, va)) with
  | (s, .cause code _ fa) => .cause s code 0 fa
  | (s, .park fs) => .park s fs
  | (s, .ok xs) =>
    match (if k = .write then [] else poisonedAt s size xs) with
    | (_, va, x) :: _ => .cause (logPoison s x.pa) 1 0 va
    | [] =>
      if !(soReady s b.ref.core.toNat xs) then .wait s
      else
        let s := if strongest xs = 0 then captureSeq s b.ref
          else captureTransfers s b.ref fun m => !m.scratch && m.spans.any fun (a, n) => xs.any fun (_, _, x) => a < x.pa + size && x.pa < a + n
        match f (allocateAll s size xs) xs with
        | .done s => .done (soAfter s b.ref.core.toNat (strongest xs))
        | r => r

/-- R307: a word that has met a cause takes the cause of its accesses instead where that is the lower code. -/
def seqLowest (s : State) (b : Block) (k : Access) (size : Nat) (vas : List W64) (code : Nat) (fa : W64) : MatRes :=
  match access s (some b.ref.core.toNat) b.test b.ctx k size (vas.map fun va => (0, va)) with
  | (s', .cause c _ fa') => if c < code then .cause s' c 0 fa' else .cause s code 0 fa
  | _ => .cause s code 0 fa

/-- R126: a transfer is made at issue, or, on RC and UO pages, later where an open choice defers it. -/
def startTransfer (s : State) (b : Block) (m : MLoad) (defer : Bool) : MatRes :=
  let (later, s) := if defer then s.choose else (0, s)
  if later ≠ 0 then .done (s.modBlock b.ref fun b => { b with seq := { b.seq with mloads :=
      b.seq.mloads ++ [{ m with window := m.window + 1 }] } })
  else .done (performTransfer s b.ref m)

/-- The source address of a transfer. -/
def transferBase (s : State) (b : Block) (w : LaneWord) : W64 := immOrK s b w w.a + BitVec.ofInt 64 (disp24 w)
/-- R239, R240: the source of a transfer of n pieces of rb bytes. -/
def transferFrom (s : State) (b : Block) (w : LaneWord) (n rb : Nat) (m : MLoad) : MatRes :=
  let base := transferBase s b w
  if base.toNat % rb ≠ 0 then .cause s 5 0 base
  else if m.scratch then
    if b.scratchSize < base.toNat + n * rb then .cause s 6 0 base
    else if spoiled b.badPad base.toNat (n * rb) then .cause (logSpoiled s b.ref.core.toNat) 1 0 base
    else startTransfer s b { m with spans := [(base.toNat, n * rb)] } false
  else seqAccess s b .read rb ((List.range n).map fun i => base + BitVec.ofNat 64 (rb * i)) fun s xs =>
    startTransfer s b { m with spans := xs.map fun (_, _, x) => (x.pa, rb) } (strongest xs ≠ 0)

def execMloadb (w : LaneWord) (s : State) : Out :=
  let fmt := w.md.toNat / 16 % 4
  let slot := w.b.toNat
  matrixWord s false (clashSlots slot (tileSlots fmt)) fun b =>
    if b.slots < slot + tileSlots fmt then .cause s 8 0 0
    else transferFrom s b w 128 (match fmt with | 1 => 64 | 3 => 256 | _ => 128)
      { pc := b.seq.mpc, scratch := w.md.toNat / 64 = 1, scale := false, fmt := fmt, dst := slot, spans := [], data := none
        window := w.la.toNat }

/-- R240: of its causes the lowest code is taken (R307). -/
def execMscale (w : LaneWord) (s : State) : Out :=
  let n := w.c.toNat + 1
  let o := 256 * w.b.toNat
  matrixWord s false (clashScale o (64 * n)) fun b =>
    if (transferBase s b w).toNat % 64 ≠ 0 then .cause s 5 0 (transferBase s b w)
    else if b.scaleSize < o + 64 * n then
      if w.md.toNat / 64 = 1 then .cause s 6 0 (BitVec.ofNat 64 o)
      else seqLowest s b .read 64 ((List.range n).map fun i => transferBase s b w + BitVec.ofNat 64 (64 * i)) 6 (BitVec.ofNat 64 o)
    else transferFrom s b w n 64
      { pc := b.seq.mpc, scratch := w.md.toNat / 64 = 1, scale := true, fmt := 0, dst := o, spans := [], data := none
        window := w.la.toNat }

/-- The fields of an MMA (R241). -/
structure MmaWord where
  src : Nat
  bfmt : Nat
  bf16 : Bool
  noup : Bool
  z : Bool
  bs : Nat
  slot : Nat
  rows : Nat
  x : Nat
  arow : Nat
  as : Nat
  ix : Nat
deriving DecidableEq, Repr

def mmaOf (w : W96) : MmaWord :=
  let w := w.toNat
  let md := bits w 75 68
  { src := md / 64, bfmt := md / 16 % 4, bf16 := md / 4 % 4 = 1, noup := bit md 1, z := bit md 0, bs := 512 * bits w 67 60
    slot := bits w 51 44, rows := bits w 43 36 + 1, x := bits w 35 32, arow := bits w 31 21, as := 8 * bits w 20 8
    ix := bits w 7 0 }
/-- Bytes of a row of A (R242). -/
def MmaWord.rowBytes (m : MmaWord) : Nat := if m.bf16 then 256 else 512

/-- What the A source of an MMA comes to (R243). -/
inductive SourceRes where
  | ok (s : State) (base : W64)
  | empty
  | cause (code sub : Nat) (faddr : W64)
deriving DecidableEq, Repr

/-- The base of the rows: a handle is popped once and kept (R243). -/
def mmaSource (s : State) (b : Block) (m : MmaWord) : SourceRes :=
  match m.src with
  | 1 =>
    match b.seq.handle with
    | some h => .ok s (h.setWidth 64)
    | none =>
      match popQ s b 32 (m.ix % 8) with
      | .value v s => .ok ((captureSeq s b.ref).modBlock b.ref fun b => { b with seq := { b.seq with handle := some v } }) (v.setWidth 64)
      | .empty => .empty
      | .cause code sub p => .cause code sub (BitVec.ofNat 64 p)
  | 2 => .ok s (((b.seq.pass.map fun p => BitVec.ofNat 64 p.base)).getD (((seqK s b m.x).setWidth 32).setWidth 64))
  | _ => .ok s (((seqK s b m.ix).setWidth 32).setWidth 64)

/-- The queue of a .QS pass: its key and entries, or the cause (R242, R243). -/
def streamQueue (s : State) (b : Block) (k : Nat) : Except (Nat × Nat × Nat) (Nat × List (Option (List W32))) :=
  let q := (b.kernel.qbind.getD k 0).toNat
  match q / 64 with
  | 0 => .error (0x0B, 0, 0)
  | 2 => readQueue s b k 16
  | _ => .error (0x11, 2, q % 64)

/-- R242, R243: the rows of a .QS pass still lacking are retained as their entries stand in the queue: the block, the
entries left, and whether an END entry was popped. -/
def streamRows (base need : Nat) : Block → List (Option (List W32)) → Block × List (Option (List W32)) × Bool
  | b, [] => (b, [], false)
  | b, e :: es =>
    if need ≤ b.seq.qsTaken then (b, e :: es, false)
    else match e with
      | none => (b, es, true)
      | some ws =>
        let bytes := (ws.map fun v => bytesOf 4 v.toNat).flatten
        streamRows base need { b.putPad (base + 64 * b.seq.qsTaken) bytes with
                                seq := { b.seq with qsTaken := b.seq.qsTaken + 1 } } es

/-- The pass stands as a candidate for the array from this cycle on (R275). -/
def requestPass (s : State) (b : Block) (m : MmaWord) (word : W96) (base : Nat) : State :=
  s.modBlock b.ref fun b =>
    let g := firstGear b.seq.mgear
    let p : Pass := { word := word, base := base, gear := g, floorGear := g, granted := false, tokens := 0, attempts := 0
                      ceil := if m.noup then g else bits b.seq.mgear.toNat 1 0, budget := b.seq.mbudget
                      stamp := s.cycle, start := 0 }
    { b with seq := { b.seq with pass := some p }, lock := some (base, m.rows * m.rowBytes) }

/-- Whether an operand of a pass is poisoned (R345): the rows in the scratchpad, the tile, the scales, or accumulators that it adds
to. -/
def passSpoiled (b : Block) (m : MmaWord) (base : Nat) : Bool :=
  (m.src ≠ 2 && spoiled b.badPad base (m.rows * m.rowBytes)) || spoiled b.badB (16384 * m.slot) (16384 * tileSlots m.bfmt) ||
  spoiled b.badScale m.as (4 * m.rows) || spoiled b.badScale m.bs 512 || (!m.z && spoiled b.badAcc (128 * m.arow) (128 * m.rows))

/-- Entries of a .QS pass still to be taken. -/
def Block.lacking (b : Block) (m : MmaWord) : Nat := m.rows * m.rowBytes / 64 - b.seq.qsTaken

/-- R243: the checks, the source and the lock; then the pass waits for the array (R246). It commits at ATTEMPT_END. -/
def execMma (w : LaneWord) (s : State) : Out :=
  let word := pack 0x180 w
  let m := mmaOf word
  matrixWord s false (fun t => clashSlots m.slot (tileSlots m.bfmt) t || clashScale m.as (4 * m.rows) t || clashScale m.bs 512 t)
    fun b =>
      if b.seq.pass.isSome && (m.src ≠ 2 || b.lacking m = 0) then .wait s
      else if b.accRows < m.arow + m.rows || b.slots < m.slot + tileSlots m.bfmt then .cause s 8 0 0
      else if b.scaleSize < m.as + 4 * m.rows || b.scaleSize < m.bs + 512 then .cause s 6 0 0
      else match mmaSource s b m with
        | .empty => .wait s
        | .cause code sub fa => .cause s code sub fa
        | .ok s base =>
          if base.toNat % 256 ≠ 0 then .cause s 5 0 base
          else if b.scratchSize < base.toNat + m.rows * m.rowBytes then .cause s 6 0 base
          else if passSpoiled b m base.toNat then .cause (logSpoiled s b.ref.core.toNat) 1 0 base
          else if m.src ≠ 2 then .wait (requestPass s b m word base.toNat)
          else match streamQueue s b (m.ix % 8) with
            | .error (code, sub, p) => .cause s code sub (BitVec.ofNat 64 p)
            | .ok (key, es) =>
              if b.lacking m = 0 then .wait (requestPass s b m word base.toNat)
              else
                let i := b.claimed key 32
                if (es.drop i).isEmpty then .wait s
                else
                  let s := if b.seq.pass.isSome then s else requestPass s b m word base.toNat
                  let step := fun (b : Block) => streamRows base.toNat (m.rows * m.rowBytes / 64) b (es.drop i)
                  let s := s.modBlock b.ref fun b => let r := step b; setQueueAt r.1 key (es.take i ++ r.2.1)
                  if (step b).2.2 then
                    .cause (s.modBlock b.ref fun b => { b with seq := { b.seq with pass := none } }) 0x11 7
                      (BitVec.ofNat 64 (key - 8))
                  else .wait s

/-- Accumulator (row, column) of a share. -/
def accAt (b : Block) (row col : Nat) : W96 := b.acc.get (128 * row + col)

/-- R248: rows cleared to +0. -/
def clearRows (b : Block) (row n : Nat) : Block := { b with acc := b.acc.clear (128 * row) (128 * n), badAcc := Block.clean b.badAcc (128 * row) (128 * n) }

def execAclr (w : LaneWord) (s : State) : Out :=
  let row := bits w.imm.toNat 31 21
  let n := bits w.imm.toNat 20 10 + 1
  matrixWord s false noClash fun b =>
    if b.accRows < row + n then .cause s 8 0 0 else .done (s.modBlock b.ref fun b => clearRows b row n)

/-- round_a96 of a sum (R102, R248). -/
def a96Add (x : W96) (v : Val) : W96 := roundA96 (Val.add false (a96Val x) v).1

def execAmove (w : LaneWord) (s : State) : Out :=
  let dst := bits w.imm.toNat 31 21
  let src := bits w.imm.toNat 20 10
  let n := w.c.toNat + 1
  matrixWord s false noClash fun b =>
    if b.accRows < dst + n || b.accRows < src + n then .cause s 8 0 0
    else
      let old := b.acc
      let val := fun (k : Nat) =>
        let x := old.get (128 * src + k)
        if w.md.getLsbD 0 then a96Add (old.get (128 * dst + k)) (a96Val x) else x
      if spoiled b.badAcc (128 * src) (128 * n) || (w.md.getLsbD 0 && spoiled b.badAcc (128 * dst) (128 * n)) then
        .cause (logSpoiled s b.ref.core.toNat) 1 0 0
      else .done (s.modBlock b.ref fun b => (List.range (128 * n)).foldl (fun b k => b.putAcc (128 * dst + k) (val k)) b)

/-- The bytes of a row read out (R103, R249). -/
def aoutRow (ty : Nat) (mode : Mode) (scale : Val × Val) (row : List W96) : List Byte :=
  let vs := row.map fun x => (roundTo ty mode (Val.mul (Val.mul (a96Val x) scale.1).1 scale.2).1).1
  if ty = 13 then (List.range 64).map fun i => BitVec.ofNat 8 (vs.getD (2 * i) 0 % 16 + 16 * (vs.getD (2 * i + 1) 0 % 16))
  else (vs.map fun v => bytesOf (elemWidth ty / 8) v).flatten

/-- R249: of its causes the lowest code is taken (R307). -/
def execAout (w : LaneWord) (s : State) : Out :=
  let ty := w.md.toNat / 16
  let n := w.c.toNat + 1
  let row := bits w.imm.toNat 31 21
  let size := n * (16 * elemWidth ty)
  matrixWord s false noClash fun b =>
    let base := seqK s b w.ix
    let ks := fun (k : Nat) => valF32 ((seqK s b k).setWidth 32)
    let bytes := ((List.range n).map fun i => aoutRow ty (modeOfCode (w.md.toNat / 2 % 8)) (ks (w.b.toNat / 16), ks (w.b.toNat % 16))
      ((List.range 128).map fun j => accAt b (row + i) j)).flatten
    let clr := fun (s : State) => if w.x.getLsbD 0 then s.modBlock b.ref fun b => clearRows b row n else s
    let pad := !(w.md.getLsbD 0)
    if spoiled b.badAcc (128 * row) (128 * n) then .cause (logSpoiled s b.ref.core.toNat) 1 0 0
    else if base.toNat % 64 ≠ 0 then .cause s 5 0 base
    else if pad && b.scratchSize < base.toNat + size then .cause s 6 0 base
    else if b.accRows < row + n then
      if pad then .cause s 8 0 0
      else seqLowest s b .write 64 ((List.range (size / 64)).map fun i => base + BitVec.ofNat 64 (64 * i)) 8 0
    else if pad then
      if lockedAt b base.toNat size then .wait s
      else .done (clr (s.modBlock b.ref fun b => b.putPad base.toNat bytes))
    else seqAccess s b .write 64 ((List.range (size / 64)).map fun i => base + BitVec.ofNat 64 (64 * i)) fun s xs =>
      let k := strongest xs
      .done (clr ((xs.zipIdx).foldl (fun s (x, i) =>
        coreWrite s b.ref.core.toNat (.seq b.ref) (asKind k x.2.2) x.2.2.pa ((bytes.drop (64 * i)).take 64)) s))

/-- A change to the sequencer's own registers. -/
def modSeq (s : State) (b : Block) (f : Seq → Seq) : State := s.modBlock b.ref fun b => { b with seq := f b.seq }

def execMgear (w : LaneWord) (s : State) : Out :=
  matrixWord s false noClash fun b => .done (modSeq s b fun q => { q with mgear := (immOrK s b w w.a).setWidth 4 })
def execMbudget (w : LaneWord) (s : State) : Out :=
  matrixWord s false noClash fun b => .done (modSeq s b fun q => { q with mbudget := (immOrK s b w w.a).setWidth 24 })

/-- R251, R252: the status words, and what .CLR leaves of them. -/
def statusWord (q : Seq) (x : Nat) : W64 :=
  match x with
  | 0 => q.last
  | 1 => q.count
  | 2 => BitVec.ofNat 64 (16 * q.mbudget.toNat + q.mgear.toNat)
  | _ => q.draft
def clearStatus (q : Seq) (x : Nat) : Seq :=
  match x with
  | 0 => { q with last := q.last &&& 0x7FFFFFFFFFFFFFFF#64 }
  | 1 => { q with count := 0 }
  | 2 => q
  | _ => { q with draft := 0 }
def execMstat (w : LaneWord) (s : State) : Out :=
  let x := w.x.toNat % 4
  matrixWord s true noClash fun b =>
    let s := seqWriteK s b w.ix (statusWord b.seq x)
    .done (if w.x.getLsbD 2 then modSeq s b (clearStatus · x) else s)

/-- R253: a named queue that exists. -/
def seqQueue (s : State) (q : Nat) (f : Block → List W32 → MatRes) : Out :=
  matrixWord s true noClash fun b =>
    if b.kernel.qdepth.getD q 0 = 0 then .cause s 0x0B 0 0 else f b (b.queues.getD q [])

def execMwaitq (w : LaneWord) (s : State) : Out :=
  seqQueue s w.b.toNat fun _ l =>
    if (if w.x.getLsbD 0 then l.length ≤ w.c.toNat else w.c.toNat ≤ l.length) then .done s else .wait s
def execMatrixQpop (w : LaneWord) (s : State) : Out :=
  seqQueue s w.b.toNat fun b l =>
    let i := b.claimed w.b.toNat 32
    match l[i]? with
    | none => .wait s
    | some v => .done (seqWriteK ((captureSeq s b.ref).modBlock b.ref fun b =>
        (b.noteQueue w.b.toNat false s.cycle 32).setQueueAt w.b.toNat (l.eraseIdx i)) b w.ix (v.setWidth 64))
def execMatrixQpush (w : LaneWord) (s : State) : Out :=
  seqQueue s w.b.toNat fun b l =>
    if b.kernel.qdepth.getD w.b.toNat 0 ≤ l.length || b.kPending s.cycle 32 then .wait s
    else .done ((captureSeq s b.ref).modBlock b.ref fun b =>
      (b.noteQueue w.b.toNat true s.cycle 32).setQueueAt w.b.toNat (l ++ [(immOrK s b w w.a).setWidth 32]))

def execMatrixBarArrive (w : LaneWord) (s : State) : Out :=
  matrixWord s true noClash fun b =>
    match (b.barrier w.b.toNat).tryArrive 32 (w.x.getLsbD 0) with
    | .misuse => .cause s 0x0B 0 0
    | .stall => .wait s
    | .counted x => if b.kPending s.cycle 32 then .wait s else .done (setBarrier (captureSeq s b.ref) b w.b.toNat x)
def execMatrixBarWait (w : LaneWord) (s : State) : Out :=
  matrixWord s true noClash fun b =>
    match (b.barrier w.b.toNat).tryLeave 32 with
    | none => .wait s
    | some (.counted x) => .done (setBarrier (captureSeq s b.ref) b w.b.toNat x)
    | some _ => .cause s 0x0B 0 0

def execMatrixTlwait (w : LaneWord) (s : State) : Out :=
  matrixWord s true noClash fun b =>
    let h := seqK s b w.ix
    if handleBad h then .cause s 0x0B 0 0
    else match (if b.test then none else handleCtx s b.ctx h) with
      | none => .cause s 6 0 0
      | some e =>
        if e.timeline.ult (seqK s b w.x.toNat) then .wait s else .done (acquire (captureSeq s b.ref) b.ref.core.toNat e.acts)

/-- R254. -/
def execMend (_w : LaneWord) (s : State) : Out :=
  matrixWord s true noClash fun b =>
    .jump (modSeq (retireArrivals s b.ref 32) b fun q => { q with idle := true })
def execMendLoop (w : LaneWord) (s : State) : Out :=
  matrixWord s true noClash fun b =>
    let k := seqK s b w.ix
    if k = 0 then .done s
    else
      let s := seqWriteK s b w.ix (k - 1)
      if k = 1 then .done s
      else .jump (modSeq s b fun q => { q with mpc := q.mpc + BitVec.ofInt 52 (12 * disp24 w) })

end Sys2Proof.Machine
end

