-- ==== Sys2Proof/Machine/Draft.lean ====
section
/-! DEFINITION. Drafting (R255-R261): NEVAL, how rows gather into tiles, and the reading of a tile's network. -/

namespace Sys2Proof.Machine

open Sys2Proof

/-- The fields of a NEVAL word (R231). -/
def nevalFeats (w : LaneWord) : Nat := w.md.toNat % 32 + 1
def nevalFmt (w : LaneWord) : Nat := w.md.toNat / 32 % 4
def nevalResults (w : LaneWord) : Nat := w.x.toNat + 1

/-- A NEVAL word with no thread left to wait for resolves (R259); its failures are one deferred cause (R260). -/
def settleNeval (s : State) (n : NevalWord) : State :=
  if n.waiting ≠ 0 then s
  else
    let s := s.modCore n.g.core.toNat fun c => { c with nevals := c.nevals.filter fun x => !(x.g = n.g && x.word = n.word) }
    if n.failed = 0 then s
    else deferCause s n.g 0x10 n.sub n.pc n.failed ((n.handles.getD (lowest n.failed) 0).setWidth 64)

/-- Whether the results of a NEVAL word for a thread may be written: no earlier word of the group still lacks its own (R259). -/
def nevalTurn (l : List NevalWord) (g : GroupRef) (word : W96) (t : Nat) : Bool :=
  !((l.takeWhile fun n => !(n.g = g && n.word = word)).any fun n => n.g = g && n.waiting.getLsbD t)
/-- The results that thread t has for a NEVAL word are written, and the word no longer waits for it. -/
def writeResults (s : State) (n : NevalWord) (t : Nat) (vs : List W32) : State :=
  (s.modGroup n.g fun g => putWords g (bits n.word.toNat 67 60) t vs).modCore n.g.core.toNat fun c =>
    { c with nevals := c.nevals.map fun m =>
        if m.g = n.g && m.word = n.word then { m with waiting := m.waiting &&& ~~~(threadBit t), held := m.held.filter (·.1 ≠ t) } else m }
/-- Results held back for a thread are written as their turn comes (R259). -/
def releaseHeld (s : State) (g : GroupRef) (t : Nat) : State :=
  (s.core g.core.toNat).nevals.foldl (fun s n =>
    if n.g = g && nevalTurn (s.core g.core.toNat).nevals g n.word t then
      match n.held.find? (·.1 = t) with
      | some (_, vs) => writeResults s n t vs
      | none => s
    else s) s

/-- One thread of a NEVAL word has its results, or has failed with a sub-code (R259, R260); 0 is success. -/
def endRow (s : State) (r : DraftRow) (sub : Nat) (vs : List W32) : State :=
  if r.dropped then s else
  let c := r.g.core.toNat
  let mine := fun (n : NevalWord) => n.g = r.g && n.word = r.word
  let s := match (s.core c).nevals.find? mine with
    | none => s
    | some n =>
      if sub ≠ 0 then
        let fail := fun (n : NevalWord) =>
          { n with waiting := n.waiting &&& ~~~(threadBit r.t), failed := n.failed ||| threadBit r.t
                   sub := if n.sub = 0 then sub else min n.sub sub }
        s.modCore c fun k => { k with nevals := k.nevals.map fun n => if mine n then fail n else n }
      else if nevalTurn (s.core c).nevals r.g r.word r.t then writeResults s n r.t vs
      else
        let hold := fun (n : NevalWord) => { n with held := n.held ++ [(r.t, vs)] }
        s.modCore c fun k => { k with nevals := k.nevals.map fun n => if mine n then hold n else n }
  let s := releaseHeld s r.g r.t
  (s.core c).nevals.foldl settleNeval s

/-- A row joins the open tile of its key, or opens one (R257); a tile whose 512 cycles are over has formed. That a row of the
cycle at which they are over opens the next tile, and that the tile takes the descriptor that its first row read, are the model's
choices (assumption 103). -/
def joinTile (c : Core) (r : DraftRow) : Core :=
  let key := fun (t : DraftTile) => t.ctx = r.ctx && t.handle = r.handle && t.formed.isNone
  let tiles := c.tiles.map fun t => if key t && t.opened + 512 ≤ r.at' then { t with formed := some (t.opened + 512) } else t
  if tiles.any key then
    { c with tiles := tiles.map fun t =>
        if key t then { t with rows := t.rows ++ [r], formed := if 128 ≤ t.rows.length + 1 then some r.at' else none } else t }
  else { c with tiles := tiles ++ [{ ctx := r.ctx, handle := r.handle, desc := r.desc, opened := r.at', formed := none
                                     rows := [r], run := none, wait := [], fatal := false }] }
/-- The order in which rows join (R257): by the cycle of arrival, then block slot, group slot, thread. -/
def DraftRow.place (r : DraftRow) : Nat := 8192 * r.at' + 1024 * r.g.bslot.toNat + 32 * r.g.slot.toNat + r.t
def insRow (r : DraftRow) : List DraftRow → List DraftRow
  | [] => [r]
  | x :: l => if x.place ≤ r.place then x :: insRow r l else r :: x :: l
/-- The rows of earlier cycles join their tiles. -/
def settleRows (s : State) (core : Nat) : State :=
  s.modCore core fun c => (c.rowsIn.filter fun r => r.at' < s.cycle).foldl joinTile
    { c with rowsIn := c.rowsIn.filter fun r => !(r.at' < s.cycle) }
/-- A row whose table read is made reaches the draft unit. -/
def arriveRow (s : State) (r : DraftRow) (desc : W64) : State :=
  (settleRows s r.g.core.toNat).modCore r.g.core.toNat fun c => { c with rowsIn := insRow { r with at' := s.cycle, desc := desc } c.rowsIn }

/-- The sub-code of an access that fails (R257, R260). -/
def draftFail : Deny → Nat
  | .error => 5
  | _ => 4

/-- What a read for a row or a tile comes to; with no ID it waits for earlier writes of the core, or for a free ID. -/
inductive TileRead (α : Type) where
  | ok (v : α)
  | wait (ids : List Nat)
  | fail (sub : Nat)
deriving DecidableEq, Repr

/-- The pages of an access of the draft unit in ascending order: the translation faults, the first denial, and the parts that
translate, each with its length. -/
def tilePages (s : State) (core : Nat) (c : BitVec 8) : Nat → W64 → Nat → State × List PageFault × Option Deny × List (Xlat × Nat)
  | 0, _, _ => (s, [], none, [])
  | f + 1, va, n =>
    if n = 0 then (s, [], none, [])
    else
      let step := min n (4096 - va.toNat % 4096)
      let (s, r) := translate s (some core) c .read false va
      let (s, fs, d, xs) := tilePages s core c f (va + BitVec.ofNat 64 step) (n - step)
      match r with
      | .ok x => (s, fs, d, (x, step) :: xs)
      | .error e => match faultKind e with
        | some k => (s, ⟨va, .read, k, 0⟩ :: fs, d, xs)
        | none => (s, fs, some e, xs)

/-- An access of the draft unit, an agent of its core (R60, R83): every page is translated before permissions are checked, and the
pages that do not translate are posted in its name (R58, R59, R257, R260); it takes the strongest kind among its pages (R66), and a
strongly ordered one is a fence before and after (R65). -/
def tileRead (s : State) (c : BitVec 8) (core : Nat) (va : W64) (n : Nat) : State × TileRead (List Byte) :=
  let (s, fs, d, xs) := tilePages s core c (n / 4096 + 2) va n
  let kind := partKind xs
  let pas := partPas xs
  if !fs.isEmpty then
    let (s, p) := postAll s c 6 core 0 fs
    (s, .wait p.ids)
  else match d with
    | some e => (s, .fail (draftFail e))
    | none =>
      if !(kindReady s core kind) then (s, .wait [])
      else match pas.find? fun a => s.poison.contains a with
        | some a => (logPoison s a, .fail 5)
        | none =>
          let bs := pas.map fun a => pendByte (s.core core).pend a (memByte s a)
          (soAfter (xs.foldl (fun s (x, step) => allocate s x.pte x.pa step) s) core kind, .ok bs)

/-- A row's handle check and table read (R257); a row whose read waits stands aside. -/
def admitRow (s : State) (r : DraftRow) : State :=
  let c := r.g.core.toNat
  match s.ctx? r.ctx with
  | none => s
  | some x =>
    if r.fatal then endRow s r 3 []
    else if 256 ≤ r.handle.toNat || x.desc.netcount ≤ r.handle.toNat then endRow s r 1 []
    else match tileRead s r.ctx c (x.desc.nettab + BitVec.ofNat 64 (8 * r.handle.toNat)) 8 with
      | (s, .ok bs) => if leNat bs = 0 then endRow s r 1 [] else arriveRow s r (BitVec.ofNat 64 (leNat bs))
      | (s, .fail n) => endRow s r n []
      | (s, .wait ids) => s.modCore c fun k => { k with rowsWait := k.rowsWait ++ [{ r with wait := ids.head? }] }

/-- R231, R257: each selected thread contributes a row; its results come later. -/
def execNeval (w : LaneWord) (s : State) : Out :=
  let nf := nevalFeats w
  memWord s w [w.b] ((List.range (nevalResults w)).map (w.d.toNat + ·)) ((List.range nf).map (w.a.toNat + ·) ++ vregs false [w.b]) [] fun g b sel e =>
    if !b.kernel.draft then .cause 0x10 0 sel 0
    else if !(loadRoom s g) then .wait s
    else
      let word := pack 0x110 w
      let n : NevalWord := { g := g.ref, word := word, pc := g.lpc, waiting := sel, failed := 0, sub := 0
                             handles := (List.range 32).map (e.r32 w.b), window := w.la.toNat + 1, held := [] }
      let s := s.modCore g.ref.core.toNat fun c => { c with nevals := c.nevals ++ [n] }
      .done ((threadsOf sel).foldl (fun s t =>
        admitRow s { g := g.ref, ctx := g.ctx, t := t, word := word, handle := e.r32 w.b t, wait := none, fatal := false, dropped := false
                     at' := s.cycle, desc := 0
                     feats := (List.range nf).map fun i => g.readV (w.a.toNat + i) t }) s)

/-- Rows that stand aside and wait on no fault are tried again. -/
def tendRows (s : State) (core : Nat) : State :=
  let s := settleRows s core
  let rs := (s.core core).rowsWait.filter fun r => r.wait.isNone
  rs.foldl admitRow (s.modCore core fun c => { c with rowsWait := c.rowsWait.filter fun r => r.wait.isSome })

/-- Tiles 512 cycles after their first row form (R257). -/
def windowsOver (s : State) (core : Nat) : State :=
  s.modCore core fun c => { c with tiles := c.tiles.map fun t =>
    if t.formed.isNone && t.opened + 512 ≤ s.cycle then { t with formed := some (t.opened + 512) } else t }
/-- TILE_WINDOW_CLOSE (R257). -/
def closeWindows (s : State) (core : Nat) : State := windowsOver (tendRows s core) core

/-- A feature as an F32 (R96, R258). -/
def featureF32 (fmt : Nat) (feats : List W32) (k : Nat) : W32 :=
  match fmt with
  | 0 => feats.getD k 0
  | 1 => rneF32 (Fmt.bf16.decode (((feats.getD (k / 2) 0).toNat / 2 ^ (16 * (k % 2))) % 65536))
  | _ => rneF32 (valE4m3 ((feats.getD (k / 4) 0).toNat / 2 ^ (8 * (k % 4)) % 256))

/-- A row's features over `nin` inputs (R258). -/
def rowFeatures (r : DraftRow) (nin : Nat) : List W32 :=
  let w := (r.word.toNat / 2 ^ 68) % 256
  let fmt := w / 32 % 4
  let given := r.feats.length * (match fmt with | 0 => 1 | 1 => 2 | _ => 4)
  (List.range 128).map fun k => if k < min nin given then featureF32 fmt r.feats k else 0

/-- One layer read from its record (R256); weight rows at or past `win` are not read. -/
def readLayer (s : State) (c : BitVec 8) (core win : Nat) (r : List Byte) : State × TileRead NetLayer :=
  let outw := fieldAt r 0 1
  let fmt := fieldAt r 1 1
  let rb := match fmt with | 1 => 64 | 3 => 256 | _ => 128
  let wa := fieldAt r 8 8
  let sa := fieldAt r 16 8
  let ba := fieldAt r 24 8
  if 128 ≤ outw || 4 ≤ fmt || 3 ≤ fieldAt r 2 1 || fieldAt r 3 1 ≠ 0 || wa % rb ≠ 0 || sa % 64 ≠ 0 || ba % 4 ≠ 0 then (s, .fail 2)
  else
    match tileRead s c core (BitVec.ofNat 64 wa) (rb * win) with
    | (s, .wait i) => (s, .wait i)
    | (s, .fail n) => (s, .fail n)
    | (s, .ok ws) =>
      match tileRead s c core (BitVec.ofNat 64 sa) 512 with
      | (s, .wait i) => (s, .wait i)
      | (s, .fail n) => (s, .fail n)
      | (s, .ok ss) =>
        let go := fun (bs : List Byte) =>
          NetLayer.mk outw fmt (fieldAt r 2 1) (BitVec.ofNat 32 (fieldAt r 4 4)) ws ss
            ((List.range (outw + 1)).map fun j => BitVec.ofNat 32 (fieldAt bs (4 * j) 4))
        if ba = 0 then (s, .ok (go []))
        else match tileRead s c core (BitVec.ofNat 64 ba) (4 * (outw + 1)) with
          | (s, .wait i) => (s, .wait i)
          | (s, .fail n) => (s, .fail n)
          | (s, .ok bs) => (s, .ok (go bs))

/-- The layers in order, each record checked before its data is read: the first failure, or page that waits, is the tile's (R260;
DESIGN CHOICE, assumption 106). -/
def readLayers (s : State) (c : BitVec 8) (core : Nat) : Nat → List (List Byte) → State × TileRead (List NetLayer)
  | _, [] => (s, .ok [])
  | win, r :: rs =>
    match readLayer s c core win r with
    | (s, .wait i) => (s, .wait i)
    | (s, .fail n) => (s, .fail n)
    | (s, .ok l) =>
      match readLayers s c core (l.outw + 1) rs with
      | (s, .ok ls) => (s, .ok (l :: ls))
      | r => r

/-- The network of a tile (R256, R258). -/
def readNet (s : State) (c : BitVec 8) (core : Nat) (desc : W64) : State × TileRead Net :=
  if desc.toNat % 64 ≠ 0 then (s, .fail 2)
  else match tileRead s c core desc 64 with
    | (s, .wait i) => (s, .wait i)
    | (s, .fail n) => (s, .fail n)
    | (s, .ok h) =>
      let nl := fieldAt h 0 1
      let bad := nl = 0 || 4 < nl || 128 ≤ fieldAt h 1 1 || 16 ≤ fieldAt h 2 1 || fieldAt h 3 1 ≠ 0 || fieldAt h 7 57 ≠ 0
      if bad then (s, .fail 2)
      else match tileRead s c core (desc + 64) (32 * nl) with
        | (s, .wait i) => (s, .wait i)
        | (s, .fail n) => (s, .fail n)
        | (s, .ok ls) =>
          match readLayers s c core (fieldAt h 1 1 + 1) ((List.range nl).map fun l => (ls.drop (32 * l)).take 32) with
          | (s, .wait i) => (s, .wait i)
          | (s, .fail n) => (s, .fail n)
          | (s, .ok ls) => (s, .ok ⟨BitVec.ofNat 4 (fieldAt h 2 1), BitVec.ofNat 24 (fieldAt h 4 3), fieldAt h 1 1 + 1, ls⟩)

/-- Place i of a core's tiles changed, or taken out. -/
def modTile (s : State) (core i : Nat) (f : DraftTile → DraftTile) : State :=
  s.modCore core fun c => { c with tiles := (c.tiles.zipIdx).map fun (t, j) => if j = i then f t else t }
def dropTile (s : State) (core i : Nat) : State := s.modCore core fun c => { c with tiles := c.tiles.eraseIdx i }

/-- The formed tiles of a core in the order they formed, ties in the order of their first rows (R257, R275). -/
def insTile (x : Nat × Nat × DraftTile) : List (Nat × Nat × DraftTile) → List (Nat × Nat × DraftTile)
  | [] => [x]
  | y :: r => if x.1 < y.1 then x :: y :: r else y :: insTile x r
def formedTiles (c : Core) : List (Nat × DraftTile) :=
  ((c.tiles.zipIdx).foldl (fun l (t, i) => match t.formed with
    | some f => insTile (f, i, t) l
    | none => l) []).map fun x => x.2

/-- The tile that has the array (R275). -/
def activeTile (c : Core) : Option (Nat × DraftTile) := (formedTiles c).find? (·.2.active)
/-- The draft unit's oldest formed tile that has read its network and not begun, behind no tile of its key that has not read its
own (R257, R260, R275). -/
def nextTile (c : Core) : Option (Nat × DraftTile) :=
  let fs := formedTiles c
  (fs.zipIdx.find? fun (x, k) => x.2.run.isSome && !x.2.active && !((fs.take k).any fun y =>
    y.2.run.isNone && y.2.ctx = x.2.ctx && y.2.handle = x.2.handle)).map (·.1)
/-- Formed tiles that are still to read their networks and wait on no fault. -/
def unreadTiles (c : Core) : List DraftTile := ((formedTiles c).map (·.2)).filter fun t => t.run.isNone && t.wait.isEmpty

/-- A request for the array of a core (R275, R277): its stamp, its holder (a block slot, 8 the draft unit), its tokens,
and whether it already holds the array. -/
structure Request where
  stamp : Nat
  holder : Nat
  need : Nat
  holds : Bool
  /-- A .QS pass lacks none of its rows (assumption 97). -/
  ready : Bool
deriving DecidableEq, Repr

def blockRequest (b : Block) : Option Request :=
  match b.seq.pass with
  | none => none
  | some p =>
    if p.granted then none
    else
      let m := mmaOf p.word
      some ⟨p.stamp, b.ref.bslot.toNat, gearTokens p.gear, false, m.src ≠ 2 || b.lacking m = 0⟩
/-- The draft unit's requests: that of the tile that keeps the array between its layers, and that of the next tile, which stands
while an earlier one still runs. -/
def draftRequests (c : Core) : List Request :=
  let of := fun (holds : Bool) (x : Nat × DraftTile) => (x.2.run.filter fun u => !u.granted).map fun u =>
    Request.mk u.stamp 8 (gearTokens u.gear) holds true
  ((activeTile c).bind (of true)).toList ++ ((nextTile c).bind (of false)).toList

/-- The candidates for a core's array: the draft unit first, then the sequencers by block slot. -/
def candidates (s : State) (core : Nat) : List Request :=
  draftRequests (s.core core) ++
    (List.range Config.blockSlots).filterMap fun k => (s.block? ⟨BitVec.ofNat 6 core, BitVec.ofNat 3 k⟩).bind blockRequest
/-- Of some candidates for a core's array, one chosen before, else the oldest (R275). -/
def firstOf (c : Core) (rs : List Request) : Option Request :=
  (c.chosen.bind fun k => rs.find? fun r => r.holder = k.1 && r.stamp = k.2).or
    (rs.foldl (fun best r => match best with
      | none => some r
      | some b => if r.stamp < b.stamp then some r else some b) none)
/-- R275: the core's request. A tile between its layers keeps the array, so its request stands before every other; a candidate
that was chosen keeps its place; else it is the oldest, on a tie the draft unit, then the lower block slot. -/
def chosen (s : State) (core : Nat) : Option Request :=
  let rs := candidates s core
  (rs.find? (·.holds)).or (firstOf (s.core core) rs)
/-- The core's candidate that waits for the array, a tile's later layers apart, keeps its place from here on (R275). -/
def keepChosen (s : State) (core : Nat) : State :=
  match firstOf (s.core core) ((candidates s core).filter fun r => !r.holds) with
  | none => s
  | some r => s.modCore core fun c => { c with chosen := some (r.holder, r.stamp) }
/-- A formed tile is about to become a candidate, or to let one of its key become one: what is chosen by now stays chosen; a tile
formed in the cycle before stands beside the requests of that cycle (R275). -/
def keepPlace (s : State) (core : Nat) (t : DraftTile) : State :=
  let f := t.formed.getD 0
  if s.cycle ≤ f + 1 && (chosen s core).any fun r => r.stamp = f then s else keepChosen s core

/-- Every row of a tile fails (R260). -/
def failTile (s : State) (core i : Nat) (t : DraftTile) (sub : Nat) : State :=
  t.rows.foldl (fun s r => endRow s r sub []) (dropTile s core i)

/-- A formed tile, with an acquire at scope 0, reads its network (R83, R258). -/
def readTile (s : State) (core : Nat) (t : DraftTile) : State :=
  match (s.core core).tiles.findIdx? (· = t) with
  | none => s
  | some i =>
    let s := keepPlace s core t
    if t.fatal then failTile s core i t 3
    else match readNet s t.ctx core t.desc with
      | (s, .wait ids) => modTile s core i fun t => { t with wait := ids }
      | (s, .fail sub) => failTile s core i t sub
      | (s, .ok net) =>
        let run : TileRun := { net := net, x := t.rows.map fun r => rowFeatures r net.nin, layer := 0, gear := firstGear net.gears,
                               attempts := 0, stamp := t.formed.getD s.cycle, granted := false, start := 0 }
        modTile s core i fun t => { t with run := some run }
/-- The formed tiles that can be read are, in the order they formed. -/
def readTiles (s : State) (core : Nat) : State := (unreadTiles (s.core core)).foldl (fun s t => readTile s core t) s
/-- DRAFT_TILE_RUN. -/
def startTile (s : State) (core : Nat) : State := readTiles (settleRows s core) core
/-- A new cycle: the rows of the last one join their tiles, and each tile that has formed reads its network, so that a change
of the weights reaches the tiles formed after its release and no others (R83, R257). -/
def formTiles (s : State) (core : Nat) : State :=
  let k := s.core core
  if k.rowsIn.isEmpty && k.tiles.isEmpty then s else readTiles (windowsOver (settleRows s core) core) core

/-- Rows of a running tile, padded (R257). -/
def TileRun.rows (t : TileRun) : Nat := (t.x.length + 15) / 16 * 16
def TileRun.now (t : TileRun) : NetLayer := t.net.layers.getD t.layer ⟨0, 0, 0, 0, [], [], []⟩

/-- The pass of the layer under way (R258). -/
def layerData (t : TileRun) : PassData :=
  let l := t.now
  let byte := fun (o : Nat) => ((l.weights.getD o 0).toNat)
  { m := t.rows
    a := fun i k => valF32 ((t.x.getD i []).getD k 0)
    b := fun k j =>
      match l.bfmt with
      | 0 => if l.weights.length ≤ 128 * k + j then .zero else elemVal 14 (byte (128 * k + j))
      | 1 => if l.weights.length ≤ 64 * k + j / 2 then .zero else elemVal 15 (byte (64 * k + j / 2) / 16 ^ (j % 2) % 16)
      | 2 => valE4m3 (byte (128 * k + j))
      | _ => Fmt.bf16.decode (byte (256 * k + 2 * j) + 256 * byte (256 * k + 2 * j + 1))
    sa := fun _ _ => .one
    sb := fun q j => valE4m3 ((l.scales.getD (128 * q + j) 0).toNat) }

/-- The activations of R258. -/
def activate (act : Nat) (y : W32) : W32 :=
  let v := valF32 y
  if v.isNan then 0x7FC00000#32
  else match act with
    | 1 => if v.sign then 0 else y
    | 2 => if Val.lt v (Val.ofInt (-1)) then 0xBF800000#32 else if Val.lt .one v then 0x3F800000#32 else y
    | _ => y

/-- The rows after a layer (R258). -/
def layerOut (l : NetLayer) (rows : Nat) (out : List (List Val)) : List (List W32) :=
  (out.take rows).map fun r => (List.range 128).map fun j =>
    if l.outw < j then 0
    else
      let acc := a96Val (a96Add 0 (r.getD j .zero))
      activate l.act (rneF32 (Val.add false (Val.mul acc (valF32 l.tscale)).1 (valF32 (l.bias.getD j 0))).1)

/-- The blocks with a row in a tile. -/
def tileBlocks (t : DraftTile) : List BlockRef := ((t.rows.filter fun r => !r.dropped).map fun r => blockOf r.g).eraseDups

/-- Fields of .DRAFT counted, saturating (R252). -/
def countDraft (s : State) (r : BlockRef) (replays tiles : Nat) (beyond : Bool) : State :=
  s.modBlock r fun b =>
    let d := b.seq.draft.toNat
    let v := (if bit d 63 || beyond then 2 ^ 63 else 0) + 2 ^ 32 * min (2 ^ 31 - 1) (bits d 62 32 + replays) +
      min (2 ^ 32 - 1) (bits d 31 0 + tiles)
    { b with seq := { b.seq with draft := BitVec.ofNat 64 v } }

/-- A completed tile delivers its rows (R259). -/
def deliverTile (s : State) (t : DraftTile) (x : List (List W32)) (outw : Nat) : State :=
  (t.rows.zip x).foldl (fun s (r, v) =>
    let nr := r.word.toNat / 2 ^ 32 % 16 + 1
    endRow s r 0 ((List.range nr).map fun m => if m ≤ outw then v.getD m 0 else 0)) s

/-- A draft attempt ends (R106, R258): the next gear, the next layer, or the results. -/
def endLayer (s : State) (core : Nat) : State :=
  match activeTile (s.core core) with
  | none => s
  | some (i, t) =>
    match t.run with
    | none => s
    | some u =>
      if !u.granted || s.cycle < u.start + attemptCycles u.rows u.gear then s
      else
        let l := u.now
        let rows := u.x.length
        let a := attemptAt (layerData u) u.gear rows (l.outw + 1)
        let blocks := tileBlocks t
        let beyond := a.passes u.net.budget
        if beyond && u.gear ≠ bits u.net.gears.toNat 1 0 then
          let s := blocks.foldl (fun s r => countDraft s r 1 0 false) s
          let s := s.modCore core fun c => { c with tokens := gearTokens (u.gear + 1) }
          let u := { u with gear := u.gear + 1, attempts := u.attempts + 1, start := s.cycle }
          modTile s core i fun t => { t with run := some u }
        else
          let x := layerOut l rows a.out
          let s := blocks.foldl (fun s r => countDraft s r 0 0 beyond) s
          let s := s.modCore core fun c => { c with tokens := 0 }
          if u.layer + 1 < u.net.layers.length then
            let u := { u with x := x, layer := u.layer + 1, gear := firstGear u.net.gears, attempts := 0, stamp := s.cycle, granted := false }
            modTile s core i fun t => { t with run := some u }
          else
            let s := blocks.foldl (fun s r => countDraft s r 0 1 false) s
            let s := (dropTile s core i).modCore core fun c => { c with array := none }
            deliverTile s t x l.outw

end Sys2Proof.Machine
end

