-- ==== Sys2Proof/Machine/Array.lean ====
section
/-! DEFINITION. The array and the token pool (R246, R275, R277, R278), the attempts and the commit of a pass (R243, R244,
R252), and the draft unit's own events. -/

namespace Sys2Proof.Machine

open Sys2Proof

/-- Tokens held by every core, and FREE (R277). -/
def tokensHeld (s : State) : Nat := (s.cores.map (·.tokens)).foldl (· + ·) 0
def tokensFree (s : State) : Nat := s.regs.pool - tokensHeld s

/-- The chip-wide order of requests: by stamp, then by core (R277). -/
def headRequest (s : State) : Option (Nat × Request) :=
  (List.range Config.cores).foldl (fun best c =>
    match best, chosen s c with
    | none, r => r.map fun r => (c, r)
    | some b, some r => if r.stamp < b.2.stamp then some (c, r) else some b
    | some b, none => some b) none

/-- Whether a request waits for neither its array nor its operands (assumption 97). -/
def arrayFree (s : State) (core : Nat) (r : Request) : Bool := (r.holds || (s.core core).array.isNone) && r.ready
/-- Whether a core's request is granted now (R246, R277): the head of the order as soon as it can be, another only while the
head cannot, and with the head's tokens left. -/
def grantable (s : State) (core : Nat) (r : Request) : Bool :=
  let free := tokensFree s
  arrayFree s core r &&
  match headRequest s with
  | none => false
  | some (c, h) => if c = core then r.need ≤ free else !(arrayFree s c h) && r.need + h.need ≤ free

/-- ARRAY_GRANT (R277): the core's request receives the array and its first gear's tokens together; a tile's later layer leaves
the candidate that waits for the array in its place (R275). -/
def execArrayGrant (core : BitVec 6) (s : State) : Out :=
  event (
    let c := core.toNat
    match chosen s c with
    | none => s
    | some r =>
      if !(grantable s c r) then s
      else
        let tile := if r.holds then activeTile (s.core c) else nextTile (s.core c)
        let s := s.modCore c fun k => { k with array := some r.holder, chosen := if r.holds then k.chosen else none, tokens := r.need }
        if r.holder = 8 then
          match tile with
          | none => s
          | some (i, _) => modTile s c i fun t =>
              { t with run := t.run.map fun u => { u with granted := true, start := s.cycle, attempts := 1 } }
        else s.modBlock ⟨core, BitVec.ofNat 3 r.holder⟩ fun b =>
          { b with seq := { b.seq with pass := b.seq.pass.map fun p =>
              { p with granted := true, tokens := r.need, start := s.cycle, attempts := 1 } } })

/-- The operands of a block's pass (R242). -/
def passData (b : Block) (p : Pass) : PassData :=
  let m := mmaOf p.word
  let pad := fun (o n : Nat) => leNat (b.scratch.read (p.base + o) n)
  let slot := fun (k i j : Nat) => (b.bstore.get (16384 * (m.slot + k) + 128 * i + j)).toNat
  { m := m.rows
    a := fun i k => if m.bf16 then Fmt.bf16.decode (pad (256 * i + 2 * k) 2) else valF32 (BitVec.ofNat 32 (pad (512 * i + 4 * k) 4))
    b := fun k j =>
      match m.bfmt with
      | 0 => elemVal 14 (slot 0 k j)
      | 1 => elemVal 15 (slot 0 k j % 16)
      | 2 => valE4m3 (slot 0 k j)
      | _ => Fmt.bf16.decode (slot 0 k j + 256 * slot 1 k j)
    sa := fun i q => valE4m3 (b.scale.get (m.as + 4 * i + q)).toNat
    sb := fun q j => valE4m3 (b.scale.get (m.bs + 128 * q + j)).toNat }

/-- The status words after a commit (R252). -/
def commitStatus (q : Seq) (p : Pass) (a : Attempt) : Seq :=
  let beyond := a.passes p.budget
  let last := (if q.last.getLsbD 63 || beyond then 2 ^ 63 else 0) + 2 ^ 58 * p.gear + 2 ^ 48 * p.attempts +
    2 ^ 32 * a.sat + 2 ^ 16 * a.und + a.can
  let c := q.count.toNat
  let top := 2 ^ 32 - 1
  { q with last := BitVec.ofNat 64 last
           count := BitVec.ofNat 64 (2 ^ 32 * min top (c / 2 ^ 32 + (p.attempts - 1)) + min top (c % 2 ^ 32 + 1)) }

/-- R243: the commit: every output once, the unlock, the tokens and the array returned, the word complete. -/
def commitPass (s : State) (b : Block) (p : Pass) (a : Attempt) : State :=
  let m := mmaOf p.word
  let put := fun (acc : Sparse 96) (i : Nat) (row : List Val) =>
    (row.zipIdx).foldl (fun acc (v, j) =>
      let k := 128 * (m.arow + i) + j
      acc.set k (a96Add (if m.z then 0 else acc.get k) v)) acc
  let s := s.modCore b.ref.core.toNat fun c => { c with array := none, tokens := 0 }
  s.modBlock b.ref fun b =>
    let q := commitStatus b.seq p a
    seqNext s.cycle { b with acc := (a.out.zipIdx).foldl (fun acc (row, i) => put acc i row) b.acc, lock := none
                             badAcc := Block.clean b.badAcc (128 * m.arow) (128 * m.rows)
                             seq := { q with pass := none, handle := none, qsTaken := 0 } }

/-- An attempt of a block's pass ends (R106): it reads every byte as it stands now, though a write of an engine during the attempt
could leave it the old one (R244; DESIGN CHOICE, assumption 105). -/
def endPass (s : State) (b : Block) : State :=
  match b.seq.pass with
  | none => s
  | some p =>
    let rows := (mmaOf p.word).rows
    if !p.granted || s.cycle < p.start + attemptCycles rows p.gear then s
    else
      let a := attemptAt (passData b p) p.gear rows 128
      if a.passes p.budget && p.gear < p.ceil then
        let s := s.modCore b.ref.core.toNat fun c => { c with tokens := gearTokens (p.gear + 1) }
        let p := { p with gear := p.gear + 1, attempts := p.attempts + 1, tokens := gearTokens (p.gear + 1), start := s.cycle }
        s.modBlock b.ref fun b => { b with seq := { b.seq with pass := some p } }
      else commitPass s b p a

/-- ATTEMPT_END (R106): an attempt has taken its cycles and is committed or squashed. -/
def execAttemptEnd (core : BitVec 6) (s : State) : Out :=
  event (
    match (s.core core.toNat).array with
    | none => s
    | some k =>
      if k = 8 then endLayer s core.toNat
      else match s.block? ⟨core, BitVec.ofNat 3 k⟩ with
        | none => s
        | some b => endPass s b)

/-- TILE_WINDOW_CLOSE (R257). -/
def execTileWindowClose (core : BitVec 6) (s : State) : Out := event (closeWindows s core.toNat)
/-- DRAFT_TILE_RUN (R258). -/
def execDraftTileRun (core : BitVec 6) (s : State) : Out := event (startTile s core.toNat)

/-- PWRPOOL_WRITE (R277): the governor's write; any other is ignored and logged (R328, R346). -/
def execPwrpoolWrite (wr : Writer) (v : BitVec 32) (s : State) : Out :=
  event (if wr = .governor then s.modRegs fun r => { r with pool := max 6 (min 384 (v.toNat % 512)) }
    else logDrop s 0x1000)

end Sys2Proof.Machine
end

