-- ==== Sys2Proof/Machine/Aes.lean ====
section
/-! DEFINITION. AES-256-GCM (FIPS 197, NIST SP 800-38D), which R319 and R338 name for save images and power
images. The algorithm is the named standard's (assumption 11). -/

namespace Sys2Proof

/-- Multiplication in GF(2^8) modulo x^8 + x^4 + x^3 + x + 1. -/
def gfMulFrom : Nat → Nat → Nat → Nat
  | 0, _, _ => 0
  | f + 1, a, b =>
    let a2 := if a ≥ 128 then (2 * a).xor 0x11B else 2 * a
    let r := gfMulFrom f a2 (b / 2)
    if b % 2 = 1 then a.xor r else r
def gfMul (a b : Nat) : Nat := gfMulFrom 8 a b
def gfPow (a : Nat) : Nat → Nat
  | 0 => 1
  | k + 1 => gfMul a (gfPow a k)
/-- The S-box: the inverse, then the affine map. -/
def aesSub (b : Nat) : Nat :=
  let i := gfPow b 254
  let rot := fun (k : Nat) => (i * 2 ^ k % 256) + i / 2 ^ (8 - k)
  ((((i.xor (rot 1)).xor (rot 2)).xor (rot 3)).xor (rot 4)).xor 0x63
/-- The S-box as a table, computed once. -/
def aesBox : List Nat := (List.range 256).map aesSub

def xorBytes (a b : List Nat) : List Nat := a.zipWith Nat.xor b

/-- The words of the key schedule, newest first. -/
def aesKeyFrom (box : List Nat) : Nat → Nat → List (List Nat) → List (List Nat)
  | 0, _, ws => ws
  | f + 1, i, ws =>
    let t := ws.getD 0 []
    let t := if i % 8 = 0 then
        xorBytes ([t.getD 1 0, t.getD 2 0, t.getD 3 0, t.getD 0 0].map fun b => box.getD b 0) [gfPow 2 (i / 8 - 1), 0, 0, 0]
      else if i % 8 = 4 then t.map fun b => box.getD b 0 else t
    aesKeyFrom box f (i + 1) (xorBytes (ws.getD 7 []) t :: ws)
/-- The fifteen round keys of 16 bytes. -/
def aesKeys (box : List Nat) (key : List Nat) : List (List Nat) :=
  let w0 := (List.range 8).map fun i => (key.drop (4 * i)).take 4
  let ws := (aesKeyFrom box 52 8 w0.reverse).reverse
  (List.range 15).map fun r => ((ws.drop (4 * r)).take 4).flatten

def aesShift (s : List Nat) : List Nat := (List.range 16).map fun i => s.getD ((i + 4 * (i % 4)) % 16) 0
def aesMix (s : List Nat) : List Nat :=
  (List.range 16).map fun i =>
    let c := 4 * (i / 4)
    let g := fun k => s.getD (c + (i + k) % 4) 0
    (((gfMul 2 (g 0)).xor (gfMul 3 (g 1))).xor (g 2)).xor (g 3)
/-- One block under the round keys. -/
def aesBlock (box : List Nat) (ks : List (List Nat)) (b : List Nat) : List Nat :=
  let s := xorBytes b (ks.getD 0 [])
  let s := (List.range 13).foldl (fun s r =>
    xorBytes (aesMix (aesShift (s.map fun x => box.getD x 0))) (ks.getD (r + 1) [])) s
  xorBytes (aesShift (s.map fun x => box.getD x 0)) (ks.getD 14 [])

/-- A block as a big-endian number. -/
def beNat (b : List Nat) : Nat := b.foldl (fun a x => 256 * a + x) 0
def beBytes (n v : Nat) : List Nat := (List.range n).map fun i => v / 256 ^ (n - 1 - i) % 256

/-- Multiplication in GF(2^128) of SP 800-38D, bit 0 first. -/
def ghMulFrom : Nat → Nat → Nat → Nat → Nat
  | 0, _, _, z => z
  | f + 1, x, v, z =>
    let z := if bit x f then z.xor v else z
    let v := if v % 2 = 1 then (v / 2).xor (0xE1 * 2 ^ 120) else v / 2
    ghMulFrom f x v z
def ghMul (x y : Nat) : Nat := ghMulFrom 128 x y 0

/-- Blocks of 16 bytes, the last padded with zeros. -/
def blocks16 : Nat → List Nat → List (List Nat)
  | 0, _ => []
  | f + 1, l => if l.isEmpty then [] else
    let b := l.take 16
    (b ++ List.replicate (16 - b.length) 0) :: blocks16 f (l.drop 16)
def blocksOf (l : List Nat) : List (List Nat) := blocks16 (l.length / 16 + 1) l

def ghash (h : Nat) (bs : List (List Nat)) : Nat := bs.foldl (fun y b => ghMul (y.xor (beNat b)) h) 0

/-- Counter-mode keystream over the data, from counter c. -/
def gctr (box : List Nat) (ks : List (List Nat)) (iv : List Nat) (c : Nat) (l : List Nat) : List Nat :=
  let n := l.length / 16 + 1
  xorBytes l (((List.range n).map fun i => aesBlock box ks (iv ++ beBytes 4 ((c + i) % 2 ^ 32))).flatten)

/-- The tag of additional data and ciphertext under a 12-byte IV. -/
def gcmTag (key iv aad ct : List Nat) : List Nat :=
  let box := aesBox
  let ks := aesKeys box key
  let h := beNat (aesBlock box ks (List.replicate 16 0))
  let lens := beBytes 8 (8 * aad.length) ++ beBytes 8 (8 * ct.length)
  let s := ghash h (blocksOf aad ++ blocksOf ct ++ [lens])
  xorBytes (beBytes 16 s) (aesBlock box ks (iv ++ beBytes 4 1))
/-- Encryption and decryption of the body, by the same keystream. -/
def gcmCrypt (key iv l : List Nat) : List Nat :=
  let box := aesBox
  gctr box (aesKeys box key) iv 2 l

def natsOf (l : List Byte) : List Nat := l.map BitVec.toNat
def bytesOfNats (l : List Nat) : List Byte := l.map (BitVec.ofNat 8)

end Sys2Proof
end

