-- ==== Sys2Proof/Machine/Engines.lean ====
section
/-! DEFINITION. The copy engines and bulk engines: on-chip windows (R50, R51), the movement of a command (R217, R218),
chains (R219), completion and timelines (R80, R81). -/

namespace Sys2Proof.Machine

open Sys2Proof

/-- A byte of on-chip storage: byte k of a cell, or a byte of a byte store. -/
inductive OnChip where
  | vreg (g : GroupRef) (i k : Nat)
  | scratch (b : BlockRef) (a : Nat)
  | bstore (b : BlockRef) (a : Nat)
  | acc (b : BlockRef) (i k : Nat)
  | scale (b : BlockRef) (a : Nat)
  /-- Bytes 12-15 of an accumulator's place: read zero, writes ignored (R50). -/
  | pad
deriving DecidableEq, Repr

/-- Byte k of a cell, and a cell with byte k replaced. -/
def cellByte {w : Nat} (v : BitVec w) (k : Nat) : Byte := v.extractLsb' (8 * k) 8
def setCellByte {w : Nat} (v : BitVec w) (k : Nat) (b : Byte) : BitVec w :=
  BitVec.ofNat w (v.toNat - (cellByte v k).toNat * 256 ^ k + b.toNat * 256 ^ k)

def readChip (s : State) : OnChip → Byte
  | .vreg g i k => ((s.group? g).map fun x => cellByte (x.v.get i) k).getD 0
  | .scratch b a => ((s.block? b).map fun x => x.scratch.get a).getD 0
  | .bstore b a => ((s.block? b).map fun x => x.bstore.get a).getD 0
  | .acc b i k => ((s.block? b).map fun x => cellByte (x.acc.get i) k).getD 0
  | .scale b a => ((s.block? b).map fun x => x.scale.get a).getD 0
  | .pad => 0
def writeChip (s : State) (o : OnChip) (v : Byte) : State :=
  match o with
  | .vreg g i k => s.modGroup g fun x => x.writeV (i / 32) (i % 32) (setCellByte (x.v.get i) k v)
  | .scratch b a => s.modBlock b fun x => x.putPad a [v]
  | .bstore b a => s.modBlock b fun x => x.putB a [v]
  | .acc b i k => s.modBlock b fun x => x.putAcc i (setCellByte (x.acc.get i) k v)
  | .scale b a => s.modBlock b fun x => x.putScale a [v]
  | .pad => s
/-- Whether an uncorrectable error stands in a byte of on-chip storage (R345). -/
def badChip (s : State) : OnChip → Bool
  | .vreg g i _ => (s.group? g).any fun x => x.badV.contains i
  | .scratch b a => (s.block? b).any fun x => x.badPad.contains a
  | .bstore b a => (s.block? b).any fun x => x.badB.contains a
  | .acc b i _ => (s.block? b).any fun x => x.badAcc.contains i
  | .scale b a => (s.block? b).any fun x => x.badScale.contains a
  | .pad => false

/-- A byte of a block's share by destination kind (R216, R217), none beyond it. -/
def shareByte (b : Block) (kind a : Nat) : Option OnChip :=
  match kind with
  | 1 => if a < b.scratchSize then some (.scratch b.ref a) else none
  | 2 => if a < 16384 * b.slots then some (.bstore b.ref a) else none
  | _ => if a < b.scaleSize then some (.scale b.ref a) else none

/-- R50, R51: the byte at a window address, none where the context does not own it, and none at the reserved offsets from
0x0408_0000, of which R51 does not speak (DESIGN CHOICE, assumption 98). -/
def windowByte (s : State) (c : BitVec 8) (pa : Nat) : Option OnChip :=
  let core := BitVec.ofNat 6 (pa / 0x08000000 % 64)
  let off := pa % 0x08000000
  let owned := fun (slot : Nat) => (s.block? ⟨core, BitVec.ofNat 3 slot⟩).filter fun b => b.ctx = c && !b.test
  let inBlock := fun (base size kind : Nat) => (owned ((off - base) / size)).bind fun b => shareByte b kind ((off - base) % size)
  if off < 0x00800000 then
    let r : GroupRef := ⟨core, BitVec.ofNat 3 (off / 0x100000), BitVec.ofNat 5 (off / 0x8000 % 32)⟩
    match owned (off / 0x100000), s.group? r with
    | some _, some g =>
      let i := off % 0x8000 / 4
      if !g.exited && i / 32 < g.vcnt then some (.vreg r i (off % 4)) else none
    | _, _ => none
  else if off < 0x01000000 then inBlock 0x00800000 0x100000 1
  else if off < 0x02000000 then inBlock 0x01000000 0x200000 2
  else if off < 0x04000000 then
    let o := (off - 0x02000000) % 0x400000
    (owned ((off - 0x02000000) / 0x400000)).bind fun b =>
      if b.accRows ≤ o / 2048 then none
      else if 12 ≤ o % 16 then some .pad
      else some (.acc b.ref (o / 16) (o % 16))
  else if off < 0x04080000 then inBlock 0x04000000 0x10000 3
  else none

/-- Every element of a list, or none. -/
def allSome {α : Type} : List (Option α) → Option (List α)
  | [] => some []
  | x :: r =>
    match x, allSome r with
    | some v, some l => some (v :: l)
    | _, _ => none

/-- Where one element of a command lies: in memory, on chip, or nowhere its owner reaches; `so` where its page is strongly
ordered (R65), as every window page is (R54). -/
inductive Place where
  | mem (pa : Nat) (so : Bool)
  | chip (os : List OnChip) (so : Bool)
  | lost (so : Bool)
deriving DecidableEq, Repr
def Place.so : Place → Bool
  | .mem _ so | .chip _ so | .lost so => so
/-- Nowhere that its owner reaches. -/
def Place.isLost : Place → Bool
  | .lost _ => true
  | _ => false

def chipPlace (so : Bool) (os : List (Option OnChip)) : Place :=
  match allSome os with
  | some l => .chip l so
  | none => .lost so

/-- A translated element: a window page's bytes, or memory (R51, R217). -/
def placeOf (s : State) (c : BitVec 8) (n : Nat) (x : Xlat) : Place :=
  let so := x.pte.ord = 0
  if x.pte.onchip then chipPlace so ((List.range n).map fun i => windowByte s c (x.pa + i)) else .mem x.pa so

/-- What a command's accesses come to: places, a status, or faults to wait on (R219). -/
inductive MoveRes where
  | ok (ps : List Place)
  | status (n : Nat)
  | park (fs : List PageFault)
deriving DecidableEq, Repr

/-- Kind 0 addresses, translated like lane accesses, window pages allowed (R217, R58); a copy engine has the TLB of its
core. -/
def enginePlaces (s : State) (core : Option Nat) (c : BitVec 8) (k : Access) (n : Nat) (vas : List W64) : State × MoveRes :=
  let (s, xs) := vas.foldl (fun (s, l) va =>
    let (s, x) := translate s core c k true va
    (s, l ++ [(0, va, x)])) ((s, []) : State × List (Nat × W64 × Except Deny Xlat))
  match judge k xs with
  | .ok ys => (ys.foldl (fun s (_, _, x) => allocate s x.pte x.pa n) s, .ok (ys.map fun (_, _, x) => placeOf s c n x))
  | .cause code _ _ => (s, .status (if code = 1 then 5 else 3))
  | .park fs => (s, .park fs)

/-- The bytes of an element at a place: those an agent of `core`, where there is one, sees (R71). -/
def placeBytes (s : State) (core : Option Nat) (n : Nat) : Place → List Byte
  | .mem pa _ => match core with
    | some k => freshRead s k pa n
    | none => memBytes s pa n
  | .chip os _ => os.map (readChip s)
  | .lost _ => List.replicate n 0

def writePlace (s : State) (core : Option Nat) (bs : List Byte) : Place → State
  | .mem pa _ => match core with
    | some k => l2Write s k pa bs
    | none => performWrite s pa bs
  | .chip os _ => (os.zip bs).foldl (fun s (o, b) => writeChip s o b) s
  | .lost _ => s

/-- The blocks that a multicast reaches, and how many members of its peloton are not resident (R218). -/
def multicast (s : State) (b : Block) (e : CopyEntry) : List Block × Nat :=
  let same := s.blocks.filter fun x => x.ctx = b.ctx && x.grid = b.grid && !x.test
  match e.mcast with
  | 0 => ([b], 0)
  | 1 => (same.filter fun x => bit e.target x.ref.core.toNat, 0)
  | _ =>
    let ms := same.filter fun x => x.pelotons.contains e.target
    let n := (((s.grid? b.grid).bind fun g => g.pels.find? (·.index = e.target)).map (·.count)).getD 0
    (ms, n - ms.length)

/-- What performing a command comes to. -/
inductive CmdRes where
  | done (s : State) (status : Nat)
  | park (s : State) (fs : List PageFault)
  /-- Accesses remain: some made at an earlier turn, or all; a write to a locked scratchpad byte (R245), or behind a
  pending write of the core to the same bytes, waits. -/
  | later (s : State) (m : Moved)
deriving DecidableEq, Repr

/-- The accesses of a command that remain: the elements to read, and the writes, each with its target and its element. -/
structure Remaining where
  reads : List (Nat × Place)
  writes : List ((Nat × Nat) × Place)

/-- Whether a write to a place waits: a locked scratchpad byte (R245), a pending write of the engine's core (R71). -/
def placeWaits (s : State) (core : Option Nat) (n : Nat) : Place → Bool
  | .mem pa _ => core.any fun k => pendOverlap s k pa n
  | .chip os _ => os.any fun o => match o with
    | .scratch b a => (s.block? b).any fun b => lockedAt b a 1
    | _ => false
  | .lost _ => false
/-- Whether an uncorrectable error stands in a place, and its log entry (R345). -/
def placeBad (s : State) (n : Nat) : Place → Bool
  | .mem pa _ => poisoned s pa n
  | .chip os _ => os.any (badChip s)
  | .lost _ => false
/-- The core in whose store a byte lies. -/
def OnChip.core? : OnChip → Option Nat
  | .vreg g _ _ => some g.core.toNat
  | .scratch b _ | .bstore b _ | .acc b _ _ | .scale b _ => some b.core.toNat
  | .pad => none
def logPlace (s : State) : Place → State
  | .mem pa _ => logPoison s pa
  | .chip os _ => ((os.find? (badChip s)).bind OnChip.core?).elim s (logSpoiled s)
  | .lost _ => s

/-- The value of an element of a command: the pattern of a FILL, or what has been read. -/
def moveValue (e : CopyEntry) (m : Moved) (i : Nat) : Option (List Byte) :=
  if e.kind = 2 then some (bytesOf e.elem e.src) else (m.got.find? (·.1 = i)).map fun x => bytesOf e.elem x.2

/-- Elements read, in order. -/
def readElements (s : State) (core : Option Nat) (n : Nat) (rs : List (Nat × Place)) (m : Moved) : Moved :=
  { m with got := m.got ++ rs.map (fun x => (x.1, leNat (placeBytes s core n x.2))), lost := m.lost || rs.any fun x => x.2.isLost }
/-- Elements written, in order. -/
def writeElements (s : State) (core : Option Nat) (e : CopyEntry) (m : Moved) (ws : List ((Nat × Nat) × Place)) : State :=
  ws.foldl (fun s x => writePlace s core ((moveValue e m x.1.2).getD []) x.2) s

/-- A copy engine's strongly ordered access waits for its core's earlier writes, and acquires after it; a bulk engine's accesses
are performed at L2 as they are made (R65, R79). -/
def engineReady (s : State) (core : Option Nat) (so : Bool) : Bool := !so || core.all fun k => released s k 6
def engineAfter (s : State) (core : Option Nat) (so : Bool) : State := if so then core.elim s fun k => acquire s k 6 else s
/-- R79, R217: one turn of a command's accesses. The open choice 0 makes all that remain, every read before any write;
another makes one of them, a read, or a write of an element that has been read. -/
def moveSome (s : State) (core : Option Nat) (e : CopyEntry) (m : Moved) (r : Remaining) (absent : Bool) : CmdRes :=
  let (j, s) := s.choose
  let ready := r.writes.filter fun x => (moveValue e m x.1.2).isSome
  let one := (j - 1) % (r.reads.length + ready.length)
  let rs := if j = 0 then r.reads else (r.reads.drop one).take 1
  let ws := if j = 0 then r.writes else if one < r.reads.length then [] else (ready.drop (one - r.reads.length)).take 1
  let so := rs.any (·.2.so) || ws.any (·.2.so)
  if !(engineReady s core so) then .later s m
  else match rs.find? fun x => placeBad s e.elem x.2 with
  | some x => .done (logPlace s x.2) 5
  | none =>
  if ws.any fun x => placeWaits s core e.elem x.2 then .later s m
  else
    let m := readElements s core e.elem rs m
    let s := engineAfter (writeElements s core e m ws) core so
    let m := { m with wrote := m.wrote ++ ws.map (·.1), lost := m.lost || ws.any fun x => x.2.isLost }
    if rs.length = r.reads.length && ws.length = r.writes.length then .done s (if m.lost || absent then 2 else 0) else .later s m

/-- A list of places, each with the key of its access. -/
def keyed {α : Type} (ks : List α) (ps : List Place) : List (α × Place) := ks.zip ps

/-- R217, R218: a turn of a COPY or a FILL, the places of whose remaining accesses are found first; `blk` is the issuing
block of a group's copy. A member of a peloton whose writes were not all made before it left misses them (R218). -/
def move (s : State) (c : BitVec 8) (core : Option Nat) (blk : Option Block) (e : CopyEntry) (m : Moved) : CmdRes :=
  let n := e.elem
  let shared := fun (b : Block) (kind : Nat) (a : W64) => chipPlace false ((List.range n).map fun i => shareByte b kind (a.toNat + i))
  let toRead := if e.kind = 2 then [] else (List.range e.count).filter fun i => !(m.got.any (·.1 = i))
  let (s, src) := if e.skind = 1 then (s, .ok (toRead.map fun i => (blk.map fun b => shared b 1 (e.element i).1).getD (.lost false)))
    else enginePlaces s core c .read n (toRead.map fun i => (e.element i).1)
  match src with
  | .status st => .done s st
  | .park fs => .park s fs
  | .ok src =>
    let (targets, missing) := (blk.map fun b => multicast s b e).getD ([], 0)
    let left := fun (t : Nat) => (List.range e.count).filter fun i => !(m.wrote.contains (t, i))
    let key := fun (b : Block) => 8 * b.ref.core.toNat + b.ref.bslot.toNat
    let gone := ((m.wrote.map (·.1)).eraseDups.filter fun t => !(targets.any fun b => key b = t) && (left t).isEmpty).length
    let (s, dst) := if e.dkind = 0 then enginePlaces s core c .write n ((left 0).map fun i => (e.element i).2)
      else (s, .ok (targets.flatMap fun b => (left (key b)).map fun i => shared b e.dkind (e.element i).2))
    let keys := if e.dkind = 0 then (left 0).map fun i => (0, i) else targets.flatMap fun b => (left (key b)).map fun i => (key b, i)
    match dst with
    | .status st => .done s st
    | .park fs => .park s fs
    | .ok dst => moveSome s core e m ⟨keyed toRead src, keyed keys dst⟩ (decide (gone < missing))

/-- Whether an engine serves: a copy engine of a core in service and not in loop-buffer mode, a bulk engine in service
(R324, R347). -/
def engineServes (s : State) (n : Nat) : Bool :=
  if n < 64 then (s.core n).inService && !(s.core n).loopMode else !(s.bulkOut.contains (n - 64))
def engineAgent (e : EngineRef) : Nat × Nat := if e.engine.toNat < 64 then (3, e.engine.toNat) else (4, e.engine.toNat - 64)
def engineCore (e : EngineRef) : Option Nat := if e.engine.toNat < 64 then some e.engine.toNat else none

/-- A bulk engine with a detected error begins no command (R347). -/
def engineBegins (s : State) (e : EngineCtx) (n : Nat) : Bool :=
  e.cmds.any (·.n = n) || !(64 ≤ e.ref.engine.toNat && s.bulkDetected.contains (e.ref.engine.toNat - 64))

/-- The command of a chain as it stands, or as it begins. -/
def EngineCtx.cmd? (e : EngineCtx) (n : Nat) : Option Cmd :=
  match e.cmds.find? (·.n = n) with
  | some k => some k
  | none => if n = e.nextN then some ⟨n, e.next, none, 0, false, false, none, ⟨[], [], false⟩⟩ else none
def EngineCtx.put (e : EngineCtx) (k : Cmd) : EngineCtx :=
  { e with cmds := if e.cmds.any (·.n = k.n) then e.cmds.map fun x => if x.n = k.n then k else x else e.cmds ++ [k] }
/-- R219: a failed command stops the context until its entry of kind 5 is resolved (R314). -/
def EngineCtx.halted (e : EngineCtx) : Bool := e.stopped || e.cmds.any fun k => k.performed && k.status ≠ 0 && !k.completed
def putCmd (s : State) (e : EngineRef) (k : Cmd) : State := s.modEngine e (·.put k)

/-- Faults posted in the engine's name (R219, R59). -/
def engineFaults (s : State) (c : BitVec 8) (agent unit slots : Nat) (fs : List PageFault) : State × Option Park :=
  let (s, p) := postAll s c agent unit slots fs
  (s, some p)

/-- The place of the chain's next entry is known and its command may begin (R79, R219): once an entry that is no LINK and
no WAIT has been read, and once a LINK or a WAIT has completed. -/
def EngineCtx.past (e : EngineCtx) (k : Cmd) (va : W64) : EngineCtx :=
  if k.n = e.nextN then { e with nextN := k.n + 1, next := va } else e

/-- R219: the entry of a command read: the first access of that command. -/
def readEntry (s : State) (e : EngineCtx) (k : Cmd) : State :=
  let core := engineCore e.ref
  match partsAt s core e.ctx .read false k.va 64 with
  | (s, .ok ps) =>
    let so := partKind ps = 0
    if !(engineReady s core so) then s
    else match (partPas ps).find? fun a => s.poison.contains a with
    | some a => putCmd (logPoison s a) e.ref { k with status := 5, performed := true }
    | none =>
      let x := slotOf ((partPas ps).flatMap fun a => placeBytes s core 1 (.mem a so))
      let c := entryOf x
      (putCmd (engineAfter s core so) e.ref { k with entry := some x }).modEngine e.ref fun e =>
        if c.ok true [] && c.kind ≤ 2 then e.past k (k.va + 64) else e
  | (s, .error (d, va)) =>
    match faultKind d with
    | some kind =>
      if d = .notify then putCmd s e.ref { k with status := 3, performed := true }
      else
        let (s, p) := engineFaults s e.ctx (engineAgent e.ref).1 (engineAgent e.ref).2 0 [⟨va, .read, kind, 0⟩]
        putCmd s e.ref { k with park := p }
    | none => putCmd s e.ref { k with status := if d = .error then 5 else 3, performed := true }

/-- The timeline steps over every command completed in order (R80). -/
def stepTimeline (e : EngineCtx) : Nat → EngineCtx
  | 0 => e
  | f + 1 =>
    let n := e.timeline.toNat + 1
    if e.cmds.any fun k => k.n = n && k.completed then
      stepTimeline { e with timeline := e.timeline + 1, cmds := e.cmds.filter (·.n ≠ n) } f
    else e

/-- Whether a step of an engine's timeline, a release at its scope, may be made now (R69, R71, R80): a copy engine waits for
its core's writes; a bulk engine's own are performed. -/
def stepReleases (s : State) (e : EngineCtx) : Bool := (engineCore e.ref).all fun n => released s n e.acts
/-- The steps of a timeline that its completed commands allow. -/
def advance (s : State) (r : EngineRef) : State :=
  match s.engine? r with
  | none => s
  | some e => if stepReleases s e then s.modEngine r fun e => stepTimeline e e.cmds.length else s

/-- Command n of a chain completes: the next entry's place is after it, or at a LINK's SRC. -/
def finishCmd (s : State) (r : EngineRef) (k : Cmd) : State :=
  advance (s.modEngine r fun e =>
    let c := entryOf (k.entry.getD 0)
    let link := c.kind = 3 && c.ok true []
    (e.past k (if link then BitVec.ofNat 64 c.src else k.va + 64)).put { k with completed := true, park := none }) r

/-- The acquire of a WAIT by a copy engine (R219); a bulk engine reads at L2. -/
def engineAcquire (s : State) (r : EngineRef) (scope : Nat) : State :=
  match engineCore r with
  | some n => acquire s n scope
  | none => s

/-- One turn of a chain's command as an event of one kind: its entry is read, checked, and, where it is of that kind,
performed. A chain that a failed command has stopped begins no other (R219). -/
def chainTurn (s : State) (r : EngineRef) (n kind : Nat) : State :=
  match s.engine? r with
  | none => s
  | some e =>
    if e.stopped || (e.halted && e.nextN ≤ n) || !(engineServes s r.engine.toNat) || !(engineBegins s e n) || e.tail.toNat < n then s
    else match e.cmd? n with
      | none => s
      | some k =>
        let stop' := fun (s : State) (st : Nat) => putCmd s r { k with status := st, performed := true, park := none }
        if k.performed then s
        else if k.park.any (·.fatal) then stop' s 4
        else if k.park.isSome then s
        else match k.entry with
          | none => readEntry s e k
          | some x =>
            let c := entryOf x
            if !(c.ok true []) then stop' s 1
            else if c.kind ≠ kind then s
            else match kind with
              | 4 =>
                match handleCtx s e.ctx (BitVec.ofNat 64 c.src) with
                | none => stop' s 2
                | some t => if t.timeline.toNat < c.dst then s else stop' (engineAcquire s r t.acts) 0
              | 0 | 3 => stop' s 0
              | _ =>
                match move s e.ctx (engineCore r) none c k.moved with
                | .later s m => putCmd s r { k with moved := m }
                | .done s st => stop' s st
                | .park s fs =>
                  let (s, p) := engineFaults s e.ctx (engineAgent r).1 (engineAgent r).2 0 fs
                  putCmd s r { k with park := p }

/-- A group's copy. -/
def modCopy (s : State) (g : GroupRef) (n : Nat) (f : GCopy → GCopy) : State :=
  { s with copies := s.copies.map fun k => if k.g = g && k.n = n then f k else k }

/-- One turn of a group's copy (R215). -/
def copyTurn (s : State) (g : GroupRef) (n kind : Nat) : State :=
  match s.copies.find? fun k => k.g = g && k.n = n with
  | none => s
  | some k =>
    let stop' := fun (s : State) (st : Nat) => modCopy s g n fun k => { k with status := st, performed := true, park := none }
    let c := entryOf k.entry
    if k.performed || c.kind ≠ kind || !(engineServes s g.core.toNat) then s
    else if k.park.any (·.fatal) then stop' s 4
    else if k.park.isSome then s
    else if kind = 0 then stop' s 0
    else match move s k.ctx (some g.core.toNat) (s.block? (blockOf g)) c k.moved with
      | .later s m => modCopy s g n fun k => { k with moved := m }
      | .done s st => stop' s st
      | .park s fs =>
        let (s, p) := engineFaults s k.ctx 3 g.core.toNat (slotsOf g.bslot.toNat g.slot.toNat) fs
        modCopy s g n fun k => { k with park := p }

/-- A command's turn, by its kind. -/
def cmdTurn (s : State) (c : CmdRef) (kind : Nat) : State :=
  match c with
  | .chain e n => chainTurn s e n kind
  | .copy g n => copyTurn s g n kind

def execNop (c : CmdRef) (s : State) : Out := event (cmdTurn s c 0)
def execCopy (c : CmdRef) (s : State) : Out := event (cmdTurn s c 1)
def execFill (c : CmdRef) (s : State) : Out := event (cmdTurn s c 2)
def execLink (c : CmdRef) (s : State) : Out := event (cmdTurn s c 3)
def execWait (c : CmdRef) (s : State) : Out := event (cmdTurn s c 4)

/-- R219, R314: a failed chain command is posted as an entry of kind 5 under a free ID, and waits on it. -/
def postChain (s : State) (e : EngineCtx) (k : Cmd) : State :=
  match s.ctx? e.ctx with
  | none => s
  | some x =>
    match freeId x with
    | none => s
    | some i =>
      let s := s.modCtx e.ctx fun x => { x with pending := x.pending ++ [⟨i, 5, 0, k.va, some (e.ref, k.n)⟩] }
      let s := post s e.ctx ⟨5, 0, i, (engineAgent e.ref).1, (engineAgent e.ref).2, 0, k.va, BitVec.ofNat 64 (k.n * 256 + k.status)⟩
      putCmd s e.ref { k with park := some { Park.empty with ids := [i] } }

/-- R80, R81, R219. -/
def execCommandComplete (c : CmdRef) (s : State) : Out :=
  event (match c with
    | .copy g n => modCopy s g n fun k => if k.performed then { k with done := true } else k
    | .chain r n =>
      match s.engine? r with
      | none => s
      | some e =>
        match e.cmds.find? (·.n = n) with
        | none => s
        | some k =>
          if e.stopped then s
          else if k.completed then advance s r
          else if !k.performed || k.park.isSome then s
          else if k.status = 0 then finishCmd s r k
          else postChain s e k)

/-- R78, R162: a chain's tail written from outside. -/
def execEngineTailWrite (e : EngineRef) (tail : BitVec 64) (s : State) : Out :=
  event (s.modEngine e fun x => { x with tail := if x.tail.ult tail then tail else x.tail })

/-- Whether an engine takes a new context: a bulk engine, or that of a core, which takes work (R347, R348). -/
def engineTakes (s : State) (n : Nat) : Bool :=
  if n < 64 then coreTakes s n else !(s.bulkOut.contains (n - 64)) && !(s.bulkDetected.contains (n - 64))

/-- R161: an engine context as system software creates it, with its chain's base and its timeline's scope; each
creation gives a new generation, the first 1 (assumption 22). -/
def createEngine (s : State) (r : EngineRef) (ctx : BitVec 8) (base : W64) (scope : BitVec 3) : State :=
  let gen : W32 := ((s.generations.find? (·.1 = r)).map (·.2)).getD 0 + 1
  if !(engineTakes s r.engine.toNat) then s
  else { s with
    generations := (r, gen) :: s.generations.filter (·.1 ≠ r)
    engines := { ref := r, ctx := ctx, gen := gen, scope := scope, next := base, nextN := 1, tail := 0, timeline := 0,
                 stopped := false, cmds := [] } :: s.engines.filter (·.ref ≠ r) }

end Sys2Proof.Machine
end

