-- ==== Sys2Proof/Machine/Transcendental.lean ====
section
/-! DEFINITION. The functions of R190 as exact values correctly rounded: 1/x exactly, roots by an integer square
root with its remainder kept, the others by series in 512-bit fixed point, far below any F32 rounding boundary
(assumption 10). The exact cases of R190 are tested first. -/

namespace Sys2Proof

/-- Fractional bits of the fixed-point series. -/
def fxBits : Nat := 512
/-- pi and ln 2 times 2^512, rounded down. -/
def fxPi : Nat := 0x3243f6a8885a308d313198a2e03707344a4093822299f31d0082efa98ec4e6c89452821e638d01377be5466cf34e90c6cc0ac29b7c97c50dd3f84d5b5b5470917
def fxLn2 : Nat := 0xb17217f7d1cf79abc9e3b39803f2f6af40f343267298b62d8a0d175b8baafa2be7b876206debac98559552fb4afa1b10ed2eae35c138214427573b291169b825

/-- The integer square root by bits. -/
def isqrtFrom : Nat → Nat → Nat → Nat
  | 0, _, r => r
  | k + 1, n, r => let c := r + 2 ^ k; isqrtFrom k n (if c * c ≤ n then c else r)

/-- sqrt(n/d) to 300 fractional bits; an inexact root keeps half a unit as its remainder. -/
def sqrtVal (n d : Nat) : Val :=
  let q := n * 2 ^ 600 / d
  let s := isqrtFrom 400 q 0
  if s * s * d = n * 2 ^ 600 then .fin false s (2 ^ 300) else .fin false (2 * s + 1) (2 ^ 301)

/-- Sum of t_k with t_0 given and t_(k+1) = t_k * y / (2^512 * div (k+1)). -/
def expSeries (y : Nat) : Nat → Nat → Nat → Nat
  | 0, _, _ => 0
  | f + 1, k, t => t + expSeries y f (k + 1) (t * y / 2 ^ fxBits / (k + 1))
/-- Sum of z^(2k+1) / (2k+1). -/
def atanhSeries (z2 : Nat) : Nat → Nat → Nat → Nat
  | 0, _, _ => 0
  | f + 1, k, t => t / (2 * k + 1) + atanhSeries z2 f (k + 1) (t * z2 / 2 ^ fxBits)
/-- Alternating sum of y^(2k+1) / (2k+1)!. -/
def sinSeries (y2 : Nat) : Nat → Nat → Int → Int
  | 0, _, _ => 0
  | f + 1, k, t => t + sinSeries y2 f (k + 1) (-(t * y2 / (2 ^ fxBits : Nat) / (((2 * k + 2) * (2 * k + 3) : Nat) : Int)))

/-- 2^x for a finite x. -/
def exp2Val (s : Bool) (n d : Nat) : Val :=
  if n % d = 0 then
    let k := min (n / d) 400
    Val.one.scale2 (if s then -(k : Int) else k)
  else
    let v := Val.sInt s n
    let fl := v / (d : Int)
    let fr := (v % (d : Int)).toNat
    if 200 < fl then (Val.fin false 3 2).scale2 200
    else if fl < -300 then (Val.fin false 3 2).scale2 (-300)
    else
      let y := fr * 2 ^ fxBits / d * fxLn2 / 2 ^ fxBits
      let e := expSeries y 120 0 (2 ^ fxBits)
      (Val.fin false (2 * e + 1) (2 ^ (fxBits + 1))).scale2 fl

/-- log2(n/d) for positive n/d. -/
def log2Val (n d : Nat) : Val :=
  let e := floorLog2 n d
  let r := divPow n d e
  if r.1 = r.2 then (if e = 0 then .zero else Val.ofInt e)
  else
    let z := (r.1 - r.2) * 2 ^ fxBits / (r.1 + r.2)
    let l := 2 * atanhSeries (z * z / 2 ^ fxBits) 200 0 z
    let v : Int := e * (2 ^ fxBits : Nat) + (l * 2 ^ fxBits / fxLn2 : Nat)
    .fin (v < 0) (2 * v + 1).natAbs (2 ^ (fxBits + 1))

/-- sin(pi*n/d) for 0 < n/d < 1/2 or n/d in (1/2, 1), by symmetry below 1/2. -/
def sinPiVal (n d : Nat) : Val :=
  let n := if 2 * n > d then d - n else n
  let y := n * fxPi / d
  let v := sinSeries (y * y / 2 ^ fxBits) 70 0 y
  .fin false (2 * v.toNat + 1) (2 ^ (fxBits + 1))

/-- sin(pi*x): the exact cases of R190, then the reduced argument. -/
def sinVal (s : Bool) (n d : Nat) : Val :=
  if n % d = 0 then .fin s 0 1
  else
    let r := n % (2 * d)
    let flip := d ≤ r
    let r := if flip then r - d else r
    let sg := s != flip
    if 2 * r = d then .fin sg 1 1
    else match sinPiVal r d with
      | .fin _ a b => .fin sg a b
      | v => v

/-- cos(pi*x) = sin(pi*(x + 1/2)); x = n + 1/2 gives +0. -/
def cosVal (n d : Nat) : Val :=
  if (2 * n + d) % (2 * d) = 0 then .zero else sinVal false (2 * n + d) (2 * d)

/-- The functions of R190 with their special cases: the value before rounding, and divide by zero or invalid. -/
def frcpVal (v : Val) : Val × Exc :=
  match v with
  | .nan s => (.nan false, { i := s })
  | .inf s => (.fin s 0 1, .none)
  | .fin s n d => if n = 0 then (.inf s, { z := true }) else (.fin s d n, .none)
def frsqVal (v : Val) : Val × Exc :=
  match v with
  | .nan s => (.nan false, { i := s })
  | .inf s => if s then (.nan false, .invalid) else (.zero, .none)
  | .fin s n d => if n = 0 then (.inf s, .none) else if s then (.nan false, .invalid) else (sqrtVal d n, .none)
def fsqrtVal (v : Val) : Val × Exc :=
  match v with
  | .nan s => (.nan false, { i := s })
  | .inf s => if s then (.nan false, .invalid) else (.inf false, .none)
  | .fin s n d => if n = 0 then (.fin s 0 1, .none) else if s then (.nan false, .invalid) else (sqrtVal n d, .none)
def fexp2Val (v : Val) : Val × Exc :=
  match v with
  | .nan s => (.nan false, { i := s })
  | .inf s => (if s then .zero else .inf false, .none)
  | .fin s n d => (exp2Val s n d, .none)
def flog2Val (v : Val) : Val × Exc :=
  match v with
  | .nan s => (.nan false, { i := s })
  | .inf s => if s then (.nan false, .invalid) else (.inf false, .none)
  | .fin s n d =>
    if n = 0 then (.inf true, { z := true }) else if s then (.nan false, .invalid) else (log2Val n d, .none)
def fsinVal (v : Val) : Val × Exc :=
  match v with
  | .nan s => (.nan false, { i := s })
  | .inf _ => (.nan false, .invalid)
  | .fin s n d => (sinVal s n d, .none)
def fcosVal (v : Val) : Val × Exc :=
  match v with
  | .nan s => (.nan false, { i := s })
  | .inf _ => (.nan false, .invalid)
  | .fin _ n d => (cosVal n d, .none)

end Sys2Proof
end

