-- ==== Sys2Proof/Machine/LaneFloat.lean ====
section
/-! DEFINITION. The lane floating-point, packed, dot-product and conversion words (R187-R194). -/

namespace Sys2Proof.Machine

open Sys2Proof

/-- The mode of an arithmetic word: its code, DYN from FSR (R93). -/
def modeIn (e : Env) : Mode := modeOf e.w.rm e.g.fsr 0

/-- A value rounded once, with the invalid of its formation (R94, R95). -/
def roundWith (f : Fmt) (m : Mode) (v : Val × Bool) : Nat × Exc :=
  let r := f.round m v.1
  (r.1, r.2.or { i := v.2 })

/-- An F32 word: one result for each selected thread (R187). -/
def f32Word (s : State) (w : LaneWord) (cs : List (BitVec 8)) (val : Env → Nat → Nat × Exc) : Out :=
  arithWord s w cs (vregs false (w.d :: cs)) false noCheck fun e t =>
    let r := val e t
    (BitVec.ofNat 64 r.1, r.2)

/-- The operands of R187 with .NA and .NL. -/
def fa (e : Env) (t : Nat) : Val := let v := e.f32 e.w.a t; if e.w.x.getLsbD 0 then v.neg else v
def fl (e : Env) (c : BitVec 8) (t : Nat) : Val := let v := e.f32 c t; if e.w.x.getLsbD 1 then v.neg else v

/-- The exact sum under a mode's zero rule (R90). -/
def addIn (m : Mode) (a b : Val) : Val × Bool := Val.add (m = .rm) a b
/-- a * b + c, exact before rounding. -/
def fmaIn (m : Mode) (a b c : Val) : Val × Bool :=
  let p := Val.mul a b
  let r := addIn m p.1 c
  (r.1, p.2 || r.2)

def execFadd (w : LaneWord) (s : State) : Out :=
  f32Word s w [w.a, w.b] fun e t => roundWith .f32 (modeIn e) (addIn (modeIn e) (fa e t) (fl e w.b t))
def execFmul (w : LaneWord) (s : State) : Out :=
  f32Word s w [w.a, w.b] fun e t => roundWith .f32 (modeIn e) (Val.mul (fa e t) (e.f32 w.b t))
def execFfma (w : LaneWord) (s : State) : Out :=
  f32Word s w [w.a, w.b, w.c] fun e t =>
    roundWith .f32 (modeIn e) (fmaIn (modeIn e) (fa e t) (e.f32 w.b t) (fl e w.c t))

/-- minimumNumber and maximumNumber: the bits of one operand (R188). -/
def minNum (mx : Bool) (a b : W32) : Nat × Exc :=
  let x := valF32 a
  let y := valF32 b
  let ex : Exc := { i := x.isSnan || y.isSnan }
  let less := Val.lt x y || (x.isZero && y.isZero && x.sign && !y.sign)
  let r := if x.isNan && y.isNan then Fmt.f32.pnan
    else if x.isNan then b.toNat
    else if y.isNan then a.toNat
    else if less != mx then a.toNat else b.toNat
  (r, ex)
def execFmin (w : LaneWord) (s : State) : Out := f32Word s w [w.a, w.b] fun e t => minNum false (e.r32 w.a t) (e.r32 w.b t)
def execFmax (w : LaneWord) (s : State) : Out := f32Word s w [w.a, w.b] fun e t => minNum true (e.r32 w.a t) (e.r32 w.b t)

/-- R189. -/
def fcond (x : Nat) (a b : Val) : Bool × Exc :=
  let un := a.isNan || b.isNan
  let sn := a.isSnan || b.isSnan
  let quiet : Exc := { i := sn }
  let loud : Exc := { i := un }
  match x with
  | 0 => (!un && Val.eq a b, quiet)
  | 1 => (un || !(Val.eq a b), quiet)
  | 2 => (!un && Val.lt a b, loud)
  | 3 => (!un && !(Val.lt a b), loud)
  | 4 => (!un && !(Val.lt b a), loud)
  | 5 => (!un && Val.lt b a, loud)
  | 6 => (un, quiet)
  | _ => (!un, quiet)
def execFcmp (w : LaneWord) (s : State) : Out :=
  predWord s w [w.a, w.b] false fun e _ t => fcond w.x.toNat (e.f32 w.a t) (e.f32 w.b t)

/-- R190: a function's exact value rounded once. -/
def transWord (s : State) (w : LaneWord) (f : Val → Val × Exc) : Out :=
  f32Word s w [w.a] fun e t =>
    let v := f (e.f32 w.a t)
    let r := Fmt.f32.round (modeIn e) v.1
    (r.1, r.2.or v.2)
def execFrcp (w : LaneWord) (s : State) : Out := transWord s w frcpVal
def execFrsq (w : LaneWord) (s : State) : Out := transWord s w frsqVal
def execFsqrt (w : LaneWord) (s : State) : Out := transWord s w fsqrtVal
def execFexp2 (w : LaneWord) (s : State) : Out := transWord s w fexp2Val
def execFlog2 (w : LaneWord) (s : State) : Out := transWord s w flog2Val
def execFsin (w : LaneWord) (s : State) : Out := transWord s w fsinVal
def execFcos (w : LaneWord) (s : State) : Out := transWord s w fcosVal

/-- Element i of a packed 16-bit operand (R191). -/
def half (e : Env) (c : BitVec 8) (t i : Nat) : Val := (fmtOf e.w.ty).decode ((e.r32 c t).toNat / 2 ^ (16 * i) % 2 ^ 16)
/-- Both elements rounded, their exceptions together. -/
def packWord (s : State) (w : LaneWord) (cs : List (BitVec 8)) (val : Env → Nat → Nat → Val × Bool) : Out :=
  f32Word s w cs fun e t =>
    let lo := roundWith (fmtOf w.ty) (modeIn e) (val e t 0)
    let hi := roundWith (fmtOf w.ty) (modeIn e) (val e t 1)
    (lo.1 + 2 ^ 16 * hi.1, lo.2.or hi.2)
def execPkfma (w : LaneWord) (s : State) : Out :=
  packWord s w [w.a, w.b, w.c] fun e t i => fmaIn (modeIn e) (half e w.a t i) (half e w.b t i) (half e w.c t i)
def execPkadd (w : LaneWord) (s : State) : Out :=
  packWord s w [w.a, w.b] fun e t i => addIn (modeIn e) (half e w.a t i) (half e w.b t i)

/-- R99: an element times its block scale. -/
def scaled (x sc : Val) : Val :=
  if x.isNan then x
  else if sc.isNan then .nan false
  else if sc.isZero then .fin (x.sign != sc.sign) 0 1
  else (Val.mul x sc).1

/-- R99: the scale of element i of thread t: a byte of the lead thread's register. R99 gives E5M2 and E4M3 four elements per
thread; where a CVT into a 4-bit type takes eight, byte bs serves all eight (DESIGN CHOICE, log entry 83). -/
def blockScale (g : Group) (reg ty bs t i : Nat) : Val :=
  let k := bs + if ty = 13 && 4 ≤ i then 1 else 0
  valE4m3 ((g.readV reg (8 * (t / 8))).toNat / 2 ^ (8 * k))

/-- R192, R100: the float forms, exact until one rounding. -/
def dotFloat (e : Env) (n bw t : Nat) : Nat × Exc :=
  let w := e.w
  let el := fun (c : BitVec 8) (i : Nat) => (fmtOf w.ty).decode ((e.r32 c t).toNat / 2 ^ (bw * i) % 2 ^ bw)
  let term := fun (i : Nat) =>
    Val.mul (scaled (el w.a i) (blockScale e.g w.ix w.ty w.x.toNat t i))
      (scaled (el w.b i) (blockScale e.g (w.ix + 1) w.ty w.x.toNat t i))
  let m := modeIn e
  let r := (List.range n).foldl (fun (acc : Val × Bool) i =>
    let p := term i
    let q := addIn m acc.1 p.1
    (q.1, acc.2 || p.2 || q.2)) (e.f32 w.c t, false)
  let out := Fmt.f32.round m r.1
  (out.1, out.2.or { i := r.2 || r.1.isNan })

/-- R192: the integer forms of VDOT4. -/
def dotInt (e : Env) (t : Nat) : Nat :=
  let w := e.w
  let el := fun (c : BitVec 8) (i : Nat) =>
    let b := (e.r32 c t).toNat / 2 ^ (8 * i) % 256
    if w.ty = 4 then sext 8 b else (b : Int)
  let v := (List.range 4).foldl (fun a i => a + el w.a i * el w.b i) (sext 32 (e.r32 w.c t).toNat)
  wrap 32 (if w.rm % 2 = 1 then satInt true 32 v else v)

/-- R192. The integer result is an I32, so that into an S or K register it is sign-extended, for N8 elements too (DESIGN
CHOICE, log entry 88). -/
def execVdot4 (w : LaneWord) (s : State) : Out :=
  if w.ty = 4 || w.ty = 5 then
    arithWord s w [w.a, w.b, w.c] (vregs false [w.d, w.a, w.b, w.c]) false noCheck fun e t =>
      (widen 32 true (dotInt e t), Exc.none)
  else
    arithWord s w [w.a, w.b, w.c] (vregs false [w.d, w.a, w.b, w.c] ++ [w.ix, w.ix + 1]) false noCheck fun e t =>
      let r := dotFloat e 4 8 t
      (BitVec.ofNat 64 r.1, r.2)
def execVdot8 (w : LaneWord) (s : State) : Out :=
  arithWord s w [w.a, w.b, w.c] (vregs false [w.d, w.a, w.b, w.c] ++ [w.ix, w.ix + 1]) false noCheck fun e t =>
    let r := dotFloat e 8 4 t
    (BitVec.ofNat 64 r.1, r.2)

/-- The registers that an operand of a CVT spans (R193). -/
def cvtRegs (c : BitVec 8) (n w : Nat) : List Nat := if isV c then (List.range (cvtSpan n w)).map (c.toNat + ·) else []

/-- Element i, w bits wide, of a source operand (R193). -/
def cvtElem (e : Env) (ws i t : Nat) : Nat :=
  let c := e.w.a
  if isV c then
    if ws = 64 then (e.pair (c.toNat + 2 * i) t).toNat
    else (e.g.readV (c.toNat + i * ws / 32) t).toNat / 2 ^ (i * ws % 32) % 2 ^ ws
  else (if ws = 64 then (e.r64 c t true).toNat else (e.r32 c t).toNat / 2 ^ (i * ws % 32)) % 2 ^ ws

/-- R194: element i converted. -/
def cvtOne (e : Env) (ws t i : Nat) : Nat × Exc :=
  let w := e.w
  let x := elemVal w.stype (cvtElem e ws i t)
  let x := if w.b = 254#8 then x else scaled x (blockScale e.g w.b.toNat w.stype w.x.toNat t i)
  roundTo w.ty (modeOf w.rm e.g.fsr (srWord e.g.sr t i)) x

/-- The whole destination of a thread as one number, lowest register first. -/
def cvtAll (e : Env) (ws wd n t : Nat) : Nat × Exc :=
  (List.range n).foldl (fun (acc : Nat × Exc) i =>
    let r := cvtOne e ws t i
    (acc.1 + r.1 * 2 ^ (i * wd), acc.2.or r.2)) (0, Exc.none)

/-- R194: CVT; a .SR word steps the generator once at issue (R98). -/
def execCvt (w : LaneWord) (s0 : State) : Out :=
  let ws := elemWidth w.stype
  let wd := elemWidth w.ty
  let n := cvtCount ws wd
  let vs := cvtRegs w.d n wd ++ cvtRegs w.a n ws ++ vregs false [w.b]
  laneWord s0 w { codes := [w.d, w.a], vs := vs, rs := cvtRegs w.a n ws ++ vregs false [w.b], src := [w.a] } fun g b sel =>
    let s := s0
    let s := if w.rm = 4 then s.modGroup g.ref fun g => { g with sr := lfsrStep g.sr } else s
    let g := if w.rm = 4 then { g with sr := lfsrStep g.sr } else g
    if sel = 0 then .done s
    else match selector s g b w [w.a] with
      | .block => .block s0
      | .cause code sub fa => .cause code sub sel fa
      | .ok s gv =>
        let e : Env := ⟨g, w, gv⟩
        let ex := combine (passes w sel) fun t => (cvtAll e ws wd n t).2
        match enabledCause g.fsr ex with
        | some code => .cause code 0 ((threadsOf (passes w sel)).foldl (fun m t =>
            if enabledCause g.fsr (cvtAll e ws wd n t).2 = some code then m ||| threadBit t else m) 0) 0
        | none =>
          let s := s.modGroup g.ref fun g => { g with fsr := stickyFlags g.fsr ex }
          let val := fun (t : Nat) => (cvtAll e ws wd n (passOf w sel t)).1
          if isV w.d then
            .done (s.modGroup g.ref fun g => (threadsOf sel).foldl (fun g t =>
              let v := val t
              (List.range (cvtSpan n wd)).foldl (fun g i =>
                g.writeV (w.d.toNat + i) t (BitVec.ofNat 32 (v / 2 ^ (32 * i)))) g) g)
          else .done (writeDst s g w sel (wd = 64) fun t =>
            if wd = 64 then BitVec.ofNat 64 (val t)
            else widen 32 (w.ty = 0 || w.ty = 2 || w.ty = 4) (val t))

end Sys2Proof.Machine
end

