-- ==== Sys2Proof/Machine/Islands.lean ====
section
/-! DEFINITION. Islands: the image's tables (R282-R285), acceptance (R294), passes (R286-R288), delivery (R295, R296),
discards (R297), and the shader-table unit (R228, R299). -/

namespace Sys2Proof.Machine

open Sys2Proof

/-- A field of an image (R282, R283, R289). -/
def Image.field (i : Image) (o n : Nat) : Nat := fieldAt i.bytes o n
def Image.role (i : Image) : Nat := i.field 6 1
def Image.stateful (i : Image) : Bool := i.field 7 1 % 2 = 1
def Image.ordered (i : Image) : Bool := i.field 7 1 / 2 % 2 = 1
def Image.inw (i : Image) : Nat := i.field 8 1
def Image.outw (i : Image) : Nat := i.field 9 1
def Image.rwords (i : Image) : Nat := i.field 10 1
def Image.maxpass (i : Image) : Nat := i.field 11 1
def Image.outkind (i : Image) : Nat := i.field 15 1
def Image.opc (i : Image) (c : Nat) : Nat := i.field (256 + 12 * c) 1
def Image.mode (i : Image) (c : Nat) : Nat := i.field (257 + 12 * c) 1
def Image.sel (i : Image) (c k : Nat) : Nat := i.field (1024 + 4 * c + k) 1

/-- The operators of R284 that touch no store. -/
def islandOp (opc : Nat) (a b c : W32) : W32 :=
  let f := valF32
  let ordered := fun (r : Bool) => if !(f a).isNan && !(f b).isNan && r then 1#32 else 0#32
  match opc with
  | 0x01 => a
  | 0x02 => a + b
  | 0x03 => a - b
  | 0x04 => a * b
  | 0x05 => a &&& b
  | 0x06 => a ||| b
  | 0x07 => a ^^^ b
  | 0x08 => a <<< (b.toNat % 32)
  | 0x09 => a >>> (b.toNat % 32)
  | 0x0A => a.sshiftRight (b.toNat % 32)
  | 0x0B => if a.toInt < b.toInt then a else b
  | 0x0C => if a.toInt < b.toInt then b else a
  | 0x0D => if a.toInt < b.toInt then 1 else 0
  | 0x0E => if a = b then 1 else 0
  | 0x0F => if c ≠ 0 then a else b
  | 0x10 => rneF32 (addIn .rn (f a) (f b)).1
  | 0x11 => rneF32 (Val.mul (f a) (f b)).1
  | 0x12 => rneF32 (fmaIn .rn (f a) (f b) (f c)).1
  | 0x13 => BitVec.ofNat 32 (minNum false a b).1
  | 0x14 => BitVec.ofNat 32 (minNum true a b).1
  | 0x15 => ordered (Val.lt (f a) (f b))
  | 0x16 => ordered (Val.lt (f a) (f b) || Val.eq (f a) (f b))
  | 0x17 => rneF32 (frcpVal (f a)).1
  | 0x18 => rneF32 (frsqVal (f a)).1
  | 0x19 => rneF32 (fsqrtVal (f a)).1
  | 0x1A => rneF32 (Val.ofInt a.toInt)
  | 0x1B => if (f a).isNan then 0 else BitVec.ofNat 32 (intRound true 32 .rz (f a)).1
  | _ => 0

/-- A source (R285): a cell's own registers where `cell` names one. -/
def islandSource (i : Island) (r : IslandRecord) (res : List W32) (cell : Option Nat) (code : Nat) : W32 :=
  if code < 64 then res.getD code 0
  else if code < 80 then r.words.getD (code - 64) 0
  else if code = 80 then r.tag
  else if code = 81 then (cell.map fun c => i.creg0.get c).getD 0
  else if code = 82 then (cell.map fun c => i.creg1.get c).getD 0
  else if code = 84 then BitVec.ofNat 32 r.pass
  else if 85 ≤ code && code ≤ 100 then (if r.pass = 0 then r.words else r.rwords).getD (code - 85) 0
  else 0

/-- What a cell's operator, or a pass, comes to; a pass that parks keeps the results of the cells that it has fired. -/
inductive CellRes (α : Type) where
  | ok (s : State) (v : α)
  | park (s : State) (f : PageFault) (res : List W32)
  | discard (s : State) (sub : Nat)

/-- R288: a global access of a record, at one address. -/
def islandAccess (s : State) (r : IslandRecord) (k : Access) (size : Nat) (va : W64) : CellRes Nat :=
  if va.toNat % size ≠ 0 then .discard s 3
  else match translate s none (r.tag.extractLsb' 24 8) k false va with
    | (s, .ok x) => if k != .write && poisoned s x.pa size then .discard (logPoison s x.pa) 6 else .ok (allocate s x.pte x.pa size) x.pa
    | (s, .error d) => match faultKind d with
      | some n => .park s ⟨va, k, n, 0⟩ []
      | none => .discard s (if d = .error then 6 else 4)

/-- The firing of cell c with its operands (R284). Global accesses are performed at once, so in ascending cell number: that
those of one agent are never performed late or out of order, which R60 leaves open, is the model's choice (DESIGN CHOICE,
log entry 80). -/
def fireCell (s : State) (n : Nat) (img : Image) (r : IslandRecord) (c : Nat) (a b x : W32) : CellRes W32 :=
  let i := s.island n
  let word := 4096 * (img.mode c / 4 % 8) + a.toNat % 4096 / 4 * 4
  let base : W64 := if bit (img.mode c) 5 then r.words.getD 15 0 ++ r.words.getD 14 0 else i.creg1.get c ++ i.creg0.get c
  let va := base + a.setWidth 64
  match img.opc c with
  | 0x1C =>
    if spoiled i.badCells word 4 then .discard (logCell s n) 6 else .ok s (BitVec.ofNat 32 (leNat (i.cells.read word 4)))
  | 0x1D => .ok (s.modIsland n fun i =>
      { i with cells := i.cells.write word (bytesOf 4 b.toNat), badCells := Block.clean i.badCells word 4 }) b
  | 0x1E => match islandAccess s r .read 4 va with
    | .ok s pa => .ok s (BitVec.ofNat 32 (memNat s pa 4))
    | .park s f l => .park s f l
    | .discard s d => .discard s d
  | 0x1F => match islandAccess s r .write 4 va with
    | .ok s pa => .ok (performWrite s pa (bytesOf 4 b.toNat)) 0
    | .park s f l => .park s f l
    | .discard s d => .discard s d
  | 0x20 => match islandAccess s r .atomic 8 va with
    | .ok s pa =>
      let v := min (memNat s pa 8) (x.toNat * 2 ^ 32 + b.toNat)
      .ok (notifyJoins (performWrite s pa (bytesOf 8 v)) pa 8) 0
    | .park s f l => .park s f l
    | .discard s d => .discard s d
  | o => .ok s (islandOp o a b x)

/-- The cells of a pass, in order (R286, R287), from those that have fired on. -/
def firePass (n : Nat) (img : Image) (r : IslandRecord) : List Nat → State → List W32 → CellRes (List W32)
  | [], s, res => .ok s res
  | c :: cs, s, res =>
    if img.opc c = 0 then firePass n img r cs s (res ++ [0])
    else
      let src := fun (k : Nat) => islandSource (s.island n) r res (some c) (img.sel c k)
      match fireCell s n img r c (src 0) (src 1) (src 2) with
      | .park s f _ => .park s f res
      | .discard s d => .discard s d
      | .ok s v =>
        let m := img.mode c
        firePass n img r cs (s.modIsland n fun i =>
          { i with creg0 := if bit m 0 then i.creg0.set c v else i.creg0
                   creg1 := if bit m 1 then i.creg1.set c v else i.creg1 }) (res ++ [v])

/-- A counter of R303, saturating. -/
def satCount (n : Nat) : Nat := min (n + 1) (2 ^ 32 - 1)

/-- The group that a tag names (R294). -/
def tagGroup (tag : W32) : GroupRef := ⟨tag.extractLsb' 18 6, tag.extractLsb' 15 3, tag.extractLsb' 10 5⟩
def tagCtx (tag : W32) : BitVec 8 := tag.extractLsb' 24 8

/-- Whether a group's lane stream is held in ISUB.ISL or QREAD (R297). -/
def heldInQueue (s : State) (g : Group) : Bool :=
  g.blockedL && ((s.islands.any fun i => i.input.any fun x => x.ray.isNone && x.b = blockOf g.ref && x.tag.extractLsb' 10 5 = g.ref.slot) ||
    (s.block? (blockOf g.ref)).any fun b => b.claims.any fun c => c.2.1 = g.ref.slot.toNat)

/-- R297: a sub-code of an island is raised in the submitting group before its next lane word, at once where its lane
stream is held; a group that has exited has it posted. -/
def islandCause (s : State) (n : Nat) (r : IslandRecord) (sub : Nat) : State :=
  let ref := tagGroup r.tag
  let tm := threadBit (r.tag.extractLsb' 5 5).toNat
  match (s.group? ref).filter fun g => !g.exited with
  | none => postIsland s (tagCtx r.tag) n r.port sub
  | some g =>
    if heldInQueue s g && !g.trapm && g.pend.isNone then
      raise s g (causeAt g 0x11 sub 3 0 g.lpc tm (BitVec.ofNat 64 r.port))
    else deferCause s ref 0x11 sub g.lpc tm (BitVec.ofNat 64 r.port)

/-- A ray's status is written (R228). -/
def rayStatus (s : State) (y : Ray) (v : W32) : State :=
  { s.modGroup y.g (fun g => g.writeV y.d y.t v) with rays := s.rays.filter (·.id ≠ y.id) }

/-- The record at a place of an island's array leaves it. -/
def leaveFlight (s : State) (n : Nat) (r : IslandRecord) : State :=
  s.modIsland n fun i => { i with flight := i.flight.filter fun x => x.order ≠ r.order }

/-- R288, R297: a record is discarded. -/
def discardRecord (s : State) (n : Nat) (r : IslandRecord) (sub : Nat) : State :=
  let s := (leaveFlight s n r).modIsland n fun i => { i with discards := satCount i.discards }
  let s := match s.rays.find? fun y => r.ray = some y.id with
    | some y => rayStatus s y 5
    | none => s
  islandCause s n r sub

/-- The end of a pass: recirculation, or the output (R286). -/
def endIslandPass (s : State) (n : Nat) (img : Image) (r : IslandRecord) (res : List W32) : State :=
  let src := fun (code : Nat) => islandSource (s.island n) r res none code
  let cont := src (img.field 16 1)
  let rw := (List.range img.rwords).map fun w => src (img.field (80 + w) 1)
  if cont = 0 || r.pass + 1 = img.maxpass then
    let out := (List.range (img.outw + 1)).map fun w => src (img.field (64 + w) 1)
    (leaveFlight s n r).modIsland n fun i =>
      { i with overruns := if cont = 0 then i.overruns else satCount i.overruns
               out := i.out ++ [{ r with out := some out, fatal := false, res := [] }] }
  else s.modIsland n fun i =>
    { i with flight := i.flight.map fun x => if x.order = r.order then { x with pass := r.pass + 1, rwords := rw, res := [] } else x }

/-- The records of an array whose pass may be next: one that recirculates, or the first that has made none; with
ORDERED set only the first (R287, R294). -/
def nextPasses (img : Image) (l : List IslandRecord) : List IslandRecord :=
  if img.ordered then l.take 1
  else match l.find? (·.pass = 0) with
    | some r => l.filter fun x => x.pass ≠ 0 || x.order = r.order
    | none => l

/-- Whether a record of the array waits on a fault: the island then accepts nothing and advances no pass (R288). -/
def islandHeld (i : Island) : Bool := i.flight.any fun x => x.wait.isSome || x.due.isSome
/-- A record's fault posted in the island's name, or kept until an ID is free (R59, R288, R314). -/
def postRecord (s : State) (n : Nat) (r : IslandRecord) (f : W64 × Nat × Nat) : State :=
  let (s, id) := postFault s (tagCtx r.tag) f.2.2 f.2.1 f.1 5 n 0
  s.modIsland n fun i => { i with flight := i.flight.map fun x =>
    if x.order = r.order then { x with wait := id, due := if id.isNone then some f else none } else x }

/-- R286-R288: one pass of one record. A pass that meets a translation fault goes on at its cell once the fault is resolved; a
FATAL verdict discards the record. -/
def execIslandPass (n : BitVec 5) (s : State) : Out :=
  event (
    let k := n.toNat
    let i := s.island k
    match i.image with
    | none => s
    | some img =>
      if i.state ≠ 2 then s
      else match i.flight.findSome? fun x => x.due.map fun f => (x, f), i.flight.find? (·.fatal) with
      | some (x, f), _ => postRecord s k x f
      | none, some x => discardRecord s k x 5
      | none, none =>
      if islandHeld i then s
      else
        let cand := match i.flight.filter fun x => !x.res.isEmpty with
          | [] => nextPasses img i.flight
          | l => l
        let (j, s) := if 1 < cand.length then s.choose else (0, s)
        match cand[j % cand.length]? with
        | none => s
        | some r =>
          match firePass k img r ((List.range 64).drop r.res.length) s r.res with
          | .ok s res => endIslandPass s k img r res
          | .discard s d => discardRecord s k r d
          | .park s f res => postRecord (s.modIsland k fun i =>
              { i with flight := i.flight.map fun x => if x.order = r.order then { x with res := res } else x })
              k r (f.va, f.access.code, f.kind))

/-- Entries of a context's share of the output buffer in use (R294). -/
def shareUsed (s : State) (n : Nat) (c : BitVec 8) : Nat :=
  let i := s.island n
  let mine := fun (l : List IslandRecord) => (l.filter fun r => tagCtx r.tag = c && !r.close).length
  mine i.flight + mine i.out + (s.rays.filter fun y => y.island = n && y.ctx = c && y.out.isSome).length

/-- A ray record of a TRACE is accepted; with none left the word resolves (R127). -/
def TraceWord.accepted (id : Nat) (w : TraceWord) : Option TraceWord :=
  match w.rays.filter (· ≠ id) with
  | [] => none
  | rays => some { w with rays := rays }

/-- R294, R127: the record with the lowest tag whose context's share has room is accepted. -/
def execIslandAccept (n : BitVec 5) (s : State) : Out :=
  event (
    let k := n.toNat
    let i := s.island k
    if i.state ≠ 2 || islandHeld i then s
    else
      let ok := (i.input.zipIdx).filter fun (r, _) => shareUsed s k (tagCtx r.tag) < 64
      let low := ok.foldl (fun m x => match m with
        | none => some x
        | some y => if x.1.tag.toNat < y.1.tag.toNat then some x else some y) none
      match low with
      | none => s
      | some (r, j) =>
        let s := s.modIsland k fun i =>
          { i with input := i.input.eraseIdx j, flight := i.flight ++ [{ r with order := i.order }], order := i.order + 1 }
        match r.ray with
        | some id => s.modGroup (tagGroup r.tag) fun g => { g with traces := g.traces.filterMap (TraceWord.accepted id) }
        | none => s.modGroup (tagGroup r.tag) fun g => { g with served := g.served ||| threadBit (r.tag.extractLsb' 5 5).toNat })

/-- Whether an entry may leave the output buffer: every record of its block and port accepted before it has (R295). -/
def inOrder (i : Island) (r : IslandRecord) : Bool :=
  r.ray.isSome || !((i.flight ++ i.out).any fun x => x.b = r.b && x.port = r.port && x.order < r.order)

/-- R296: the continuation record of a task-record image. -/
def taskRecord (img : Image) (out : List W32) : Slot64 :=
  BitVec.ofNat 512 (img.field 24 8 + 2 ^ 296 * (img.field 33 1 % 8) + 2 ^ 304 * 3 +
    (((out.take (min img.outw 5 + 1)).zipIdx).foldl (fun a (v, w) => a + v.toNat * 2 ^ (320 + 32 * w)) 0))

def leaveOut (s : State) (n : Nat) (r : IslandRecord) : State :=
  s.modIsland n fun i => { i with out := i.out.filter fun x => x.order ≠ r.order }

/-- An entry goes to the block's island queue, where it has one; none while the queue is full (R295). -/
def deliverEntry (s : State) (n : Nat) (r : IslandRecord) (e : Option (List W32)) : Option State :=
  match (s.block? r.b).bind fun b => islandQueue b r.port with
  | none => some (leaveOut s n r)
  | some q =>
    if 32 ≤ q.entries.length then none
    else some ((leaveOut s n r).modBlock r.b fun b => setIslandQueue b r.port (q.entries ++ [e]))

/-- A task record is enqueued (R296, R349). -/
def deliverTask (s : State) (n : Nat) (img : Image) (r : IslandRecord) : Option State :=
  let drop := fun (s : State) => (leaveOut s n r).modIsland n fun i => { i with discards := satCount i.discards }
  match unitEnqueue s (tagCtx r.tag) 5 n (img.field 32 1 % 64) (taskRecord img (r.out.getD [])) with
  | .accepted s => some (leaveOut s n r)
  | .full _ => none
  | .closed s => some (drop s)
  | .held s' h va =>
    if r.fatal then some (drop (recordFault s (tagCtx r.tag) va 3))
    else match h with
      | .wait (some id) => some (s'.modIsland n fun i =>
          { i with out := i.out.map fun x => if x.order = r.order then { x with wait := some id } else x })
      | .wait none => none
      | .fail => some (drop (recordFault s' (tagCtx r.tag) va 3))

/-- One record of the output buffer delivered (R295, R296, R299), none where it must stay. -/
def deliverOne (s : State) (n : Nat) (img : Image) (r : IslandRecord) : Option State :=
  if r.wait.isSome || !(inOrder (s.island n) r) then none
  else if r.close then deliverEntry s n r none
  else match r.ray with
    | some id => some { leaveOut s n r with rays := s.rays.map fun y => if y.id = id then { y with out := r.out } else y }
    | none => match img.outkind with
      | 0 => deliverEntry s n r (some (r.out.getD []))
      | 1 => deliverTask s n img r
      | _ => some (leaveOut s n r)

/-- R295: the first record of the output buffer that can be delivered is. -/
def execIslandDeliver (n : BitVec 5) (s : State) : Out :=
  event (
    let k := n.toNat
    let i := s.island k
    match i.image with
    | none => s
    | some img => (i.out.findSome? (deliverOne s k img)).getD s)

/-- R228, R307: a cause of a ray, raised before its group's next lane word. -/
def rayCause (s : State) (y : Ray) (code : Nat) : State := deferCause s y.g code 0 y.pc (threadBit y.t) 0

/-- A table read that fails, or a record that is discarded: no rule gives the ray's status then, so it is a free
value (assumption 23). -/
def rayLost (s : State) (y : Ray) : State :=
  let (v, s) := s.free
  rayStatus s y (v.setWidth 32)

/-- The hit or miss record of a ray (R228, R299). -/
def hitRecord (entry : Nat) (out : List W32) : Slot64 :=
  BitVec.ofNat 512 (bits entry 63 0 + 2 ^ 296 * bits entry 74 72 + 2 ^ 304 * 3 + 2 ^ 320 * bits entry 255 128 +
    2 ^ 448 * (out.getD 2 0).toNat + 2 ^ 480 * (out.getD 3 0).toNat)

/-- A read of the shader table; none where the ray waits or is ended: a FATAL verdict and a denial raise cause 0x07 (R228, R232,
R349). -/
def tableRead (s : State) (y : Ray) (va : W64) (n : Nat) : State × Option Nat :=
  match readVirt s y.ctx false va n with
  | (s, .ok bs) => (s, some (leNat bs))
  | (s', .error (d, a)) =>
    match faultKind d with
    | none => (rayLost (rayCause s' y (if d = .error then 1 else 7)) y, none)
    | some k =>
      if y.fatal then (rayLost (rayCause s' y 7) y, none)
      else
        let (s', id) := postFault s' y.ctx k 0 a 7 0 0
        ({ s' with rays := s'.rays.map fun x => if x.id = y.id then { x with wait := id } else x }, none)

/-- R228, R299: the table's outcome for a ray whose traversal output has come. -/
def lookupRay (s : State) (y : Ray) (out : List W32) : State :=
  let kind := (out.getD 0 0).toNat
  if 2 ≤ kind then rayStatus s y 5
  else
    let i := ((y.ctl.extractLsb' 16 16).setWidth 32 + out.getD 1 0).toNat
    let strict := (s.ctx? y.ctx).any fun x => x.desc.flags.getLsbD 3
    let none' := fun (s : State) (code : W32) => let s := rayStatus s y code; if strict then rayCause s y 0x12 else s
    match tableRead s y y.table 4 with
    | (s, none) => s
    | (s, some count) =>
      if count ≤ i then none' s 3
      else match tableRead s y (y.table + BitVec.ofNat 64 (64 + 32 * i)) 32 with
        | (s, none) => s
        | (s, some e) =>
          if bits e 63 0 = 0 then none' s 4
          else match unitEnqueue s y.ctx 7 0 (bits e 69 64) (hitRecord e out) with
            | .accepted s => rayStatus s y (if kind = 1 then 1 else 2)
            | .closed s => rayStatus s y 6
            | .full s => { s with rays := s.rays.filter (·.id ≠ y.id) ++ [{ y with fatal := false }] }
            | .held s' h va =>
              if y.fatal then rayLost (recordFault s y.ctx va 3) y
              else match h with
                | .wait id => { s' with rays := s'.rays.map fun x => if x.id = y.id then { x with wait := id } else x }
                | .fail => rayLost (recordFault s' y.ctx va 3) y

def execShaderTableLookup (n : BitVec 5) (s : State) : Out :=
  event (match s.rays.find? fun y => y.island = n.toNat && y.out.isSome && y.wait.isNone with
    | none => s
    | some y => lookupRay s y (y.out.getD []))

end Sys2Proof.Machine
end

