-- ==== Sys2Proof/Machine/LaneControl.lean ====
section
/-! DEFINITION. The lane predicate, select, move and cross-thread words (R195-R199), the lane control words (R200-R205)
and the return from a trap (R311). -/

namespace Sys2Proof.Machine

open Sys2Proof

/-- A word on predicate fields (R195): bit t of the result for each selected thread. -/
def predOp (s : State) (w : LaneWord) (f : Mask → Mask → Mask) : Out :=
  predWord s w [] false (ps := [w.a.toNat, w.b.toNat]) fun e _ t =>
    let a := let p := e.g.readP w.a.toNat; if w.x.getLsbD 0 then ~~~p else p
    let b := let p := e.g.readP w.b.toNat; if w.x.getLsbD 1 then ~~~p else p
    ((f a b).getLsbD t, Exc.none)
def execPand (w : LaneWord) (s : State) : Out := predOp s w (· &&& ·)
def execPor (w : LaneWord) (s : State) : Out := predOp s w (· ||| ·)
def execPxor (w : LaneWord) (s : State) : Out := predOp s w (· ^^^ ·)
def execPnot (w : LaneWord) (s : State) : Out := predOp s w fun a _ => ~~~a

/-- R196. -/
def execLaneSel (w : LaneWord) (s : State) : Out :=
  wordWord s w [w.a, w.b] (ps := [w.c.toNat]) fun e t => if (e.g.readP w.c.toNat).getLsbD t then e.r32 w.a t else e.r32 w.b t
def execMov (w : LaneWord) (s : State) : Out := intWord s w [w.a] noCheck fun e t => ia' e t
where
  /-- The value moved, extended by the type (R196, R178). -/
  ia' (e : Env) (t : Nat) : Int := e.int w.ty w.a t

/-- Whether the current block's kernel is a previous-generation one (R12). -/
def compatNow (s : State) : Bool :=
  match s.cur with
  | .lane r => (s.block? (blockOf r)).any (·.kernel.compat)
  | _ => false

/-- R197: the segment of a thread. -/
def segSize (compat : Bool) : Nat := if compat then 16 else 32
def segBase (compat : Bool) (t : Nat) : Nat := t / segSize compat * segSize compat

/-- R197: the source thread of t, none past the segment's ends. -/
def shflSource (mode : Nat) (compat : Bool) (b : W32) (t : Nat) : Option Nat :=
  let n := segSize compat
  let base := segBase compat t
  let d := sext 6 b.toNat
  match mode with
  | 0 => some (base + b.toNat % 32 % n)
  | 1 => some (base + (((t - base : Nat) + d) % (n : Int)).toNat)
  | 2 =>
    let v := (t : Int) + d
    if (base : Int) ≤ v && v < (base + n : Nat) then some v.toNat else none
  | _ => some (base + ((t - base) ^^^ (b.toNat % 32 % n)))

/-- The part of B that a mode reads. -/
def shflB (mode : Nat) (b : W32) : Nat := if mode = 1 || mode = 2 then b.toNat % 64 else b.toNat % 32

/-- R206: b differs between selected threads. -/
def shflCheck (w : LaneWord) : Check := fun e m =>
  let mode := w.x.toNat
  let bs := (threadsOf m).map fun t => shflB mode (e.r32 w.b t)
  if mode ≠ 0 && bs.any (fun b => b ≠ bs.headD 0) then some (4, m) else none

def execShfl (w : LaneWord) (s : State) : Out :=
  let compat := compatNow s
  let cs := if w.x = 2#4 then [w.a, w.b, w.c] else [w.a, w.b]
  arithWord s w cs (vregs false (w.d :: cs)) false (shflCheck w) fun e t =>
    let v := match shflSource w.x.toNat compat (e.r32 w.b t) t with
      | some k => e.g.readV w.a.toNat k
      | none => e.r32 w.c t
    (v.setWidth 64, Exc.none)

/-- The selected threads that t votes with: all of them, or its half's (R198). -/
def votersOf (compat : Bool) (sel : Mask) (t : Nat) : List Nat :=
  (threadsOf sel).filter fun i => !compat || i / 16 = t / 16

/-- R198: the result of a vote over a value per thread. -/
def voteOf (mode : Nat) (a : Nat → Bool) (us : List Nat) : Bool :=
  match mode with
  | 0 => us.all a
  | 1 => us.any a
  | 2 => us.all a || us.all fun i => !(a i)
  | _ => (us.filter a).length % 2 = 1

def execVote (w : LaneWord) (s : State) : Out :=
  let compat := compatNow s
  predWord s w [] false (ps := [w.a.toNat]) fun e sel t =>
    let a := fun i => (e.g.readP w.a.toNat).getLsbD i != w.x.getLsbD 2
    (voteOf (w.x.toNat % 4) a (votersOf compat sel t), Exc.none)

/-- R199: the mask of thread t. -/
def ballotMask (compat : Bool) (sel p : Mask) (t : Nat) : Mask :=
  let m := sel &&& p
  if compat then (m >>> (16 * (t / 16))) &&& 0xFFFF#32 else m
def ballotOf (form : Nat) (compat : Bool) (sel p : Mask) (t : Nat) : W32 :=
  let m := ballotMask compat sel p t
  let base := if compat then 16 * (t / 16) else 0
  match form with
  | 0 => m
  | 1 => BitVec.ofNat 32 (threadsOf m).length
  | _ => BitVec.ofNat 32 ((threadsOf m).filter (· < t - base)).length
def execBallot (w : LaneWord) (s : State) : Out :=
  let compat := compatNow s
  arithWord s w [] (vregs false [w.d]) false noCheck (ps := [w.a.toNat]) fun e t =>
    let p := let p := e.g.readP w.a.toNat; if w.x.getLsbD 0 then ~~~p else p
    ((ballotOf (w.x.toNat / 2) compat (selectedOf e.g w) p t).setWidth 64, Exc.none)

/-- A lane control word (R200): it acts on the whole active set. -/
def controlWord (s : State) (w : LaneWord) (codes : List (BitVec 8)) (f : Group → Block → WordRes) : Out :=
  laneWord s w { codes := codes, vs := vregs false codes, rs := vregs false codes, src := codes, control := true } fun g b _ => f g b

/-- The stack and LPC set; more than 64 counted entries raise cause 0x09 (R200). -/
def setPath (s : State) (g : Group) (stack : List Entry) (lpc : VAddr) : WordRes :=
  if 64 < ({ g with stack := stack } : Group).counted && g.stack.length < stack.length then .cause 9 0 g.active 0
  else .jump (s.modGroup g.ref fun g => { g with stack := stack, lpc := lpc })

/-- R201: a lane label counted in words from the word itself. -/
def laneTarget (pc : VAddr) (off : BitVec 16) : VAddr := pc + 12 * off.signExtend 52

def execSplit (w : LaneWord) (s : State) : Out :=
  controlWord s w [] fun g _ =>
    match g.stack with
    | [] => .cause 0x0B 0 g.active 0
    | e :: r =>
      let m := e.mask
      let t := m &&& g.readP w.a.toNat
      let f := m &&& ~~~t
      let els := laneTarget g.lpc (w.imm.extractLsb' 0 16)
      let next := g.lpc + 12
      let e : Entry := { e with kind := 1, lpc := laneTarget g.lpc (w.imm.extractLsb' 16 16) }
      let st := e :: r
      let st := if f ≠ 0 then ⟨0, els, 0, f⟩ :: st else st
      if t ≠ 0 then setPath s g (⟨0, next, 0, t⟩ :: st) next else setPath s g st els

/-- A P field of the frame: bit n of thread t (R309). -/
def framePreds (bs : List Byte) : Sparse 32 :=
  (List.range 48).foldl (fun p n =>
    if n = 0 then p
    else p.set n (maskOf fun t => bit (fieldAt bs (320 + 6 * t) 6) n)) []

/-- The W fields that a return or a RESUME takes from a frame, with the replay entries that it holds (R309-R311, R323). -/
def applyFrame (g : Group) (rs : List Replay) (bs : List Byte) : Group :=
  let g := (List.range 31).foldl (fun (g : Group) i =>
    g.writeS (BitVec.ofNat 5 (i + 1)) (BitVec.ofNat 64 (fieldAt bs (64 + 8 * i) 8))) g
  let skip := bit (fieldAt bs 0 8) 18
  let spc := BitVec.ofNat 52 (fieldAt bs 8 8)
  let lpc := BitVec.ofNat 52 (fieldAt bs 16 8)
  let left := (rs.zipIdx).filterMap fun (r, e) =>
    if bit (fieldAt bs (512 + 288 * e + 13) 1) 0 then none else some r
  { g with p := framePreds bs, fsr := BitVec.ofNat 32 (fieldAt bs 56 4) &&& fsrWritable
           spc := spc, lpc := lpc, skipbp := if skip then some spc else none, skipbpL := if skip then some lpc else none
           replay := left }

/-- What a return gives the sequencer that its cause halted (R237, R243, R309): MHANDLE and MHVALID, and the MPC of the
frame; one that the handler replaced starts another word, with no entries taken and nothing locked (assumption 20). -/
def applyHandle (b : Block) (bs : List Byte) : Block :=
  let h := if bit (fieldAt bs 316 2) 15 then some (BitVec.ofNat 32 (fieldAt bs 312 4)) else none
  let mpc := BitVec.ofNat 52 (fieldAt bs 48 8)
  let b := { b with seq := { b.seq with halted := false, carrier := none, handle := h, skipbp := bit (fieldAt bs 0 8) 18 && mpc = b.seq.mpc } }
  if mpc = b.seq.mpc then b else { b with lock := none, seq := { b.seq with mpc := mpc, qsTaken := 0 } }

/-- A cause kept for a group is raised, its resume addresses those of now (R307). -/
def raiseKept (s : State) (g : Group) (c : Cause) : State :=
  let r := resumePcs g
  raise s g { c with rspc := r.1, rlpc := r.2 }

/-- The group's own held deferred cause, and the sequencer's, raised. -/
def raiseOwn (s : State) (g : Group) (c : Cause) : State :=
  raiseKept (s.modGroup g.ref fun g => { g with held := none }) { g with held := none } c
def raiseOfSeq (s : State) (g : Group) (c : Cause) : State :=
  raiseKept (s.modGroup g.ref fun g => { g with heldSeq := none }) { g with heldSeq := none } c
/-- R307: after a return the lower of the held causes is raised before the first word; the other stays held. -/
def raiseHeld (s : State) (r : GroupRef) : State :=
  match s.group? r with
  | none => s
  | some g =>
    match g.held, g.heldSeq with
    | some a, some b => if a.code.toNat ≤ b.code.toNat then raiseOwn s g a else raiseOfSeq s g b
    | some a, none => raiseOwn s g a
    | none, some b => raiseOfSeq s g b
    | none, none => s
/-- A group that the debugger lets go: the sequencer's held cause is raised; its own waits for its next lane word (R307). -/
def raiseSeqHeld (s : State) (r : GroupRef) : State :=
  match s.group? r with
  | none => s
  | some g => match g.heldSeq with
    | some c => raiseOfSeq s g c
    | none => s

/-- R311: the return from a trap, of a JOIN.L that meets the KIND 2 entry. -/
def trapReturn (s : State) (g : Group) (b : Block) (ret : Entry) (rest : List Entry) : WordRes :=
  if (g.loads.any fun l => l.stream = .lane) || resultsOut s g.ref then .wait s
  else
    let fva := (((s.ctx? g.ctx).map (·.desc.tfbase)).getD 0) + BitVec.ofNat 64 (4096 * ret.aux.toNat)
    match access s (some g.ref.core.toNat) b.test g.ctx .read 8 [(0, fva)] with
    | (s, .cause code _ fa) => .denied s code g.active fa
    | (s, .park fs) => .park s fs
    | (s, .ok ((_, _, x) :: _)) =>
      let bs := freshRead s g.ref.core.toNat x.pa 4096
      if poisoned s x.pa 4096 then poisonCause s [(0, fva, x)]
      else if bit (fieldAt bs 56 4) 15 then .cause 2 0 0 0
      else
        let src := bits (fieldAt bs 0 8) 17 16
        let s := (issueWord s g .lane).modGroup g.ref fun g =>
          let g := applyFrame g g.kept bs
          Group.runOver { g with
                                 kept := [], traces := [], stack := rest, trapm := false, cause := 0, trapRuns := [], loads := [], served := 0
                                 parkS := none, parkL := none, blockedS := false, blockedL := false
                                 fenced := false, left := []
                                 waits := g.frozen.getD ⟨none, none, none⟩, frozen := none }
        let s := if src = 1 then s.modBlock b.ref fun b => applyHandle b bs else s
        .wait (raiseHeld s g.ref)
    | (s, .ok []) => .wait s

def execJoinL (w : LaneWord) (s : State) : Out :=
  controlWord s w [] fun g b =>
    match g.stack with
    | _ :: n :: r =>
      if n.kind = 2 then (if g.trapm then trapReturn s g b n r else .cause 0x0B 0 g.active 0)
      else if n.kind = 3 then .cause 0x0B 0 g.active 0
      else setPath s g (n :: r) n.lpc
    | _ => .cause 0x0B 0 g.active 0

/-- Distinct values in descending order (R203). -/
def insDesc (v : Nat) : List Nat → List Nat
  | [] => [v]
  | x :: r => if x = v then x :: r else if x < v then v :: x :: r else x :: insDesc v r

def execLcall (w : LaneWord) (s : State) : Out :=
  controlWord s w [w.a] fun g b =>
    match selector s g b w [w.a], g.stack with
    | .ok s gv, e :: r =>
      let env : Env := ⟨g, w, gv⟩
      let tau := fun (t : Nat) => (env.r32 w.a t).toNat
      let ts := threadsOf e.mask
      let targets := ts.foldl (fun l t => insDesc (tau t) l) []
      let base := (b.variantAt g.variant).lbase
      let ret : Entry := ⟨3, g.lpc + 12, BitVec.ofNat 32 g.ras.length, e.mask⟩
      let st := targets.foldl (fun (st : List Entry) a =>
        ⟨0, base + BitVec.ofNat 52 (12 * a), 0, maskOf fun t => e.mask.getLsbD t && tau t = a⟩ :: st) (ret :: e :: r)
      setPath s g st ((st.head?.map (·.lpc)).getD 0)
    | _, _ => .cause 0x0B 0 g.active 0

def execLret (w : LaneWord) (s : State) : Out :=
  controlWord s w [] fun g _ =>
    match g.stack with
    | _ :: n :: r =>
      if n.kind = 0 then setPath s g (n :: r) n.lpc
      else if n.kind = 3 && !r.isEmpty then setPath s g r n.lpc
      else .cause 0x0B 0 g.active 0
    | _ => .cause 0x0B 0 g.active 0

end Sys2Proof.Machine
end

