-- ==== Sys2Proof/Machine/Image.lean ====
section
/-! DEFINITION. Save images (R318, R319, R350): what stands in one, how it is sealed, and what a restore takes from
one. -/

namespace Sys2Proof.Machine

open Sys2Proof

/-- Bytes padded with zeros, or cut, to n. -/
def padTo (n : Nat) (l : List Byte) : List Byte := l.take n ++ List.replicate (n - l.length) 0#8

/-- A reconvergence entry's 16 bytes, and back (R151). -/
def entryBytes (e : Entry) : List Byte :=
  bytesOf 16 (e.kind.toNat * 2 ^ 124 + e.lpc.toNat * 2 ^ 64 + e.aux.toNat * 2 ^ 32 + e.mask.toNat)
def entryAt (bs : List Byte) (o : Nat) : Entry :=
  let v := fieldAt bs o 16
  ⟨BitVec.ofNat 4 (bits v 127 124), BitVec.ofNat 52 (bits v 115 64), BitVec.ofNat 32 (bits v 63 32), BitVec.ofNat 32 (bits v 31 0)⟩

/-- Hardware entries in use: 16, or 18 in trap mode (R200). -/
def hwEntries (g : Group) : Nat := if g.trapm then 18 else 16

/-- The spill area (R151): the entries beyond the hardware's, oldest first. -/
def spillBytes (g : Group) : List Byte :=
  padTo 768 ((g.stack.drop (hwEntries g)).reverse.flatMap entryBytes) ++
  padTo 256 ((g.ras.drop g.rasHw).reverse.flatMap fun a => bytesOf 8 a.toNat)

/-- A walker's 96 bytes (R318). -/
def walkerBytes (w : Walker) : List Byte :=
  let six := fun (l : List Nat) => (List.range 6).map fun d => l.getD d 0
  let st := w.strides.map (wrap 32)
  padTo 96 (padTo 64 (bytesOf 8 w.base.toNat ++ bytesOf 1 w.counts.length ++ bytesOf 7 0 ++
    ((six w.counts).zip (six st)).flatMap fun (c, s) => bytesOf 4 c ++ bytesOf 4 s) ++ (six w.idx).flatMap (bytesOf 4))
def walkerAt (bs : List Byte) (o : Nat) : Walker :=
  let nd := fieldAt bs (o + 8) 1
  let f := fun (k n : Nat) => (List.range (min nd 6)).map fun d => fieldAt bs (o + k + n * d) 4
  { base := BitVec.ofNat 64 (fieldAt bs o 8), counts := f 16 8, strides := (f 20 8).map (sext 32), idx := f 64 4 }

/-- A lane-queue run's 272 bytes; the position of a run that has begun is the word that its LPC is at (R318). -/
def runBytes (lpc : VAddr) (r : Run) : List Byte :=
  let pos := if r.started then (r.index lpc).getD 0 else 0
  padTo 272 (bytesOf 8 r.first.toNat ++ bytesOf 4 r.words ++ bytesOf 4 pos ++ r.caps.flatMap fun c => bytesOf 8 c.toNat)
def runsBytes (n : Nat) (lpc : VAddr) (l : List Run) : List Byte := padTo (272 * n) (l.flatMap (runBytes lpc))
/-- Where the interrupted lane queue stands: at LPC, or in trap mode where the return entry says (R308). -/
def Group.queueLpc (g : Group) : VAddr :=
  if g.trapm then ((g.stack.find? fun e => e.kind = 2).map (·.lpc)).getD g.lpc else g.lpc
/-- A run that no side data describes. -/
def Run.blank : Run := { first := 0, words := 0, started := false, depth := 0, caps := [], marks := [], later := [], snapS := [], snapK := [] }
/-- A run as an image gives it; `r` is what the device kept of it (assumption 12). -/
def runFrom (bs : List Byte) (o : Nat) (r : Run) : Run :=
  let n := fieldAt bs (o + 8) 4
  { r with first := BitVec.ofNat 52 (fieldAt bs o 8), words := n, started := r.started || fieldAt bs (o + 12) 4 ≠ 0
           caps := (List.range (min n 32)).map fun i => BitVec.ofNat 64 (fieldAt bs (o + 16 + 8 * i) 8) }
/-- The runs of a queue, as many as the image holds. -/
def runsFrom (bs : List Byte) (o n : Nat) (side : List Run) : List Run :=
  (List.range n).filterMap fun i =>
    if fieldAt bs (o + 272 * i + 8) 4 = 0 then none else some (runFrom bs (o + 272 * i) (side.getD i Run.blank))

/-- The GROUP section (R318): hardware entries oldest first; the depths are four bytes, of each stack the entries in hardware
and those spilled (assumption 24). -/
def groupBody (g : Group) (b : Block) : List Byte :=
  let c : Cause := { code := g.cause, sub := 0, src := 0, aux := 0, fpc := 0, rspc := g.spc, rlpc := g.lpc, tmask := 0, faddr := 0, mpc := 0 }
  let parked := g.parkS.isSome || g.parkL.isSome
  frameHead g none c false (min 12 g.replay.length) ++ bytesOf 8 (gsr g b.kernel.compat).toNat ++ bytesOf 4 g.sr.toNat ++
  bytesOf 1 g.vunits ++ bytesOf 1 g.variant ++ bytesOf 1 ((if g.trapm then 1 else 0) + if parked then 2 else 0) ++
  bytesOf 1 (monMask g .armed) ++ ((List.range 8).flatMap fun k => walkerBytes (g.walkers.getD k ⟨0, [], [], []⟩)) ++
  padTo 288 ((g.stack.take (hwEntries g)).reverse.flatMap entryBytes) ++
  padTo 64 ((g.ras.take g.rasHw).reverse.flatMap fun a => bytesOf 8 a.toNat) ++
  bytesOf 1 (min (hwEntries g) g.stack.length) ++ bytesOf 1 (g.stack.length - hwEntries g) ++ bytesOf 1 g.rasHw ++
  bytesOf 1 (g.ras.length - g.rasHw) ++ List.replicate 12 0#8 ++
  runsBytes 16 g.queueLpc g.runs ++ runsBytes 4 g.lpc g.trapRuns ++ padTo 3456 ((g.replay.take 12).flatMap replayBytes)

/-- 32-bit registers n of every thread, as V and H sections lay them out. -/
def rowsBytes (m : Sparse 32) (n : Nat) : List Byte := (m.read 0 (32 * n)).flatMap fun v => bytesOf 4 v.toNat
def rowsFrom (bs : List Byte) (n : Nat) : Sparse 32 :=
  (List.range (32 * n)).foldl (fun m i => m.set i (BitVec.ofNat 32 (fieldAt bs (4 * i) 4))) []

/-- The BLOCK section (R350). -/
def blockBody (b : Block) (now : Nat) : List Byte :=
  let q := b.seq
  let bar := fun (x : Barrier) => bytesOf 1 (if x.draining then 1 else 0) ++ bytesOf 1 x.arrivals ++ bytesOf 1 x.leaves ++ bytesOf 1 0
  padTo 832 (
    ((List.range 16).flatMap fun n => bytesOf 8 (b.readK (now + 3) n).toNat) ++
    ((List.range 16).flatMap fun n => bar (b.barrier n)) ++
    ((List.range 8).flatMap fun n =>
      let l := b.queues.getD n []
      bytesOf 4 l.length ++ padTo 64 (l.flatMap fun v => bytesOf 4 v.toNat)) ++
    bytesOf 4 q.mbudget.toNat ++ bytesOf 1 q.mgear.toNat ++
    bytesOf 1 ((if q.idle then 1 else 0) + (if q.idle && b.ownVariant.msec then 2 else 0) + (if q.halted then 4 else 0) +
      (if q.handle.isSome then 8 else 0) + if b.lock.isSome then 16 else 0) ++
    bytesOf 2 (q.qsTaken % 4096) ++ bytesOf 8 q.mpc.toNat ++ bytesOf 8 q.last.toNat ++ bytesOf 8 q.count.toNat ++ bytesOf 8 q.draft.toNat ++
    bytesOf 4 ((b.lock.map (·.1)).getD 0) ++ bytesOf 4 ((b.lock.map (·.2)).getD 0) ++ bytesOf 4 (q.handle.getD 0).toNat ++
    bytesOf 1 ((b.mark.map fun t => 1 + 2 * t).getD 0))

/-- A section: its header, its body, padding to 16 bytes. -/
def sectionBytes (type index : Nat) (body : List Byte) : List Byte :=
  bytesOf 2 type ++ bytesOf 2 index ++ bytesOf 4 body.length ++ List.replicate 8 0#8 ++
  padTo ((body.length + 15) / 16 * 16) body

/-- An island queue's entries: each a word count, 0xFFFFFFFF for END, then its words (assumption 24). -/
def islqBytes (es : List (Option (List W32))) : List Byte :=
  es.flatMap fun e => match e with
    | none => bytesOf 4 0xFFFFFFFF
    | some ws => bytesOf 4 ws.length ++ ws.flatMap fun v => bytesOf 4 v.toNat
def islqFrom (bs : List Byte) : Nat → Nat → List (Option (List W32))
  | 0, _ => []
  | f + 1, o =>
    if bs.length < o + 4 then []
    else
      let n := fieldAt bs o 4
      if n = 0xFFFFFFFF then none :: islqFrom bs f (o + 4)
      else some ((List.range (min n 16)).map fun i => BitVec.ofNat 32 (fieldAt bs (o + 4 + 4 * i) 4)) :: islqFrom bs f (o + 4 + 4 * min n 16)

/-- The private units of a group, spill area included (R318). -/
def privBytes (g : Group) (priv : Nat) : List Byte := g.priv.read 0 (32 * priv - 1024) ++ spillBytes g

/-- Everything after the header (R318). -/
def imageBody (b : Block) (gs : List Group) (now : Nat) : List Byte :=
  let each := fun (type : Nat) (f : Group → List Byte) (l : List Group) =>
    l.flatMap fun g => sectionBytes type g.ref.slot.toNat (f g)
  sectionBytes 1 0 (blockBody b now) ++ each 2 (groupBody · b) gs ++ each 3 (fun g => rowsBytes g.v g.vcnt) gs ++
  each 4 (fun g => privBytes g (privOf b g)) gs ++ each 5 (fun g => rowsBytes g.h 8) (gs.filter (·.trapm)) ++
  sectionBytes 6 0 (b.scratch.read 0 b.scratchSize) ++
  sectionBytes 7 0 ((b.acc.read 0 (128 * b.accRows)).flatMap fun v => bytesOf 16 v.toNat) ++
  sectionBytes 8 0 (b.bstore.read 0 (16384 * b.slots)) ++ sectionBytes 9 0 (b.scale.read 0 b.scaleSize) ++
  (sortKeys (fun q => [q.port]) b.islq).flatMap fun q => sectionBytes 10 q.port (islqBytes q.entries)

/-- An image of a saved block (R318, R319): `key` where the context is PROTECTED. -/
def imageOf (x : Ctx) (b : Block) (gs : List Group) (dir now : Nat) (gang : Bool) (key : Option (BitVec 256)) : List Byte :=
  let body := imageBody b gs now
  let head := bytesOf 4 0x4D495653 ++ bytesOf 2 1 ++ bytesOf 1 x.id.toNat ++
    bytesOf 1 ((if key.isSome then 1 else 0) + if gang then 2 else 0) ++ bytesOf 8 x.counter ++ bytesOf 4 (128 + body.length) ++
    bytesOf 4 dir ++ slotBytes b.record ++ List.replicate 8 0#8
  let iv := bytesOf 8 x.counter ++ bytesOf 4 dir
  match key with
  | none => head ++ iv ++ List.replicate 20 0#8 ++ body
  | some k =>
    let kb := natsOf (bytesOf 32 k.toNat)
    let ct := gcmCrypt kb (natsOf iv) (natsOf body)
    head ++ iv ++ List.replicate 4 0#8 ++ bytesOfNats (gcmTag kb (natsOf iv) (natsOf head) ct) ++ bytesOfNats ct

/-- The sections of an image's body: type, index, bytes. -/
def sectionsFrom (bs : List Byte) : Nat → Nat → List (Nat × Nat × List Byte)
  | 0, _ => []
  | f + 1, o =>
    if bs.length < o + 16 then []
    else
      let n := fieldAt bs (o + 4) 4
      (fieldAt bs o 2, fieldAt bs (o + 2) 2, (bs.drop (o + 16)).take n) :: sectionsFrom bs f (o + 16 + (n + 15) / 16 * 16)
def imageSection (l : List (Nat × Nat × List Byte)) (type index : Nat) : Option (List Byte) :=
  (l.find? fun x => x.1 = type && x.2.1 = index).map (·.2.2)

/-- The stack an image holds: its hardware entries, then its spilled ones. -/
def stackFrom (hw spill : List Byte) (n m : Nat) : List Entry :=
  ((List.range n).map fun i => entryAt hw (16 * (n - 1 - i))) ++ ((List.range m).map fun i => entryAt spill (16 * (m - 1 - i)))
def rasFrom (hw spill : List Byte) (n m : Nat) : List VAddr :=
  ((List.range n).map fun i => BitVec.ofNat 52 (fieldAt hw (8 * (n - 1 - i)) 8)) ++
  ((List.range m).map fun i => BitVec.ofNat 52 (fieldAt spill (768 + 8 * (m - 1 - i)) 8))

/-- R87: a monitor that was armed is lost. -/
def Monitor.lose (m : Monitor) : Monitor := if m.st = .armed then { m with st := .lost } else m

/-- A replay entry of an image; one with CANCEL set is dropped, as at a return (R310, R311). -/
def replayAt (bs : List Byte) (o : Nat) : Option Replay :=
  if bit (fieldAt bs (o + 13) 1) 0 then none
  else some
    { word := BitVec.ofNat 96 (fieldAt bs o 12), stream := if fieldAt bs (o + 12) 1 = 1 then .scalar else .lane, cancel := false
      unfinished := bit (fieldAt bs (o + 13) 1) 1, pc := BitVec.ofNat 52 (fieldAt bs (o + 16) 8)
      rmask := BitVec.ofNat 32 (fieldAt bs (o + 24) 4)
      addrs := (List.range 32).map fun t => BitVec.ofNat 64 (fieldAt bs (o + 32 + 8 * t) 8) }

/-- A group as its sections restore it, its FSR taken as it is (assumption 100); what R318 does not carry is as the device kept
it (assumption 12). -/
def groupFrom (g : Group) (priv : Nat) (l : List (Nat × Nat × List Byte)) : Group :=
  let n := g.ref.slot.toNat
  match imageSection l 2 n with
  | none => g
  | some bs =>
    let f := fun (o n : Nat) => fieldAt bs o n
    let g := (List.range 31).foldl (fun (g : Group) i => g.writeS (BitVec.ofNat 5 (i + 1)) (BitVec.ofNat 64 (f (64 + 8 * i) 8))) g
    let pb := (imageSection l 4 n).getD (privBytes g priv)
    let spill := pb.drop (32 * priv - 1024)
    let trapm := bit (f 526 1) 0
    let vcnt := 8 * f 524 1
    { g with
      cause := BitVec.ofNat 8 (f 0 1), spc := BitVec.ofNat 52 (f 8 8), lpc := BitVec.ofNat 52 (f 16 8)
      fsr := BitVec.ofNat 32 (f 56 4), p := framePreds bs, sr := BitVec.ofNat 32 (f 520 4)
      e := BitVec.ofNat 6 (f 512 8), wlast := BitVec.ofNat 3 (f 512 8 / 64), vcnt := vcnt, variant := f 525 1, trapm := trapm
      walkers := (List.range 8).map fun k => walkerAt bs (528 + 96 * k)
      stack := stackFrom (bs.drop 1296) spill (f 1648 1) (f 1649 1)
      ras := rasFrom (bs.drop 1584) spill (f 1650 1) (f 1651 1), rasHw := f 1650 1
      runs := runsFrom bs 1664 16 g.runs, trapRuns := runsFrom bs 6016 4 g.trapRuns
      replay := (List.range (min 12 (f 60 1))).filterMap fun e => replayAt bs (7104 + 288 * e)
      v := ((imageSection l 3 n).map (rowsFrom · vcnt)).getD g.v
      h := if trapm then ((imageSection l 5 n).map (rowsFrom · 8)).getD g.h else g.h
      priv := Sparse.write [] 0 (pb.take (32 * priv - 1024))
      mons := (g.mons.zipIdx).map fun (m, i) => if bit (f 527 1) i then m.lose else m }

/-- A block as its sections restore it. -/
def blockFrom (b : Block) (l : List (Nat × Nat × List Byte)) : Block :=
  let store := fun (type : Nat) (old : Sparse 8) => ((imageSection l type 0).map fun bs => Sparse.write [] 0 bs).getD old
  let b := { b with
    scratch := store 6 b.scratch, bstore := store 8 b.bstore, scale := store 9 b.scale
    acc := ((imageSection l 7 0).map fun bs =>
      Sparse.write [] 0 ((List.range (128 * b.accRows)).map fun i => BitVec.ofNat 96 (fieldAt bs (16 * i) 12))).getD b.acc
    islq := b.islq.map fun q => match imageSection l 10 q.port with
      | some bs => { q with entries := islqFrom bs bs.length 0 }
      | none => q }
  match imageSection l 1 0 with
  | none => b
  | some bs =>
    let f := fun (o n : Nat) => fieldAt bs o n
    let sq := f 741 1
    { b with
      k := (List.range 16).foldl (fun k n => k.set n (BitVec.ofNat 64 (f (8 * n) 8))) [], kpend := []
      bars := (b.bars.zipIdx).map fun (x, i) =>
        { x with draining := f (128 + 4 * i) 1 % 2 = 1, arrivals := f (129 + 4 * i) 1, leaves := f (130 + 4 * i) 1 }
      queues := (List.range 8).map fun q => (List.range (min 16 (f (192 + 68 * q) 4))).map fun i =>
        BitVec.ofNat 32 (f (196 + 68 * q + 4 * i) 4)
      mark := if bit (f 788 1) 0 then some (bits (f 788 1) 2 1) else none
      lock := if bit sq 4 then some (f 776 4, f 780 4) else none
      seq := { b.seq with
        mpc := BitVec.ofNat 52 (f 744 8), idle := bit sq 0, halted := bit sq 2
        mbudget := BitVec.ofNat 24 (f 736 4), mgear := BitVec.ofNat 4 (f 740 1)
        last := BitVec.ofNat 64 (f 752 8), count := BitVec.ofNat 64 (f 760 8), draft := BitVec.ofNat 64 (f 768 8)
        handle := if bit sq 3 then some (BitVec.ofNat 32 (f 784 4)) else none, qsTaken := f 742 2 % 4096 } }

/-- The body of an image opened under a key (R319), none where its tag fails. -/
def openBody (key : Option (BitVec 256)) (img : List Byte) : Option (List Byte) :=
  match key with
  | none => some (img.drop 128)
  | some k =>
    let kb := natsOf (bytesOf 32 k.toNat)
    let iv := natsOf ((img.drop 96).take 12)
    let ct := natsOf (img.drop 128)
    if bytesOfNats (gcmTag kb iv (natsOf (img.take 96)) ct) = (img.drop 112).take 16 then some (bytesOfNats (gcmCrypt kb iv ct)) else none

end Sys2Proof.Machine
end

