-- ==== Sys2Proof/Machine/Dispatcher.lean ====
section
/-! DEFINITION. The dispatcher: fit and placement (R23, R24, R44, R269), a block's start (R25) and restore (R320), pop
order (R266-R268, R270), launches (R20-R22), readiness (R265), variant moves (R271) and retirement (R32). -/

namespace Sys2Proof.Machine

open Sys2Proof

/-- R23: groups of the given footprints, slot by slot, or none. -/
def placeList (ps : List Placed) : List Nat → Option (List Placed)
  | [] => some []
  | n :: r =>
    match placeOne ps n with
    | none => none
    | some p => (placeList (p :: ps) r).map (p :: ·)

/-- The lowest free block slot of a core (assumption 25). -/
def freeSlot (s : State) (c : Nat) : Option Nat :=
  (List.range Config.blockSlots).find? fun k => (s.block? ⟨BitVec.ofNat 6 c, BitVec.ofNat 3 k⟩).isNone

/-- R24, R44: the shared region and the ceiling-die stores hold a variant, with the draft reserve where one is needed. -/
def sharesFit (s : State) (c : Nat) (v : Variant) (draft : Bool) : Bool :=
  let bs := s.blocksOn c
  let sum := fun (f : Variant → Nat) => (bs.map fun b => f b.ownVariant).foldl (· + ·) 0
  let r := if draft || bs.any (·.kernel.draft) then 1 else 0
  sum (·.scratch) + v.scratch ≤ 896 * 1024 && sum (·.accrows) + v.accrows + 128 * r ≤ 2048 &&
  sum (·.bslots) + v.bslots + 8 * r ≤ 128 && sum (·.scalekb) + v.scalekb + 4 * r ≤ 64

/-- A place for groups of the given footprints on a core (R269). -/
def coreFits (s : State) (c : Nat) (v : Variant) (draft : Bool) (units : List Nat) : Option (List Placed) :=
  if coreTakes s c && (freeSlot s c).isSome && sharesFit s c v draft then placeList (placedOn s c) units else none

/-- The most free lane-slice units of a core. -/
def coreFree (s : State) (c : Nat) : Nat := 24 * Config.lanesPerCore - ((placedOn s c).map (·.units)).foldl (· + ·) 0

/-- R269: among the cores that fit, the fewest resident blocks, then the most free units, then the lowest number. -/
def chooseCore (s : State) (v : Variant) (draft : Bool) (units : List Nat) : Option (Nat × List Placed) :=
  (List.range Config.cores).foldl (fun best c =>
    match coreFits s c v draft units with
    | none => best
    | some p => match best with
      | none => some (c, p)
      | some (d, q) =>
        let n := (s.blocksOn c).length
        let m := (s.blocksOn d).length
        if n < m || (n = m && coreFree s d < coreFree s c) then some (c, p) else some (d, q)) none

/-- R27, R269: the highest variant of VSET that fits some core. -/
def chooseVariant (s : State) (k : Kernel) (vset : Nat) : Option (Nat × Nat × List Placed) :=
  [3, 2, 1, 0].findSome? fun v =>
    if !(bit vset v) then none
    else match k.variants[v]? with
      | none => none
      | some x => (chooseCore s x k.draft (List.replicate x.groups (footprint x.vcnt x.priv))).map fun (c, p) => (v, c, p)

/-- A block that the dispatcher may start: its record, K2, grid, done counter, its slot in a ring or its linear index,
its place in the order, and the address a record fault names. -/
structure Member where
  record : Slot64
  extent : W64
  grid : Option Nat
  done : Option (W64 × Nat)
  slot : Option (Nat × Nat × Nat)
  lin : Nat
  va : W64
  stamp : Nat
  prio : Nat
  key : List Nat
deriving DecidableEq, Repr

/-- A candidate (R266, R270); a gang names its grid and peloton. -/
structure Cand where
  ctx : BitVec 8
  members : List Member
  gang : Option (Nat × Nat)
  prio : Nat
  stamp : Nat
  key : List Nat
deriving DecidableEq, Repr

/-- The loaded kernel object that a record's CODE names (R18, R19). -/
def kernelOf (x : Ctx) (r : Slot64) : Option Kernel := x.kernels.find? (·.addr = recCode r)
/-- R19: whether a record is malformed at its pop, in a ring of priority p. -/
def recordBad (x : Ctx) (r : Slot64) (p : Nat) : Bool :=
  recReserved r || recVset r = 0 || recPrio r ≠ p ||
  match kernelOf x r with
  | none => true
  | some k => 2 ^ k.variants.length ≤ recVset r

/-- The extent of a launch (R20). -/
def extX (e : Slot64) : Nat := rf e 143 128
def extY (e : Slot64) : Nat := rf e 159 144
def extZ (e : Slot64) : Nat := rf e 175 160
def extDone (e : Slot64) : W64 := e.extractLsb' 192 64
def extScope (e : Slot64) : Nat := rf e 263 256

/-- The block record of linear index l (R20). -/
def expandedRecord (e : Expansion) (l : Nat) : Slot64 :=
  let gx := extX e.ext
  let gy := extY e.ext
  let idx := l % gx + 2 ^ 16 * (l / gx % gy) + 2 ^ 32 * (l / (gx * gy))
  let pel := ((e.map.find? (·.1 = l)).map (·.2)).getD 0
  BitVec.ofNat 512 (rf e.head 127 0 + 2 ^ 192 * idx + 2 ^ 256 * (pel % 2 ^ 36) + 2 ^ 296 * recPrio e.head + 2 ^ 320 * rf e.head 511 320)

def expandedMember (c : BitVec 8) (e : Expansion) (l : Nat) : Member :=
  { record := expandedRecord e l, extent := BitVec.ofNat 64 (extX e.ext + 2 ^ 16 * extY e.ext + 2 ^ 32 * extZ e.ext), grid := some e.grid
    done := if extDone e.ext = 0 then none else some (extDone e.ext, extScope e.ext)
    slot := none, lin := l, va := e.va, stamp := e.stamp, prio := recPrio e.head, key := [e.stamp, c.toNat, e.q, e.slot, l] }

/-- The gang peloton of a grid that a record names (R26). -/
def gangOf (s : State) (grid : Option Nat) (r : Slot64) : Option Nat :=
  match grid.bind s.grid? with
  | none => none
  | some g => (pelotonsOf r).find? fun p => g.pels.any fun x => x.index = p && x.gang

/-- Records of a context that are ready in their rings, launches apart (R263, R265). -/
def readySlots (x : Ctx) : List (Slot × Slot64) :=
  x.slots.filterMap fun k => match k.ready, k.read with
    | some _, some r => if k.popped || k.wait.isSome || recForm r = 1 then none else some (k, r)
    | _, _ => none
def slotMember (x : Ctx) (k : Slot) (r : Slot64) : Member :=
  let t := k.ready.getD 0
  { record := r, extent := 0, grid := k.grid, done := none, slot := some (k.q, k.prio, k.slot), lin := 0, va := 0, stamp := t
    prio := k.prio, key := [t, x.id.toNat, k.q, k.slot, 0] }

/-- The members offered for gang peloton p of a grid: records and expanded blocks, oldest first (R270). -/
def gangMembers (s : State) (x : Ctx) (grid p : Nat) : List Member :=
  let fromSlots := ((readySlots x).filter fun (k, r) => k.grid = some grid && gangOf s (some grid) r = some p).map
    fun (k, r) => slotMember x k r
  let fromMaps := x.expansions.flatMap fun e =>
    if e.grid = grid && e.gangs.contains p then
      (e.map.filter fun (_, m) => (pelotonsOf (BitVec.ofNat 512 (m * 2 ^ 256))).contains p).map fun (l, _) => expandedMember x.id e l
    else []
  sortKeys Member.key (fromSlots ++ fromMaps)

/-- R270: a gang with all its members ready; it takes the place of its lowest-L member. -/
def gangCand (s : State) (x : Ctx) (grid : Grid) (p : Peloton) : Option Cand :=
  let ms := (gangMembers s x grid.id p.index).take p.count
  if !p.gang || ms.length < p.count then none
  else match ms.getLast? with
    | none => none
    | some last =>
      let lin := ms.foldl (fun m a => min m a.lin) last.lin
      some { ctx := x.id, members := ms, gang := some (grid.id, p.index), prio := ms.foldl (fun m a => max m a.prio) 0
             stamp := last.stamp, key := last.key.take 4 ++ [lin] }

/-- The candidates of a context (R263, R266). -/
def candsOf (s : State) (x : Ctx) : List Cand :=
  if x.st != .resident || !x.restores.isEmpty then []
  else
    let one := fun (m : Member) => Cand.mk x.id [m] none m.prio m.stamp m.key
    ((readySlots x).filter fun (k, r) => (gangOf s k.grid r).isNone).map (fun (k, r) => one (slotMember x k r)) ++
    (x.expansions.filter fun e => e.next < extX e.ext * extY e.ext * extZ e.ext).map (fun e => one (expandedMember x.id e e.next)) ++
    ((s.grids.filter (·.ctx = x.id)).flatMap fun g => g.pels.filterMap (gangCand s x g))

/-- R266: the cycles since a stamp during which the context was resident. -/
def candAge (s : State) (c : BitVec 8) (stamp : Nat) : Nat :=
  match s.ctx? c with
  | none => 0
  | some x => ((x.residentAt, s.cycle) :: x.past).foldl (fun n (a, b) => n + (b - max a stamp)) 0

/-- The barriers of a variant (R139). -/
def freshBarriers (v : Variant) : List Barrier := (List.range 16).map fun i => ⟨v.breload.getD i 0, false, 0, 0, []⟩

/-- The island queues that QBIND names (R138, R295). -/
def boundPorts (k : Kernel) : List IslandQueue :=
  ((k.qbind.filter fun q => q.toNat / 64 = 2).map fun q => q.toNat % 64).eraseDups.map fun p => ⟨p, []⟩

/-- A group as it starts (R25, R37, R40, R95, R98, R200). -/
def freshGroup (ref : GroupRef) (ctx : BitVec 8) (vi : Nat) (v : Variant) (p : Placed) (now : Nat) : Group :=
  { ref := ref, ctx := ctx, spc := v.sentry, lpc := v.lbase + BitVec.ofNat 52 (12 * v.lentry), s := Sparse.set [] 31 (BitVec.ofNat 64 (v.priv - 32))
    v := [], h := [], p := [], walkers := List.replicate 8 ⟨0, [], [], []⟩, e := 0, wlast := 0, trapm := false, variant := vi
    vcnt := v.vcnt, lane := BitVec.ofNat 7 p.lane, pos := p.pos, wide := p.wide, cause := 0, fsr := 0, sr := srSeedAt ref.slot.toNat
    priv := [], badV := [], badH := [], badPriv := [], runs := [], trapRuns := [], left := [], stack := [⟨1, 0, 0, 0xFFFFFFFF⟩], ras := [], rasHw := 0
    loads := [], traces := [], replay := [], kept := []
    mons := List.replicate 4 ⟨.unarmed, 0, 0⟩, lastBatch := 0, nextCopy := 1, parkS := none, parkL := none, waits := ⟨none, none, none⟩
    frozen := none, served := 0, held := none, heldSeq := none, pend := none, hold := .run, skipbp := none, skipbpL := none, stopReq := false
    exited := false, stamp := now, blockedS := false, blockedL := false, fenced := false, wordS := 0, wordL := 0, inject := none, redirect := [], loop := none, laneUntil := 0 }

/-- The sequencer of a block as it starts (R234, R252). -/
def freshSeq (v : Variant) : Seq :=
  { mpc := v.mentry, redo := [], idle := !v.msec, halted := false, carrier := none, stopped := false, mbudget := 0xFFFFFF, mgear := 3, last := 0
    count := 0, draft := 0, handle := none, qsTaken := 0, pass := none, mloads := [], park := none, word := 0, skipbp := false, ready := 0 }

/-- A block as it starts (R25). -/
def freshBlock (ref : BlockRef) (ctx : BitVec 8) (k : Kernel) (vi : Nat) (v : Variant) (m : Member) (grid : Nat) (us : List Nat) :
    Block :=
  let kv : Nat → W64 := fun n => match n with
    | 0 => BitVec.ofNat 64 (recFrame m.record)
    | 1 => BitVec.ofNat 64 (recBidx m.record)
    | 2 => m.extent
    | 3 => m.record.extractLsb' 320 64
    | 4 => m.record.extractLsb' 384 64
    | 5 => m.record.extractLsb' 448 64
    | 6 => m.record.extractLsb' 256 64
    | _ => 0
  let ks : Sparse 64 := (List.range 16).foldl (fun (s : Sparse 64) n => s.set n (kv n)) []
  { ref := ref, ctx := ctx, kernel := k, variant := vi, record := m.record, extent := m.extent, grid := grid
    member := m.grid.isSome, k := ks, kpend := [], bars := freshBarriers v, queues := List.replicate 8 []
    islq := boundPorts k, scratch := [], units := us, lock := none, acc := [], bstore := [], scale := [], badPad := [], badAcc := []
    badB := [], badScale := [], seq := freshSeq v, mark := none, claims := [], lastQueue := [], pels := [], done := m.done, test := false, testErr := false, testCause := false }

/-- A block dispatched to a core (R25, R19): a record of no grid forms its own. -/
def startBlock (s : State) (ctx : BitVec 8) (k : Kernel) (m : Member) (vi c : Nat) (ps : List Placed) : State :=
  match freeSlot s c, k.variants[vi]? with
  | some slot, some v =>
    let ref : BlockRef := ⟨BitVec.ofNat 6 c, BitVec.ofNat 3 slot⟩
    let (grid, s) : Nat × State := match m.grid with
      | some g => (g, s)
      | none => (s.nextGrid, { s with grids := s.grids ++ [Grid.mk s.nextGrid ctx []], nextGrid := s.nextGrid + 1 })
    let gs := (ps.zipIdx).map fun (p, i) => freshGroup ⟨ref.core, ref.bslot, BitVec.ofNat 5 i⟩ ctx vi v p s.cycle
    let us := scratchUnits s c v.scratch
    let s := clearForBlock s c us
    { s with blocks := s.blocks ++ [freshBlock ref ctx k vi v m grid us], groups := s.groups ++ gs }
  | _, _ => s

/-- R269 for one member. -/
def placeMember (s : State) (x : Ctx) (m : Member) : Option State :=
  match kernelOf x m.record with
  | none => none
  | some k => (chooseVariant s k (recVset m.record)).map fun (v, c, ps) => startBlock s x.id k m v c ps
/-- R270: members one after another, each counting those before it. -/
def placeMembers (x : Ctx) : List Member → State → Option State
  | [], s => some s
  | m :: ms, s => (placeMember s x m).bind (placeMembers x ms)

/-- The next linear index at or after l of a block in no gang of its launch (R263). -/
def nextSingle (gangs : List Nat) (map : List (Nat × Nat)) : Nat → Nat → Nat
  | 0, l => l
  | f + 1, l =>
    if (map.find? (·.1 = l)).any fun (_, m) => (pelotonsOf (BitVec.ofNat 512 (m * 2 ^ 256))).any gangs.contains then
      nextSingle gangs map f (l + 1)
    else l

/-- The gang pelotons of a grid. -/
def gangsOf (s : State) (grid : Nat) : List Nat := ((s.grid? grid).map fun g => (g.pels.filter (·.gang)).map (·.index)).getD []

/-- Launches with nothing left to offer are gone. -/
def dropExpansions (s : State) (c : BitVec 8) : State :=
  let more := fun (e : Expansion) => decide (e.next < extX e.ext * extY e.ext * extZ e.ext) || !e.gangs.isEmpty
  s.modCtx c fun x => { x with expansions := x.expansions.filter more }

/-- The members of a candidate leave what offered them. -/
def takeMember (s : State) (c : BitVec 8) (m : Member) : State :=
  match m.slot with
  | some (q, p, h) =>
    match (s.ctx? c).bind fun x => x.slots.find? fun k => k.q = q && k.prio = p && k.slot = h with
    | some k => popSlot s c k
    | none => s
  | none => s
def takeCand (s : State) (a : Cand) : State :=
  let s := a.members.foldl (fun s m => takeMember s a.ctx m) s
  let s := match a.gang with
    | some (g, p) =>
      let f := fun (e : Expansion) => if e.grid = g then { e with gangs := e.gangs.filter (· ≠ p) } else e
      s.modCtx a.ctx fun x => { x with expansions := x.expansions.map f }
    | none => match a.members with
      | [m] => match m.slot, m.grid with
        | none, some g =>
          let gs := gangsOf s g
          let f := fun (e : Expansion) => if e.grid = g then { e with next := nextSingle gs e.map e.map.length (m.lin + 1) } else e
          s.modCtx a.ctx fun x => { x with expansions := x.expansions.map f }
        | _, _ => s
      | _ => s
  dropExpansions s a.ctx

/-- R19: a malformed record is discarded and reported. -/
def discardRecordAt (s : State) (c : BitVec 8) (m : Member) (reason : Nat) : State :=
  match m.slot with
  | none => recordFault s c m.va reason
  | some (q, p, h) =>
    match (s.ctx? c).bind fun x => x.slots.find? fun k => k.q = q && k.prio = p && k.slot = h with
    | none => s
    | some k =>
      match slotAddr s c k with
      | (s, .ok va) => popSlot (recordFault s c va reason) c k
      | (s, .error _) => popSlot (recordFault s c 0 reason) c k

/-- Every core in service taken as empty; one that is only under test stays in service (R270, R347, R348). -/
def emptied (s : State) : State :=
  { s with blocks := [], groups := [], cores := s.cores.map fun c => { c with detected := false, loopMode := false } }

/-- What taking a candidate comes to. -/
inductive PopRes where
  | noFit
  | discarded (s : State)
  | dispatched (s : State)
deriving DecidableEq, Repr

/-- Taking a candidate (R269, R270): a record that fails its checks, and a gang that fits on no empty cores, are
discarded. -/
def popCand (s : State) (a : Cand) : PopRes :=
  match s.ctx? a.ctx with
  | none => .noFit
  | some x =>
    match a.members.find? fun m => m.slot.isSome && recordBad x m.record m.prio with
    | some m => .discarded (discardRecordAt s a.ctx m 1)
    | none =>
      match placeMembers x a.members s with
      | some s => .dispatched (takeCand s a)
      | none =>
        if a.gang.isSome && (placeMembers x a.members (emptied s)).isNone then
          let s := a.members.foldl (fun s m => discardRecordAt s a.ctx m 2) s
          .discarded (takeCand s { a with members := [] })
        else .noFit

/-- Slot n of the fixed cycle serves this priority (R267). -/
def trailingZeros : Nat → Nat → Nat
  | 0, _ => 0
  | f + 1, n => if n % 2 = 1 then 0 else 1 + trailingZeros f (n / 2)
def slotPriority (n : Nat) : Nat := 7 - trailingZeros 8 (n + 1)

/-- The first candidate that can be taken. -/
def popFirst (s : State) : List Cand → PopRes
  | [] => .noFit
  | a :: r => match popCand s a with
    | .noFit => popFirst s r
    | x => x

/-- R267: the slots after the one that served the last dispatch, in turn. -/
def popCycle (s : State) (cs : List Cand) : Nat → Nat → State
  | 0, _ => s
  | f + 1, n =>
    let n := (n + 1) % 255
    match popFirst s (cs.filter fun a => a.prio = slotPriority n) with
    | .noFit => popCycle s cs f n
    | .discarded s => s
    | .dispatched s => { s with dispSlot := n }

/-- The saved blocks of a context that its next restore candidate holds: one, or a gang whole (R320). -/
def restoreGroup (s : State) (x : Ctx) : List (Restore × SavedBlock) :=
  let all := x.restores.filterMap fun r => (x.saved.find? (·.dir = r.dir)).map fun b => (r, b)
  match all with
  | [] => []
  | (r, b) :: rest =>
    match gangOf s (some b.block.grid) b.block.record with
    | none => [(r, b)]
    | some p => (r, b) :: rest.filter fun (_, y) => y.block.grid = b.block.grid && gangOf s (some y.block.grid) y.block.record = some p

/-- A group placed again (R317, R320, R315). -/
def rehome (now : Nat) (ref : BlockRef) (p : Placed) (g : Group) : Group :=
  { g.keepParks with ref := ⟨ref.core, ref.bslot, g.ref.slot⟩, lane := BitVec.ofNat 7 p.lane, pos := p.pos, wide := p.wide, stamp := now }

/-- The sections of a restore's image, and its record (R318). -/
def Restore.sections (r : Restore) : List (Nat × Nat × List Byte) := sectionsFrom r.image r.image.length 128
def Restore.record (r : Restore) : Slot64 := slotOf (r.image.drop 24)
/-- A saved block's own state on its new place: of a park of its sequencer only a FATAL verdict is left (R315). -/
def restoredBlock (b : Block) (r : Restore) (ref : BlockRef) (us : List Nat) : Block :=
  let b := blockFrom b r.sections
  let p : Option Park := (b.seq.park.filter (·.fatal)).map fun x => { x with ids := [], unposted := [] }
  { b with ref := ref, record := r.record, units := us, seq := { b.seq with park := p } }

/-- R320: one saved block restored, or none where it fits no core. -/
def restoreOne (s : State) (x : Ctx) (r : Restore) (b : SavedBlock) : Option State :=
  let live := b.groups.filter fun g => !g.exited
  let gs := live.map fun g => groupFrom g (privOf b.block g) r.sections
  let units := gs.map fun g => footprint g.vcnt (privOf b.block g)
  match chooseCore s b.block.ownVariant b.block.kernel.draft units with
  | none => none
  | some (c, ps) =>
    (freeSlot s c).map fun slot =>
      let ref : BlockRef := ⟨BitVec.ofNat 6 c, BitVec.ofNat 3 slot⟩
      let at' := fun (g : GroupRef) => GroupRef.mk ref.core ref.bslot g.slot
      let placed := (gs.zip ps).map fun (g, p) => rehome s.cycle ref p g
      let gone := (b.groups.filter (·.exited)).map fun g => { g with ref := at' g.ref }
      let us := scratchUnits s c b.block.scratchSize
      let s := clearForBlock s c us
      let s := { s with
        blocks := s.blocks ++ [restoredBlock b.block r ref us], groups := s.groups ++ placed ++ gone
        copies := s.copies ++ b.copies.map (fun (k : GCopy) => { k with g := at' k.g })
        batches := s.batches ++ b.batches.map (fun (k : Batch) => { k with g := at' k.g }) }
      s.modCtx x.id fun x => { x with restores := x.restores.filter (·.dir ≠ r.dir), saved := x.saved.filter (·.dir ≠ r.dir) }
def restoreAll (x : Ctx) : List (Restore × SavedBlock) → State → Option State
  | [], s => some s
  | (r, b) :: l, s => (restoreOne s x r b).bind (restoreAll x l)

/-- R320 step 5, R319: the directory is zeroed and the counter steps. -/
def endRestore (s : State) (c : BitVec 8) : State :=
  match s.ctx? c with
  | none => s
  | some x =>
    if !x.restores.isEmpty then s
    else (writeVirt s c x.desc.savebase (List.replicate 8192 0#8)).1.modCtx c fun x => { x with counter := x.counter + 1, images := 0 }

/-- An aged candidate (R268, R320). -/
inductive Aged where
  | restore (c : BitVec 8)
  | cand (a : Cand)
deriving DecidableEq, Repr

/-- The aged candidates with their keys: those of R268, and every restore. -/
def agedCands (s : State) : List (List Nat × Aged) :=
  let limit := s.regs.age.toNat * Config.cyclesPerUs
  let rs := (s.ctxs.filter fun x => x.st == .resident).filterMap fun x =>
    x.restores.head?.map fun r => ([r.stamp, x.id.toNat], Aged.restore x.id)
  let as := (s.ctxs.flatMap (candsOf s)).filter fun a => limit ≤ candAge s a.ctx a.stamp
  sortKeys (·.1) (rs ++ as.map fun a => (a.key, .cand a))

/-- R268: the oldest aged candidate goes first; while it fits no core nothing else is dispatched. -/
def dispatchAged (s : State) : Option State :=
  match agedCands s with
  | [] => none
  | (_, .restore c) :: _ =>
    some (match s.ctx? c with
    | none => s
    | some x => match restoreAll x (restoreGroup s x) s with
      | none => s
      | some s => endRestore s c)
  | (_, .cand a) :: _ => some (match popCand s a with
    | .noFit => s
    | .discarded s => s
    | .dispatched s => s)

/-- One pop (R267, R268). -/
def execDispatch (s : State) : Out :=
  event (match dispatchAged s with
    | some s => s
    | none => popCycle s (sortKeys Cand.key (s.ctxs.flatMap (candsOf s))) 255 s.dispSlot)

/-- R268: a candidate that has reached the aging interval goes ahead of the priority cycle. -/
def execCandidateAged (s : State) : Out := event ((dispatchAged s).getD s)

/-- The value that an access of a retirement leaves: a counter one less (R32), a barrier word with one more leave; an invalid
word is left as it is (R75). -/
def retiredBytes (s : State) (d : DoneWrite) (pa : Nat) : List Byte :=
  if d.leave then bytesOf 8 (((barWordOf (memNat s pa 8)).map fun w => w.leave.encode).getD (memNat s pa 8))
  else bytesOf 4 (memNat s pa 4 + 2 ^ 32 - 1)
/-- A write of a done counter made by the dispatcher (R22, R32, R349); one that fails is dropped and posted. A retirement's
access waits until the release of the block's core is made (R32, R71). -/
def tryDone (s : State) (c : BitVec 8) (d : DoneWrite) (fatal : Bool) : State :=
  let lost := fun (s : State) => match d.code with
    | some k => postPlain s c 4 7 0 0 d.head (BitVec.ofNat 64 (4 + 256 * k))
    | none => postPlain s c 4 7 0 0 d.va 5
  if fatal || d.va.toNat % 4 ≠ 0 then lost s
  else if d.core.any fun n => !(released s n 5) then s.modCtx c fun x => { x with dones := x.dones ++ [d] }
  else
    let r := match d.code with
      | some _ => (match spanOf s c .write false d.va 4 with
        | (s, .ok pas) => (s, Except.ok (pas.headD 0))
        | (s, .error e) =>
          let (s, h) := unitHold s c .write 7 0 e
          (s, .error h))
      | none => unitAtomic s c 7 0 d.va
    match r with
    | (s, .ok pa) => match d.code with
      | some k => performWrite s pa (bytesOf 4 (2 ^ 31 + k))
      | none =>
        let bs := retiredBytes s d pa
        notifyJoins (performWrite s pa bs) pa bs.length
    | (s, .error .fail) => lost s
    | (s, .error (.wait id)) => s.modCtx c fun x => { x with dones := x.dones ++ [{ d with wait := id }] }

/-- The done writes that wait on nothing are tried again. -/
def tendDones (s : State) (c : BitVec 8) : State :=
  match s.ctx? c with
  | none => s
  | some x =>
    let s := s.modCtx c fun x => { x with dones := x.dones.filter (·.wait.isSome) }
    (x.dones.filter (·.wait.isNone)).foldl (fun s d => tryDone s c d false) s

/-- R265: waiting records are looked at, a counter again after 76,800 cycles, also one whose page waits. -/
def execJoinCounterReread (s : State) : Out :=
  event (s.ctxs.foldl (fun s x =>
    let idle := x.slots.filter fun k => k.ready.isNone && !k.popped
    let due := idle.filter fun k => k.wait.isNone && (k.read.isNone || k.joinPa.isNone || k.lastJoin + 76800 ≤ s.cycle)
    let held := idle.filter fun k => k.wait.isSome && k.read.isSome && k.lastJoin + 76800 ≤ s.cycle
    let s := held.foldl (fun s k => checkJoin s x.id k) s
    tendDones (due.foldl (fun s k => tendSlot s x.id k.q k.prio k.slot) s) x.id) s)

/-- A table read of a launch (R22): a page declared fatal fails. -/
def launchRead (s : State) (c : BitVec 8) (k : Slot) (va : W64) (n : Nat) : State × Except Hold (List Byte) :=
  if k.dead.contains (BitVec.ofNat 64 (va.toNat / 4096 * 4096)) then (s, .error .fail) else unitRead s c 7 0 va n

/-- What the tables of a launch give: error codes, map entries that are not empty, whether every entry was read, the
peloton entries, or the ID on which a read waits. -/
structure LaunchTables where
  errs : List Nat
  map : List (Nat × Nat)
  whole : Bool
  pels : List (Nat × Nat)
deriving DecidableEq, Repr

def readMap (c : BitVec 8) (k : Slot) (pmap : W64) (ptab : Nat) : List Nat → State → LaunchTables → State × Except (Option Nat) LaunchTables
  | [], s, t => (s, .ok t)
  | l :: ls, s, t =>
    match launchRead s c k (pmap + BitVec.ofNat 64 (8 * l)) 8 with
    | (s, .error (.wait id)) => (s, .error id)
    | (s, .error .fail) => readMap c k pmap ptab ls s { t with errs := 8 :: t.errs, whole := false }
    | (s, .ok bs) =>
      let m := leNat bs
      let ps := pelotonsOf (BitVec.ofNat 512 (m * 2 ^ 256))
      let errs := (if m / 2 ^ 36 ≠ 0 then [1] else []) ++ (if ps.eraseDups.length < ps.length then [5] else []) ++
        if !ps.isEmpty && ptab = 0 then [9] else []
      readMap c k pmap ptab ls s { t with errs := errs ++ t.errs, map := if ps.isEmpty then t.map else t.map ++ [(l, m)] }

def readPels (c : BitVec 8) (k : Slot) (ptab : W64) : List Nat → State → LaunchTables → State × Except (Option Nat) LaunchTables
  | [], s, t => (s, .ok t)
  | p :: ps, s, t =>
    match launchRead s c k (ptab + BitVec.ofNat 64 (16 * p)) 16 with
    | (s, .error (.wait id)) => (s, .error id)
    | (s, .error .fail) => readPels c k ptab ps s { t with errs := 8 :: t.errs }
    | (s, .ok bs) =>
      let e := leNat bs
      let errs := (if bits e 71 70 ≠ 0 || bits e 127 74 ≠ 0 then [1] else []) ++ (if bits e 63 0 % 8 ≠ 0 then [3] else []) ++
        if bit e 73 && bits e 63 0 = 0 then [6] else []
      readPels c k ptab ps s { t with errs := errs ++ t.errs, pels := t.pels ++ [(p, e)] }

/-- The pelotons that a map entry names. -/
def mapPels (m : Nat) : List Nat := pelotonsOf (BitVec.ofNat 512 (m * 2 ^ 256))

/-- R22: every error of a launch that can be tested. -/
def launchErrors (x : Ctx) (k : Slot) (h e : Slot64) (t : LaunchTables) : List Nat :=
  let n := extX e * extY e * extZ e
  (if recReserved h || rf e 191 176 ≠ 0 || rf e 511 264 ≠ 0 || (extScope e ≠ 5 && extScope e ≠ 6) || recBidx h ≠ 0 || recPel h ≠ 0 ||
      recPvalid h ≠ 0 || recPrio h ≠ k.prio then [1] else []) ++
  (if n = 0 then [2] else []) ++
  (if rf e 63 0 % 4096 ≠ 0 || rf e 127 64 % 8 ≠ 0 || (extDone e).toNat % 4 ≠ 0 then [3] else []) ++
  (match kernelOf x h with
   | none => [7]
   | some o => if recVset h = 0 || 2 ^ o.variants.length ≤ recVset h then [7] else []) ++
  t.errs ++
  (if t.whole && t.pels.any fun (p, e) => (t.map.filter fun (_, m) => (mapPels m).contains p).length ≠ bits e 69 64 + 1 then [4] else []) ++
  (if t.map.any fun (_, m) => 2 ≤ ((mapPels m).eraseDups.filter fun p => t.pels.any fun (q, e) => q = p && bit e 72).length then [10] else [])

/-- The barrier words written at acceptance (R75), all translated first. -/
def barWrites (s : State) (c : BitVec 8) (k : Slot) (pels : List (Nat × Nat)) : State × Except Hold (List (Nat × Nat)) :=
  (pels.filter fun (_, e) => bit e 73).foldl (fun (s, r) (_, e) =>
    match r with
    | .error h => (s, .error h)
    | .ok l =>
      let va : W64 := BitVec.ofNat 64 (bits e 63 0)
      if k.dead.contains (BitVec.ofNat 64 (va.toNat / 4096 * 4096)) then (s, .error .fail)
      else match spanOf s c .write false va 8 with
        | (s, .ok pas) => (s, .ok (l ++ [(pas.headD 0, 2 ^ 40 * (bits e 69 64 + 1))]))
        | (s, .error d) =>
          let (s, h) := unitHold s c .write 7 0 d
          (s, .error h)) (s, .ok [])

/-- R22: a rejection. -/
def rejectLaunch (s : State) (c : BitVec 8) (k : Slot) (e : Slot64) (va : W64) (code : Nat) : State :=
  let s := popSlot s c k
  if extDone e = 0 then s else tryDone s c ⟨extDone e, some code, va, none, none, false⟩ false

/-- R20: an accepted launch and its grid. -/
def acceptLaunch (s : State) (c : BitVec 8) (k : Slot) (h e : Slot64) (va : W64) (t : LaunchTables) (ws : List (Nat × Nat)) : State :=
  let s := ws.foldl (fun s (pa, v) => performWrite s pa (bytesOf 8 v)) s
  let pels := t.pels.map fun (p, e) => Peloton.mk p (BitVec.ofNat 64 (bits e 63 0)) (bits e 69 64 + 1) (bit e 73) (bit e 72) 0
  let gangs := (pels.filter (·.gang)).map (·.index)
  let id := s.nextGrid
  let x : Expansion := { grid := id, head := h, ext := e, va := va, stamp := k.ready.getD 0, q := k.q, slot := k.slot, map := t.map
                         next := nextSingle gangs t.map t.map.length 0, gangs := gangs }
  let s := { s with grids := s.grids ++ [Grid.mk id c pels], nextGrid := id + 1 }
  dropExpansions (popSlot (s.modCtx c fun y => { y with expansions := y.expansions ++ [x] }) c k) c

/-- A launch that is ready (R20, R22): it waits, is rejected with the lowest code, or is accepted. -/
def tryLaunch (s : State) (x : Ctx) (k : Slot) (h e : Slot64) : State :=
  let c := x.id
  let hold := fun (s : State) (id : Option Nat) => modSlot s c k.q k.prio k.slot fun k => { k with wait := id }
  let (s, va) := match slotAddr s c k with
    | (s, .ok va) => (s, va)
    | (s, .error _) => (s, 0)
  let n := extX e * extY e * extZ e
  let pmap : W64 := BitVec.ofNat 64 (rf e 127 64)
  let ptab := rf e 63 0
  match readMap c k pmap ptab (if pmap = 0 || pmap.toNat % 8 ≠ 0 then [] else List.range n) s ⟨[], [], true, []⟩ with
  | (s, .error id) => hold s id
  | (s, .ok t) =>
    let named := (List.range 256).filter fun p => t.map.any fun (_, m) => (mapPels m).contains p
    match readPels c k (BitVec.ofNat 64 ptab) (if ptab = 0 || ptab % 4096 ≠ 0 then [] else named) s t with
    | (s, .error id) => hold s id
    | (s, .ok t) =>
      match launchErrors x k h e t with
      | a :: as => rejectLaunch s c k e va (as.foldl min a)
      | [] => match barWrites s c k t.pels with
        | (s, .error (.wait id)) => hold s id
        | (s, .error .fail) => rejectLaunch s c k e va 8
        | (s, .ok ws) => acceptLaunch s c k h e va t ws

/-- The launches that are ready, oldest first, with their keys, contexts and slots (R20, R263). -/
def readyLaunches (s : State) : List (List Nat × Ctx × Slot × Slot64 × Slot64) :=
  let all := (s.ctxs.filter fun x => x.st == .resident && x.restores.isEmpty).flatMap fun x => x.slots.filterMap fun k =>
    match k.ready, k.read, k.ext with
    | some t, some r, some e => if k.popped || k.wait.isSome || recForm r ≠ 1 then none else some ([t, x.id.toNat, k.q, k.slot], x, k, r, e)
    | _, _, _ => none
  sortKeys (·.1) all

/-- R20: the oldest launch that is ready. -/
def execLaunchExpand (s : State) : Out :=
  event (
    match readyLaunches s with
    | [] => s
    | (_, x, k, r, e) :: _ => tryLaunch s x k r e)

/-- R271: eligible targets of a block for a move. -/
def targets (b : Block) : List Nat :=
  let v := b.ownVariant
  (List.range b.kernel.variants.length).filter fun w =>
    let x := b.variantAt w
    bit (recVset b.record) w && w ≠ b.variant && x.groups = v.groups && x.scratch = v.scratch && x.priv = v.priv &&
      x.accrows = v.accrows && x.bslots = v.bslots && x.scalekb = v.scalekb
def lowerTarget (b : Block) : Option Nat := ((targets b).filter (· < b.variant)).getLast?
def upperTarget (b : Block) : Option Nat := ((targets b).filter (b.variant < ·)).head?

/-- The blocks of a core that a downward move would mark, and the state as if they had moved. -/
def movable (s : State) (c : Nat) : List (BlockRef × Nat) :=
  (s.blocksOn c).filterMap fun b => if b.mark.isSome || b.test then none else (lowerTarget b).map fun t => (b.ref, t)
def asMoved (s : State) (ms : List (BlockRef × Nat)) : State :=
  { s with groups := s.groups.map fun g => match ms.find? (·.1 = blockOf g.ref) with
      | some (r, t) => { g with vcnt := ((s.block? r).map fun b => (b.variantAt t).vcnt).getD g.vcnt, variant := t }
      | none => g }

/-- R271: a block placed as the lowest variant that its record allows. -/
def placeLowest (s : State) (x : Ctx) (m : Member) : Option State :=
  (kernelOf x m.record).bind fun k =>
    ((List.range k.variants.length).find? (bit (recVset m.record))).bind fun v =>
      (k.variants[v]?).bind fun y =>
        (chooseCore s y k.draft (List.replicate y.groups (footprint y.vcnt y.priv))).map fun (c, ps) => startBlock s x.id k m v c ps
def placeLowestAll (x : Ctx) : List Member → State → Option State
  | [], s => some s
  | m :: ms, s => (placeLowest s x m).bind (placeLowestAll x ms)

/-- What waits to be dispatched (R266, R320): a saved block or gang, a candidate, a launch that is ready and not expanded yet. -/
inductive Waiting where
  | restore (x : Ctx)
  | cand (x : Ctx) (a : Cand)
  | launch
deriving DecidableEq, Repr

/-- All that waits, in pop order, whatever its age. -/
def waitingAll (s : State) : List Waiting :=
  let rs := (s.ctxs.filter fun x => x.st == .resident).filterMap fun x => x.restores.head?.map fun r => ([r.stamp, x.id.toNat], Waiting.restore x)
  let cs := s.ctxs.flatMap fun x => (candsOf s x).map fun a => (a.key, Waiting.cand x a)
  let ls := (readyLaunches s).map fun l => (l.1, Waiting.launch)
  (sortKeys (·.1) (rs ++ cs ++ ls)).map (·.2)

/-- R271: whether it fits no core; a launch is expanded before its blocks are looked at. -/
def Waiting.stuck (s : State) : Waiting → Bool
  | .restore x => (restoreAll x (restoreGroup s x) s).isNone
  | .cand _ a => popCand s a = .noFit
  | .launch => true

/-- R271, down: whether a candidate would fit, each member of a gang in turn (R270) and each as its lowest allowed variant;
a saved block has the one it was saved with (assumption 109). -/
def Waiting.wouldFit (s : State) : Waiting → Bool
  | .restore x => (restoreAll x (restoreGroup s x) s).isSome
  | .cand x a => (placeLowestAll x a.members s).isSome
  | .launch => false

/-- R271, down: the core that needs the fewest marks for the candidate to fit. -/
def downMarks (s : State) (w : Waiting) : Option (List (BlockRef × Nat)) :=
  (List.range Config.cores).foldl (fun best c =>
    let ms := movable s c
    if ms.isEmpty || !w.wouldFit (asMoved s ms) then best
    else match best with
      | none => some ms
      | some b => if ms.length < b.length then some ms else some b) none

/-- R271, up: whether a block's groups have room for a larger count. -/
def roomUp (s : State) (b : Block) (t : Nat) : Bool :=
  (s.groupsOf b.ref).all fun g => g.exited ||
    (b.variantAt t).vcnt / 8 - g.vunits ≤ freeUnits (placedOn s g.ref.core.toNat) g.lane.toNat g.wide

def setMarks (s : State) (ms : List (BlockRef × Nat)) : State :=
  ms.foldl (fun s (r, t) => s.modBlock r fun b => { b with mark := some t }) s

/-- R271, up: the first block, by core and slot, that could move to a higher variant, and its target. -/
def upMark (s : State) : Option (BlockRef × Nat) :=
  (List.range Config.cores).findSome? fun c => (List.range Config.blockSlots).findSome? fun k =>
    (s.block? ⟨BitVec.ofNat 6 c, BitVec.ofNat 3 k⟩).bind fun b =>
      if b.mark.isSome || b.test then none
      else (upperTarget b).bind fun t => if roomUp s b t then some (b.ref, t) else none

/-- R271. -/
def execMoveMark (s : State) : Out :=
  event (
    match waitingAll s with
    | [] =>
      match upMark s with
      | none => s
      | some m =>
        let (yes, s) := s.choose
        if yes = 0 then s else setMarks s [m]
    | ws =>
      if s.markOut then s
      else match (ws.find? (·.stuck s)).bind (downMarks s) with
        | some ms => settleMarks (setMarks s ms)
        | none => s)

/-- R32: whether a block may retire. -/
def retires (s : State) (b : Block) : Bool :=
  let mine := fun (l : List IslandRecord) => l.any fun r => r.b = b.ref
  (s.groupsOf b.ref).all (·.exited) && (b.seq.idle || b.seq.stopped) && b.seq.pass.isNone && b.seq.mloads.isEmpty &&
  !(s.copies.any fun c => blockOf c.g = b.ref && !c.done) && !(s.islands.any fun i => mine i.input || mine i.flight || mine i.out)

/-- R219: the failures of a block's copies that no CWAIT has reported, in ascending group slot and copy number. -/
def postFailures (s : State) (b : Block) : State :=
  let fails := s.copies.filter fun c => blockOf c.g = b.ref && c.status ≠ 0 && !c.reported
  (sortKeys (fun c => [c.g.slot.toNat, c.n]) fails).foldl (fun s c =>
    postPlain s c.ctx 6 3 b.ref.core.toNat (slotsOf b.ref.bslot.toNat c.g.slot.toNat) c.va
      (BitVec.ofNat 64 (copyCause c.status + 256 * c.status))) s

/-- Everything a block holds is freed. -/
def removeBlock (s : State) (r : BlockRef) : State :=
  let s := { s with
    blocks := s.blocks.filter (·.ref ≠ r), groups := s.groups.filter fun g => blockOf g.ref ≠ r
    copies := s.copies.filter fun c => blockOf c.g ≠ r, batches := s.batches.filter fun c => blockOf c.g ≠ r }
  settleMarks s

/-- The accesses of a retirement (R32, R74, R75): the leaves still owed to pelotons, then the decrement. -/
def retireWrites (s : State) (b : Block) : List DoneWrite :=
  let core := some b.ref.core.toNat
  ((b.pels.filter (·.owed)).filterMap fun a => (pelotonOf s b a.peloton).map fun p => ⟨p.barw, none, 0, none, core, true⟩) ++
  (b.done.map fun d => DoneWrite.mk d.1 none 0 none core false).toList
/-- R32: a block's retirement: its slot is free at once. -/
def retireBlock (s : State) (b : Block) : State :=
  let ws := retireWrites s b
  ws.foldl (fun s d => tryDone s b.ctx d false) (removeBlock (postFailures s b) b.ref)

end Sys2Proof.Machine
end

