-- ==== Sys2Proof/Machine/Keccak.lean ====
section
/-! DEFINITION. SHAKE256 (FIPS 202), which R136, R290 and R335 name for measurements and attestation records. The algorithm
is the named standard's, not the manual's own text (assumption 11). The state is five planes of five lanes; the round
constants and the rotation offsets are computed as the standard defines them, from its shift register and its walk. -/

namespace Sys2Proof

/-- A plane of the state: the five lanes of one y. -/
abbrev Plane := List (BitVec 64)

/-- FIPS 202, algorithm 5: the residue of x^t by x^8 + x^6 + x^5 + x^4 + 1. -/
def timesX (v : Nat) : Nat := if v < 128 then 2 * v else (2 * v) ^^^ 0x171
def feedback : Nat → Nat
  | 0 => 1
  | t + 1 => timesX (feedback t)

/-- The round constant of a round: bit 2^j - 1 is the output of the register after 7*round + j steps. -/
def roundMask (round : Nat) : BitVec 64 :=
  BitVec.ofNat 64 ((List.range 7).map fun j => feedback (7 * round + j) % 2 * 2 ^ (2 ^ j - 1)).sum
def roundMasks : List (BitVec 64) := (List.range 24).map roundMask

/-- FIPS 202, algorithm 2: the walk from (1, 0) by (x, y) to (y, 2x + 3y), and the triangular offset at each of its 24 places. -/
def walk24 : Nat → Nat × Nat
  | 0 => (1, 0)
  | t + 1 => match walk24 t with
    | (x, y) => (y, (2 * x + 3 * y) % 5)
def turnOffset (x y : Nat) : Nat :=
  match (List.range 24).find? fun t => walk24 t = (x, y) with
  | some t => (t + 1) * (t + 2) / 2 % 64
  | none => 0
def turnOffsets : List (List Nat) := (List.range 5).map fun y => (List.range 5).map fun x => turnOffset x y

def xorPlanes : Plane → Plane → Plane := List.zipWith fun a b => a ^^^ b

/-- The lanes turned by their offsets, then each plane refilled from the lanes that move into it: place (x, y) takes the lane
of plane x at 3y + x. -/
def turnLanes (planes : List Plane) : List Plane :=
  let turned := List.zipWith (List.zipWith fun v n => v.rotateLeft n) planes turnOffsets
  (List.range 5).map fun y => turned.zipIdx.map fun (plane, x) => plane.getD ((3 * y + x) % 5) 0

def keccakStep (planes : List Plane) (mask : BitVec 64) : List Plane :=
  let parity := planes.foldl xorPlanes (List.replicate 5 0)
  let mix := xorPlanes (parity.rotateRight 1) ((parity.rotateLeft 1).map fun v => v.rotateLeft 1)
  let moved := turnLanes (planes.map (xorPlanes mix))
  match moved.map fun p => xorPlanes p (List.zipWith (fun a b => ~~~a &&& b) (p.rotateLeft 1) (p.rotateLeft 2)) with
  | first :: rest => xorPlanes first [mask, 0, 0, 0, 0] :: rest
  | [] => []

/-- A block of 136 bytes as planes; the 64 bytes of capacity are zeros. -/
def blockPlanes (blk : List Byte) : List Plane :=
  (List.range 5).map fun y => (List.range 5).map fun x => BitVec.ofNat 64 (fieldAt blk (40 * y + 8 * x) 8)

def sponge (planes : List Plane) (blk : List Byte) : List Plane :=
  roundMasks.foldl keccakStep (List.zipWith xorPlanes planes (blockPlanes blk))

/-- The last block: the rest of the message, the four bits 1111 of an extendable output, and pad10*1. -/
def lastBlock (m : List Byte) : List Byte :=
  if m.length = 135 then m ++ [0x9F#8] else m ++ 0x1F#8 :: List.replicate (134 - m.length) 0#8 ++ [0x80#8]

def shakeFrom : Nat → List Plane → List Byte → List Plane
  | 0, planes, m => sponge planes (lastBlock m)
  | blocks + 1, planes, m => shakeFrom blocks (sponge planes (m.take 136)) (m.drop 136)

/-- SHAKE256 with n bytes of output, for n at most 136. -/
def shakeTo (n : Nat) (m : List Byte) : List Byte :=
  let planes := shakeFrom (m.length / 136) (List.replicate 5 (List.replicate 5 0)) m
  (planes.flatten.flatMap fun v => bytesOf 8 v.toNat).take n

/-- SHAKE256 with a 512-bit output. -/
def shake256 (m : List Byte) : List Byte := shakeTo 64 m

end Sys2Proof
end

