-- ==== Sys2Proof/Machine/Context.lean ====
section
/-! DEFINITION. Contexts: binding (R304, R305), residency (R293, R320), pre-emption and the forced save (R316, R317),
forced resets (R321) and release. -/

namespace Sys2Proof.Machine

open Sys2Proof

/-- R328: the agents whose writes a register marked sys accepts. -/
def isSysWriter : Writer → Bool
  | .sys | .governor | .selfTest => true
  | .host | .other => false

/-- A write of a sys register (R328); any other agent's is ignored and logged (R346). -/
def sysWrite (s : State) (wr : Writer) (off : Nat) (f : State → State) : State :=
  if isSysWriter wr then f s else logDrop s off

/-- A command's result in CTXSTAT (R304). -/
def ctxDone (s : State) (code : Nat) : State :=
  s.modRegs fun r => { r with ctxBusy := false, ctxResult := BitVec.ofNat 8 code }

/-- R304: a command of CTXCMD: ignored while BUSY; a reserved bit reports STATE; `f` answers the new state and the
result, or none where the command goes on. -/
def ctxCommand (s : State) (wr : Writer) (rsv : Nat) (f : State → State × Option Nat) : State :=
  sysWrite s wr 0x2000 fun s =>
    if s.regs.ctxBusy then logDrop s 0x2000
    else if rsv ≠ 0 then ctxDone s 1
    else match f s with
      | (s, some code) => ctxDone s code
      | (s, none) => s

/-- A context's state, UNDEFINED where it has no entry (R304). -/
def ctxState (s : State) (c : BitVec 8) : CtxState := ((s.ctx? c).map (·.st)).getD .undefined

/-- R305: the descriptor read from its 256 bytes, none where BIND fails; `key` says whether a slot holds a key. -/
def descOf (key : Nat → Bool) (bs : List Byte) : Option Desc :=
  let f := fun (o n : Nat) => fieldAt bs o n
  let w := fun (o : Nat) => BitVec.ofNat 64 (f o 8)
  let rsv := f 14 2 ≠ 0 || f 44 4 ≠ 0 || f 89 7 ≠ 0 || f 176 80 ≠ 0 || 32 ≤ f 8 1 || 32 ≤ f 88 1 ||
    (List.range 4).any fun k => bits (f (112 + 8 * k) 8) 61 52 ≠ 0
  let mis := f 0 8 % 128 ≠ 0 || f 16 8 % 4096 ≠ 0 || f 24 8 % 8 ≠ 0 || f 32 8 % 8 ≠ 0 || f 48 8 % 8 ≠ 0 || f 56 8 % 4096 ≠ 0 ||
    f 64 8 % 4 ≠ 0 || f 72 8 % 4 ≠ 0 || f 80 8 % 4096 ≠ 0 || f 96 8 % 4096 ≠ 0 || f 104 8 % 4096 ≠ 0
  let range := f 88 1 < 6 || 16 < f 88 1 || 256 < f 40 2 || 64 < f 42 2 || f 12 2 ≤ f 10 2
  if rsv || mis || range || (bit (f 8 1) 1 && !(key (f 9 1))) then none
  else some {
    ptroot := f 0 8, flags := BitVec.ofNat 8 (f 8 1), keyslot := f 9 1, d1 := f 10 2, d2 := f 12 2, tqtab := w 16, porttab := w 24
    nettab := w 32, netcount := f 40 2, mrcount := f 42 2, mrtab := w 48, tfbase := w 56, hspc := w 64, hlbase := w 72
    fqbase := w 80, fqlog2 := f 88 1, savebase := w 96, savelen := f 104 8, bps := (List.range 4).map fun k => w (112 + 8 * k)
    wps := (List.range 2).map fun k => (w (144 + 16 * k), w (152 + 16 * k)) }

def savecap (d : Desc) : Bool := d.flags.getLsbD 0
def isProtected (d : Desc) : Bool := d.flags.getLsbD 1
/-- The key in a save-key slot (R334). -/
def saveKey (s : State) (slot : Nat) : Option (BitVec 256) := (s.saveKeys.find? (·.1 = slot)).map (·.2)

/-- A context newly bound (R305, R319, R335). -/
def boundCtx (c : BitVec 8) (d : Desc) : Ctx :=
  { id := c, st := .defined, desc := d, kernels := [], ports := []
    att := shake256 (bytesOf 64 Config.bootMeasure.toNat ++ bytesOf 1 c.toNat), attN := 0, counter := 0, images := 0, pending := []
    posts := [], seq := 0, slots := [], expansions := [], dones := [], bells := [], preStart := none, saved := [], restores := []
    residentAt := 0, past := [], saving := false }

/-- BIND (R305): the descriptor read, checked and bound. -/
def bindCtx (s : State) (c : BitVec 8) : State × Option Nat :=
  if ctxState s c != .undefined then (s, some 1)
  else
    let pa := s.regs.ctxbase.toNat + 256 * c.toNat
    if poisoned s pa 256 then (logPoison s pa, some 1)
    else match descOf (fun k => (saveKey s k).isSome) (memBytes s pa 256) with
    | none => (s, some 1)
    | some d => ({ s with ctxs := boundCtx c d :: s.ctxs.filter (·.id ≠ c) }, some 0)

/-- The image a context has bound to an island (R291, R293). -/
def boundImage (s : State) (x : Ctx) (n : Nat) : Option Image :=
  (x.ports.find? fun p => p.island = n).bind fun p => s.images[p.image]?

/-- Whether a context stands on compute (R304). -/
def onCompute (s : State) (c : BitVec 8) : Bool := ctxState s c == .resident || ctxState s c == .draining

/-- R293: an image loaded into an island. -/
def loadImage (s : State) (n : Nat) (img : Image) : State :=
  let init := fun (o : Nat) => (List.range 64).foldl (fun (m : Sparse 32) c => m.set c (BitVec.ofNat 32 (img.field (o + 12 * c) 4))) []
  let cell := fun (m : Nat) => padTo 4096 ((img.bytes.drop (img.field (1284 + 16 * m) 4)).take (img.field (1288 + 16 * m) 4))
  s.modIsland n fun i =>
    { i with state := 2, image := some img, creg0 := init 260, creg1 := init 264, stale := false, overruns := 0, discards := 0
             badCells := [], cells := Sparse.write [] 0 ((List.range 8).flatMap cell) }

/-- R293: the islands of a context made ready for it to run, none where one holds another image for a resident
context, or would need a load while it takes no new work (R347, assumption 108). -/
def loadIslands (s : State) (x : Ctx) : Option State :=
  (List.range 32).foldl (fun r n => r.bind fun s =>
    let i := s.island n
    match boundImage s x n with
    | none => some s
    | some img =>
      if i.state = 3 then some s
      else if i.image.any (·.meas = img.meas) && !i.stale then some s
      else if i.detected then none
      else if i.image.any (·.meas = img.meas) then some (loadImage s n img)
      else if i.ctxs.any (onCompute s) then none
      else some (loadImage s n img)) (some s)

/-- What the check of a context's images comes to (R320). -/
inductive Images where
  | ok (rs : List Restore)
  | bad (code : Nat)
deriving DecidableEq, Repr

/-- The directory of 512 entries of 16 bytes (R317): index, offset and length of those that are not zero. -/
def dirEntries (d : List Byte) : List (Nat × Nat × Nat) :=
  (List.range 512).filterMap fun i => if fieldAt d (16 * i) 16 = 0 then none else some (i, fieldAt d (16 * i) 8, fieldAt d (16 * i + 8) 4)

/-- R320, the directory: entries 0 to n - 1, apart, within the save area. -/
def dirOk (x : Ctx) (d : List Byte) : Bool :=
  let es := dirEntries d
  let apart := fun (a b : Nat × Nat × Nat) => a.2.1 + a.2.2 ≤ b.2.1 || b.2.1 + b.2.2 ≤ a.2.1
  es.map (·.1) == List.range x.images && (es.all fun (i, o, n) => fieldAt d (16 * i + 12) 4 = 0 && 8192 ≤ o && 128 ≤ n && o + n ≤ x.desc.savelen) &&
  es.all fun a => es.all fun b => a.1 = b.1 || apart a b

/-- R320, a header. -/
def headOk (x : Ctx) (i : Nat) (img : List Byte) : Bool :=
  let f := fun (o n : Nat) => fieldAt img o n
  f 0 4 = 0x4D495653 && f 4 2 = 1 && f 6 1 = x.id.toNat && f 7 1 < 4 && bit (f 7 1) 0 == isProtected x.desc && f 16 4 = img.length &&
  f 20 4 = i && f 88 8 = 0 && f 108 4 = 0

/-- Every image read (R320), or none where one does not translate. -/
def readImages (c : BitVec 8) (base : W64) : List (Nat × Nat × Nat) → State → State × Option (List (Nat × List Byte))
  | [], s => (s, some [])
  | (i, o, n) :: es, s =>
    match readVirt s c false (base + BitVec.ofNat 64 o) n with
    | (s, .error _) => (s, none)
    | (s, .ok bs) =>
      match readImages c base es s with
      | (s, none) => (s, none)
      | (s, some l) => (s, some ((i, bs) :: l))

/-- The types, indices and lengths of a body's sections. -/
def sectionShape (bs : List Byte) : List (Nat × Nat × Nat) := (sectionsFrom bs bs.length 0).map fun x => (x.1, x.2.1, x.2.2.length)

/-- An image opened (R319): its body, whose sections are those of the block it was saved from. -/
def openImage (s : State) (x : Ctx) (i : Nat) (img : List Byte) : Except Nat Restore :=
  let body := if isProtected x.desc then (saveKey s x.desc.keyslot).bind fun k => openBody (some k) img else openBody none img
  match body, x.saved.find? (·.dir = i) with
  | none, _ => .error 5
  | some _, none => .error 6
  | some bs, some b =>
    if sectionShape bs = sectionShape (imageBody b.block (b.groups.filter fun g => !g.exited) s.cycle) then .ok ⟨i, img.take 128 ++ bs, s.cycle⟩
    else .error 6

/-- R320: the checks of a context's save area, in their order; an empty directory restores nothing. An image whose block an
earlier MAKERES has placed is not restored again (assumption 47). -/
def checkImages (s : State) (x : Ctx) : State × Images :=
  if x.desc.savelen < 8192 then (s, .ok [])
  else match readVirt s x.id false x.desc.savebase 8192 with
    | (s, .error _) => (s, .bad 8)
    | (s, .ok d) =>
      let es := dirEntries d
      if es.isEmpty then (s, .ok [])
      else
        let inside := es.filter fun (_, o, n) => o + n ≤ x.desc.savelen
        match readImages x.id x.desc.savebase inside s with
        | (s, none) => (s, .bad 8)
        | (s, some imgs) =>
          if !(dirOk x d) || !(imgs.all fun (i, b) => headOk x i b) then (s, .bad 6)
          else if imgs.any fun (_, b) => fieldAt b 8 8 ≠ x.counter then (s, .bad 4)
          else
            let l := (imgs.filter fun (i, _) => x.saved.any (·.dir = i)).map fun (i, b) => openImage s x i b
            match l.findSome? (fun r => match r with | .error e => some e | .ok _ => none) with
            | some e => (s, .bad e)
            | none => (s, .ok (l.filterMap fun r => match r with | .ok v => some v | .error _ => none))

/-- MAKERES (R304, R320); in D3hot no context is made resident (R337, assumption 29). -/
def makeResident (s : State) (c : BitVec 8) : State × Option Nat :=
  match s.ctx? c with
  | none => (s, some 1)
  | some x =>
    if x.st != .defined || s.power == .d3hot then (s, some 1)
    else if 16 ≤ (s.ctxs.filter fun y => y.st == .resident).length then (s, some 2)
    else match checkImages s x with
      | (s, .bad code) => (s, some code)
      | (s, .ok rs) =>
        match loadIslands s x with
        | none => (s, some 3)
        | some s => (s.modCtx c fun x => { x with st := .resident, restores := rs, residentAt := s.cycle, preStart := none }, some 0)

/-- The blocks of a context in ascending core and block slot (R317). -/
def ctxBlocks (s : State) (c : BitVec 8) : List Block :=
  (List.range Config.cores).flatMap fun k => (List.range Config.blockSlots).filterMap fun j =>
    (s.block? ⟨BitVec.ofNat 6 k, BitVec.ofNat 3 j⟩).filter fun b => b.ctx = c && !b.test

/-- R316: with no block resident, a pre-emption ends in DEFINED; saved blocks that found no place stay saved. -/
def checkDrained (s : State) (c : BitVec 8) : State :=
  match s.ctx? c with
  | none => s
  | some x =>
    if x.st != .draining || x.saving || !(ctxBlocks s c).isEmpty then s
    else ctxDone (s.modCtx c fun x => { x with st := .defined, preStart := none, restores := [] }) 0

/-- PREEMPT (R316). -/
def preemptCtx (s : State) (c : BitVec 8) : State × Option Nat :=
  match s.ctx? c with
  | none => (s, some 1)
  | some x =>
    if x.st != .resident then (s, some 1)
    else
      let s := s.modCtx c fun x => { x with st := .draining, preStart := some s.cycle, past := (x.residentAt, s.cycle) :: x.past }
      (checkDrained (s.modRegs fun r => { r with ctxBusy := true, ctxResult := 0, ctxBusyCtx := c }) c, none)

/-- The NEVAL words of a group as UNFINISHED entries for the threads that lack results (R261). -/
def nevalEntries (s : State) (r : GroupRef) : List Replay :=
  ((s.core r.core.toNat).nevals.filter fun n => n.g = r && n.waiting ≠ 0).map fun n =>
    ⟨n.word, .lane, false, true, n.pc, n.waiting, List.replicate 32 0⟩

/-- R261: a group's rows leave the tiles that have not formed; the results of the others are discarded. The threads of a word that
have failed so far are not run again: their cause stays a deferred one (DESIGN CHOICE, assumption 107). -/
def dropRows (s : State) (r : GroupRef) : State :=
  let c := r.core.toNat
  let fails := (s.core c).nevals.filter fun n => n.g = r && n.failed ≠ 0
  let s := s.modCore c fun k => { k with
    rowsWait := k.rowsWait.filter fun x => x.g ≠ r
    rowsIn := k.rowsIn.filter fun x => x.g ≠ r
    nevals := k.nevals.filter fun n => n.g ≠ r
    tiles := (k.tiles.map fun t =>
      if t.formed.isNone then { t with rows := t.rows.filter fun x => x.g ≠ r }
      else { t with rows := t.rows.map fun x => if x.g = r then { x with dropped := true } else x }).filter fun t => !t.rows.isEmpty }
  fails.foldl (fun s n => deferCause s r 0x10 n.sub n.pc n.failed ((n.handles.getD (lowest n.failed) 0).setWidth 64)) s

/-- R317: a group stops, in steps 1-3 of R308, and no frame is written: in trap mode too, where its entries are those of the
handler. One that the debugger has stopped has its entries already (R315, R323). -/
def freezeGroup (s : State) (r : GroupRef) : State :=
  match s.group? r with
  | none => s
  | some g =>
    if g.exited then s
    else
      let held := if g.hold = .stopped then g else g.heldUp
      let rs := nevalEntries s r ++ stopEntries held
      let pcs := resumePcs held
      (withdraw (leaveGrowers (dropRows s r) r) r).modGroup r fun g =>
        { g with loads := [], traces := [], replay := rs, spc := pcs.1, lpc := pcs.2, blockedS := false, blockedL := false, served := 0
                 fenced := false, left := [], inject := none, redirect := [], laneUntil := 0 }

/-- R247: the sequencer of a saved block: an attempt and its transfers are abandoned; MPC stands at the oldest unfinished word,
and the words of the transfers execute again before the word that the sequencer stood at (assumption 92). -/
def freezeSeq (s : State) (r : BlockRef) : State :=
  (dropArray s r.core.toNat r.bslot.toNat).modBlock r fun b =>
    let q := b.seq
    let pcs := q.mloads.map (·.pc) ++ q.mpc :: q.redo
    { b with seq := { q with pass := none, ready := 0, mloads := [], mpc := pcs.headD q.mpc, redo := pcs.drop 1 } }

def freezeBlock (s : State) (b : Block) : State :=
  (s.groupsOf b.ref).foldl (fun s g => freezeGroup s g.ref) (freezeSeq s b.ref)

/-- R317, R319: a forced save begins: the counter steps and every block stops. -/
def beginSave (s : State) (c : BitVec 8) : State :=
  (ctxBlocks s c).foldl freezeBlock (s.modCtx c fun x => { x with saving := true, counter := x.counter + 1 })

/-- R317, R302: nothing of the context's blocks is still under way: rays, island records, copies, handlers' rows. -/
def saveReady (s : State) (c : BitVec 8) : Bool :=
  let refs := (ctxBlocks s c).map (·.ref)
  let mine := fun (l : List IslandRecord) => l.any fun r => refs.contains r.b
  !(s.rays.any fun y => y.ctx = c) && !(s.islands.any fun i => mine i.input || mine i.flight || mine i.out) &&
  !(s.copies.any fun k => k.ctx = c && !k.done) && !(s.cores.any fun k => k.nevals.any fun n => refs.contains (blockOf n.g))

/-- Whether a block is a member of a gang (R318). -/
def inGang (s : State) (b : Block) : Bool := (gangOf s (some b.grid) b.record).isSome

/-- What a forced save keeps of each block, in directory order: the resident blocks, then those whose earlier image had
found no place yet. -/
def savedBlocks (s : State) (x : Ctx) : List SavedBlock :=
  let live := (ctxBlocks s x.id).map fun b =>
    SavedBlock.mk 0 { b with mark := none } (s.groupsOf b.ref) (s.copies.filter fun k => blockOf k.g = b.ref) (s.batches.filter fun k => blockOf k.g = b.ref)
  let wait := x.restores.filterMap fun r => (x.saved.find? (·.dir = r.dir)).map fun b =>
    let blk := restoredBlock b.block r b.block.ref []
    let gs := b.groups.map fun g => if g.exited then g else (groupFrom g (privOf b.block g) r.sections).keepParks
    SavedBlock.mk b.dir blk gs b.copies b.batches
  ((live ++ wait).zipIdx).map fun (b, i) => SavedBlock.mk i b.block b.groups b.copies b.batches

/-- The directory for images of the given lengths (R317). -/
def directory : Nat → List Nat → List Byte
  | _, [] => []
  | o, n :: r => bytesOf 8 o ++ bytesOf 4 n ++ bytesOf 4 0 ++ directory (o + n) r

/-- R345: the save reads poisoned cells of a block's stores: the errors are logged, one for its core. -/
def logSaved (s : State) (b : Block) : State :=
  if (b.badPad ++ b.badAcc ++ b.badB ++ b.badScale).isEmpty &&
      (s.groupsOf b.ref).all (fun g => g.exited || (g.badV ++ g.badH ++ g.badPriv).isEmpty) then s
  else logSpoiled s b.ref.core.toNat

/-- R317-R319: the images written and the blocks freed; an overrun, a failed access or a lost key makes the pre-emption a
forced reset. -/
def endSave (s : State) (x : Ctx) : State :=
  let c := x.id
  let key := if isProtected x.desc then saveKey s x.desc.keyslot else none
  let bs := savedBlocks s x
  let imgs := bs.map fun b => imageOf x b.block (b.groups.filter fun g => !g.exited) b.dir s.cycle (inGang s b.block) key
  let area := padTo 8192 (directory 8192 (imgs.map (·.length))) ++ imgs.flatten
  if (isProtected x.desc && key.isNone) || 512 < imgs.length || x.desc.savelen < area.length then forcedReset s c false
  else match writeVirt s c x.desc.savebase area with
    | (s, .error _) => forcedReset s c false
    | (s, .ok ()) =>
      let s := (ctxBlocks s c).foldl (fun s b => removeBlock (logSaved s b) b.ref) s
      ctxDone (s.modCtx c fun x => { x with st := .defined, preStart := none, saved := bs, images := bs.length, restores := [], saving := false }) 0

/-- T + D1 (R316): a context that may be saved is, in as many turns as its outstanding records need. -/
def firstDeadline (s : State) (c : BitVec 8) : State :=
  match s.ctx? c with
  | none => s
  | some x =>
    match x.preStart with
    | none => s
    | some t =>
      if x.st != .draining || s.cycle < t + x.desc.d1 * Config.cyclesPerUs || !(savecap x.desc) then s
      else
        let s := if x.saving then s
          else if isProtected x.desc && (saveKey s x.desc.keyslot).isNone then forcedReset s c false
          else if (ctxBlocks s c).isEmpty then checkDrained s c
          else beginSave s c
        match s.ctx? c with
        | none => s
        | some x => if x.saving && saveReady s c then endSave s x else s

/-- T + D2 (R316). -/
def secondDeadline (s : State) (c : BitVec 8) : State :=
  match s.ctx? c with
  | none => s
  | some x =>
    match x.preStart with
    | none => s
    | some t => if x.st == .draining && t + x.desc.d2 * Config.cyclesPerUs ≤ s.cycle then forcedReset s c false else s

/-- RELEASE (R304): a DEFINED context's descriptor is unbound; its islands keep their images (R293). -/
def releaseCtx (s : State) (c : BitVec 8) : State × Option Nat :=
  if ctxState s c != .defined then (s, some 1)
  else
    let s := (List.range 32).foldl (fun s n => purgeIsland s n c) s
    ({ s with ctxs := s.ctxs.filter (·.id ≠ c), engines := s.engines.map fun e => if e.ctx = c then { e with stopped := true } else e
              grids := s.grids.filter (·.ctx ≠ c) }, some 0)

/-- RESET (R304, R321). -/
def resetCtx (s : State) (c : BitVec 8) : State × Option Nat :=
  if ctxState s c == .undefined then (s, some 1) else (forcedReset s c true, some 0)

def execBind (wr : Writer) (ctx : BitVec 8) (rsv : BitVec 48) (s : State) : Out :=
  event (ctxCommand s wr rsv.toNat fun s => bindCtx s ctx)
def execMakeres (wr : Writer) (ctx : BitVec 8) (rsv : BitVec 48) (s : State) : Out :=
  event (ctxCommand s wr rsv.toNat fun s => makeResident s ctx)
def execPreempt (wr : Writer) (ctx : BitVec 8) (rsv : BitVec 48) (s : State) : Out :=
  event (ctxCommand s wr rsv.toNat fun s => preemptCtx s ctx)
def execReset (wr : Writer) (ctx : BitVec 8) (rsv : BitVec 48) (s : State) : Out :=
  event (ctxCommand s wr rsv.toNat fun s => resetCtx s ctx)
def execRelease (wr : Writer) (ctx : BitVec 8) (rsv : BitVec 48) (s : State) : Out :=
  event (ctxCommand s wr rsv.toNat fun s => releaseCtx s ctx)
def execFirstDeadline (ctx : BitVec 8) (s : State) : Out := event (firstDeadline s ctx)
def execSecondDeadline (ctx : BitVec 8) (s : State) : Out := event (secondDeadline s ctx)

end Sys2Proof.Machine
end

