-- ==== Sys2Proof/Machine/Faults.lean ====
section
/-! DEFINITION. The fault queue (R312, R313), the verdicts of the paging service (R314, R315), trap entry as an event
(R308), the debugger (R323) and doorbells (R264, R329). -/

namespace Sys2Proof.Machine

open Sys2Proof

/-- The 32 bytes of a fault-queue entry (R313). -/
def fqBytes (c : BitVec 8) (seq : Nat) (e : FqEntry) : List Byte :=
  bytesOf 1 e.kind.toNat ++ bytesOf 1 e.access ++ bytesOf 2 e.id ++ bytesOf 1 c.toNat ++ bytesOf 1 e.agent ++ bytesOf 1 e.unit ++
  bytesOf 1 e.slots ++ bytesOf 8 e.va.toNat ++ bytesOf 8 e.info.toNat ++ bytesOf 4 0 ++ bytesOf 4 seq

/-- R349: the fault queue cannot be written: the context is reset with no RESET entry, and the error log names it. -/
def lostQueue (s : State) (c : BitVec 8) : State :=
  logError ((forcedReset s c false).modCtx c fun x => { x with posts := [] }) 8 9 c.toNat 0 0

/-- R312: the oldest entry that waits is written and TAIL advanced, and the bound I/O core is told (R331); while the queue is
full it waits. -/
def postNext (s : State) (c : BitVec 8) : State :=
  match s.ctx? c with
  | none => s
  | some x =>
    match x.posts with
    | [] => s
    | e :: rest =>
      match readVirt s c false x.desc.fqbase 8 with
      | (s, .error _) => lostQueue s c
      | (s, .ok bs) =>
        let head := fieldAt bs 0 4
        let tail := fieldAt bs 4 4
        let n := 2 ^ x.desc.fqlog2
        if n ≤ (tail + 2 ^ 32 - head) % 2 ^ 32 then s
        else
          let seq := (x.seq + 1) % 2 ^ 32
          match writeVirt s c (x.desc.fqbase + BitVec.ofNat 64 (64 + 32 * (tail % n))) (fqBytes c seq e) with
          | (s, .error _) => lostQueue s c
          | (s, .ok ()) =>
            match writeVirt s c (x.desc.fqbase + 4) (bytesOf 4 ((tail + 1) % 2 ^ 32)) with
            | (s, .error _) => lostQueue s c
            | (s, .ok ()) => notifyIo (s.modCtx c fun x => { x with posts := rest, seq := seq }) (4 + c.toNat % 4)

/-- FAULT_POST (R312). -/
def execFaultPost (ctx : BitVec 8) (s : State) : Out := event (postNext s ctx)

/-- A doorbell acts (R264): TAIL is written and the new records stand in their ring; none where it must wait. -/
def ring (s : State) (c : BitVec 8) (b : Bell) : State :=
  let dva := queueVa s c b.q
  let stay := fun (s : State) (id : Option Nat) => s.modCtx c fun x => { x with bells := x.bells ++ [{ b with wait := id }] }
  let drop := fun (s : State) => logDrop s 0x5000
  match unitRead s c 7 0 dva 128 with
  | (s, .error (.wait id)) => stay s id
  | (s, .error .fail) => drop s
  | (s, .ok bs) =>
    match queueDesc bs with
    | none => drop s
    | some d =>
      let head := d.heads.getD b.prio 0
      let old := d.tails.getD b.prio 0
      let n := (b.tail + 2 ^ 32 - head) % 2 ^ 32
      if (b.host && !d.hostdb) || 2 ^ d.cap < n || n < d.count b.prio then drop s
      else match unitWrite s c 7 0 (dva + BitVec.ofNat 64 (68 + 8 * b.prio)) (bytesOf 4 b.tail) with
        | (s, .error (.wait id)) => stay s id
        | (s, .error .fail) => drop s
        | (s, .ok ()) =>
          let hs := (List.range (n - d.count b.prio)).map fun i => (old + i) % 2 ^ 32
          let taken := fun (x : Ctx) (h : Nat) => x.slots.any fun k => k.q = b.q && k.prio = b.prio && k.ext.isSome && (k.slot + 1) % 2 ^ 32 = h
          let fresh := fun (h : Nat) => Slot.mk b.q b.prio h none false none false none none none none s.cycle [] (hs.getLast? = some h)
          let s := s.modCtx c fun x => { x with slots := x.slots ++ (hs.filter fun h => !(taken x h)).map fresh }
          hs.foldl (fun s h => tendSlot s c b.q b.prio h) s

/-- DOORBELL (R329): the host or a system core; a reserved bit drops it. -/
def doorbellWrite (s : State) (wr : Writer) (v : W64) : State :=
  let f := fun (hi lo : Nat) => bits v.toNat hi lo
  let c := BitVec.ofNat 8 (f 63 56)
  if !(isSysWriter wr || wr == .host) || f 55 54 ≠ 0 || f 47 43 ≠ 0 || f 39 32 ≠ 0 || ctxState s c == .undefined then logDrop s 0x5000
  else ring s c ⟨f 53 48, f 42 40, f 31 0, wr == .host, none⟩
def execDoorbell (wr : Writer) (v : BitVec 64) (s : State) : Out := event (doorbellWrite s wr v)

/-- A group's parks after a verdict. -/
def Group.release (i : Nat) (fatal : Bool) (g : Group) : Group :=
  { g with parkS := Park.release g.parkS i fatal, parkL := Park.release g.parkL i fatal }
def Block.release (i : Nat) (fatal : Bool) (b : Block) : Block := { b with seq := { b.seq with park := Park.release b.seq.park i fatal } }
def GCopy.release (i : Nat) (fatal : Bool) (k : GCopy) : GCopy := { k with park := Park.release k.park i fatal }

/-- R314, R315: every group, sequencer and copy of a context attached to an ID, those saved among them. -/
def releaseStreams (s : State) (c : BitVec 8) (i : Nat) (fatal : Bool) : State :=
  let gs := s.groups.map fun (g : Group) => if g.ctx = c then Group.release i fatal g else g
  let bs := s.blocks.map fun (b : Block) => if b.ctx = c then Block.release i fatal b else b
  let ks := s.copies.map fun (k : GCopy) => if k.ctx = c then GCopy.release i fatal k else k
  let saved := fun (b : SavedBlock) =>
    SavedBlock.mk b.dir (Block.release i fatal b.block) (b.groups.map (Group.release i fatal)) (b.copies.map (GCopy.release i fatal)) b.batches
  { s with groups := gs, blocks := bs, copies := ks }.modCtx c fun x => { x with saved := x.saved.map saved }

/-- R314: a stopped chain's failed command executes again, or is marked complete; one whose entry could not be read
stays stopped. -/
def resolveChain (s : State) (r : EngineRef) (n : Nat) (fatal : Bool) : State :=
  match (s.engine? r).bind fun e => e.cmds.find? (·.n = n) with
  | none => s
  | some k =>
    if !fatal then putCmd s r { k with performed := false, status := 0, park := none, entry := none, moved := ⟨[], [], false⟩ }
    else if k.entry.isSome then finishCmd s r { k with status := 4 }
    else putCmd s r { k with park := some { Park.empty with fatal := true } }

/-- The commands of a context's engines that wait on an ID. -/
def releaseChains (s : State) (c : BitVec 8) (i : Nat) (fatal : Bool) : State :=
  { s with engines := s.engines.map fun e =>
      if e.ctx = c then { e with cmds := e.cmds.map fun k => if k.performed then k else { k with park := Park.release k.park i fatal } } else e }

/-- Draft rows and tiles, island records and rays that wait on an ID (R260, R288, R228). -/
def releaseUnits (s : State) (c : BitVec 8) (i : Nat) (fatal : Bool) : State :=
  let rec' := fun (r : IslandRecord) => if tagCtx r.tag = c && r.wait = some i then { r with wait := none, fatal := fatal } else r
  let row := fun (r : DraftRow) => if r.ctx = c && r.wait = some i then { r with wait := none, fatal := fatal } else r
  let tile := fun (t : DraftTile) => 
    if t.ctx = c && t.wait.contains i then { t with wait := t.wait.filter (· ≠ i), fatal := t.fatal || fatal } else t
  { s with
    cores := s.cores.map fun k => { k with rowsWait := k.rowsWait.map row, tiles := k.tiles.map tile }
    islands := s.islands.map fun d => { d with flight := d.flight.map rec', out := d.out.map rec' }
    rays := s.rays.map fun y => if y.ctx = c && y.wait = some i then { y with wait := none, fatal := fatal } else y
    loadWait := if s.loadWait = some (c, i) then none else s.loadWait
    loadDead := if s.loadWait = some (c, i) then fatal else s.loadDead }

/-- A record in a ring that waits on an ID (R264, R349): it is looked at again, or discarded; a launch whose tables fail is
rejected at its next turn. -/
def releaseSlot (s : State) (c : BitVec 8) (page : W64) (fatal : Bool) (k : Slot) : State :=
  let free := modSlot s c k.q k.prio k.slot fun k => { k with wait := none }
  if !fatal then tendSlot free c k.q k.prio k.slot
  else if k.ready.isSome then modSlot s c k.q k.prio k.slot fun k => { k with wait := none, dead := page :: k.dead }
  else match slotAddr s c k with
    | (s, .ok va) => popSlot (recordFault s c va 3) c k
    | (s, .error _) => popSlot (recordFault s c 0 3) c k

/-- The dispatcher's accesses for a context that wait on an ID. -/
def releaseDispatcher (s : State) (x : Ctx) (i : Nat) (page : W64) (fatal : Bool) : State :=
  let c := x.id
  let s := (x.slots.filter fun k => k.wait = some i && !k.popped).foldl (fun s k => releaseSlot s c page fatal k) s
  let s := s.modCtx c fun x => { x with dones := x.dones.filter (·.wait ≠ some i), bells := x.bells.filter (·.wait ≠ some i) }
  let s := (x.dones.filter (·.wait = some i)).foldl (fun s d => tryDone s c { d with wait := none } fatal) s
  (x.bells.filter (·.wait = some i)).foldl (fun s b => if fatal then logDrop s 0x5000 else ring s c { b with wait := none }) s

/-- R314: an ID has freed: the faults that found none post now, those of the groups, the sequencers, the copies and the chains
of the context in turn (assumption 93). -/
def repostOpt (s : State) (c : BitVec 8) (agent unit slots : Nat) (p : Option Park) : State × Option Park :=
  match p with
  | none => (s, none)
  | some p =>
    if p.unposted.isEmpty then (s, some p)
    else
      let (s, p) := repostPark s c agent unit slots p
      (s, some p)
def repostGroup (s : State) (g : Group) : State :=
  let slots := slotsOf g.ref.bslot.toNat g.ref.slot.toNat
  let (s, ps) := repostOpt s g.ctx 1 g.ref.core.toNat slots g.parkS
  let (s, pl) := repostOpt s g.ctx 0 g.ref.core.toNat slots g.parkL
  s.modGroup g.ref fun g => { g with parkS := ps, parkL := pl }
def repostSeq (s : State) (b : Block) : State :=
  let (s, p) := repostOpt s b.ctx 2 b.ref.core.toNat (slotsOf b.ref.bslot.toNat 0) b.seq.park
  s.modBlock b.ref fun b => { b with seq := { b.seq with park := p } }
def repostCopy (s : State) (k : GCopy) : State :=
  let (s, p) := repostOpt s k.ctx 3 k.g.core.toNat (slotsOf k.g.bslot.toNat k.g.slot.toNat) k.park
  modCopy s k.g k.n fun k => { k with park := p }
def repostCmd (s : State) (e : EngineCtx) (k : Cmd) : State :=
  let (s, p) := repostOpt s e.ctx (engineAgent e.ref).1 (engineAgent e.ref).2 0 k.park
  putCmd s e.ref { k with park := p }
def lacksId (p : Option Park) : Bool := p.any fun p => !p.unposted.isEmpty
def repostAll (s : State) (c : BitVec 8) : State :=
  let s := (s.groups.filter fun g => g.ctx = c && (lacksId g.parkS || lacksId g.parkL)).foldl repostGroup s
  let s := (s.blocks.filter fun b => b.ctx = c && !b.test && lacksId b.seq.park).foldl repostSeq s
  let s := (s.copies.filter fun k => k.ctx = c && lacksId k.park).foldl repostCopy s
  (s.engines.filter (·.ctx = c)).foldl (fun s e => (e.cmds.filter fun k => lacksId k.park).foldl (fun s k => repostCmd s e k) s) s

/-- R314: a verdict on an ID. -/
def resolve (s : State) (c : BitVec 8) (i : Nat) (fatal : Bool) : State :=
  match s.ctx? c with
  | none => logDrop s 0x2010
  | some x =>
    match x.pending.find? (·.id = i) with
    | none => logDrop s 0x2010
    | some p =>
      let s := s.modCtx c fun x => { x with pending := x.pending.filter (·.id ≠ i) }
      repostAll (match p.chain with
      | some (e, n) => resolveChain s e n fatal
      | none => releaseDispatcher (releaseUnits (releaseChains (releaseStreams s c i fatal) c i fatal) c i fatal) x i p.va fatal) c

/-- FAULTRES (R314): a reserved bit makes the write ignored. -/
def faultRes (s : State) (wr : Writer) (c : BitVec 8) (rsv id : Nat) (fatal : Bool) : State :=
  sysWrite s wr 0x2010 fun s => if rsv ≠ 0 then logDrop s 0x2010 else resolve s c id fatal
def execFaultRetry (wr : Writer) (ctx : BitVec 8) (rsv : BitVec 32) (id : BitVec 16) (s : State) : Out :=
  event (faultRes s wr ctx rsv.toNat id.toNat false)
def execFaultFatal (wr : Writer) (ctx : BitVec 8) (rsv : BitVec 32) (id : BitVec 16) (s : State) : Out :=
  event (faultRes s wr ctx rsv.toNat id.toNat true)

/-- A STOP command that could not be taken yet is taken once no other cause is pending (R323). -/
def takeStop (s : State) (r : GroupRef) : State :=
  match s.group? r with
  | none => s
  | some g =>
    if !g.stopReq || g.trapm || g.pend.isSome || g.exited then s
    else tryEnter (s.modGroup r fun x => { x with stopReq := false, pend := some (causeAt g 0 0 0 0 g.spc 0 0) }) r

/-- TRAP_ENTRY (R308). -/
def execTrapEntry (g : GroupRef) (s : State) : Out := event (takeStop (tryEnter s g) g)

/-- A debug command on a group of a context (R323); one that names none is ignored. -/
def debugCommand (s : State) (wr : Writer) (c : BitVec 8) (r : GroupRef) (f : State → Group → State) : State :=
  sysWrite s wr 0x2018 fun s =>
    match (s.group? r).filter fun g => g.ctx = c && !g.exited && !((s.block? (blockOf r)).any (·.test)) with
    | none => logDrop s 0x2018
    | some g => f s g

/-- STOP (R323). -/
def stopCommand (s : State) (g : Group) : State :=
  if g.hold = .stopped then s else takeStop (s.modGroup g.ref fun x => { x with stopReq := true }) g.ref

/-- RESUME and the steps (R323): the W fields of the frame are applied and the group goes on as told. An FSR with RM 4-7 that
comes so is taken as it is; R95 has a cause for a word that writes one only (DESIGN CHOICE, assumption 100). -/
def goOn (s : State) (g : Group) (h : DebugHold) : State :=
  match s.ctx? g.ctx with
  | none => s
  | some x =>
    if g.hold ≠ .stopped then logDrop s 0x2018
    else match readVirt s g.ctx false (x.desc.tfbase + BitVec.ofNat 64 (4096 * frameIndex g.ref)) 4096 with
      | (s, .error _) => logDrop s 0x2018
      | (s, .ok bs) =>
        let s := s.modGroup g.ref fun g => Group.runOver { (applyFrame g g.replay bs).keepParks with hold := h }
        let s := if bits (fieldAt bs 0 8) 17 16 = 1 then s.modBlock (blockOf g.ref) fun b => applyHandle b bs else s
        raiseSeqHeld s g.ref

def execStop (wr : Writer) (ctx : BitVec 8) (g : GroupRef) (s : State) : Out := event (debugCommand s wr ctx g stopCommand)
def execResume (wr : Writer) (ctx : BitVec 8) (g : GroupRef) (s : State) : Out :=
  event (debugCommand s wr ctx g fun s g => goOn s g .run)
def execStepL (wr : Writer) (ctx : BitVec 8) (g : GroupRef) (s : State) : Out :=
  event (debugCommand s wr ctx g fun s g => goOn s g .stepLane)
def execStepS (wr : Writer) (ctx : BitVec 8) (g : GroupRef) (s : State) : Out :=
  event (debugCommand s wr ctx g fun s g => goOn s g .stepScalar)

end Sys2Proof.Machine
end

