-- ==== Sys2Proof/Machine/Events.lean ====
section
/-! DEFINITION. Events of the device's own units and small registers: acknowledgements (R71), long-latency words (R127),
LNWAIT limits (R87), system calls (R171, R332), TLB invalidation (R57), partitions (R46), MSI-X (R330). -/

namespace Sys2Proof.Machine

open Sys2Proof

/-- Whether a write must be performed before a later one to the same bytes: but for a UO write with no ordering point of its
issuer since (R65), and that too where both are of one lane word (R211). -/
def goesBefore (v w : PendWrite) : Bool :=
  overlaps v w.pa w.bytes.length && (!v.uo || match v.who, w.who with
    | .thread g _, .thread h _ => g = h && v.cycle = w.cycle
    | _, _ => false)
/-- WRITE_ACKNOWLEDGE (R71): entry i of a core's pending table; one that must follow an earlier write stays. -/
def execWriteAcknowledge (core : BitVec 6) (i : Nat) (s : State) : Out :=
  event (
    let ws := (s.core core.toNat).pend
    match ws[i]? with
    | none => s
    | some w =>
      if (ws.take i).any fun v => goesBefore v w then s else acknowledge s core.toNat i)

/-- LONG_LATENCY_RESOLVE (R127). -/
def execLongLatencyResolve (g : GroupRef) (i : Nat) (threads : BitVec 32) (s : State) : Out := event (resolveLoad s g i threads)

/-- LNWAIT_TIMEOUT (R87). -/
def execLnwaitTimeout (g : GroupRef) (s : State) : Out :=
  event (s.modGroup g fun g => match g.waits.ln with
    | some l =>
      if l.limit ≠ 0 && l.start + l.limit ≤ s.cycle then { g with waits := { g.waits with ln := some { l with timeout := true } } } else g
    | none => g)

/-- A host write over the die-to-die link is performed at L2, as an access of partition 0 (R46, R327). -/
def performHost (s : State) (w : Nat × List Byte) : State := performWrite (allocateIn s 0 false w.1 w.2.length) w.1 w.2
/-- Host write i is performed; writes to one byte keep their order. -/
def hostDone (s : State) (i : Nat) : State :=
  match s.hostPend[i]? with
  | none => s
  | some w =>
    if (s.hostPend.take i).any fun v => v.1 < w.1 + w.2.length && w.1 < v.1 + v.2.length then s
    else { performHost s w with hostPend := s.hostPend.eraseIdx i }
/-- D2DSYNC_READ (R327): the read returns once every earlier write of the host has been performed at L2. -/
def execD2dsyncRead (s : State) : Out := event { s.hostPend.foldl performHost s with hostPend := [] }

/-- MSIGEN (R330). -/
def msigenWrite (s : State) (wr : Writer) (v : W64) : State := sysWrite s wr 0x5008 fun s => sendMsi s (v.toNat % 2048)
def execMsigen (wr : Writer) (v : BitVec 64) (s : State) : Out := event (msigenWrite s wr v)

/-- A group whose SYSCALL waits in a slot, now or under a trap. -/
def Group.calls (slot : Nat) (g : Group) : Bool :=
  let at' := fun (w : Waits) => w.call.any fun c => c.slot = slot && c.result.isNone
  at' g.waits || g.frozen.any at'
/-- The call's results (R171). -/
def Group.answer (slot : Nat) (v : Option (W64 × W64)) (g : Group) : Group :=
  let put := fun (w : Waits) => if w.call.any fun c => c.slot = slot && c.result.isNone then { w with call := some ⟨slot, some v⟩ } else w
  { g with waits := put g.waits, frozen := g.frozen.map put }

/-- SYSDONE (R332): the slot is acquired at scope 6 and the group that waits in it has its results, none from poisoned data
(R345); with no such group it is ignored. -/
def sysdoneWrite (s : State) (wr : Writer) (v : W64) : State :=
  sysWrite s wr 0x6800 fun s =>
    let r := s.regs.rings.getD 1 Ring.reset
    let slot := v.toNat % 2 ^ 32
    let pa := r.base.toNat + 64 * slot
    let bad := poisoned s (pa + 16) 16
    let res : Option (W64 × W64) :=
      if bad then none else some (BitVec.ofNat 64 (memNat s (pa + 16) 8), BitVec.ofNat 64 (memNat s (pa + 24) 8))
    let told := fun (s : State) => if bad then logPoison s pa else s
    let kept := fun (x : Ctx) => x.saved.any fun b => b.groups.any (Group.calls slot)
    match s.groups.find? (Group.calls slot) with
    | some g => told (acquire (s.modGroup g.ref (Group.answer slot res)) g.ref.core.toNat 6)
    | none =>
      if s.ctxs.any kept then
        let f := fun (b : SavedBlock) => SavedBlock.mk b.dir b.block (b.groups.map (Group.answer slot res)) b.copies b.batches
        told { s with ctxs := s.ctxs.map fun x => { x with saved := x.saved.map f } }
      else logDrop s 0x6800
def execSysdone (wr : Writer) (v : BitVec 64) (s : State) : Out := event (sysdoneWrite s wr v)

/-- Whether a cached translation matches an invalidation (R57). -/
def tlbMatches (s : State) (t : TlbEntry) : Bool :=
  let vpn := bits s.regs.tlbVa.toNat 51 12 * 4096
  match s.regs.tlbKind.toNat with
  | 0 => t.ctx = s.regs.tlbCtx && t.base ≤ vpn && vpn < t.base + t.size
  | 1 => t.ctx = s.regs.tlbCtx
  | _ => true

/-- TLBINV_CTL (R57): a write while BUSY is ignored; a reserved KIND only sets ERR; the matching entries are dropped, and
BUSY stays until TLB_INVALIDATION_DONE. -/
def tlbinvWrite (s : State) (wr : Writer) (c : BitVec 8) (kind : Nat) : State :=
  sysWrite s wr 0x3008 fun s =>
    if s.regs.tlbBusy then logDrop s 0x3008
    else if 3 ≤ kind then s.modRegs fun r => { r with tlbErr := true }
    else
      let s := s.modRegs fun r => { r with tlbBusy := true, tlbErr := false, tlbCtx := c, tlbKind := BitVec.ofNat 3 kind }
      let keep := fun (l : List TlbEntry) => l.filter fun t => !(tlbMatches s t)
      { s with tlb := keep s.tlb, chamberTlb := s.chamberTlb.map keep, cores := s.cores.map fun k => { k with tlb := keep k.tlb } }
def execTlbInvalidatePage (wr : Writer) (ctx : BitVec 8) (s : State) : Out := event (tlbinvWrite s wr ctx 0)
def execTlbInvalidateContext (wr : Writer) (ctx : BitVec 8) (s : State) : Out := event (tlbinvWrite s wr ctx 1)
def execTlbInvalidateAll (wr : Writer) (ctx : BitVec 8) (s : State) : Out := event (tlbinvWrite s wr ctx 2)

/-- TLB_INVALIDATION_DONE (R57): every access already translated has been performed: no core holds a write back, and the
loads and transfers that are still out take their values now. -/
def execTlbInvalidationDone (s : State) : Out :=
  event (
    if !s.regs.tlbBusy || !(s.cores.all fun c => c.pend.isEmpty) then s
    else
      let s := s.groups.foldl (fun s g => captureLoads s g.ref fun _ _ => true) s
      let s := s.blocks.foldl (fun s b => captureTransfers s b.ref fun m => !m.scratch) s
      s.modRegs fun r => { r with tlbBusy := false })

/-- SCPARTn (R46): clearing EN invalidates the lines of the partition. -/
def scpartSet (s : State) (wr : Writer) (n : BitVec 4) (v : W32) : State :=
  sysWrite s wr (0x4000 + 4 * n.toNat) fun s =>
    let v := v &&& 0x8001FFFF#32
    let s := s.modRegs fun r => { r with scpart := listSet r.scpart n.toNat v }
    if v.getLsbD 31 then s else { s with lines := s.lines.filter fun l => l.part ≠ n.toNat }
def execScpartWrite (wr : Writer) (n : BitVec 4) (v : BitVec 32) (s : State) : Out := event (scpartSet s wr n v)

/-- ILLEGAL_ENCODING (R124): a word whose opcode names no instruction. -/
def execIllegalEncoding (st : Stream) (s : State) : Out :=
  match st, s.cur with
  | .scalar, .scalar _ => illegalWord s 2
  | .lane, .lane _ => illegalWord s 2
  | .matrix, .matrix _ => illegalWord s 2
  | _, _ => .fault .noStream

end Sys2Proof.Machine
end

