-- ==== Sys2Proof/Machine/SlhDsa.lean ====
section
/-! DEFINITION. SLH-DSA-SHAKE-256s verification (FIPS 205) in its pure form with an empty context string, which R136, R290
and R334 name. The algorithm is the named standard's, not the manual's own text (assumption 11). The parameters: n = 32,
h = 64, d = 8, h' = 8, a = 14, k = 22, lg w = 4, m = 47; a public key of 64 bytes and a signature of 29,792 (R134). -/

namespace Sys2Proof

/-- A byte string as a number, the first byte highest. -/
def bigEndian (bs : List Byte) : Nat := bs.foldl (fun n b => 256 * n + b.toNat) 0
def bigEndianBytes (n v : Nat) : List Byte := (bytesOf n v).reverse

/-- FIPS 205, algorithm 4: `count` digits of w bits, the first highest. -/
def digits (bs : List Byte) (w count : Nat) : List Nat :=
  let v := bigEndian bs
  (List.range count).map fun i => v / 2 ^ (8 * bs.length - w * (i + 1)) % 2 ^ w

/-- An address: layer, tree, type, and the three words whose use the type settles. -/
structure HashPlace where
  layer : Nat := 0
  tree : Nat := 0
  type : Nat := 0
  pair : Nat := 0
  height : Nat := 0
  index : Nat := 0
deriving DecidableEq, Repr

def HashPlace.bytes (a : HashPlace) : List Byte :=
  bigEndianBytes 4 a.layer ++ bigEndianBytes 12 a.tree ++ bigEndianBytes 4 a.type ++ bigEndianBytes 4 a.pair ++ bigEndianBytes 4 a.height ++ bigEndianBytes 4 a.index

/-- F, H and T_l: one keyed hash of the message parts at an address. -/
def nodeHash (seed : List Byte) (a : HashPlace) (m : List Byte) : List Byte := shakeTo 32 (seed ++ a.bytes ++ m)

/-- A byte string in parts of 32 bytes. -/
def parts32 (bs : List Byte) (count : Nat) : List (List Byte) := (List.range count).map fun i => (bs.drop (32 * i)).take 32

/-- A path from a node to its root: at each height the sibling stands on the side that the index gives. -/
def climb (seed : List Byte) (a : HashPlace) : Nat → Nat → List Byte → List (List Byte) → List Byte
  | _, _, node, [] => node
  | height, index, node, sibling :: rest =>
    let pair := if index % 2 = 0 then node ++ sibling else sibling ++ node
    climb seed a (height + 1) (index / 2) (nodeHash seed { a with height := height + 1, index := index / 2 } pair) rest

/-- FIPS 205, algorithm 5: the chain from step i, over the given number of steps. -/
def chain (seed : List Byte) (a : HashPlace) : Nat → Nat → List Byte → List Byte
  | _, 0, x => x
  | i, steps + 1, x => chain seed a (i + 1) steps (nodeHash seed { a with index := i } x)

/-- FIPS 205, algorithm 8: the WOTS+ public key that a signature of 67 parts of a 32-byte message gives. -/
def wotsKey (seed : List Byte) (a : HashPlace) (sig : List (List Byte)) (m : List Byte) : List Byte :=
  let message := digits m 4 64
  let sum := (message.map fun d => 15 - d).sum
  let all := message ++ digits (bigEndianBytes 2 (16 * sum)) 4 3
  let ends := (sig.zip all).zipIdx.flatMap fun ((x, d), i) => chain seed { a with height := i } d (15 - d) x
  nodeHash seed { a with type := 1 } ends

/-- FIPS 205, algorithm 11: the root of one tree of height 8, from the 67 + 8 parts of its signature. -/
def treeRoot (seed : List Byte) (layer tree leaf : Nat) (sig : List (List Byte)) (m : List Byte) : List Byte :=
  let a : HashPlace := { layer := layer, tree := tree }
  climb seed { a with type := 2 } 0 leaf (wotsKey seed { a with pair := leaf } (sig.take 67) m) (sig.drop 67)

/-- FIPS 205, algorithm 12: the root of the hypertree, layer by layer. -/
def hyperRoot (seed : List Byte) : Nat → Nat → Nat → Nat → List (List Byte) → List Byte → List Byte
  | 0, _, _, _, _, m => m
  | left + 1, layer, tree, leaf, sig, m =>
    hyperRoot seed left (layer + 1) (tree / 256) (tree % 256) (sig.drop 75) (treeRoot seed layer tree leaf (sig.take 75) m)

/-- FIPS 205, algorithm 17: the FORS public key, from 22 secret values with their paths of 14. -/
def forsKey (seed : List Byte) (tree leaf : Nat) (sig : List (List Byte)) (md : List Byte) : List Byte :=
  let a : HashPlace := { tree := tree, type := 3, pair := leaf }
  let roots := (digits md 14 22).zipIdx.flatMap fun (d, i) =>
    match sig.drop (15 * i) with
    | [] => []
    | x :: path => climb seed a 0 (2 ^ 14 * i + d) (nodeHash seed { a with index := 2 ^ 14 * i + d } x) (path.take 14)
  nodeHash seed { a with type := 4 } roots

/-- FIPS 205, algorithms 20 and 24: whether a signature of a message verifies under a key, byte i of the key being bits 8i+7
to 8i of the number. -/
def slhVerify (key : BitVec 512) (message sig : List Byte) : Bool :=
  let seed := bytesOf 32 key.toNat
  let root := bytesOf 32 (key.toNat / 2 ^ 256)
  let digest := shakeTo 47 (sig.take 32 ++ seed ++ root ++ [0#8, 0#8] ++ message)
  let tree := bigEndian ((digest.drop 39).take 7)
  let leaf := bigEndian (digest.drop 46)
  let parts := parts32 (sig.drop 32) 930
  sig.length = 29792 && hyperRoot seed 8 0 tree leaf (parts.drop 330) (forsKey seed tree leaf (parts.take 330) (digest.take 39)) = root

end Sys2Proof
end

