-- ==== Sys2Proof/Machine/Loader.lean ====
section
/-! DEFINITION. The loader queue (R332, R333), objects (R133-R140), island bindings (R291-R293), attestation (R335) and the
key store (R334). -/

namespace Sys2Proof.Machine

open Sys2Proof

/-- What serving a request comes to: it waits, or it ends with a status. -/
inductive Served where
  | wait (s : State) (id : Option Nat)
  | done (s : State) (code : Nat)
deriving DecidableEq, Repr

/-- A loader request (R333). -/
structure LoadReq where
  kind : Nat
  ctx : BitVec 8
  island : Nat
  port : Nat
  addr : W64
  len : Nat
  comp : Nat
  out : Nat
  bad : Bool
deriving DecidableEq, Repr
def requestOf (bs : List Byte) : LoadReq :=
  let f := fun (o n : Nat) => fieldAt bs o n
  { kind := f 0 1, ctx := BitVec.ofNat 8 (f 1 1), island := f 2 1, port := f 3 1, addr := BitVec.ofNat 64 (f 8 8), len := f 16 8
    comp := f 24 8, out := f 32 8, bad := f 4 4 ≠ 0 || f 40 24 ≠ 0 || f 24 8 % 8 ≠ 0 }

/-- n bytes of a context's space read for a request (R349): they wait, or the request ends with UNREADABLE. -/
def loadRead (s : State) (c : BitVec 8) (va : W64) (n : Nat) (f : State → List Byte → Served) : Served :=
  match unitRead s c 7 0 va n with
  | (s, .ok bs) => f s bs
  | (s, .error (.wait id)) => .wait s id
  | (s, .error .fail) => .done s 0x23

/-- R335: one measurement extends a context's attestation record. -/
def extend (s : State) (c : BitVec 8) (meas : List Byte) : State :=
  s.modCtx c fun x => { x with att := shake256 (x.att ++ meas), attN := x.attN + 1 }

/-- The key that a KEYID names, and whether it may verify (R334). -/
def verifyKey (s : State) (id : Nat) : Option VerifyKey := (s.verify[id]?).filter (·.valid)
def keyGood (s : State) (id : Nat) : Bool := (verifyKey s id).any fun k => !k.revoked

/-- A segment entry (R134). -/
structure Segment where
  bytes : List Byte
  type : Nat
  perm : Nat
  foff : Nat
  flen : Nat
  vaddr : Nat
  msize : Nat
  sigoff : Nat
  siglen : Nat
  keyid : Nat
deriving DecidableEq, Repr
def segmentOf (bs : List Byte) : Segment :=
  let f := fun (o n : Nat) => fieldAt bs o n
  { bytes := bs, type := f 0 2, perm := f 2 2, foff := f 8 8, flen := f 16 8, vaddr := f 24 8, msize := f 32 8, sigoff := f 40 8
    siglen := f 48 4, keyid := f 52 4 }

/-- R135: the permissions of a segment type, none where it is reserved. -/
def segmentPerm (type : Nat) : Option Nat :=
  match type with
  | 1 | 2 | 3 => some 5
  | 4 | 6 | 7 => some 1
  | 5 => some 3
  | _ => none

/-- Whether a page of a context is mapped (R62 maps the scope table's). -/
def isMapped (s : State) (x : Ctx) (va : Nat) : Bool :=
  va / 4096 * 4096 = scopePage || walk s (x.desc.flags.getLsbD 2) va 4 x.desc.ptroot != .notPresent
def pagesOf (g : Segment) : List Nat := (List.range ((g.msize + 4095) / 4096)).map fun i => g.vaddr + 4096 * i
/-- Whether two segments overlap (R137); one with MSIZE 0 strictly inside another's range counts as overlapping it (DESIGN
CHOICE, log entry 87). -/
def segmentsMeet (a b : Segment) : Bool := a.vaddr < b.vaddr + (b.msize + 4095) / 4096 * 4096 && b.vaddr < a.vaddr + (a.msize + 4095) / 4096 * 4096

/-- R137, one segment entry: the code of its first failure. R137 names no code for a SIGLEN other than 29,792 (R134); the model
gives FORMAT (DESIGN CHOICE, log entry 84). The order of the checks within one entry, and FORMAT for a reserved bit of PERM, are the
model's too (DESIGN CHOICE, log entry 101). -/
def segmentCheck (s : State) (x : Ctx) (fsize : Nat) (before : List Segment) (g : Segment) : Option Nat :=
  if fieldAt g.bytes 4 4 ≠ 0 || fieldAt g.bytes 56 8 ≠ 0 || 8 ≤ g.perm || g.siglen ≠ 29792 then some 1
  else if segmentPerm g.type ≠ some g.perm then some 2
  else if fsize < g.foff + g.flen || fsize < g.sigoff + 29792 || g.msize < g.flen || g.vaddr % 4096 ≠ 0 || g.sigoff % 8 ≠ 0 ||
      2 ^ 52 < g.vaddr + g.msize then some 3
  else if before.any (segmentsMeet g) || (pagesOf g).any (isMapped s x) then some 7
  else none

/-- R136, R137: a segment's measurement, then its signature. -/
def segmentVerify (s : State) (file : List Byte) (g : Segment) : Option Nat :=
  let body := (file.drop g.foff).take g.flen
  if shake256 (g.bytes.take 64 ++ body) ≠ g.bytes.drop 64 then some 4
  else match verifyKey s g.keyid with
    | none => some 6
    | some k =>
      if k.revoked then some 6
      else if slhVerify k.key g.bytes ((file.drop g.sigoff).take 29792) then none else some 5

/-- Whether an address lies in a segment of a type. For "the word at LBASE + 12*LENTRY" (R139) the model tests the word's first
byte (DESIGN CHOICE, log entry 85). -/
def inSegment (gs : List Segment) (type a : Nat) : Bool := gs.any fun g => g.type = type && g.vaddr ≤ a && a < g.vaddr + g.msize

/-- R139: a variant entry; none where it is refused with KERNEL. -/
def variantOf (gs : List Segment) (bs : List Byte) : Option Variant :=
  let f := fun (o n : Nat) => fieldAt bs o n
  let v : Variant := { vcnt := f 0 2, groups := f 2 2, scratch := f 4 4, priv := f 8 2, accrows := f 10 2, bslots := f 12 1, scalekb := f 13 1
                       msec := f 14 1 % 2 = 1, sentry := BitVec.ofNat 52 (f 16 8), lbase := BitVec.ofNat 52 (f 24 8), lentry := f 32 4
                       mentry := BitVec.ofNat 52 (f 40 8), breload := (List.range 16).map fun b => f (48 + b) 1 }
  let range := v.vcnt % 8 = 0 && 8 ≤ v.vcnt && v.vcnt ≤ 248 && 1 ≤ v.groups && v.groups ≤ 32 && v.scratch % 16384 = 0 && v.scratch ≤ 917504 &&
    v.priv % 32 = 0 && 32 ≤ v.priv && v.priv ≤ 16384 && v.accrows % 128 = 0 && v.accrows ≤ 2048 && v.bslots % 8 = 0 && v.bslots ≤ 128 &&
    v.scalekb % 4 = 0 && v.scalekb ≤ 64 && f 14 1 < 2 && f 15 1 = 0 && f 36 4 = 0 && v.breload.all fun b => b ≤ v.groups + 1
  let matrix := if v.msec then f 40 8 ≠ 0 && inSegment gs 3 (f 40 8) else v.accrows = 0 && v.bslots = 0 && v.scalekb = 0 && f 40 8 = 0
  if range && matrix && f 16 8 % 4 = 0 && f 24 8 % 4 = 0 && inSegment gs 1 (f 16 8) && inSegment gs 2 (f 24 8) &&
      inSegment gs 2 (f 24 8 + 12 * v.lentry) then some v else none

/-- R140: a switch-point record with its live maps; none where it is refused with SWITCH. -/
def switchOf (gs : List Segment) (vs : List Variant) (tab bs : List Byte) : Option SwitchPoint :=
  let f := fun (o n : Nat) => fieldAt bs o n
  let n := f 0 2
  let off := f 4 4
  let map := (List.range vs.length).map fun v => (List.range n).map fun i => fieldAt tab (off + v * n + i) 1
  let rsv := f 2 2 ≠ 0 || f 8 8 ≠ 0 || (List.range 4).any fun v => vs.length ≤ v && f (16 + 16 * v) 16 ≠ 0
  let pcs := (List.range vs.length).all fun v => f (16 + 16 * v) 8 % 4 = 0 && f (24 + 16 * v) 8 % 4 = 0 &&
    inSegment gs 1 (f (16 + 16 * v) 8) && inSegment gs 2 (f (24 + 16 * v) 8)
  let maps := (map.zip vs).all fun (m, v) => m.all (· < v.vcnt) && m.eraseDups.length = m.length
  if rsv || 248 < n || tab.length < off + vs.length * n || !pcs || !maps then none
  else some { nlive := n, spc := (List.range vs.length).map fun v => BitVec.ofNat 52 (f (16 + 16 * v) 8)
              lpc := (List.range vs.length).map fun v => BitVec.ofNat 52 (f (24 + 16 * v) 8), map := map }

/-- Every element by a function, or the code of the first that fails. -/
def allOr {α β : Type} (code : Nat) (f : α → Option β) : List α → Except Nat (List β)
  | [] => .ok []
  | x :: r =>
    match f x, allOr code f r with
    | none, _ => .error code
    | some _, .error e => .error e
    | some v, .ok l => .ok (v :: l)

/-- R138-R140: one kernel header. -/
def kernelFrom (gs : List Segment) (tab : List Byte) (base k : Nat) : Except Nat Kernel :=
  let o := 64 * (k + 1)
  let w := fun (i : Nat) => fieldAt tab (o + 8 * i) 8
  let nvar := bits (w 0) 47 40
  let nsw := bits (w 0) 31 16
  let vt := bits (w 1) 63 32
  let sp := bits (w 1) 31 0
  let depth := (List.range 8).map fun q => w 2 / 256 ^ q % 256
  let bindings := (List.range 8).map fun q => w 3 / 256 ^ q % 256
  let badBind := fun (b : Nat) => b / 64 = 3 || (b / 64 = 1 && (8 ≤ b % 64 || depth.getD (b % 64) 0 = 0))
  let bad := tab.length < o + 64 || bits (w 0) 63 48 ≠ 1 || nvar = 0 || 4 < nvar || bits (w 0) 39 32 ≠ 0 || 4096 < nsw || bits (w 0) 15 8 ≠ 0 ||
    vt % 64 ≠ 0 || tab.length < vt + 64 * nvar || sp % 16 ≠ 0 || (nsw = 0 && sp ≠ 0) || (nsw ≠ 0 && tab.length < sp + 80 * nsw) ||
    depth.any (16 < ·) || bindings.any badBind || bits (w 4) 63 32 ≠ 0 || tab.length ≤ bits (w 4) 31 0 || w 5 ≠ 0 || w 6 ≠ 0 || w 7 ≠ 0 ||
    bits (w 0) 5 0 ≠ 0
  if bad then .error 8
  else match allOr 8 (fun v => variantOf gs ((tab.drop (vt + 64 * v)).take 64)) (List.range nvar) with
    | .error e => .error e
    | .ok vs =>
      if vs.any fun v => 48 < footprint v.vcnt v.priv then .error 9
      else match allOr 10 (fun n => switchOf gs vs tab ((tab.drop (sp + 80 * n)).take 80)) (List.range nsw) with
        | .error e => .error e
        | .ok sw => .ok { addr := BitVec.ofNat 52 (base + o), compat := bit (w 0) 7, draft := bit (w 0) 6, variants := vs, qdepth := depth
                          qbind := bindings.map (BitVec.ofNat 8), swpts := sw }

def kernelsFrom (gs : List Segment) (tab : List Byte) (base : Nat) : List Nat → Except Nat (List Kernel)
  | [] => .ok []
  | k :: ks =>
    match kernelFrom gs tab base k with
    | .error e => .error e
    | .ok x => match kernelsFrom gs tab base ks with
      | .error e => .error e
      | .ok l => .ok (x :: l)

/-- R138: the kernel table of an object. An offset lies outside the segment when it lies outside its MSIZE bytes, zero padding
included (DESIGN CHOICE, log entry 86). -/
def kernelTable (gs : List Segment) (file : List Byte) (ktab : Nat) : Except Nat (List Kernel) :=
  match gs[ktab]? with
  | none => .ok []
  | some g =>
    let tab := padTo g.msize ((file.drop g.foff).take g.flen)
    let n := fieldAt tab 0 4
    if n = 0 || 4096 < n || (tab.drop 4).take 60 ≠ List.replicate 60 0#8 then .error 8
    else kernelsFrom gs tab g.vaddr (List.range n)

/-- A physical page that the loader takes: the manual does not say which, so it is a free value. -/
def takeFrame (s : State) : State × Nat :=
  let (v, s) := s.free
  (s, v.toNat % 2 ^ 35 * 4096)

/-- R53, R54: a leaf entry for a page of 4 KiB, with the table pages it needs. -/
def mapPage (s : State) (va leaf : Nat) : Nat → Nat → State
  | level, table =>
    let idx := if level = 4 then bits va 51 48 else bits va (20 + 9 * level) (12 + 9 * level)
    let epa := table + 8 * idx
    match level with
    | 0 => performWrite s epa (bytesOf 8 leaf)
    | l + 1 =>
      let p := pteOf (memNat s epa 8)
      if p.v then mapPage s va leaf l p.pa
      else
        let (s, f) := takeFrame s
        let s := performWrite s f (List.replicate 4096 0#8)
        mapPage (performWrite s epa (bytesOf 8 (1 + f / 4096 * 2 ^ 20))) va leaf l f

/-- R137, R48: a segment mapped and filled; the ordering kind, cache policy and partition of its pages are not the manual's,
so they are free values. -/
def mapSegment (s : State) (x : Ctx) (file : List Byte) (g : Segment) : State :=
  let body := (file.drop g.foff).take g.flen
  (pagesOf g).foldl (fun s va =>
    let (s, f) := takeFrame s
    let (v, s) := s.free
    let leaf := 3 + 8 * g.perm + 2 ^ 8 * (v.toNat % 3) + 2 ^ 10 * (v.toNat / 4 % 3) + 2 ^ 13 * (v.toNat / 16 % 16) + f / 4096 * 2 ^ 20
    mapPage (performWrite s f (padTo 4096 (body.drop (va - g.vaddr)))) va leaf 4 x.desc.ptroot) s

/-- LOADOBJ (R137). -/
def loadObject (s : State) (x : Ctx) (r : LoadReq) : Served :=
  loadRead s r.ctx r.addr 64 fun s h =>
    let f := fun (o n : Nat) => fieldAt h o n
    let nseg := f 6 2
    let tab := f 8 8
    if f 0 4 ≠ 0x314F5041 || f 4 2 ≠ 1 || nseg = 0 || 256 < nseg || tab % 8 ≠ 0 || f 16 8 ≠ r.len || f 28 36 ≠ 0 then .done s 1
    else if r.len < tab + 128 * nseg then .done s 3
    else loadRead s r.ctx r.addr r.len fun s file =>
      let gs := (List.range nseg).map fun i => segmentOf ((file.drop (tab + 128 * i)).take 128)
      let entry := (gs.zipIdx).findSome? fun (g, i) => segmentCheck s x r.len (gs.take i) g
      let ktab := f 24 4
      let noTable := ktab ≠ 0xFFFFFFFF && !((gs[ktab]?).any fun g => g.type = 6)
      match entry with
      | some e => .done s e
      | none =>
        if noTable then .done s 2
        else match gs.findSome? (segmentVerify s file) with
          | some e => .done s e
          | none => match kernelTable gs file ktab with
            | .error e => .done s e
            | .ok ks =>
              let s := gs.foldl (fun s g => extend s r.ctx (g.bytes.drop 64)) s
              let s := gs.foldl (fun s g => mapSegment s x file g) s
              .done ((dropCode s).modCtx r.ctx fun x => { x with kernels := x.kernels ++ ks }) 0

/-- The operands an operator reads, and its latency (R284). -/
def opArity (o : Nat) : Nat :=
  if o = 0 then 0
  else if o = 1 || (0x17 ≤ o && o ≤ 0x1C) || o = 0x1E then 1
  else if o = 0x0F || o = 0x12 || o = 0x20 then 3
  else 2
def opLatency (o : Nat) : Nat :=
  match o with
  | 0 => 0
  | 4 | 0x13 | 0x14 | 0x15 | 0x16 | 0x1A | 0x1B | 0x1C => 2
  | 0x10 | 0x11 | 0x12 => 4
  | 0x17 | 0x18 | 0x19 => 12
  | _ => 1

/-- R285: whether a selector may stand in a cell (its number), or outside the array. -/
def selOk (i : Image) (cell : Option Nat) (c : Nat) : Bool :=
  if c < 64 then i.opc c ≠ 0 && (match cell with | some n => c / 8 < n / 8 | none => true)
  else if c < 80 then c - 64 ≤ i.inw
  else if c = 81 || c = 82 then cell.isSome
  else c < 85 || (c ≤ 100 && c - 85 < i.rwords)

/-- R291 IFORMAT, for a header that has been read. -/
def imageFormat (i : Image) : Bool :=
  let f := i.field
  f 0 4 = 0x4D495349 && f 4 2 = 1 && i.role ≤ 4 && f 7 1 < 4 && i.inw ≤ 15 && i.outw ≤ 15 && i.rwords ≤ 16 && 1 ≤ i.maxpass && i.maxpass ≤ 64 &&
  2 ≤ f 12 2 && f 12 2 ≤ 1024 && 1 ≤ f 14 1 && f 14 1 ≤ 16 && i.outkind ≤ 2 && !(i.outkind = 1 && 5 < i.outw) && f 17 7 = 0 && f 34 14 = 0 &&
  f 60 4 = 0 && f 96 96 = 0 && (if i.outkind = 1 then f 32 1 < 64 && f 33 1 < 8 else f 24 10 = 0) && f 48 4 % 8 = 0 && 1408 ≤ f 48 4 &&
  f 56 4 = f 48 4 + 29792

/-- R291 ITABLE (R283, R285, R289). -/
def imageTable (i : Image) : Bool :=
  let f := i.field
  let cells := (List.range 64).all fun c =>
    let o := i.opc c
    let m := i.mode c
    o ≤ 0x20 && f (258 + 12 * c) 2 = 0 && m < 64 && f (1027 + 4 * c) 1 = 0 && (o = 0x1C || o = 0x1D || m / 4 % 8 = 0) &&
    ((0x1E ≤ o && o ≤ 0x20) || !(bit m 5)) && (o ≠ 0 || m % 4 = 0) &&
    (List.range 3).all fun k => if k < opArity o then selOk i (some c) (i.sel c k) else i.sel c k = 83
  let outs := (List.range 16).all fun w => if w ≤ i.outw then selOk i none (f (64 + w) 1) else f (64 + w) 1 = 83
  let rs := (List.range 16).all fun w => if w < i.rwords then selOk i none (f (80 + w) 1) else f (80 + w) 1 = 83
  let mem := (List.range 8).all fun m =>
    f (1280 + 16 * m) 1 < 2 && f (1281 + 16 * m) 3 = 0 && f (1284 + 16 * m) 4 % 4 = 0 && f (1288 + 16 * m) 4 % 4 = 0 &&
    f (1288 + 16 * m) 4 ≤ 4096 && f (1284 + 16 * m) 4 + f (1288 + 16 * m) 4 ≤ f 48 4 && f (1292 + 16 * m) 4 = 0
  let state := (List.range 64).any fun c => i.mode c % 4 ≠ 0 || i.opc c = 0x1D
  let writable := (List.range 64).all fun c => i.opc c ≠ 0x1D || f (1280 + 16 * (i.mode c / 4 % 8)) 1 % 2 = 1
  cells && outs && rs && selOk i none (f 16 1) && mem && writable && state == i.stateful

/-- R298: the constraints of a role that the loader checks. -/
def imageRole (i : Image) : Bool :=
  match i.role with
  | 1 => i.outkind ≠ 0
  | 2 => i.inw = 8 && i.outw = 3 && i.outkind = 0
  | 3 => i.outkind = 0
  | 4 => i.ordered && i.outkind = 2
  | _ => true

/-- R291: when each cell is ready, cell by cell. -/
def readyCells (i : Image) : List Nat → List Nat → List Nat
  | [], r => r
  | c :: cs, r =>
    let src := fun (k : Nat) => if k < opArity (i.opc c) && i.sel c k < 64 then r.getD (i.sel c k) 0 else 0
    readyCells i cs (r ++ [max (src 0) (max (src 1) (src 2)) + opLatency (i.opc c)])
def imageLatency (i : Image) : Nat :=
  let r := readyCells i (List.range 64) []
  let sels := (List.range (i.outw + 1)).map (fun w => i.field (64 + w) 1) ++ (List.range i.rwords).map (fun w => i.field (80 + w) 1) ++ [i.field 16 1]
  sels.foldl (fun m c => if c < 64 then max m (r.getD c 0) else m) 0 + 2

/-- R291 IENVELOPE. -/
def imageEnvelope (i : Image) : Bool :=
  let users := (List.range 8).map fun m =>
    ((List.range 64).filter fun c => (i.opc c = 0x1C || i.opc c = 0x1D) && i.mode c / 4 % 8 = m).length
  i.field 12 2 = imageLatency i && (users.foldl max 0 + 1) / 2 ≤ i.field 14 1 && !(i.rwords = 0 && 1 < i.maxpass) &&
  !(i.maxpass = 1 && i.field 16 1 ≠ 83)

/-- R291: the checks of an image that has been read whole; none where all pass. -/
def imageCheck (s : State) (i : Image) : Option Nat :=
  let sig := i.field 48 4
  if !(imageFormat i) then some 0x10
  else if !(imageTable i) then some 0x11
  else if !(imageRole i) then some 0x12
  else if !(imageEnvelope i) then some 0x13
  else if shake256 (i.bytes.take 192 ++ (i.bytes.take sig).drop 256) ≠ i.meas then some 0x14
  else match verifyKey s (i.field 52 4) with
    | none => some 0x16
    | some k =>
      if !(slhVerify k.key (i.bytes.take 256) ((i.bytes.drop sig).take 29792)) then some 0x15
      else if k.revoked then some 0x16 else none

/-- R293: whether an image may be bound to an island for a context. -/
def bindingOk (s : State) (x : Ctx) (n : Nat) (img : Image) : Bool :=
  let i := s.island n
  let other := i.ctxs.filter (· ≠ x.id)
  let imgOf := fun (c : BitVec 8) => (s.ctx? c).bind fun y => boundImage s y n
  n < 32 && i.state ≠ 3 && !i.detected && ((boundImage s x n).all fun j => j.meas = img.meas) &&
  (other.all fun c => (imgOf c).all fun j => j.meas = img.meas && !j.stateful && !img.stateful) &&
  (i.ctxs.contains x.id || i.ctxs.length < 4) &&
  !(onCompute s x.id && i.image.any (·.meas ≠ img.meas) && i.ctxs.any fun c => c ≠ x.id && onCompute s c)

/-- R291-R293: a binding that passes every check; `pas` is the port-table entry's place. -/
def bindPort (s : State) (x : Ctx) (r : LoadReq) (img : Image) (pas : List Nat) : State :=
  let n := r.island
  let s := extend s x.id img.meas
  let k := s.images.length
  let same := (s.island n).image.any (·.meas = img.meas)
  let fresh := img.stateful && (s.island n).ctxs.isEmpty
  let s := { s with images := s.images ++ [img] }
  let s := if onCompute s x.id then (if !same || fresh then loadImage s n img else s)
    else if same && fresh then s.modIsland n fun i => { i with stale := true } else s
  let s := s.modIsland n fun i => { i with ctxs := if i.ctxs.contains x.id then i.ctxs else i.ctxs ++ [x.id] }
  let s := s.modCtx x.id fun x => { x with ports := x.ports ++ [⟨r.port, n, img.role, k⟩] }
  writePas s pas (bytesOf 8 (2 ^ 63 + 2 ^ 40 * n + 2 ^ 32 * img.role + k % 2 ^ 32))

/-- BINDISL (R291). -/
def bindIsland (s : State) (x : Ctx) (r : LoadReq) : Served :=
  if 64 ≤ r.port then .done s 0x20
  else loadRead s r.ctx r.addr 256 fun s h =>
    if !(imageFormat ⟨h, []⟩) then .done s 0x10
    else loadRead s r.ctx r.addr (fieldAt h 56 4) fun s bytes =>
      match spanOf s r.ctx .write false (x.desc.porttab + BitVec.ofNat 64 (8 * r.port)) 8 with
      | (s, .error d) => match unitHold s r.ctx .write 7 0 d with
        | (s, .wait id) => .wait s id
        | (s, .fail) => .done s 0x23
      | (s, .ok pas) =>
        let img : Image := ⟨bytes, (bytes.drop 192).take 64⟩
        match imageCheck s img with
        | some e => .done s e
        | none =>
          if x.ports.any (·.port = r.port) || !(bindingOk s x r.island img) then .done s 0x17
          else .done (bindPort s x r img pas) 0

/-- RELPORT (R292, R333). -/
def releasePort (s : State) (x : Ctx) (r : LoadReq) : Served :=
  if 64 ≤ r.port then .done s 0x20
  else match x.ports.find? (·.port = r.port) with
    | none => .done s 0x22
    | some p =>
      match unitWrite s r.ctx 7 0 (x.desc.porttab + BitVec.ofNat 64 (8 * r.port)) (bytesOf 8 0) with
      | (s, .error (.wait id)) => .wait s id
      | (s, .error .fail) => .done s 0x23
      | (s, .ok ()) =>
        let rest := x.ports.filter (·.port ≠ r.port)
        let s := s.modCtx x.id fun x => { x with ports := rest }
        .done (if rest.any (·.island = p.island) then s
               else s.modIsland p.island fun i => { i with ctxs := i.ctxs.filter (· ≠ x.id) }) 0

/-- n bytes that a request names by a physical address: with an uncorrectable error among them it ends with UNREADABLE
(assumption 35). -/
def loadPhys (s : State) (pa n : Nat) (f : State → List Byte → Served) : Served :=
  match physRead s pa n with
  | (s, some bs) => f s bs
  | (s, none) => .done s 0x23

/-- ATTEST (R335): the report at OUT. -/
def attestTo (s : State) (x : Ctx) (r : LoadReq) : Served :=
  loadPhys s r.addr.toNat 64 fun s nonce =>
    let head := x.att ++ nonce ++ bytesOf 1 x.id.toNat ++ bytesOf 7 0 ++ bytesOf 8 x.attN ++ bytesOf 16 Config.deviceId.toNat
    .done (physWrite s r.out (head ++ bytesOf 29792 (Config.deviceSign head).toNat)) 0

/-- GENKEY (R334). -/
def generateKey (s : State) (r : LoadReq) : Served :=
  .done { s with saveKeys := (r.port, Config.randomKey s.fresh) :: s.saveKeys.filter (·.1 ≠ r.port), fresh := s.fresh + 1 } 0

/-- A signed command blob, and whether its signature verifies under a fused key that `signer` allows (R334, R344). -/
def blobRead (s : State) (r : LoadReq) (f : State → List Byte → Served) : Served := loadPhys s r.addr.toNat Config.blobBytes f
def blobGood (s : State) (b : List Byte) (signer : Nat → Bool) : Bool :=
  let k := Config.blobSigner b
  signer k && k < 16 && keyGood s k && (verifyKey s k).any fun v => slhVerify v.key (Config.blobBody b) (Config.blobSignature b)

/-- KEYINSTALL (R334): entries 16-63; REVOKED is sticky. -/
def installKey (s : State) (r : LoadReq) : Served :=
  blobRead s r fun s b =>
    let k := Config.blobEntry b
    if !(blobGood s b fun _ => true) then .done s 5
    else if k < 16 || 64 ≤ k then .done s 0x20
    else .done { s with verify := listSet s.verify k ⟨true, (s.verify[k]?).any (·.revoked), Config.blobKey b⟩ } 0

/-- KEYREVOKE (R334). -/
def revokeKey (s : State) (r : LoadReq) : Served :=
  blobRead s r fun s b =>
    let k := Config.blobEntry b
    if !(blobGood s b fun _ => true) then .done s 5
    else match s.verify[k]? with
      | none => .done s 0x20
      | some v => .done { s with verify := listSet s.verify k { v with revoked := true } } 0

/-- Where the slot at the head of the loader queue lies, if there is one (R332), and its request. -/
def headSlot? (s : State) : Option Nat :=
  let r := s.regs.rings.getD 0 Ring.reset
  let lg := r.log2.toNat
  if lg < 4 || 16 < lg || r.head = r.tail then none else some (r.base.toNat + 64 * (r.head.toNat % 2 ^ lg))
def headRequest? (s : State) : Option LoadReq := (headSlot? s).map fun pa => requestOf (memBytes s pa 64)
/-- The ring's HEAD past a request. -/
def passRequest (s : State) : State :=
  s.modRegs fun g => { g with rings := listSet g.rings 0 { g.rings.getD 0 Ring.reset with head := (g.rings.getD 0 Ring.reset).head + 1 } }

/-- R333, R330: a request ends: its completion word, vector 1, and the ring's HEAD. -/
def endRequest (s : State) (r : LoadReq) (code : Nat) : State :=
  sendMsi (passRequest (physWrite { s with loadDead := false } r.comp (bytesOf 8 (2 ^ 63 + code)))) 1

/-- One turn of the loader engine (R333): the head request is served where it is of the given kind, or of none. A slot that
an uncorrectable error has reached names no request: it is logged and passed over (R345; assumption 35). -/
def loaderTurn (s : State) (kind : Nat) (f : State → LoadReq → Served) : State :=
  if s.loadWait.isSome then s
  else match headSlot? s with
    | none => s
    | some pa =>
      if poisoned s pa 64 then passRequest (logPoison s pa)
      else
      let r := requestOf (memBytes s pa 64)
      let known := 1 ≤ r.kind && r.kind ≤ 8
      if known && r.kind ≠ kind then s
      else
        let s := allocateIn s 0 false pa 64
        if !known || r.bad then endRequest s r 0x20
        else if s.loadDead then endRequest s r 0x23
        else match f s r with
          | .done s code => endRequest s r code
          | .wait s id => { s with loadWait := id.map fun i => (r.ctx, i) }

/-- A request on a context (R333). -/
def onContext (f : State → Ctx → LoadReq → Served) (s : State) (r : LoadReq) : Served :=
  match s.ctx? r.ctx with
  | none => .done s 0x21
  | some x => f s x r

def execLoadobj (s : State) : Out := event (loaderTurn s 1 (onContext loadObject))
def execBindisl (s : State) : Out := event (loaderTurn s 2 (onContext bindIsland))
def execRelport (s : State) : Out := event (loaderTurn s 3 (onContext releasePort))
def execAttest (s : State) : Out := event (loaderTurn s 4 (onContext attestTo))
def execGenkey (s : State) : Out := event (loaderTurn s 5 generateKey)
def execKeyinstall (s : State) : Out := event (loaderTurn s 6 installKey)
def execKeyrevoke (s : State) : Out := event (loaderTurn s 7 revokeKey)

end Sys2Proof.Machine
end

