-- ==== Sys2Proof/Machine/Power.lean ====
section
/-! DEFINITION. Bring-up (R336), resets (R343), power states (R337), the power image (R338) and the life cycle (R344). -/

namespace Sys2Proof.Machine

open Sys2Proof

/-- PWRSTAT (R338); COLDFAIL stays until a reset (R347). -/
def setPwrstat (s : State) (code : Nat) : State :=
  if s.regs.pwrstat = 6 then s else s.modRegs fun r => { r with pwrstat := BitVec.ofNat 64 code }

/-- R343: everything on chip wiped: what is left is GDDR7 and host memory with what the host has issued to it, the always-on
domain with the key store's verify table (R334, R337), the register writes held (R336), and the model's own fields. -/
def wipe (s : State) : State :=
  { State.reset with
    mem := s.mem, poison := s.poison, cycle := s.cycle, agenda := s.agenda, choices := s.choices, fresh := s.fresh
    regs := { Regs.reset with pimgaddr := s.regs.pimgaddr, pranges := s.regs.pranges }
    hostPend := s.hostPend, heldWrites := s.heldWrites
    verify := s.verify, lifeCycle := s.lifeCycle, msix := s.msix, alwaysOn := s.alwaysOn, rc := s.rc, powerImage := s.powerImage
    demand := s.demand }

/-- R336: whether the firmware verifies and the channels train; a channel that fails to train is a fatal fault (R347). Once
step 5 completes the register writes held are performed. -/
def bringUp (s : State) : State :=
  if Config.firmwareVerifies && Config.channelsTrain then
    { s with agenda := s.heldWrites.map Turn.event ++ s.agenda, heldWrites := [] }
  else
    let s := if Config.firmwareVerifies then logError s 7 7 0 0 0 else s
    { s with booted := false, regs := { s.regs with pwrstat := 6 } }

/-- A warm reset (R343). -/
def warmReset (s : State) : State := bringUp (wipe s)

/-- GDDR7 lists nothing after a loss of power, so it reads as unlisted memory does (assumption 1); host memory stays. -/
def dropGddr (s : State) : State :=
  { s with mem := s.mem.filter fun c => gddrTop ≤ c.1, poison := s.poison.filter fun a => gddrTop ≤ a }

/-- The range list at PRANGES (R338); none where it is malformed. -/
def powerRanges (s : State) : Option (List (Nat × Nat)) :=
  let at' := s.regs.pranges.toNat
  if at' = 0 then some []
  else
    let n := memNat s at' 4
    let rs := (List.range (min n 64)).map fun k => (memNat s (at' + 64 + 16 * k) 8, memNat s (at' + 72 + 16 * k) 8)
    let one := fun (r : Nat × Nat) => r.1 % 4096 = 0 && r.2 % 4096 = 0 && r.2 ≠ 0 && r.1 + r.2 ≤ gddrTop
    let apart := fun (a b : Nat × Nat) => a.1 + a.2 ≤ b.1 || b.1 + b.2 ≤ a.1
    let disjoint := (rs.zipIdx).all fun (a, i) => (rs.drop (i + 1)).all (apart a)
    if at' % 64 ≠ 0 || 64 < n || memNat s (at' + 4) 60 ≠ 0 || !(rs.all one) || !disjoint then none else some rs

/-- n bytes that the manual leaves open, and the state after drawing them. -/
def freeBytes (s : State) (n : Nat) : List Byte × State :=
  ((List.range n).map fun i => (Config.freeValue (s.fresh + i)).setWidth 8, { s with fresh := s.fresh + n })

/-- The header of a power image with this counter, the rest of it open. -/
def powerHeader (s : State) (rc : W64) : List Byte × State :=
  let (h, s) := freeBytes s 64
  (h.take Config.powerCounterAt.val ++ bytesOf 8 rc.toNat ++ h.drop (Config.powerCounterAt.val + 8), s)
def powerIv (rc : W64) : List Nat := natsOf (bytesOf 8 rc.toNat ++ bytesOf 4 0)
def powerKeyBytes : List Nat := natsOf (bytesOf 32 Config.powerKey.toNat)

/-- What a power image's body holds of the key store and the contexts (R338), in a layout of the model's (assumption 26): the
save keys, then each context's number, state, attestation record, save counter and descriptor (R305). -/
def keyBytes (ks : List (Nat × BitVec 256)) : List Byte :=
  bytesOf 2 ks.length ++ ks.flatMap fun (slot, k) => bytesOf 1 slot ++ bytesOf 32 k.toNat
def keysFrom (bs : List Byte) : List (Nat × BitVec 256) :=
  (List.range (fieldAt bs 0 2)).map fun i => (fieldAt bs (2 + 33 * i) 1, BitVec.ofNat 256 (fieldAt bs (3 + 33 * i) 32))
def descBytes (d : Desc) : List Byte :=
  let w := fun (v : W64) => bytesOf 8 v.toNat
  bytesOf 8 d.ptroot ++ bytesOf 1 d.flags.toNat ++ bytesOf 1 d.keyslot ++ bytesOf 2 d.d1 ++ bytesOf 2 d.d2 ++ bytesOf 2 0 ++
  w d.tqtab ++ w d.porttab ++ w d.nettab ++ bytesOf 2 d.netcount ++ bytesOf 2 d.mrcount ++ bytesOf 4 0 ++ w d.mrtab ++ w d.tfbase ++
  w d.hspc ++ w d.hlbase ++ w d.fqbase ++ bytesOf 1 d.fqlog2 ++ bytesOf 7 0 ++ w d.savebase ++ bytesOf 8 d.savelen ++
  d.bps.flatMap w ++ (d.wps.flatMap fun (a, b) => w a ++ w b) ++ bytesOf 80 0
def ctxBytes (x : Ctx) : List Byte :=
  bytesOf 1 x.id.toNat ++ bytesOf 1 (if x.st = .undefined then 0 else 1) ++ padTo 64 x.att ++ bytesOf 8 x.attN ++ bytesOf 8 x.counter ++ descBytes x.desc
def ctxsBytes (xs : List Ctx) : List Byte := bytesOf 2 xs.length ++ xs.flatMap ctxBytes
/-- A context as its bytes give it; what the device keeps beside the image stands in `kept` (assumption 26). -/
def ctxFrom (kept : List Ctx) (bs : List Byte) : Option Ctx :=
  let c := BitVec.ofNat 8 (fieldAt bs 0 1)
  (descOf (fun _ => true) (bs.drop 82)).map fun d =>
    { (kept.find? (·.id = c)).getD (boundCtx c d) with
      st := if fieldAt bs 1 1 = 0 then .undefined else .defined
      desc := d, att := (bs.drop 2).take 64, attN := fieldAt bs 66 8, counter := fieldAt bs 74 8 }
def ctxsFrom (kept : List Ctx) (bs : List Byte) : List Ctx :=
  (List.range (fieldAt bs 0 2)).filterMap fun i => ctxFrom kept ((bs.drop (2 + 338 * i)).take 338)

/-- The bytes of a body before its ranges: the system cores' part, then those above. -/
def bodyFront (s : State) : List Byte × State :=
  let (front, s) := freeBytes s Config.imageOverhead
  (front ++ keyBytes s.saveKeys ++ ctxsBytes s.ctxs, s)
def frontLength (s : State) : Nat := Config.imageOverhead + 4 + 33 * s.saveKeys.length + 338 * s.ctxs.length

/-- R338: RC steps, and the image is sealed and written at PIMGADDR: the header, the body, the tag. -/
def writeImage (s : State) (rs : List (Nat × Nat)) : State :=
  let s := { s with rc := s.rc + 1 }
  let (head, s) := powerHeader s s.rc
  let (front, s) := bodyFront s
  let body := front ++ rs.flatMap fun (a, n) => memBytes s a n
  let ct := gcmCrypt powerKeyBytes (powerIv s.rc) (natsOf body)
  let tag := gcmTag powerKeyBytes (powerIv s.rc) (natsOf head) ct
  let s := performWrite s s.regs.pimgaddr.toNat (head ++ bytesOfNats ct ++ bytesOfNats tag)
  { s with powerImage := some ⟨frontLength s, s.ctxs, s.images, rs⟩ }

/-- PWRCTL is written by the host and system software (R328). -/
def powerWriter : Writer → Bool
  | .other => false
  | _ => true
def powerCommand (s : State) (wr : Writer) (f : State → State) : State := if powerWriter wr then f s else logDrop s 0x60000

/-- The first byte with an uncorrectable error that SAVE would read: of the list at PRANGES, or of a range it names. -/
def saveSpoiled (s : State) : Option Nat :=
  let at' := s.regs.pranges.toNat
  let list := if at' = 0 then [] else [(at', 64 + 16 * min (memNat s at' 4) 64)]
  s.poison.find? fun p => (list ++ (powerRanges s).getD []).any fun (a, n) => a ≤ p && p < a + n

/-- SAVE (R338). An uncorrectable error in what it reads is logged, and it writes nothing and reports RANGES (R345; assumption
35). -/
def powerSave (s : State) : State :=
  if s.ctxs.any fun x => onCompute s x.id then setPwrstat s 1
  else match saveSpoiled s, powerRanges s with
    | some a, _ => setPwrstat (logPoison s a) 7
    | none, none => setPwrstat s 7
    | none, some rs =>
      if 2 ^ 29 < 64 + frontLength s + (rs.map (·.2)).foldl (· + ·) 0 + 16 then setPwrstat s 2
      else setPwrstat (writeImage s rs) 0

def execPowerSave (wr : Writer) (s : State) : Out := event (powerCommand s wr powerSave)
/-- OFF (R338): the platform may now remove power. -/
def execPowerOff (wr : Writer) (s : State) : Out := event (powerCommand s wr fun s => setPwrstat s 0)
/-- RESET (R338, R343). -/
def execPowerReset (wr : Writer) (s : State) : Out := event (powerCommand s wr warmReset)

/-- A device without power hears nothing. -/
def whilePowered (f : State → State) (s : State) : State := if s.power = .d3cold then s else f s
/-- PERST# (R343). -/
def execPerst (s : State) : Out := event (whilePowered warmReset s)
/-- A function-level reset (R343). -/
def execFunctionLevelReset (s : State) : Out := event (whilePowered warmReset s)

/-- POWER_REMOVAL (R337): D3cold; the always-on domain may lose its supply with the rest. -/
def execPowerRemoval (alwaysOn : Bool) (s : State) : Out :=
  event { s with power := .d3cold, alwaysOn := s.alwaysOn && alwaysOn, booted := false }

/-- A body's ranges put back (R338). -/
def restoreRanges (s : State) : List (Nat × Nat) → List Byte → State
  | [], _ => s
  | (a, n) :: rs, bs => restoreRanges (performWrite s a (bs.take n)) rs (bs.drop n)

/-- The save keys and the contexts of an image's body come back, each context with its bindings (R293, R338). -/
def restoreCtxs (s : State) (p : PowerImage) (body : List Byte) : State :=
  let own := body.drop Config.imageOverhead
  let keys := keysFrom own
  let s := { s with saveKeys := keys, ctxs := ctxsFrom p.ctxs (own.drop (2 + 33 * keys.length)), images := p.images }
  let bind := fun (c : BitVec 8) (i : Island) => if i.ctxs.contains c then i else { i with ctxs := i.ctxs ++ [c] }
  s.ctxs.foldl (fun s x => x.ports.foldl (fun s q => s.modIsland q.island (bind x.id)) s) s

/-- R338: the resume, after bring-up. An uncorrectable error in the image is logged, and the tag does not verify (R345). -/
def powerResume (s : State) : State :=
  let at' := s.regs.pimgaddr.toNat
  let len := match s.powerImage with
    | some p => p.front + (p.ranges.map (·.2)).foldl (· + ·) 0
    | none => 0
  let head := memBytes s at' 64
  match s.poison.find? fun p => at' ≤ p && p < at' + 80 + len with
  | some a => setPwrstat (logPoison s a) 4
  | none =>
  if fieldAt head Config.powerCounterAt.val 8 ≠ s.rc.toNat then setPwrstat s 3
  else
    let ct := natsOf (memBytes s (at' + 64) len)
    match s.powerImage with
    | none => setPwrstat s 4
    | some p =>
      if bytesOfNats (gcmTag powerKeyBytes (powerIv s.rc) (natsOf head) ct) ≠ memBytes s (at' + 64 + len) 16 then setPwrstat s 4
      else
        let body := bytesOfNats (gcmCrypt powerKeyBytes (powerIv s.rc) ct)
        let s := restoreCtxs (restoreRanges s p.ranges (body.drop p.front)) p body
        sendMsi (setPwrstat { s with rc := s.rc + 1, powerImage := none } 0) 6

/-- POWER_GOOD (R336, R338, R343): a cold reset, then the resume where there is an image; an always-on domain that lost
its supply has lost its counter and where the image is. -/
def powerGood (s : State) : State :=
  let kept := s.alwaysOn
  let s := if kept then s
    else { s with alwaysOn := true, rc := 0, powerImage := none, regs := { s.regs with pimgaddr := 0, pranges := 0 } }
  let s := warmReset (dropGddr { s with heldWrites := [], hostPend := [] })
  if !s.booted then s
  else if !kept || s.regs.pimgaddr = 0 then setPwrstat s 5
  else powerResume s
def execPowerGood (s : State) : Out := event (powerGood s)

/-- D3HOT_ENTRY (R337): refused with a context on compute; vector 6 for the change of power state (R330). -/
def execD3hotEntry (s : State) : Out :=
  event (
    if s.power != .d0 then s
    else if s.ctxs.any fun x => onCompute s x.id then setPwrstat s 1
    else sendMsi { s with power := .d3hot, selfRefresh := true } 6)

/-- What the compute die loses (R337, R343): the cores' stores and queues, the contexts of their copy engines, the arrays of
islands 0 to 23, the TLBs, the levels of instruction fetch, the dispatcher's place in its cycle, and a self-test with its mode
(R348); the units that self-test has removed stay removed. Islands 24 to 31 and the stacked cache are the
system die's (R3, R280), which keeps its power. -/
def wipeIsland (i : Island) : Island :=
  { Island.reset with state := if i.state = 3 then 3 else 0, detected := i.detected, ctxs := i.ctxs }
def wipeCompute (s : State) : State :=
  { s with
    cores := s.cores.map fun (c : Core) => { Core.reset with inService := c.inService, detected := c.detected }
    islands := (s.islands.take 24).map wipeIsland ++ s.islands.drop 24
    groups := [], blocks := [], copies := [], batches := [], rays := [], tlb := []
    engines := s.engines.filter fun e => 64 ≤ e.ref.engine.toNat
    dispSlot := State.reset.dispSlot
    regs := { s.regs with stBusy := false, stInmode := false }
    chamberTlb := State.reset.chamberTlb, imid := State.reset.imid }

/-- D3HOT_EXIT (R337): the compute die regains power and is wiped; vector 6 (R330). -/
def execD3hotExit (s : State) : Out :=
  event (if s.power = .d3hot then sendMsi { wipeCompute s with power := .d0, selfRefresh := false } 6 else s)

/-- GDDR7_SELF_REFRESH (R337): idle GDDR7 refreshes itself; its contents stay. -/
def execGddr7SelfRefresh (s : State) : Out := event { s with selfRefresh := true }

/-- LCCHANGE (R344): signed by verify entry 0, and only forward. -/
def changeLife (s : State) (r : LoadReq) : Served :=
  blobRead s r fun s b =>
  let t := Config.blobState b
  if !(blobGood s b fun k => k = 0) then .done s 5
  else if t ≤ s.lifeCycle.toNat || 2 < t then .done s 0x20
  else
    let verify := (s.verify.zipIdx).map fun (v, i) => if i < 16 then { v with revoked := false } else ⟨false, false, 0⟩
    let s := { s with mem := s.mem.filter fun c => gddrTop ≤ c.1, poison := s.poison.filter fun a => gddrTop ≤ a }
    .done { s with lifeCycle := BitVec.ofNat 2 t, saveKeys := [], verify := verify, rc := 0, powerImage := none } 0

/-- LCCHANGE ends in a warm reset, after its completion word. -/
def execLcchange (s : State) : Out :=
  event (
    let t := loaderTurn s 8 changeLife
    if t.lifeCycle = s.lifeCycle then t else warmReset t)

end Sys2Proof.Machine
end

