-- ==== Sys2Proof/Machine/SelfTest.lean ====
section
/-! DEFINITION. Errors that units detect (R345-R347), self-test (R347), loop-buffer mode and the test block (R348), and
BLOCK_RETIRE (R32). -/

namespace Sys2Proof.Machine

open Sys2Proof

/-- UNITKIND and UNIT of R346. -/
def unitKind : UnitRef → Nat × Nat
  | .core n => (1, n.toNat)
  | .island n => (2, n.toNat)
  | .cacheSlice n => (3, n.toNat)
  | .bulk n => (4, n.toNat)
  | .l2Slice n => (5, n.toNat)
  | .channel n => (6, n.toNat)
  | .link n => (7, n.toNat)
  | .systemCore n => (8, n.toNat)

/-- The class of an error's log entry (R346): a link's is 3. -/
def errorClass (u : UnitRef) (corrected : Bool) : Nat :=
  match u with
  | .link _ => 3
  | _ => if corrected then 1 else 2

/-- An error during a test shows in the REPLAYs under way that `f` names (R324). -/
def noteLoops (s : State) (f : Group → Loop → Bool) : State :=
  { s with groups := s.groups.map fun g => { g with loop := g.loop.map fun l => { l with err := l.err || f g l } } }
/-- An error in a core under test shows in every REPLAY there, and in the test's result (R348); one in memory, in each loop that
has touched its line. -/
def noteTestError (s : State) (u : UnitRef) (addr : Nat) : State :=
  let testOn := fun (g : Group) => (s.block? (blockOf g.ref)).any (·.test)
  match u with
  | .core c =>
    let s := noteLoops s fun g _ => testOn g && g.ref.core = c
    { s with blocks := s.blocks.map fun b => if b.test && b.ref.core = c then { b with testErr := true } else b }
  | .l2Slice _ | .cacheSlice _ | .channel _ => noteLoops s fun g l => testOn g && l.lines.contains (addr / 128)
  | _ => s

/-- R347: a unit takes no new work until it has been tested. -/
def markDetected (s : State) (u : UnitRef) : State :=
  match u with
  | .core n => s.modCore n.toNat fun c => { c with detected := true }
  | .island n => s.modIsland n.toNat fun i => { i with detected := true }
  | .cacheSlice n => { s with sliceDetected := if s.sliceDetected.contains n.toNat then s.sliceDetected else n.toNat :: s.sliceDetected }
  | .bulk n => { s with bulkDetected := if s.bulkDetected.contains n.toNat then s.bulkDetected else n.toNat :: s.bulkDetected }
  | _ => s

/-- R345-R347: a unit detects an error, which is logged; a corrected one takes no unit out of work (assumption 27). -/
def detectError (s : State) (u : UnitRef) (corrected : Bool) (addr : Nat) : State :=
  let s := noteTestError (logError s (errorClass u corrected) (unitKind u).1 (unitKind u).2 0 addr) u addr
  if corrected then s else markDetected s u

/-- Bytes that become poisoned (R345). -/
def poisonBytes (s : State) (pa n : Nat) : State :=
  { s with poison := ((List.range n).map (pa + ·)).filter (fun a => !(s.poison.contains a)) ++ s.poison }
/-- A cell of a store that becomes poisoned (R345). -/
def spoilCell (s : State) (p : Spot) : State :=
  let add := fun (i : Nat) (l : List Nat) => if l.contains i then l else i :: l
  match p with
  | .vreg r i => s.modGroup r fun g => { g with badV := add i g.badV }
  | .hreg r i => s.modGroup r fun g => { g with badH := add i g.badH }
  | .priv r i => s.modGroup r fun g => { g with badPriv := add i g.badPriv }
  | .pad r i => s.modBlock r fun b => { b with badPad := add i b.badPad }
  | .acc r i => s.modBlock r fun b => { b with badAcc := add i b.badAcc }
  | .bstore r i => s.modBlock r fun b => { b with badB := add i b.badB }
  | .scale r i => s.modBlock r fun b => { b with badScale := add i b.badScale }
  | .cell n i => s.modIsland n fun x => { x with badCells := add i x.badCells }
/-- A thermal event of a unit, in the log's class 6 (R346); what brings one about is left out (00_scope.md: no thermal
behaviour). -/
def logThermal (s : State) (u : UnitRef) : State := logError s 6 (unitKind u).1 (unitKind u).2 0 0

/-- R347: whether a unit holds no work. -/
def unitIdle (s : State) : UnitRef → Bool
  | .core n =>
    (s.blocksOn n.toNat).isEmpty && !(s.engines.any fun e => e.ref.engine.toNat = n.toNat && e.cmds.any fun k => !k.completed)
  | .island n =>
    let i := s.island n.toNat
    i.input.isEmpty && i.flight.isEmpty && i.out.isEmpty && !(s.rays.any fun y => y.island = n.toNat && y.out.isSome)
  | .bulk n => !(s.engines.any fun e => e.ref.engine.toNat = 64 + n.toNat && e.cmds.any fun k => !k.completed)
  | _ => true

/-- Whether a unit has a detected error that has not been tested; the units whose fault is fatal are tested at any time. -/
def unitDetected (s : State) : UnitRef → Bool
  | .core n => (s.core n.toNat).detected
  | .island n => (s.island n.toNat).detected
  | .cacheSlice n => s.sliceDetected.contains n.toNat
  | .bulk n => s.bulkDetected.contains n.toNat
  | _ => true

/-- The unit's error has been tested. -/
def clearDetected (s : State) : UnitRef → State
  | .core n => s.modCore n.toNat fun c => { c with detected := false }
  | .island n => s.modIsland n.toNat fun i => { i with detected := false }
  | .cacheSlice n => { s with sliceDetected := s.sliceDetected.filter (· ≠ n.toNat) }
  | .bulk n => { s with bulkDetected := s.bulkDetected.filter (· ≠ n.toNat) }
  | _ => s

/-- A context's rays of an island are discarded, those whose entry holds the output buffer too: their words resolve, and their
status is open (assumption 23). -/
def loseRays (s : State) (n : Nat) (c : BitVec 8) : State :=
  let lost := s.rays.filter fun y => y.island = n && y.ctx = c
  lost.foldl (fun s y =>
    (rayLost s y).modGroup y.g fun g => { g with traces := g.traces.filterMap (TraceWord.accepted y.id) }) s
/-- R301, R303: a context's records leave an island, and its ports to it are unbound. -/
def unbindIsland (s : State) (n : Nat) (c : BitVec 8) : State :=
  let s := loseRays (purgeIsland s n c) n c
  match s.ctx? c with
  | none => s
  | some x =>
    let gone := x.ports.filter (·.island = n)
    let s := unbindPorts s c x.desc gone
    s.modCtx c fun x => { x with ports := x.ports.filter (·.island ≠ n) }

/-- R347: a unit with a lasting fault leaves service; a fault of a unit that has no substitute is fatal (R346, class 7). -/
def removeUnit (s : State) (u : UnitRef) : State :=
  match u with
  | .core n => s.modCore n.toNat fun c => { c with inService := false }
  | .island n =>
    let cs := (s.island n.toNat).ctxs
    let s := cs.foldl (fun s c => unbindIsland s n.toNat c) s
    s.modIsland n.toNat fun i => { i with state := 3 }
  | .cacheSlice n => { s with slicesOut := n.toNat :: s.slicesOut }
  | .bulk n => { s with bulkOut := n.toNat :: s.bulkOut }
  | _ =>
    let s := s.ctxs.foldl (fun s x => forcedReset s x.id false) s
    logError (s.modRegs fun r => { r with pwrstat := 6 }) 7 (unitKind u).1 (unitKind u).2 0 0

/-- SELF_TEST (R347): three runs, bit k of `errs` an error in run k; the scope table (R62) follows INSERV, and the log
entry is written last. -/
def execSelfTest (u : UnitRef) (errs : BitVec 3) (s : State) : Out :=
  event (
    if !(unitIdle s u) || !(unitDetected s u) then s
    else
      let (k, n) := unitKind u
      let s := clearDetected s u
      if errs = 0 then logError s 4 k n 1 0 else logError (removeUnit s u) 4 k n 2 0)

/-- R348: what ENTER and LEAVE wipe of a core: it holds no block, so its stores are its caches, its TLB and its arbiters. -/
def wipeCore (c : Core) : Core :=
  { c with l1 := [], cc := [], ibuf := Core.reset.ibuf, icache := [], tlb := [], scheds := Core.reset.scheds, lanePtr := []
           array := none, chosen := none, tokens := 0 }

/-- STSTAT's RESULT (R348). -/
def testResult (s : State) (code : Nat) : State := s.modRegs fun r => { r with stResult := BitVec.ofNat 8 code }

/-- A command of STCTL (R348): only the controller's writes count, and none while BUSY. -/
def testCommand (s : State) (wr : Writer) (f : State → State) : State :=
  if wr != .selfTest then logDrop s 0x50000 else if s.regs.stBusy then s else f s

/-- ENTER (R348). -/
def enterTest (s : State) (wr : Writer) (core : BitVec 6) : State :=
  testCommand s wr fun s =>
    let c := core.toNat
    if !(s.blocksOn c).isEmpty || coreTakes s c then testResult s 2
    else
      let s := s.modCore c fun k => { wipeCore k with loopMode := true }
      testResult (s.modRegs fun r => { r with stInmode := true, stCore := core }) 0
def execEnter (wr : Writer) (core : BitVec 6) (s : State) : Out := event (enterTest s wr core)

/-- The test block's variant and kernel (R348): four groups, each wide with VCNT 248 and PRIV 256, 896 KiB of scratchpad
and the whole of every ceiling-die store. -/
def testVariant (sp lb mp : Nat) : Variant :=
  { vcnt := 248, groups := 4, scratch := 917504, priv := 256, accrows := 2048, bslots := 128, scalekb := 64, msec := mp ≠ 0
    sentry := BitVec.ofNat 52 sp, lbase := BitVec.ofNat 52 lb, lentry := 0, mentry := BitVec.ofNat 52 mp, breload := List.replicate 16 0 }
def testKernel (v : Variant) : Kernel :=
  { addr := 0, compat := false, draft := false, variants := [v], qdepth := List.replicate 8 0, qbind := List.replicate 8 0, swpts := [] }
def testMember : Member :=
  { record := 0, extent := 0, grid := none, done := none, slot := none, lin := 0, va := 0, stamp := 0, prio := 0, key := [] }

/-- START (R348). A header with an uncorrectable error is malformed, and the error is logged (R345; assumption 35). -/
def startTest (s : State) (wr : Writer) (core : BitVec 6) : State :=
  testCommand s wr fun s =>
    let at' := s.regs.stprog.toNat
    if poisoned s at' 64 then testResult (logPoison s at') 4
    else
    let sp := memNat s at' 8
    let lb := memNat s (at' + 8) 8
    let mp := memNat s (at' + 16) 8
    if !(s.core core.toNat).loopMode || memNat s (at' + 24) 40 ≠ 0 || sp % 4 ≠ 0 || lb % 4 ≠ 0 || mp % 4 ≠ 0 then testResult s 4
    else
      let v := testVariant sp lb mp
      let ref : BlockRef := ⟨core, 0⟩
      let units := footprint v.vcnt v.priv
      let gs := (List.range 4).map fun i =>
        freshGroup ⟨core, 0, BitVec.ofNat 5 i⟩ 0 0 v ⟨32 * i, 0, true, units⟩ s.cycle
      let b := { freshBlock ref 0 (testKernel v) 0 v testMember 0 (scratchUnits s core.toNat v.scratch) with test := true }
      let s := { s with blocks := s.blocks ++ [b], groups := s.groups ++ gs }
      s.modRegs fun r => { r with stBusy := true }
def execStart (wr : Writer) (core : BitVec 6) (s : State) : Out := event (startTest s wr core)

/-- R348: every group of a test block has exited: the result, and the block is gone. -/
def endTest (s : State) (b : Block) : State :=
  if !((s.groupsOf b.ref).all (·.exited)) then s
  else
    let s := dropArray s b.ref.core.toNat b.ref.bslot.toNat
    let s := removeBlock s b.ref
    testResult (s.modRegs fun r => { r with stBusy := false }) (if b.testCause then 3 else if b.testErr then 1 else 0)

/-- LEAVE (R348). -/
def leaveTest (s : State) (wr : Writer) (core : BitVec 6) : State :=
  testCommand s wr fun s =>
    if !(s.core core.toNat).loopMode then testResult s 4
    else
      let s := s.modCore core.toNat fun k => { wipeCore k with loopMode := false }
      testResult (s.modRegs fun r => { r with stInmode := if r.stCore = core then false else r.stInmode }) 0
def execLeave (wr : Writer) (core : BitVec 6) (s : State) : Out := event (leaveTest s wr core)

/-- BLOCK_RETIRE (R32). -/
def execBlockRetire (b : BlockRef) (s : State) : Out :=
  event (
    match s.block? b with
    | none => s
    | some k => if k.test then endTest s k else if retires s k then checkDrained (retireBlock s k) k.ctx else s)

end Sys2Proof.Machine
end

