-- ==== Sys2Proof/Machine/Display.lean ====
section
/-! DEFINITION. The display heads (R340-R342) and the power budget (R339). -/

namespace Sys2Proof.Machine

open Sys2Proof

/-- One bit of HEADCTL set or cleared. -/
def setBit (v : W32) (n : Nat) (b : Bool) : W32 := if b then v ||| (1#32 <<< n) else v &&& ~~~(1#32 <<< n)
def State.head (s : State) (h : Nat) : Head := s.heads.getD h Head.reset
def State.modHead (s : State) (h : Nat) (f : Head → Head) : State := { s with heads := listSet s.heads h (f (s.head h)) }

/-- R342: HANDOVER and RELEASE: ignored together, and while EN is 0; HANDOVER clears ABORT. -/
def askHead (d : Head) (hand rel : Bool) : Head :=
  if hand == rel || !d.ctl.getLsbD 31 then d
  else if hand then { d with ctl := setBit (setBit d.ctl 27 true) 24 false }
  else { d with ctl := setBit d.ctl 26 true }

/-- A write of HEADCTL (R341): EN, FOLLOW, SRC and PORT are stored, LOCKED, ACTIVE and ABORT are not; EN counts as it
stood before the write (assumption 28). -/
def writeHeadctl (d : Head) (v : W32) : Head :=
  let d := askHead d (v.getLsbD 27) (v.getLsbD 26)
  { d with ctl := (d.ctl &&& 0x1F000000#32) ||| (v &&& 0xE0000003#32) }

/-- HANDOVER and HEAD_RELEASE (R342). -/
def execHandover (wr : Writer) (head : BitVec 2) (s : State) : Out :=
  event (sysWrite s wr (0x20000 + 0x100 * head.toNat) fun s => s.modHead head.toNat fun d => askHead d true false)
def execHeadRelease (wr : Writer) (head : BitVec 2) (s : State) : Out :=
  event (sysWrite s wr (0x20000 + 0x100 * head.toNat) fun s => s.modHead head.toNat fun d => askHead d false true)

/-- A frame start within one line of FSYNC_IN: the second in a row locks the head (R341). -/
def countFrame (d : Head) : Head :=
  let n := min 2 (d.lockedFrames + 1)
  { d with lockedFrames := n, fsyncAt := none, awaits := none, ctl := setBit d.ctl 28 (n = 2) }
def loseLock (d : Head) : Head := { d with lockedFrames := 0, awaits := none, ctl := setBit d.ctl 28 false }
/-- A head as it stands in a cycle: a frame start that no pulse has met within one line ends the lock (R341). -/
def settleHead (now : Nat) (d : Head) : Head :=
  match d.awaits with
  | some t => if now ≤ t + Config.lineCycles then d else loseLock d
  | none => d
/-- R341: a follower's frame start: a pulse within the line before it counts, else one within the line after it may. -/
def lockHead (now : Nat) (d : Head) : Head :=
  if !d.ctl.getLsbD 30 then loseLock d
  else
    let d := if d.awaits.isSome then loseLock d else d
    match d.fsyncAt with
    | some t => if now ≤ t + Config.lineCycles then countFrame d else { d with awaits := some now }
    | none => { d with awaits := some now }
/-- A pulse of FSYNC_IN at a follower (R341). -/
def pulseHead (now : Nat) (d : Head) : Head :=
  if !d.ctl.getLsbD 30 then d
  else
    let d := settleHead now d
    if d.awaits.isSome then countFrame d else { d with fsyncAt := some now }
/-- R341: a leader drives FSYNC_OUT at its frame start. -/
def driveSync (d : Head) : Head := if d.ctl.getLsbD 30 then d else { d with fsyncOut := d.fsyncOut + 1 }

/-- R341: a flip takes effect. -/
def flipHead (d : Head) : Head :=
  match d.pendingFlip with
  | some a => { d with surface := a, hostSurface := d.ctl.getLsbD 29, pendingFlip := none }
  | none => d

/-- R342: the handover at a frame start: done where LOCKED still holds, else aborted. -/
def takePanel (d : Head) : Head × Bool :=
  if !d.ctl.getLsbD 27 then (d, false)
  else if d.ctl.getLsbD 28 then ({ d with muxsel := true, releasing := false, ctl := setBit (setBit d.ctl 27 false) 25 true }, true)
  else ({ d with ctl := setBit (setBit d.ctl 27 false) 24 true }, false)

/-- R342: a release: MUXSEL_OUT falls in the blank before this frame, and ACTIVE after the frame. -/
def givePanel (d : Head) : Head :=
  let d := if d.releasing then { d with releasing := false, ctl := setBit d.ctl 25 false } else d
  if d.ctl.getLsbD 26 then { d with muxsel := false, releasing := true, ctl := setBit d.ctl 26 false } else d

/-- FRAME_START (R341, R342): the flip, a leader's pulse, the lock, a release and a handover; vector 2 + h for the frame start (R330), and
for a handover done. -/
def execFrameStart (head : BitVec 2) (s : State) : Out :=
  event (
    let h := head.toNat
    let d := s.head h
    if !d.ctl.getLsbD 31 then s
    else
      let (d, took) := takePanel (givePanel (lockHead s.cycle (driveSync (flipHead d))))
      let s := sendMsi (s.modHead h fun _ => d) (2 + h)
      if took then sendMsi s (2 + h) else s)

/-- FSYNC_IN_PULSE (R341). -/
def execFsyncInPulse (s : State) : Out :=
  event { s with heads := s.heads.map (pulseHead s.cycle) }

/-- BUDGET_GRANT (R339): G is set; DEMAND echoes the sequence number; its other fields are measurements. -/
def execBudgetGrant (frame : BitVec 64) (s : State) : Out :=
  event (
    let (v, s) := s.free
    { s with budget := bits frame.toNat 27 8, lastGrant := some s.cycle
             demand := s.demand ++ [(v &&& ~~~0xFF#64) ||| (frame &&& 0xFF#64)] })

/-- R339: POOL for a budget; a TOKMW of 0 leaves the quotient open. -/
def poolFor (g pbase tokmw : Nat) (open' : Nat) : Nat := min 384 (max 6 (if tokmw = 0 then open' else (g - pbase) / tokmw))
/-- BUDGET_TICK (R339). -/
def execBudgetTick (pbase : BitVec 32) (s : State) : Out :=
  event (
    let (v, s) := s.free
    s.modRegs fun r => { r with pool := poolFor s.budget pbase.toNat r.tokmw.toNat v.toNat })

/-- GRANT_TIMEOUT (R339): three milliseconds without a GRANT, where there is a sideband. -/
def execGrantTimeout (s : State) : Out :=
  event (
    let since := match s.lastGrant with
      | some t => some t
      | none => if Config.form = 1 then some 0 else none
    match since with
    | some t => if t + 3 * Config.cyclesPerMs ≤ s.cycle then { s with budget := s.regs.budgetsafe.toNat } else s
    | none => s)

end Sys2Proof.Machine
end

