-- ==== Sys2Proof/Machine/LaneInt.lean ====
section
/-! DEFINITION. The lane integer and bit words (R180-R186). -/

namespace Sys2Proof.Machine

open Sys2Proof

/-- .SAT: the clamp of R107; a word without it wraps when written. -/
def satIf (w : LaneWord) (v : Int) : Int := if w.rm % 2 = 1 then satInt (tySigned w.ty) (tyWidth w.ty) v else v

/-- The operands of thread t as exact integers (R179). -/
def ia (e : Env) (t : Nat) : Int := e.int e.w.ty e.w.a t
def ib (e : Env) (t : Nat) : Int := e.int e.w.ty e.w.b t
def ic (e : Env) (t : Nat) : Int := e.int e.w.ty e.w.c t

def execIadd (w : LaneWord) (s : State) : Out := intWord s w [w.a, w.b] noCheck fun e t => satIf w (ia e t + ib e t)
def execIsub (w : LaneWord) (s : State) : Out := intWord s w [w.a, w.b] noCheck fun e t => satIf w (ia e t - ib e t)
def execImul (w : LaneWord) (s : State) : Out := intWord s w [w.a, w.b] noCheck fun e t => satIf w (ia e t * ib e t)
def execImad (w : LaneWord) (s : State) : Out :=
  intWord s w [w.a, w.b, w.c] noCheck fun e t => satIf w (ia e t * ib e t + ic e t)
def execImulh (w : LaneWord) (s : State) : Out :=
  intWord s w [w.a, w.b] noCheck fun e t => ia e t * ib e t / (2 ^ 32 : Nat)
def execImin (w : LaneWord) (s : State) : Out := intWord s w [w.a, w.b] noCheck fun e t => min (ia e t) (ib e t)
def execImax (w : LaneWord) (s : State) : Out := intWord s w [w.a, w.b] noCheck fun e t => max (ia e t) (ib e t)

/-- R181: the selected threads with a zero divisor. -/
def zeroDivisor : Check := fun e m =>
  let bad := (threadsOf m).filter fun t => ib e t = 0
  if bad.isEmpty then none else some (0x28, bad.foldl (fun m t => m ||| threadBit t) 0)

/-- R181: quotient or remainder, truncated toward zero. -/
def execIdiv (w : LaneWord) (s : State) : Out :=
  intWord s w [w.a, w.b] zeroDivisor fun e t =>
    if w.x = 1#4 then (ia e t).tmod (ib e t) else satIf w ((ia e t).tdiv (ib e t))

/-- The conditions of ICMP (R182). -/
def icond (x : Nat) (a b : Int) : Bool :=
  match x with
  | 0 => a = b
  | 1 => a ≠ b
  | 2 => a < b
  | 3 => b ≤ a
  | 4 => a ≤ b
  | _ => b < a
def execIcmp (w : LaneWord) (s : State) : Out :=
  predWord s w [w.a, w.b] (w.ty ≥ 6) fun e _ t => (icond w.x.toNat (ia e t) (ib e t), Exc.none)

/-- R183: a shift of a w-bit value by a 32-bit amount modulo w. -/
def shiftWord (s : State) (w : LaneWord) (f : Nat → Int → Nat → Int) : Out :=
  let ty := w.ty
  let n := tyWidth ty
  arithWord s w [w.a, w.b] (vregs (ty ≥ 6) [w.d, w.a] ++ vregs false [w.b]) (ty ≥ 6) noCheck fun e t =>
    (widen n (tySigned ty) (wrap n (f n (ia e t) ((e.r32 w.b t).toNat % n))), Exc.none)
def execLaneShl (w : LaneWord) (s : State) : Out := shiftWord s w fun _ v k => v * (2 ^ k : Nat)
def execLaneShr (w : LaneWord) (s : State) : Out := shiftWord s w fun n v k => ((wrap n v / 2 ^ k : Nat) : Int)
def execLaneSha (w : LaneWord) (s : State) : Out := shiftWord s w fun n v k => sext n (wrap n v) / (2 ^ k : Nat)

def execLaneAnd (w : LaneWord) (s : State) : Out := wordWord s w [w.a, w.b] fun e t => e.r32 w.a t &&& e.r32 w.b t
def execLaneOr (w : LaneWord) (s : State) : Out := wordWord s w [w.a, w.b] fun e t => e.r32 w.a t ||| e.r32 w.b t
def execLaneXor (w : LaneWord) (s : State) : Out := wordWord s w [w.a, w.b] fun e t => e.r32 w.a t ^^^ e.r32 w.b t
def execNot (w : LaneWord) (s : State) : Out := wordWord s w [w.a] fun e t => ~~~(e.r32 w.a t)

/-- R184: the position and the usable length of a bit-field specification. -/
def bfPos (spec : W32) : Nat := spec.toNat % 32
def bfLen (spec : W32) : Nat := min (min (bits spec.toNat 13 8) 32) (32 - bfPos spec)

def execBfe (w : LaneWord) (s : State) : Out :=
  arithWord s w [w.a, w.b] (vregs false [w.d, w.a, w.b]) false noCheck fun e t =>
    let spec := e.r32 w.b t
    let m := bfLen spec
    let f := (e.r32 w.a t).toNat / 2 ^ bfPos spec % 2 ^ m
    (widen 32 (w.ty = 0) (if w.ty = 0 && m ≠ 0 then wrap 32 (sext m f) else f), Exc.none)

/-- BFI (R184). -/
def bfi (a b spec : W32) : W32 :=
  let p := bfPos spec
  let mask : W32 := BitVec.ofNat 32 ((2 ^ bfLen spec - 1) * 2 ^ p)
  (a &&& ~~~mask) ||| ((b <<< p) &&& mask)
def execBfi (w : LaneWord) (s : State) : Out :=
  wordWord s w [w.a, w.b, w.c] fun e t => bfi (e.r32 w.a t) (e.r32 w.b t) (e.r32 w.c t)

/-- R185. -/
def popCount (v : W32) : Nat := (List.range 32).foldl (fun n i => n + if v.getLsbD i then 1 else 0) 0
def leadingZeros (v : W32) : Nat := if v = 0 then 32 else 31 - v.toNat.log2
def reverseBits (v : W32) : W32 := maskOf fun i => v.getLsbD (31 - i)
def execPopc (w : LaneWord) (s : State) : Out :=
  wordWord s w [w.a] fun e t => BitVec.ofNat 32 (popCount (e.r32 w.a t))
def execClz (w : LaneWord) (s : State) : Out :=
  wordWord s w [w.a] fun e t => BitVec.ofNat 32 (leadingZeros (e.r32 w.a t))
def execBrev (w : LaneWord) (s : State) : Out := wordWord s w [w.a] fun e t => reverseBits (e.r32 w.a t)

/-- R186: bits interleaved k ways, and one component taken back out. -/
def interleave (k : Nat) (f : Nat → W32) : W32 := maskOf fun i => i / k < 32 / k && (f (i % k)).getLsbD (i / k)
def deinterleave (k c : Nat) (a : W32) : W32 := maskOf fun i => i < 32 / k && a.getLsbD (k * i + c)
def execBilv (w : LaneWord) (s : State) : Out :=
  wordWord s w (if w.x = 1#4 then [w.a, w.b, w.c] else [w.a, w.b]) fun e t =>
    interleave (w.x.toNat + 2) fun j => e.r32 (if j = 0 then w.a else if j = 1 then w.b else w.c) t
def execBdlv (w : LaneWord) (s : State) : Out :=
  wordWord s w [w.a] fun e t => deinterleave (w.x.toNat % 4 + 2) (w.x.toNat / 4) (e.r32 w.a t)

end Sys2Proof.Machine
end

