-- ==== Sys2Proof/Machine/Registers.lean ====
section
/-! DEFINITION. The register map (R328): what a write at an offset does, and what a register reads as. -/

namespace Sys2Proof.Machine

open Sys2Proof

/-- A register that only stores a value (R328). -/
def storeReg (s : State) (wr : Writer) (off : Nat) (f : Regs → Regs) : State := sysWrite s wr off fun s => s.modRegs f

/-- CTXCMD (R304): a reserved command reports STATE. -/
def ctxcmdWrite (s : State) (wr : Writer) (v : Nat) : State :=
  let c := BitVec.ofNat 8 (bits v 55 48)
  ctxCommand s wr (bits v 47 0) fun s =>
    match bits v 63 56 with
    | 1 => bindCtx s c
    | 2 => makeResident s c
    | 3 => preemptCtx s c
    | 4 => resetCtx s c
    | 5 => releaseCtx s c
    | _ => (s, some 1)

/-- FAULTRES (R314): a reserved verdict is ignored and logged. -/
def faultresWrite (s : State) (wr : Writer) (v : Nat) : State :=
  let rsv := bits v 47 16 + if 1 < bits v 63 56 then 1 else 0
  faultRes s wr (BitVec.ofNat 8 (bits v 55 48)) rsv (bits v 15 0) (bits v 63 56 = 1)

/-- DBGCTL (R323). -/
def dbgctlWrite (s : State) (wr : Writer) (v : Nat) : State :=
  let c := BitVec.ofNat 8 (bits v 55 48)
  let g : GroupRef := ⟨BitVec.ofNat 6 (bits v 47 42), BitVec.ofNat 3 (bits v 41 39), BitVec.ofNat 5 (bits v 38 34)⟩
  match bits v 63 56 with
  | 1 => debugCommand s wr c g stopCommand
  | 2 => debugCommand s wr c g fun s g => goOn s g .run
  | 3 => debugCommand s wr c g fun s g => goOn s g .stepLane
  | 4 => debugCommand s wr c g fun s g => goOn s g .stepScalar
  | _ => logDrop s 0x2018

/-- PWRCTL (R338). -/
def pwrctlWrite (s : State) (wr : Writer) (v : Nat) : State :=
  match bits v 63 56 with
  | 1 => powerCommand s wr powerSave
  | 2 => powerCommand s wr fun s => setPwrstat s 0
  | 3 => powerCommand s wr warmReset
  | _ => s

/-- A system ring's registers (R332). -/
def ringWrite (r : Ring) (o : Nat) (v : W64) : Ring :=
  match o with
  | 0 => { r with base := v }
  | 8 => { r with log2 := v }
  | 0x10 => { r with head := v }
  | 0x18 => { r with tail := v }
  | _ => r

/-- A head's registers (R341). -/
def headWrite (d : Head) (o : Nat) (v : W64) : Head :=
  match o with
  | 0 => writeHeadctl d (v.setWidth 32)
  | 8 => { d with pendingFlip := some v }
  | _ => d

/-- SCHEDCTL (R268): a write of 0 stores 1. -/
def ageOf (v : W64) : BitVec 16 := if v.extractLsb' 16 16 = 0 then 1 else v.extractLsb' 16 16

/-- The registers of one 4 KiB page each that have a rule of their own; none for a reserved offset, whose write is
ignored (R328). -/
def writeControl (s : State) (wr : Writer) (off : Nat) (v : W64) : Option State :=
  match off with
  | 0x1000 => some (if wr = .governor then s.modRegs fun r => { r with pool := max 6 (min 384 (v.toNat % 512)) } else logDrop s off)
  | 0x1008 => some (storeReg s wr off fun r => { r with age := ageOf v })
  | 0x1010 => some (storeReg s wr off fun r => { r with tokmw := v.setWidth 32 })
  | 0x1018 => some (storeReg s wr off fun r => { r with budgetsafe := v.setWidth 32 })
  | 0x2000 => some (ctxcmdWrite s wr v.toNat)
  | 0x2010 => some (faultresWrite s wr v.toNat)
  | 0x2018 => some (dbgctlWrite s wr v.toNat)
  | 0x2040 => some (storeReg s wr off fun r => { r with ctxbase := v &&& 0x00007FFFFFFF0000#64 })
  | 0x3000 => some (storeReg s wr off fun r => { r with tlbVa := v &&& 0x000FFFFFFFFFF000#64 })
  | 0x3008 => some (tlbinvWrite s wr (BitVec.ofNat 8 (bits v.toNat 15 8)) (bits v.toNat 2 0))
  | 0x5000 => some (doorbellWrite s wr v)
  | 0x5008 => some (msigenWrite s wr v)
  | 0x6800 => some (sysdoneWrite s wr v)
  | 0x60000 => some (pwrctlWrite s wr v.toNat)
  | 0x60008 => some (powerCommand s wr fun s => s.modRegs fun r => { r with pimgaddr := v })
  | 0x60010 => some (powerCommand s wr fun s => s.modRegs fun r => { r with pranges := v })
  | _ => none

/-- STCTL (R348). -/
def stctlWrite (s : State) (wr : Writer) (v : Nat) : State :=
  let core := BitVec.ofNat 6 (bits v 53 48)
  if bits v 55 54 ≠ 0 || bits v 47 0 ≠ 0 then testCommand s wr fun s => testResult s 4
  else match bits v 63 56 with
    | 1 => enterTest s wr core
    | 2 => startTest s wr core
    | 3 => leaveTest s wr core
    | _ => testCommand s wr fun s => testResult s 4

/-- STPROG (R348). -/
def stprogWrite (s : State) (wr : Writer) (v : W64) : State :=
  if wr = .selfTest then s.modRegs fun r => { r with stprog := v &&& 0x00007FFFFFFFFFC0#64 } else logDrop s 0x50008

/-- The MSI-X table (R325): the host's; the pending bits are read-only. A vector that the write unmasks and that stands
pending is sent (assumption 90). -/
def msixWrite (s : State) (wr : Writer) (off : Nat) (v : W64) : State :=
  let i := (off - 0x70000) / 8
  if wr != .host then logDrop s off
  else if 4096 ≤ i then s
  else
    let s := s.modRegs fun r => r.setMsixWord i v
    if s.regs.msixPending (i / 2) && !(s.regs.msixMasked (i / 2)) then sendMsi (s.modRegs fun r => r.setPending (i / 2) false) (i / 2) else s

/-- A write of a system ring's registers (R332): one that advances TAIL posts to the queue, and its I/O core is told (R331). -/
def ringsWrite (s : State) (q o : Nat) (v : W64) : State :=
  let s' := s.modRegs fun r => { r with rings := listSet r.rings q (ringWrite (r.rings.getD q Ring.reset) o v) }
  if o = 0x18 then notifyIo s' (ringCore q) else s'

/-- A write at an offset of the register space (R328); a reserved offset of a block ignores it. -/
def writeReg (s : State) (wr : Writer) (off : Nat) (v : W64) : State :=
  match writeControl s wr off v with
  | some s => s
  | none =>
    if 0x4000 ≤ off && off < 0x4040 && off % 4 = 0 then scpartSet s wr (BitVec.ofNat 4 ((off - 0x4000) / 4)) (v.setWidth 32)
    else if 0x6000 ≤ off && off < 0x6480 then
      if off % 0x40 < 0x20 && off % 8 = 0 then sysWrite s wr off fun s => ringsWrite s ((off - 0x6000) / 0x40) (off % 0x40) v else s
    else if 0x20000 ≤ off && off < 0x20400 then
      if off % 0x100 = 0 || off % 0x100 = 8 then
        sysWrite s wr off fun s => s.modHead ((off - 0x20000) / 0x100) fun d => headWrite d (off % 0x100) v
      else s
    else if off = 0x2008 || off = 0x2020 then sysWrite s wr off fun s => s
    else if 0x30000 ≤ off && off < 0x30020 && off % 8 = 0 then storeReg s wr off fun r => { r with errlog := ringWrite r.errlog (off - 0x30000) v }
    else if off = 0x50000 then stctlWrite s wr v.toNat
    else if off = 0x50008 then stprogWrite s wr v
    else if off = 0x50010 && wr != .selfTest then logDrop s off
    else if 0x70000 ≤ off && off < 0x79000 && off % 8 = 0 then msixWrite s wr off v
    else s

/-- REGISTER_WRITE (R328). -/
def execRegisterWrite (wr : Writer) (off : BitVec 26) (v : BitVec 64) (s : State) : Out := event (writeReg s wr off.toNat v)

/-- R303: an island's status block. -/
def readIsland (s : State) (n o : Nat) : Nat :=
  let i := s.island n
  let m := (i.image.map (·.meas)).getD []
  match o with
  | 0 =>
    let role := (i.image.map Image.role).getD 0
    let st := if i.image.any Image.stateful then 1 else 0
    i.state * 2 ^ 30 + (if i.ctxs.isEmpty && i.state ≠ 3 then 2 ^ 29 else 0) + role * 2 ^ 24 + st * 2 ^ 23 + i.ctxs.length * 2 ^ 20
  | 8 => (2 ^ i.ctxs.length - 1) * 2 ^ 32 + leNat (i.ctxs.map fun c => c)
  | 0x10 => fieldAt m 0 8
  | 0x18 => i.overruns * 2 ^ 32 + i.discards
  | _ => 0

def readRing (r : Ring) (o : Nat) : Nat :=
  match o with
  | 0 => r.base.toNat
  | 8 => r.log2.toNat
  | 0x10 => r.head.toNat
  | 0x18 => r.tail.toNat
  | _ => 0

/-- PLATID (R328). -/
def platid : Nat :=
  2 ^ 40 * Config.revision.toNat + 2 ^ 32 * Config.gddrGiB.val + 2 ^ 24 * 12 + 2 ^ 20 * Config.linkWidth +
  2 ^ 16 * Config.form.val + 0x8840

/-- What a register reads as (R328); reserved offsets and write-only fields read zero. -/
def readReg (s : State) (off : Nat) : Nat :=
  let r := s.regs
  let held := tokensHeld s
  match off with
  | 0 => platid
  | 0x1000 => (if r.pool < held then 2 ^ 31 else 0) + 2 ^ 16 * (r.pool - held) + r.pool
  | 0x1008 => 2 ^ 16 * r.age.toNat
  | 0x1010 => r.tokmw.toNat
  | 0x1018 => r.budgetsafe.toNat
  | 0x2008 => (if r.ctxBusy then 2 ^ 63 else 0) + r.ctxResult.toNat
  | 0x2020 => r.dbgstat.toNat
  | 0x2040 => r.ctxbase.toNat
  | 0x3000 => r.tlbVa.toNat
  | 0x3008 => (if r.tlbBusy then 2 ^ 63 else 0) + (if r.tlbErr then 2 ^ 62 else 0) + 2 ^ 8 * r.tlbCtx.toNat + r.tlbKind.toNat
  | 0x50008 => r.stprog.toNat
  | 0x50010 => (if r.stBusy then 2 ^ 63 else 0) + (if r.stInmode then 2 ^ 62 else 0) + r.stResult.toNat
  | 0x60008 => r.pimgaddr.toNat
  | 0x60010 => r.pranges.toNat
  | 0x60018 => r.pwrstat.toNat
  | _ =>
    if 0x4000 ≤ off && off < 0x4040 && off % 4 = 0 then (r.scpart.getD ((off - 0x4000) / 4) 0).toNat
    else if 0x6000 ≤ off && off < 0x6480 then readRing (r.rings.getD ((off - 0x6000) / 0x40) Ring.reset) (off % 0x40)
    else if 0x10000 ≤ off && off < 0x12000 then readIsland s ((off - 0x10000) / 0x100) (off % 0x100)
    else if 0x20000 ≤ off && off < 0x20400 then
      let d := settleHead s.cycle (s.head ((off - 0x20000) / 0x100))
      if off % 0x100 = 0 then d.ctl.toNat else if off % 0x100 = 8 then d.surface.toNat else 0
    else if 0x30000 ≤ off && off < 0x30020 then readRing r.errlog (off - 0x30000)
    else if 0x70000 ≤ off && off < 0x79000 && off % 8 = 0 then (r.msixWord ((off - 0x70000) / 8)).toNat
    else 0

end Sys2Proof.Machine
end

