-- ==== Sys2Proof/Machine/ScalarAlu.lean ====
section
/-! DEFINITION. The scalar arithmetic and move words (R142-R144). -/

namespace Sys2Proof.Machine

open Sys2Proof

/-- A scalar word that reads some S registers and writes one (R141). -/
def aluWord (s : State) (d : BitVec 5) (uses : List (BitVec 5)) (f : Group → W64) : Out :=
  scalarWord s (d :: uses) false fun g _ => .done (s.modGroup g.ref fun g => g.writeS d (f g))

/-- .W: the operation on bits [31:0], sign-extended (R142). -/
def narrow (w : Bool) (f64 : W64 → W64 → W64) (f32 : W32 → W32 → W32) (a b : W64) : W64 :=
  if w then (f32 (a.setWidth 32) (b.setWidth 32)).signExtend 64 else f64 a b

/-- Shift amounts: b mod 64, or mod 32 with .W (R142). -/
def shlOp (w : Bool) : W64 → W64 → W64 := narrow w (fun a b => a <<< (b.toNat % 64)) (fun a b => a <<< (b.toNat % 32))
def shrOp (w : Bool) : W64 → W64 → W64 := narrow w (fun a b => a >>> (b.toNat % 64)) (fun a b => a >>> (b.toNat % 32))
def shaOp (w : Bool) : W64 → W64 → W64 :=
  narrow w (fun a b => a.sshiftRight (b.toNat % 64)) (fun a b => a.sshiftRight (b.toNat % 32))

/-- Bits [127:64] of the product (R142). -/
def mulhOp (n : Bool) (a b : W64) : W64 :=
  if n then BitVec.ofNat 64 (a.toNat * b.toNat / 2 ^ 64)
  else BitVec.ofInt 64 (a.toInt * b.toInt / (2 ^ 64 : Nat))

/-- The conditions of CMP, signed or unsigned (R113). -/
def scmp (c : SCond) (n : Bool) (a b : W64) : Bool :=
  let lt := fun (x y : W64) => if n then x.ult y else x.slt y
  match c with
  | .eq => a == b
  | .ne => a != b
  | .lt => lt a b
  | .ge => !lt a b
  | .le => !lt b a
  | .gt => lt b a
def boolW (b : Bool) : W64 := if b then 1 else 0

def minOp (n : Bool) (a b : W64) : W64 := if scmp .lt n b a then b else a
def maxOp (n : Bool) (a b : W64) : W64 := if scmp .lt n a b then b else a

def execAdd (d a b : BitVec 5) (w : Bool) (s : State) : Out :=
  aluWord s d [a, b] fun g => narrow w (· + ·) (· + ·) (g.readS a) (g.readS b)
def execSub (d a b : BitVec 5) (w : Bool) (s : State) : Out :=
  aluWord s d [a, b] fun g => narrow w (· - ·) (· - ·) (g.readS a) (g.readS b)
def execMul (d a b : BitVec 5) (w : Bool) (s : State) : Out :=
  aluWord s d [a, b] fun g => narrow w (· * ·) (· * ·) (g.readS a) (g.readS b)
def execMulh (d a b : BitVec 5) (n : Bool) (s : State) : Out :=
  aluWord s d [a, b] fun g => mulhOp n (g.readS a) (g.readS b)
def execAnd (d a b : BitVec 5) (s : State) : Out := aluWord s d [a, b] fun g => g.readS a &&& g.readS b
def execOr (d a b : BitVec 5) (s : State) : Out := aluWord s d [a, b] fun g => g.readS a ||| g.readS b
def execXor (d a b : BitVec 5) (s : State) : Out := aluWord s d [a, b] fun g => g.readS a ^^^ g.readS b
def execShl (d a b : BitVec 5) (w : Bool) (s : State) : Out :=
  aluWord s d [a, b] fun g => shlOp w (g.readS a) (g.readS b)
def execShr (d a b : BitVec 5) (w : Bool) (s : State) : Out :=
  aluWord s d [a, b] fun g => shrOp w (g.readS a) (g.readS b)
def execSha (d a b : BitVec 5) (w : Bool) (s : State) : Out :=
  aluWord s d [a, b] fun g => shaOp w (g.readS a) (g.readS b)
def execMin (d a b : BitVec 5) (n : Bool) (s : State) : Out :=
  aluWord s d [a, b] fun g => minOp n (g.readS a) (g.readS b)
def execMax (d a b : BitVec 5) (n : Bool) (s : State) : Out :=
  aluWord s d [a, b] fun g => maxOp n (g.readS a) (g.readS b)
def execCmp (d a b : BitVec 5) (c : SCond) (n : Bool) (s : State) : Out :=
  aluWord s d [a, b] fun g => boolW (scmp c n (g.readS a) (g.readS b))
def execSel (d a b c : BitVec 5) (s : State) : Out :=
  aluWord s d [a, b, c] fun g => if g.readS c ≠ 0 then g.readS a else g.readS b

def execAddImmediate (d a : BitVec 5) (imm : BitVec 16) (s : State) : Out :=
  aluWord s d [a] fun g => g.readS a + imm.signExtend 64
def execAndImmediate (d a : BitVec 5) (imm : BitVec 16) (s : State) : Out :=
  aluWord s d [a] fun g => g.readS a &&& imm.setWidth 64
def execOrImmediate (d a : BitVec 5) (imm : BitVec 16) (s : State) : Out :=
  aluWord s d [a] fun g => g.readS a ||| imm.setWidth 64
def execXorImmediate (d a : BitVec 5) (imm : BitVec 16) (s : State) : Out :=
  aluWord s d [a] fun g => g.readS a ^^^ imm.setWidth 64
def execShlImmediate (d a : BitVec 5) (w : Bool) (amount : BitVec 6) (s : State) : Out :=
  aluWord s d [a] fun g => shlOp w (g.readS a) (amount.setWidth 64)
def execShrImmediate (d a : BitVec 5) (w : Bool) (amount : BitVec 6) (s : State) : Out :=
  aluWord s d [a] fun g => shrOp w (g.readS a) (amount.setWidth 64)
def execShaImmediate (d a : BitVec 5) (w : Bool) (amount : BitVec 6) (s : State) : Out :=
  aluWord s d [a] fun g => shaOp w (g.readS a) (amount.setWidth 64)
def execCmpImmediate (d a : BitVec 5) (c : SCond) (n : Bool) (imm : BitVec 12) (s : State) : Out :=
  aluWord s d [a] fun g => boolW (scmp c n (g.readS a) (imm.signExtend 64))
def execMovi (d : BitVec 5) (imm : BitVec 16) (s : State) : Out := aluWord s d [] fun _ => imm.signExtend 64

/-- MOVHI (R144): half h of the register replaced. -/
def movhiOp (h : BitVec 2) (imm : BitVec 16) (v : W64) : W64 :=
  (v &&& ~~~(0xFFFF#64 <<< (16 * h.toNat))) ||| (imm.setWidth 64 <<< (16 * h.toNat))
def execMovhi (d : BitVec 5) (h : BitVec 2) (imm : BitVec 16) (s : State) : Out :=
  aluWord s d [] fun g => movhiOp h imm (g.readS d)

/-- The address a word offset from a scalar word names (R111). -/
def wordTarget {n : Nat} (pc : VAddr) (off : BitVec n) : VAddr := pc + (off.signExtend 52 <<< 2)
/-- R144; an S-B word closes a window (R126). -/
def execLea (d : BitVec 5) (off : BitVec 21) (s : State) : Out :=
  scalarWord s [d] true fun g _ => .done (s.modGroup g.ref fun g => g.writeS d (g.spc.setWidth 64 + (off.signExtend 64 <<< 2)))

end Sys2Proof.Machine
end

