-- ==== Sys2Proof/Machine/ScalarControl.lean ====
section
/-! DEFINITION. The scalar control flow (R149, R150). -/

namespace Sys2Proof.Machine

open Sys2Proof

/-- SPC set; the word that follows issues from there. -/
def goto (s : State) (g : Group) (pc : VAddr) : WordRes := .jump (s.modGroup g.ref fun g => { g with spc := pc })

/-- R111: the conditions of BRC. -/
def brHolds (g : Group) (c : BrCond) (a : BitVec 5) : Bool :=
  let v := g.readS a
  match c with
  | .eqz => v == 0
  | .nez => v != 0
  | .ltz => v.slt 0
  | .gez => !(v.slt 0)
  | .lez => v.slt 0 || v == 0
  | .gtz => !(v.slt 0 || v == 0)
  | .e n => g.e.getLsbD n.toNat
  | .ne n => !(g.e.getLsbD n.toNat)

/-- R149: the checks of a jump target. -/
def jumpCause (v : W64) : Option WordRes :=
  if v.toNat % 4 ≠ 0 then some (.cause 5 0 0 v)
  else if 2 ^ 52 ≤ v.toNat then some (.cause 6 0 0 v)
  else none

/-- R150, R177: 8 hardware entries and 32 spilled ones; the push, which spills the oldest of 8, then the branch. A push
on 40 entries, which would spill a 33rd, has cause 0x0A before any effect (R40, R177). -/
def callTo (s : State) (g : Group) (pc : VAddr) : WordRes :=
  if 40 ≤ g.ras.length then .cause 0x0A 0 0 0
  else .jump (s.modGroup g.ref fun g => { g with ras := (g.spc + 4) :: g.ras, rasHw := min 8 (g.rasHw + 1), spc := pc })
/-- R150: the hardware entries after a pop: one that empties the hardware stack refills its newest spilled entry. -/
def popHw (hw left : Nat) : Nat := if hw ≤ 1 then min 1 left else hw - 1

def execBr (off : BitVec 26) (s : State) : Out :=
  scalarWord s [] true fun g _ => goto s g (wordTarget g.spc off)
def execBrc (c : BrCond) (a : BitVec 5) (off : BitVec 16) (s : State) : Out :=
  scalarWord s [a] true fun g _ => if brHolds g c a then goto s g (wordTarget g.spc off) else .done s
def execCall (off : BitVec 26) (s : State) : Out :=
  scalarWord s [] true fun g _ => callTo s g (wordTarget g.spc off)
def execJmp (a : BitVec 5) (s : State) : Out :=
  scalarWord s [a] true fun g _ =>
    match jumpCause (g.readS a) with
    | some r => r
    | none => goto s g ((g.readS a).setWidth 52)
def execCalli (a : BitVec 5) (s : State) : Out :=
  scalarWord s [a] true fun g _ =>
    match jumpCause (g.readS a) with
    | some r => r
    | none => callTo s g ((g.readS a).setWidth 52)
def execRet (s : State) : Out :=
  scalarWord s [] true fun g _ =>
    match g.ras with
    | [] => .cause 0x0A 0 0 0
    | pc :: r => .jump (s.modGroup g.ref fun g => { g with ras := r, rasHw := popHw g.rasHw r.length, spc := pc })

end Sys2Proof.Machine
end

