-- ==== Sys2Proof/Machine/ScalarMem.lean ====
section
/-! DEFINITION. The scalar loads, stores, atomics and scratchpad words (R145-R148). -/

namespace Sys2Proof.Machine

open Sys2Proof

/-- Bytes of a WIDTH (R110) and whether the element is signed. -/
def Width.size : Width → Nat
  | .n8 | .i8 => 1 | .n16 | .i16 => 2 | .n32 | .i32 => 4 | .w64 => 8
def Width.signed : Width → Bool
  | .i8 | .i16 | .i32 => true
  | _ => false

/-- A scalar load (R145, R146): an outstanding load takes its value at issue, or later where an open choice defers a
relaxed one on an RC or UO page. -/
def scalarLoad (s : State) (g : Group) (b : Block) (d : BitVec 5) (la : BitVec 4) (size : Nat) (signed : Bool)
    (o : OrdMod) (sc : Nat) (va : W64) (word : Option (BitVec 32)) : WordRes :=
  let core := g.ref.core.toNat
  if !(loadRoom s g) then .wait s
  else withAccess s g b .read size [(0, va)] fun s xs =>
    match xs with
    | (_, _, x) :: _ =>
      if !(soReady s core xs) || !(relReady s core o sc) then .wait s
      else
        let s := if o ≠ .relaxed || x.pte.ord = 0 then captureStream s g.ref
                 else if x.pte.ord = 1 then captureMeeting s g.ref .scalar 0 x.pa size else s
        let (later, s) := if o = .relaxed && x.pte.ord ≠ 0 then s.choose else (0, s)
        let (s, val) := if later ≠ 0 then (s, none)
          else
            let (s, bs) := coreRead s core (.scalar g.ref) x.pte (x.pte.cpol = 1) x.pa size
            (s, some (BitVec.ofNat 128 (leNat bs)))
        let s := soAfter (acqNow s core o sc) core x.pte.ord
        .done (s.modGroup g.ref fun g => { g with loads := g.loads ++
          [{ stream := .scalar, word := (word.getD 0).setWidth 96, pc := g.spc, size := size, signed := signed, dst := d.toNat,
             discard := d = 0, spread := 0, pred := 0, core := g.ref.core,
             parts := [⟨0, va, x.pa, val⟩], window := la.toNat + 1, watch := none }] })
    | [] => .done s

/-- R145: S[A] + sext(DISP12) * size. -/
def dispAddr (g : Group) (a : BitVec 5) (disp : BitVec 12) (size : Nat) : W64 :=
  g.readS a + disp.signExtend 64 * BitVec.ofNat 64 size

/-- A load of the displacement layout (R145). -/
def loadDisp (s : State) (d a : BitVec 5) (la : BitVec 4) (disp : BitVec 12) (size : Nat) (signed : Bool)
    (word : Option (BitVec 32)) : Out :=
  scalarWord s [d, a] false fun g b =>
    scalarLoad s g b d la size signed .relaxed 0 (dispAddr g a disp size) word

/-- A scalar store (R145, R146). -/
def scalarStore (s : State) (g : Group) (b : Block) (v : W64) (size : Nat) (o : OrdMod) (sc : Nat) (va : W64) : WordRes :=
  let core := g.ref.core.toNat
  if (o = .rel || o = .ar) && !(lanesDone s g) then .wait s
  else withAccess s g b .write size [(0, va)] fun s xs =>
    match xs with
    | (_, _, x) :: _ =>
      if !(soReady s core xs) || !(relReady s core o sc) then .wait s
      else
        let s := if o = .relaxed && x.pte.ord ≠ 0 then captureMeeting s g.ref .scalar 0 x.pa size
                 else captureStream s g.ref
        .done (soAfter (coreWrite s core (.scalar g.ref) x.pte x.pa (bytesOf size v.toNat)) core x.pte.ord)
    | [] => .done s

/-- A store of the displacement layout (R145). -/
def storeDisp (s : State) (d a : BitVec 5) (disp : BitVec 12) (size : Nat) : Out :=
  scalarWord s [d, a] false fun g b => scalarStore s g b (g.readS d) size .relaxed 0 (dispAddr g a disp size)

def execLdN8 (d a : BitVec 5) (la : BitVec 4) (disp : BitVec 12) (s : State) : Out :=
  loadDisp s d a la disp 1 false (encodeScalar (.ldN8 d a la disp))
def execLdN16 (d a : BitVec 5) (la : BitVec 4) (disp : BitVec 12) (s : State) : Out :=
  loadDisp s d a la disp 2 false (encodeScalar (.ldN16 d a la disp))
def execLdN32 (d a : BitVec 5) (la : BitVec 4) (disp : BitVec 12) (s : State) : Out :=
  loadDisp s d a la disp 4 false (encodeScalar (.ldN32 d a la disp))
def execLdN64 (d a : BitVec 5) (la : BitVec 4) (disp : BitVec 12) (s : State) : Out :=
  loadDisp s d a la disp 8 false (encodeScalar (.ldN64 d a la disp))
def execLdI8 (d a : BitVec 5) (la : BitVec 4) (disp : BitVec 12) (s : State) : Out :=
  loadDisp s d a la disp 1 true (encodeScalar (.ldI8 d a la disp))
def execLdI16 (d a : BitVec 5) (la : BitVec 4) (disp : BitVec 12) (s : State) : Out :=
  loadDisp s d a la disp 2 true (encodeScalar (.ldI16 d a la disp))
def execLdI32 (d a : BitVec 5) (la : BitVec 4) (disp : BitVec 12) (s : State) : Out :=
  loadDisp s d a la disp 4 true (encodeScalar (.ldI32 d a la disp))

/-- R146: the address is S[A] exactly; .AR waits as a release does. -/
def execLdOrdered (d a : BitVec 5) (la : BitVec 4) (w : Width) (o : OrdMod) (sc : BitVec 3) (s : State) : Out :=
  scalarWord s [d, a] false fun g b =>
    if o = .ar && !(lanesDone s g) then .wait s
    else scalarLoad s g b d la (Width.size w) (Width.signed w) o sc.toNat (g.readS a)
      (encodeScalar (.ldOrdered d a la w o sc))

def execStN8 (d a : BitVec 5) (_la : BitVec 4) (disp : BitVec 12) (s : State) : Out := storeDisp s d a disp 1
def execStN16 (d a : BitVec 5) (_la : BitVec 4) (disp : BitVec 12) (s : State) : Out := storeDisp s d a disp 2
def execStN32 (d a : BitVec 5) (_la : BitVec 4) (disp : BitVec 12) (s : State) : Out := storeDisp s d a disp 4
def execStN64 (d a : BitVec 5) (_la : BitVec 4) (disp : BitVec 12) (s : State) : Out := storeDisp s d a disp 8

def execStOrdered (d a : BitVec 5) (_la : BitVec 4) (w : Width) (o : OrdMod) (sc : BitVec 3) (s : State) : Out :=
  scalarWord s [d, a] false fun g b => scalarStore s g b (g.readS d) (Width.size w) o sc.toNat (g.readS a)

/-- R147: one indivisible request. -/
def execAtom (d a : BitVec 5) (_la : BitVec 4) (w : Width) (o : OrdMod) (sc : BitVec 3) (op : AtomOp) (s : State) : Out :=
  scalarWord s (if op = .cas then [d, d + 1, a] else [d, a]) false fun g b =>
    let core := g.ref.core.toNat
    let size := Width.size w
    let va := g.readS a
    if (o = .rel || o = .ar) && !(lanesDone s g) then .wait s
    else withAccess s g b .atomic size [(0, va)] fun s xs =>
      match xs with
      | (_, _, x) :: _ =>
        if !(soReady s core xs) || !(relReady s core o sc.toNat) || pendOverlap s core x.pa size then .wait s
        else
          let s := captureStream s g.ref
          let old := memNat s x.pa size
          let arg := (g.readS d).toNat % 2 ^ (8 * size)
          let new := if op = .cas then (if old = arg then (g.readS (d + 1)).toNat else old)
                     else atomApply (atomCode op) (8 * size) old arg
          let s := if op = .cas && old ≠ arg then atomKept s core x.pa size else atomWrite s core x.pa (bytesOf size new)
          let s := soAfter (acqNow s core o sc.toNat) core x.pte.ord
          .done (s.modGroup g.ref fun g =>
            g.writeS d (extendTo size (size = 4 && (op = .min || op = .max)) old))
      | [] => .done s

/-- R148: the scratchpad address. -/
def padAddr (g : Group) (a : BitVec 5) (disp : BitVec 9) (size : Nat) : Nat :=
  (g.readS a + BitVec.ofNat 64 (disp.toNat * size)).toNat

/-- R148, R41: misalignment, then the bound. -/
def padCheck (b : Block) (size addr : Nat) : Option WordRes :=
  if addr % size ≠ 0 then some (.cause 5 0 0 (BitVec.ofNat 64 addr))
  else if b.scratchSize < addr + size then some (.cause 6 0 0 (BitVec.ofNat 64 addr))
  else none

def execLds (d a : BitVec 5) (w : Width) (disp : BitVec 9) (s : State) : Out :=
  scalarWord s [d, a] false fun g b =>
    let size := Width.size w
    let addr := padAddr g a disp size
    match (padCheck b size addr).or (spoiledPad s b size [(0, BitVec.ofNat 64 addr)]) with
    | some r => r
    | none => .done (s.modGroup g.ref fun g =>
        g.writeS d (extendTo size (Width.signed w) (leNat (b.scratch.read addr size))))
def execSts (d a : BitVec 5) (w : Width) (disp : BitVec 9) (s : State) : Out :=
  scalarWord s [d, a] false fun g b =>
    let size := Width.size w
    let addr := padAddr g a disp size
    match padCheck b size addr with
    | some r => r
    | none =>
      if lockedAt b addr size then .wait s
      else .done (s.modBlock b.ref fun b => b.putPad addr (bytesOf size (g.readS d).toNat))

end Sys2Proof.Machine
end

