-- ==== Sys2Proof/Machine/Dispatch.lean ====
section
/-! DEFINITION. One arm for each instruction: a direct call of its meaning. -/

namespace Sys2Proof.Machine

open Sys2Proof

def exec (i : Instr) (s : State) : Host.Outcome State Fault Refusal :=
  match i with
  | .add d a b w => Sys2Proof.Machine.execAdd d a b w s
  | .sub d a b w => Sys2Proof.Machine.execSub d a b w s
  | .mul d a b w => Sys2Proof.Machine.execMul d a b w s
  | .mulh d a b n => Sys2Proof.Machine.execMulh d a b n s
  | .and d a b => Sys2Proof.Machine.execAnd d a b s
  | .or d a b => Sys2Proof.Machine.execOr d a b s
  | .xor d a b => Sys2Proof.Machine.execXor d a b s
  | .shl d a b w => Sys2Proof.Machine.execShl d a b w s
  | .shr d a b w => Sys2Proof.Machine.execShr d a b w s
  | .sha d a b w => Sys2Proof.Machine.execSha d a b w s
  | .min d a b n => Sys2Proof.Machine.execMin d a b n s
  | .max d a b n => Sys2Proof.Machine.execMax d a b n s
  | .cmp d a b c n => Sys2Proof.Machine.execCmp d a b c n s
  | .sel d a b c => Sys2Proof.Machine.execSel d a b c s
  | .addImmediate d a imm => Sys2Proof.Machine.execAddImmediate d a imm s
  | .andImmediate d a imm => Sys2Proof.Machine.execAndImmediate d a imm s
  | .orImmediate d a imm => Sys2Proof.Machine.execOrImmediate d a imm s
  | .xorImmediate d a imm => Sys2Proof.Machine.execXorImmediate d a imm s
  | .shlImmediate d a w amount => Sys2Proof.Machine.execShlImmediate d a w amount s
  | .shrImmediate d a w amount => Sys2Proof.Machine.execShrImmediate d a w amount s
  | .shaImmediate d a w amount => Sys2Proof.Machine.execShaImmediate d a w amount s
  | .cmpImmediate d a c n imm => Sys2Proof.Machine.execCmpImmediate d a c n imm s
  | .movi d imm => Sys2Proof.Machine.execMovi d imm s
  | .movhi d h imm => Sys2Proof.Machine.execMovhi d h imm s
  | .lea d off => Sys2Proof.Machine.execLea d off s
  | .ldN8 d a la disp => Sys2Proof.Machine.execLdN8 d a la disp s
  | .ldN16 d a la disp => Sys2Proof.Machine.execLdN16 d a la disp s
  | .ldN32 d a la disp => Sys2Proof.Machine.execLdN32 d a la disp s
  | .ldN64 d a la disp => Sys2Proof.Machine.execLdN64 d a la disp s
  | .ldI8 d a la disp => Sys2Proof.Machine.execLdI8 d a la disp s
  | .ldI16 d a la disp => Sys2Proof.Machine.execLdI16 d a la disp s
  | .ldI32 d a la disp => Sys2Proof.Machine.execLdI32 d a la disp s
  | .ldOrdered d a la w o sc => Sys2Proof.Machine.execLdOrdered d a la w o sc s
  | .stN8 d a la disp => Sys2Proof.Machine.execStN8 d a la disp s
  | .stN16 d a la disp => Sys2Proof.Machine.execStN16 d a la disp s
  | .stN32 d a la disp => Sys2Proof.Machine.execStN32 d a la disp s
  | .stN64 d a la disp => Sys2Proof.Machine.execStN64 d a la disp s
  | .stOrdered d a la w o sc => Sys2Proof.Machine.execStOrdered d a la w o sc s
  | .atom d a la w o sc op => Sys2Proof.Machine.execAtom d a la w o sc op s
  | .lds d a w disp => Sys2Proof.Machine.execLds d a w disp s
  | .sts d a w disp => Sys2Proof.Machine.execSts d a w disp s
  | .br off => Sys2Proof.Machine.execBr off s
  | .brc c a off => Sys2Proof.Machine.execBrc c a off s
  | .call off => Sys2Proof.Machine.execCall off s
  | .jmp a => Sys2Proof.Machine.execJmp a s
  | .calli a => Sys2Proof.Machine.execCalli a s
  | .ret => Sys2Proof.Machine.execRet s
  | .lrun nw loff => Sys2Proof.Machine.execLrun nw loff s
  | .lwait => Sys2Proof.Machine.execLwait s
  | .wbind k a => Sys2Proof.Machine.execWbind k a s
  | .wread d k => Sys2Proof.Machine.execWread d k s
  | .rgrowB n => Sys2Proof.Machine.execRgrowB n s
  | .rgrowC d n => Sys2Proof.Machine.execRgrowC d n s
  | .rshrink n => Sys2Proof.Machine.execRshrink n s
  | .barArrive nw b => Sys2Proof.Machine.execBarArrive nw b s
  | .barWait b => Sys2Proof.Machine.execBarWait b s
  | .barParrive nw p => Sys2Proof.Machine.execBarParrive nw p s
  | .barWaitPel p => Sys2Proof.Machine.execBarWaitPel p s
  | .qpush a q => Sys2Proof.Machine.execQpush a q s
  | .qpop d q => Sys2Proof.Machine.execQpop d q s
  | .ctail d a => Sys2Proof.Machine.execCtail d a s
  | .cclose d sc => Sys2Proof.Machine.execCclose d sc s
  | .cwait a => Sys2Proof.Machine.execCwait a s
  | .tlwait d a => Sys2Proof.Machine.execTlwait d a s
  | .tlread d a => Sys2Proof.Machine.execTlread d a s
  | .fenceAcq sc => Sys2Proof.Machine.execFenceAcq sc s
  | .fenceRel sc => Sys2Proof.Machine.execFenceRel sc s
  | .fenceAr sc => Sys2Proof.Machine.execFenceAr sc s
  | .fenceI sc => Sys2Proof.Machine.execFenceI sc s
  | .lnarm a m => Sys2Proof.Machine.execLnarm a m s
  | .lnwait d a => Sys2Proof.Machine.execLnwait d a s
  | .spawn d a q => Sys2Proof.Machine.execSpawn d a q s
  | .join a sc => Sys2Proof.Machine.execJoin a sc s
  | .amsend d a q => Sys2Proof.Machine.execAmsend d a q s
  | .swpt n => Sys2Proof.Machine.execSwpt n s
  | .syscall code => Sys2Proof.Machine.execSyscall code s
  | .trap code => Sys2Proof.Machine.execTrap code s
  | .yield => Sys2Proof.Machine.execYield s
  | .exit => Sys2Proof.Machine.execExit s
  | .causew a => Sys2Proof.Machine.execCausew a s
  | .srseed a => Sys2Proof.Machine.execSrseed a s
  | .sprd d sp => Sys2Proof.Machine.execSprd d sp s
  | .spwr a sp => Sys2Proof.Machine.execSpwr a sp s
  | .replay d a => Sys2Proof.Machine.execReplay d a s
  | .iadd w => Sys2Proof.Machine.execIadd w s
  | .isub w => Sys2Proof.Machine.execIsub w s
  | .imul w => Sys2Proof.Machine.execImul w s
  | .imad w => Sys2Proof.Machine.execImad w s
  | .imulh w => Sys2Proof.Machine.execImulh w s
  | .idiv w => Sys2Proof.Machine.execIdiv w s
  | .imin w => Sys2Proof.Machine.execImin w s
  | .imax w => Sys2Proof.Machine.execImax w s
  | .icmp w => Sys2Proof.Machine.execIcmp w s
  | .laneShl w => Sys2Proof.Machine.execLaneShl w s
  | .laneShr w => Sys2Proof.Machine.execLaneShr w s
  | .laneSha w => Sys2Proof.Machine.execLaneSha w s
  | .laneAnd w => Sys2Proof.Machine.execLaneAnd w s
  | .laneOr w => Sys2Proof.Machine.execLaneOr w s
  | .laneXor w => Sys2Proof.Machine.execLaneXor w s
  | .not w => Sys2Proof.Machine.execNot w s
  | .bfe w => Sys2Proof.Machine.execBfe w s
  | .bfi w => Sys2Proof.Machine.execBfi w s
  | .popc w => Sys2Proof.Machine.execPopc w s
  | .clz w => Sys2Proof.Machine.execClz w s
  | .brev w => Sys2Proof.Machine.execBrev w s
  | .bilv w => Sys2Proof.Machine.execBilv w s
  | .bdlv w => Sys2Proof.Machine.execBdlv w s
  | .fadd w => Sys2Proof.Machine.execFadd w s
  | .fmul w => Sys2Proof.Machine.execFmul w s
  | .ffma w => Sys2Proof.Machine.execFfma w s
  | .fmin w => Sys2Proof.Machine.execFmin w s
  | .fmax w => Sys2Proof.Machine.execFmax w s
  | .fcmp w => Sys2Proof.Machine.execFcmp w s
  | .frcp w => Sys2Proof.Machine.execFrcp w s
  | .frsq w => Sys2Proof.Machine.execFrsq w s
  | .fsqrt w => Sys2Proof.Machine.execFsqrt w s
  | .fexp2 w => Sys2Proof.Machine.execFexp2 w s
  | .flog2 w => Sys2Proof.Machine.execFlog2 w s
  | .fsin w => Sys2Proof.Machine.execFsin w s
  | .fcos w => Sys2Proof.Machine.execFcos w s
  | .pkfma w => Sys2Proof.Machine.execPkfma w s
  | .pkadd w => Sys2Proof.Machine.execPkadd w s
  | .cvt w => Sys2Proof.Machine.execCvt w s
  | .vdot4 w => Sys2Proof.Machine.execVdot4 w s
  | .vdot8 w => Sys2Proof.Machine.execVdot8 w s
  | .pand w => Sys2Proof.Machine.execPand w s
  | .por w => Sys2Proof.Machine.execPor w s
  | .pxor w => Sys2Proof.Machine.execPxor w s
  | .pnot w => Sys2Proof.Machine.execPnot w s
  | .laneSel w => Sys2Proof.Machine.execLaneSel w s
  | .mov w => Sys2Proof.Machine.execMov w s
  | .shfl w => Sys2Proof.Machine.execShfl w s
  | .vote w => Sys2Proof.Machine.execVote w s
  | .ballot w => Sys2Proof.Machine.execBallot w s
  | .split w => Sys2Proof.Machine.execSplit w s
  | .joinL w => Sys2Proof.Machine.execJoinL w s
  | .lcall w => Sys2Proof.Machine.execLcall w s
  | .lret w => Sys2Proof.Machine.execLret w s
  | .laneLd w => Sys2Proof.Machine.execLaneLd w s
  | .laneSt w => Sys2Proof.Machine.execLaneSt w s
  | .ldc w => Sys2Proof.Machine.execLdc w s
  | .laneLds w => Sys2Proof.Machine.execLaneLds w s
  | .laneSts w => Sys2Proof.Machine.execLaneSts w s
  | .ldp w => Sys2Proof.Machine.execLdp w s
  | .stp w => Sys2Proof.Machine.execStp w s
  | .laneAtom w => Sys2Proof.Machine.execLaneAtom w s
  | .atoms w => Sys2Proof.Machine.execAtoms w s
  | .red w => Sys2Proof.Machine.execRed w s
  | .cpy w => Sys2Proof.Machine.execCpy w s
  | .fenceL w => Sys2Proof.Machine.execFenceL w s
  | .mbar w => Sys2Proof.Machine.execMbar w s
  | .isubIsl w => Sys2Proof.Machine.execIsubIsl w s
  | .qread w => Sys2Proof.Machine.execQread w s
  | .qclose w => Sys2Proof.Machine.execQclose w s
  | .attr w => Sys2Proof.Machine.execAttr w s
  | .trace w => Sys2Proof.Machine.execTrace w s
  | .refill w => Sys2Proof.Machine.execRefill w s
  | .neval w => Sys2Proof.Machine.execNeval w s
  | .mma w => Sys2Proof.Machine.execMma w s
  | .mloadb w => Sys2Proof.Machine.execMloadb w s
  | .mscale w => Sys2Proof.Machine.execMscale w s
  | .aclr w => Sys2Proof.Machine.execAclr w s
  | .aout w => Sys2Proof.Machine.execAout w s
  | .amove w => Sys2Proof.Machine.execAmove w s
  | .mgear w => Sys2Proof.Machine.execMgear w s
  | .mbudget w => Sys2Proof.Machine.execMbudget w s
  | .mstat w => Sys2Proof.Machine.execMstat w s
  | .mwaitq w => Sys2Proof.Machine.execMwaitq w s
  | .matrixBarArrive w => Sys2Proof.Machine.execMatrixBarArrive w s
  | .matrixBarWait w => Sys2Proof.Machine.execMatrixBarWait w s
  | .matrixQpop w => Sys2Proof.Machine.execMatrixQpop w s
  | .matrixQpush w => Sys2Proof.Machine.execMatrixQpush w s
  | .matrixTlwait w => Sys2Proof.Machine.execMatrixTlwait w s
  | .mend w => Sys2Proof.Machine.execMend w s
  | .mendLoop w => Sys2Proof.Machine.execMendLoop w s
  | .doorbell wr v => Sys2Proof.Machine.execDoorbell wr v s
  | .d2dsyncRead => Sys2Proof.Machine.execD2dsyncRead s
  | .msigen wr v => Sys2Proof.Machine.execMsigen wr v s
  | .sysdone wr v => Sys2Proof.Machine.execSysdone wr v s
  | .faultRetry wr ctx rsv id => Sys2Proof.Machine.execFaultRetry wr ctx rsv id s
  | .faultFatal wr ctx rsv id => Sys2Proof.Machine.execFaultFatal wr ctx rsv id s
  | .faultPost ctx => Sys2Proof.Machine.execFaultPost ctx s
  | .bind wr ctx rsv => Sys2Proof.Machine.execBind wr ctx rsv s
  | .makeres wr ctx rsv => Sys2Proof.Machine.execMakeres wr ctx rsv s
  | .preempt wr ctx rsv => Sys2Proof.Machine.execPreempt wr ctx rsv s
  | .reset wr ctx rsv => Sys2Proof.Machine.execReset wr ctx rsv s
  | .release wr ctx rsv => Sys2Proof.Machine.execRelease wr ctx rsv s
  | .firstDeadline ctx => Sys2Proof.Machine.execFirstDeadline ctx s
  | .secondDeadline ctx => Sys2Proof.Machine.execSecondDeadline ctx s
  | .stop wr ctx g => Sys2Proof.Machine.execStop wr ctx g s
  | .resume wr ctx g => Sys2Proof.Machine.execResume wr ctx g s
  | .stepL wr ctx g => Sys2Proof.Machine.execStepL wr ctx g s
  | .stepS wr ctx g => Sys2Proof.Machine.execStepS wr ctx g s
  | .tlbInvalidatePage wr ctx => Sys2Proof.Machine.execTlbInvalidatePage wr ctx s
  | .tlbInvalidateContext wr ctx => Sys2Proof.Machine.execTlbInvalidateContext wr ctx s
  | .tlbInvalidateAll wr ctx => Sys2Proof.Machine.execTlbInvalidateAll wr ctx s
  | .tlbInvalidationDone => Sys2Proof.Machine.execTlbInvalidationDone s
  | .scpartWrite wr n v => Sys2Proof.Machine.execScpartWrite wr n v s
  | .pwrpoolWrite wr v => Sys2Proof.Machine.execPwrpoolWrite wr v s
  | .registerWrite wr off v => Sys2Proof.Machine.execRegisterWrite wr off v s
  | .powerSave wr => Sys2Proof.Machine.execPowerSave wr s
  | .powerOff wr => Sys2Proof.Machine.execPowerOff wr s
  | .powerReset wr => Sys2Proof.Machine.execPowerReset wr s
  | .powerGood => Sys2Proof.Machine.execPowerGood s
  | .perst => Sys2Proof.Machine.execPerst s
  | .functionLevelReset => Sys2Proof.Machine.execFunctionLevelReset s
  | .d3hotEntry => Sys2Proof.Machine.execD3hotEntry s
  | .d3hotExit => Sys2Proof.Machine.execD3hotExit s
  | .gddr7SelfRefresh => Sys2Proof.Machine.execGddr7SelfRefresh s
  | .enter wr core => Sys2Proof.Machine.execEnter wr core s
  | .start wr core => Sys2Proof.Machine.execStart wr core s
  | .leave wr core => Sys2Proof.Machine.execLeave wr core s
  | .selfTest u errs => Sys2Proof.Machine.execSelfTest u errs s
  | .handover wr head => Sys2Proof.Machine.execHandover wr head s
  | .headRelease wr head => Sys2Proof.Machine.execHeadRelease wr head s
  | .frameStart head => Sys2Proof.Machine.execFrameStart head s
  | .budgetGrant frame => Sys2Proof.Machine.execBudgetGrant frame s
  | .budgetTick pbase => Sys2Proof.Machine.execBudgetTick pbase s
  | .grantTimeout => Sys2Proof.Machine.execGrantTimeout s
  | .blockRetire b => Sys2Proof.Machine.execBlockRetire b s
  | .writeAcknowledge core n => Sys2Proof.Machine.execWriteAcknowledge core n s
  | .lnwaitTimeout g => Sys2Proof.Machine.execLnwaitTimeout g s
  | .longLatencyResolve g n threads => Sys2Proof.Machine.execLongLatencyResolve g n threads s
  | .nop c => Sys2Proof.Machine.execNop c s
  | .copy c => Sys2Proof.Machine.execCopy c s
  | .fill c => Sys2Proof.Machine.execFill c s
  | .link c => Sys2Proof.Machine.execLink c s
  | .wait c => Sys2Proof.Machine.execWait c s
  | .commandComplete c => Sys2Proof.Machine.execCommandComplete c s
  | .islandAccept n => Sys2Proof.Machine.execIslandAccept n s
  | .islandPass n => Sys2Proof.Machine.execIslandPass n s
  | .islandDeliver n => Sys2Proof.Machine.execIslandDeliver n s
  | .shaderTableLookup n => Sys2Proof.Machine.execShaderTableLookup n s
  | .tileWindowClose core => Sys2Proof.Machine.execTileWindowClose core s
  | .draftTileRun core => Sys2Proof.Machine.execDraftTileRun core s
  | .arrayGrant core => Sys2Proof.Machine.execArrayGrant core s
  | .attemptEnd core => Sys2Proof.Machine.execAttemptEnd core s
  | .trapEntry g => Sys2Proof.Machine.execTrapEntry g s
  | .powerRemoval alwaysOn => Sys2Proof.Machine.execPowerRemoval alwaysOn s
  | .fsyncInPulse => Sys2Proof.Machine.execFsyncInPulse s
  | .engineTailWrite e tail => Sys2Proof.Machine.execEngineTailWrite e tail s
  | .illegalEncoding st => Sys2Proof.Machine.execIllegalEncoding st s
  | .loadobj => Sys2Proof.Machine.execLoadobj s
  | .bindisl => Sys2Proof.Machine.execBindisl s
  | .relport => Sys2Proof.Machine.execRelport s
  | .attest => Sys2Proof.Machine.execAttest s
  | .genkey => Sys2Proof.Machine.execGenkey s
  | .keyinstall => Sys2Proof.Machine.execKeyinstall s
  | .keyrevoke => Sys2Proof.Machine.execKeyrevoke s
  | .lcchange => Sys2Proof.Machine.execLcchange s
  | .dispatch => Sys2Proof.Machine.execDispatch s
  | .launchExpand => Sys2Proof.Machine.execLaunchExpand s
  | .joinCounterReread => Sys2Proof.Machine.execJoinCounterReread s
  | .candidateAged => Sys2Proof.Machine.execCandidateAged s
  | .moveMark => Sys2Proof.Machine.execMoveMark s

end Sys2Proof.Machine
end

