-- ==== Sys2Proof/Machine/Fetch.lean ====
section
/-! DEFINITION. What a turn of the agenda comes to: fetching and decoding a stream's next word (R13, R108), runs (R205), the
entries that a return re-injects (R311), breakpoints (R322), the groups among which a lane and a scheduler choose (R273, R274),
the turns of device units and outside parties, and a round of turns where none is given. -/

namespace Sys2Proof.Machine

open Sys2Proof

/-- What a word of a stream comes to before exec: nothing is left to execute, or one instruction is. -/
inductive Prep where
  | settled (s : State)
  | run (i : Instr) (s : State)
deriving DecidableEq, Repr

/-- What a turn comes to: one such word or event, or a lane or a scheduler's scalar unit that chooses among groups. -/
inductive Turned where
  | one (p : Prep)
  | lane (s : State) (rs : List GroupRef)
  | scalar (s : State) (rs : List GroupRef)
deriving DecidableEq, Repr

/-- The word that a stream executes next. -/
def runAs (s : State) (c : Cur) (i : Instr) : Prep := .run i { s with cur := c, selfRefresh := false }
def curOf (r : GroupRef) (st : Stream) : Cur := if st = .scalar then .scalar r else .lane r

/-- The bytes of a word of code (R48, R108, R345), through the line buffer of a scheduler where the stream has one. -/
def fetchCode (s : State) (test : Bool) (c : BitVec 8) (core : Nat) (sched : Option Nat) (pc : VAddr) (n : Nat) :
    State × Except (Deny × W64) (List Byte) :=
  match codeSpan s (some core) test c pc n with
  | (s, .error d) => (s, .error d)
  | (s, .ok pas) =>
    match pas.find? fun a => s.poison.contains a with
    | some a => (logPoison s a, .error (.error, pc.setWidth 64))
    | none =>
      let (s, bs) := fetchBytes s core sched pas
      (s, .ok bs)

/-- The word that a group's stream has fetched last; 0 while its fetch has not succeeded. -/
def Group.setWord (g : Group) (st : Stream) (w : W96) : Group := if st = .scalar then { g with wordS := w } else { g with wordL := w }
/-- A group's next word fetched and noted. -/
def fetchWord (s : State) (g : Group) (b : Block) (st : Stream) (pc : VAddr) : State × Except (Deny × W64) (List Byte) :=
  let n := if st = .scalar then 4 else 12
  match fetchCode s b.test g.ctx g.ref.core.toNat (some (g.lane.toNat / 32)) pc n with
  | (s, .error d) => (s.modGroup g.ref fun g => g.setWord st 0, .error d)
  | (s, .ok bs) => (s.modGroup g.ref fun g => g.setWord st (word96 bs), .ok bs)

/-- Whether a breakpoint of a context stands at a word (R322): stream 1 scalar, 2 lane, 3 matrix. -/
def breakAt (s : State) (c : BitVec 8) (stream : Nat) (pc : VAddr) : Bool :=
  (s.ctx? c).any fun x => x.desc.bps.any fun v => bits v.toNat 63 62 = stream && bits v.toNat 51 0 = pc.toNat

/-- A decoded word, or the illegal encoding that the stream met (R124). -/
def decoded (s : State) (c : Cur) (st : Stream) (bs : List Byte) : Prep :=
  match decodeBytes st bs with
  | .ok i => runAs s c i
  | .error _ => runAs s c (.illegalEncoding st)

/-- A fetch that is denied: the stream parks, or the word raises its cause (R58, R306). A word that has not begun parks only
where it is no more than R310 allows. -/
def fetchDenied (s : State) (g : Group) (st : Stream) (pc : VAddr) (d : Deny × W64) : State :=
  let who : Mask := if st = .lane then g.active else 0
  let begun := g.inject.isSome || (if st = .scalar then g.blockedS else g.blockedL)
  match faultKind d.1 with
  | some k => if begun || inFlight s g < 12 then parkStream s g st [⟨d.2, .exec, k, who⟩] else s
  | none => raiseWord s g st pc (if d.1 = .error then 1 else 6) 0 who d.2

/-- A parked stream: nothing, or the cause of a FATAL verdict at its word (R59, R314). -/
def parkTurn (s : State) (g : Group) (st : Stream) (pc : VAddr) (p : Park) : State :=
  if !p.fatal then s
  else
    let clear := fun (g : Group) => if st = .scalar then { g with parkS := none } else { g with parkL := none }
    raiseWord (s.modGroup g.ref clear) (clear g) st pc 7 0 (if st = .scalar then 0 else p.who) p.va

/-- What a load entry reads again (R310). -/
structure LoadShape where
  size : Nat
  signed : Bool
  dst : Nat
  discard : Bool
  pred : Nat
  /-- A .U load: one access for all threads. -/
  one : Bool
  const : Bool
  ord : OrdMod
  sc : Nat
deriving DecidableEq, Repr

def scalarShape (size : Nat) (signed : Bool) (d : BitVec 5) (o : OrdMod) (sc : Nat) : LoadShape :=
  ⟨size, signed, d.toNat, d = 0, 0, false, false, o, sc⟩
def laneShape (w : LaneWord) (const : Bool) : LoadShape :=
  ⟨laneSize w.mwidth, laneSigned w.mwidth, w.d.toNat, !(isV w.d), 0, w.u, const, laneOrd w.mord, w.x.toNat⟩
def loadShape (e : Replay) : Option LoadShape :=
  if e.stream = .scalar then
    match decodeScalar (e.word.setWidth 32) with
    | .ok (.ldN8 d _ _ _) => some (scalarShape 1 false d .relaxed 0)
    | .ok (.ldN16 d _ _ _) => some (scalarShape 2 false d .relaxed 0)
    | .ok (.ldN32 d _ _ _) => some (scalarShape 4 false d .relaxed 0)
    | .ok (.ldN64 d _ _ _) => some (scalarShape 8 false d .relaxed 0)
    | .ok (.ldI8 d _ _ _) => some (scalarShape 1 true d .relaxed 0)
    | .ok (.ldI16 d _ _ _) => some (scalarShape 2 true d .relaxed 0)
    | .ok (.ldI32 d _ _ _) => some (scalarShape 4 true d .relaxed 0)
    | .ok (.ldOrdered d _ _ w o sc) => some (scalarShape (Width.size w) (Width.signed w) d o sc.toNat)
    | _ => none
  else
    match decodeLane e.word with
    | .ok (.laneLd w) => some (laneShape w false)
    | .ok (.ldc w) => some (laneShape w true)
    | .ok (.refill w) => some ⟨4, false, w.d.toNat, false, w.c.toNat, false, false, .relaxed, 0⟩
    | _ => none

/-- The values of the accesses of a load entry. -/
def injectReads (r : GroupRef) (st : Stream) (h : LoadShape) (kind : Nat) :
    State → List (Nat × W64 × Xlat) → State × List (Nat × BitVec 128)
  | s, [] => (s, [])
  | s, (t, _, x) :: xs =>
    let who : Agent := if st = .scalar then .scalar r else .thread r t
    let (s, bs) := if h.const then constRead s r.core.toNat x.pa h.size
      else coreRead s r.core.toNat who (asKind kind x) (x.pte.cpol = 1) x.pa h.size
    let (s, l) := injectReads r st h kind s xs
    (s, (t, BitVec.ofNat 128 (leNat bs)) :: l)

/-- R311: a load entry's access is made again for its threads, at its addresses, with the fence after it of a strongly ordered
one (R65), and its destinations are written. -/
def injectLoad (s : State) (g : Group) (b : Block) (e : Replay) (h : LoadShape) : WordRes :=
  let core := g.ref.core.toNat
  let ts := if h.one then [lowest e.rmask] else threadsOf e.rmask
  withAccess s g b .read h.size (ts.map fun t => (t, e.addrs.getD t 0)) fun s xs =>
    let kind := if h.const then 2 else strongest xs
    if !(kindReady s core kind) then .wait s
    else
      let (s, vs) := injectReads g.ref e.stream h kind s xs
      let s := soAfter (acqNow s core h.ord h.sc) core kind
      let l : Load :=
        { stream := e.stream, word := e.word, pc := e.pc, size := h.size, signed := h.signed, dst := h.dst, discard := h.discard
          spread := if h.one then e.rmask else 0, pred := h.pred, core := g.ref.core, parts := [], window := 0, watch := none }
      .done (s.modGroup g.ref fun g => vs.foldl (fun g (t, v) => deliverPart g l t v) g)

/-- A group stands at its first replay entry: where its streams resume is kept aside (R311). -/
def Group.atEntry (g : Group) (e : Replay) : Group :=
  let g := { g with inject := some (g.place .scalar, g.place .lane, e.rmask) }
  if e.stream = .scalar then { g with spc := e.pc } else { g with lpc := e.pc }
/-- The word of the first entry has been fetched: the entry captures it, for those of its threads that its guard selects
(R118, R310). -/
def Group.entryFetched (g : Group) (e : Replay) (w : W96) : Group :=
  let m := if e.stream = .scalar then e.rmask else e.rmask &&& selectedOf { g with inject := none } (unpack w).2
  { g with replay := { e with word := w, rmask := m } :: g.replay.drop 1, inject := g.inject.map fun (a, b, _) => (a, b, m) }

/-- R311 step 5: the first entry is performed, before any other word of either stream; one that waited on its own fetch is
fetched at its address (assumption 79). -/
def prepEntry (s : State) (g : Group) (b : Block) (e : Replay) : Prep :=
  let begun := g.inject.isSome
  let g' := g.atEntry e
  let s' := s.modGroup g.ref fun _ => g'
  let go : Prep :=
    if e.unfinished && e.word = 0 then
      match fetchCode s' b.test g.ctx g.ref.core.toNat (some (g.lane.toNat / 32)) e.pc (if e.stream = .scalar then 4 else 12) with
      | (s, .error d) => .settled (fetchDenied s g' e.stream e.pc d)
      | (s, .ok bs) => decoded (s.modGroup g.ref fun _ => g'.entryFetched e (word96 bs)) (curOf g.ref e.stream) e.stream bs
    else if e.unfinished then
      match (if e.stream = .scalar then decodeScalar (e.word.setWidth 32) else decodeLane e.word) with
      | .ok i => runAs s' (curOf g.ref e.stream) i
      | .error _ => runAs s' (curOf g.ref e.stream) (.illegalEncoding e.stream)
    else match loadShape e with
      | some h => .settled (finishWord s' g' e.stream (if e.stream = .scalar then 4 else 12) (injectLoad s' g' b e h))
      | none => .settled (s'.modGroup g.ref fun g => g.issuedAt e.stream e.pc g.spc g.lpc s.cycle)
  match (if e.stream = .scalar then g.parkS else g.parkL) with
  | none => go
  | some p =>
    if p.fatal && (begun || e.unfinished) then .settled (parkTurn s' g' e.stream e.pc p)
    else if begun then .settled s
    else if p.fatal then go else .settled s

/-- Whether the debugger holds a stream (R323). -/
def holdsBack (g : Group) (st : Stream) : Bool :=
  !g.trapm && match g.hold with
  | .stepLane => st = .scalar && !g.queue.isEmpty
  | .stepScalar => st = .lane
  | _ => false

/-- R311: a stream that has finished a re-injected word in which it waited goes on where the return said. -/
def Group.redirected (g : Group) (st : Stream) : Group :=
  match g.redirect.find? fun r => r.1 = st with
  | none => g
  | some (_, a, b) =>
    if st = .scalar then (if g.spc = a then { g with spc := b, redirect := g.redirect.filter (·.1 ≠ st) } else g)
    else if g.lpc = a then { g with lpc := b, redirect := g.redirect.filter (·.1 ≠ st) } else g

/-- A group's stream tries its next word: a stop, a cause that waits to be taken and the replay entries come first. -/
def groupTurn (s : State) (r : GroupRef) (st : Stream) (go : State → Group → Block → Prep) : Prep :=
  let s := clearLeft (takeStop s r) r
  match s.group? r, s.block? (blockOf r) with
  | some g, some b =>
    let saving := !b.test && (s.ctx? g.ctx).any (·.saving)
    if g.exited || saving || g.hold = .stopped then .settled s
    else if g.pend.isSome then .settled (tryEnter s r)
    else match g.replay with
      | e :: _ => if e.stream = st then prepEntry s g b e else .settled s
      | [] =>
        if holdsBack g st then .settled s
        else if g.redirected st ≠ g then .settled (s.modGroup r fun g => g.redirected st)
        else go s g b
  | _, _ => .settled s

/-- R274: a second word of a group in one cycle issues only where both are scalar ALU words and it does not read the first's
destination. -/
def pairsWith (s : State) (g : Group) (w : BitVec 32) : Bool :=
  let r := (s.core g.ref.core.toNat).scheds.getD (g.lane.toNat / 32) ⟨0, 0, none, none⟩
  if r.cycle = s.cycle && r.words ≠ 0 && r.last = some g.ref then
    match r.alu, aluOf w with
    | some d, some (_, reads) => !reads.contains d
    | _, _ => false
  else true

/-- The next scalar word (R13); in loop-buffer mode a REPLAY's low half must be zero (R324). -/
def scalarNext (s : State) (g : Group) (b : Block) : Prep :=
  match g.parkS with
  | some p => .settled (parkTurn s g .scalar g.spc p)
  | none =>
    if !b.test && !g.trapm && !g.blockedS && g.skipbp ≠ some g.spc && breakAt s g.ctx 1 g.spc then
      .settled (raise s g (causeAt g 0x30 0 0 0 g.spc 0 0))
    else match fetchWord s g b .scalar g.spc with
      | (s, .error d) => .settled (fetchDenied s g .scalar g.spc d)
      | (s, .ok bs) =>
        if !(pairsWith s g (word32 bs)) then .settled s
        else match decodeScalar (word32 bs) with
        | .ok (.replay _ _) =>
          if b.test && (s.core g.ref.core.toNat).loopMode && !(replayLow (word32 bs)) then
            runAs s (.scalar g.ref) (.illegalEncoding .scalar)
          else decoded s (.scalar g.ref) .scalar bs
        | _ => decoded s (.scalar g.ref) .scalar bs

/-- R324: a code steps by an increment, a constant's too. -/
def stepCode (c : BitVec 8) (i : Nat) : BitVec 8 := if c.toNat ≤ 247 then BitVec.ofNat 8 ((c.toNat + i) % 248) else c
def stepWord (l : LoopWord) : LoopWord :=
  let (op, w) := unpack l.word
  let i := fun (k : Nat) => l.inc.toNat / 256 ^ k % 256
  { l with word := pack op { w with d := stepCode w.d (i 0), a := stepCode w.a (i 1), b := stepCode w.b (i 2), c := stepCode w.c (i 3)
                                    imm := w.imm + l.imm } }
/-- R324: the next iteration of a loop whose run has ended, or its end. -/
def Group.loopNext (g : Group) : Group :=
  match g.loop with
  | none => g
  | some l =>
    if l.ended || !g.runs.isEmpty then g
    else if l.count ≤ l.iter + 1 then { g with loop := some { l with iter := l.iter + 1, ended := true } }
    else { g with loop := some { l with iter := l.iter + 1, words := l.words.map stepWord }
                  runs := [{ first := l.first, words := l.words.length, started := false, depth := 0, caps := [], marks := []
                             later := [], snapS := [], snapK := [] }] }

/-- R205: the run at the head of the queue begins at its first word. -/
def Group.startRun (g : Group) : Group :=
  match g.queue with
  | q :: qs => if q.started then g else { g.setQueue ({ q with started := true, depth := g.stack.length } :: qs) with lpc := q.first }
  | [] => g

/-- The word of a loop buffer at LPC (R324). -/
def Group.loopWord (g : Group) : Option W96 :=
  g.loop.bind fun l => g.run?.bind fun r => (r.index g.lpc).bind fun i => l.words[i]?.map (·.word)

/-- The next lane word (R13, R205); a deferred cause comes before it (R307). -/
def laneNext (s : State) (g : Group) (b : Block) : Prep :=
  match g.parkL with
  | some p => .settled (parkTurn s g .lane g.lpc p)
  | none =>
    if g.queue.isEmpty then .settled (s.modGroup g.ref Group.loopNext)
    else match (if g.trapm then none else g.held) with
      | some c => .settled (raiseOwn s g c)
      | none =>
        let g := g.startRun
        let s := rescan (s.modGroup g.ref fun _ => g) g
        if !b.test && !g.trapm && !g.blockedL && !g.fenced && g.skipbpL ≠ some g.lpc && breakAt s g.ctx 2 g.lpc then
          .settled (raise s g (causeAt g 0x30 0 0 0 g.lpc g.active 0))
        else match g.loopWord with
          | some w => decoded (s.modGroup g.ref fun g => g.setWord .lane w) (.lane g.ref) .lane (bytesOf 12 w.toNat)
          | none =>
            match fetchWord s g b .lane g.lpc with
            | (s, .error d) => .settled (fetchDenied s g .lane g.lpc d)
            | (s, .ok bs) => decoded s (.lane g.ref) .lane bs

/-- The next matrix word (R13, R234-R238): none before the last one's contract latency has passed, nor while a pass is under way, but for one that still takes its rows (R243). -/
def matrixNext (s : State) (b : Block) : Prep :=
  let q := b.seq
  let halt := fun (s : State) (code : Nat) (va : W64) => Prep.settled (raiseSeq s b code 0 va)
  if q.idle || q.halted || q.stopped || s.cycle < q.ready || (!b.test && (s.ctx? b.ctx).any (·.saving)) then .settled s
  else match q.park, q.pass with
    | some p, _ =>
      if p.fatal then halt (s.modBlock b.ref fun b => { b with seq := { b.seq with park := none } }) 7 p.va else .settled s
    | none, some p =>
      if (mmaOf p.word).src = 2 then
        match decodeMatrix p.word with
        | .ok i => runAs s (.matrix b.ref) i
        | .error _ => .settled s
      else .settled s
    | none, none =>
      if !b.test && !q.skipbp && breakAt s b.ctx 3 q.mpc then halt s 0x30 0
      else match fetchCode s b.test b.ctx b.ref.core.toNat none q.mpc 12 with
        | (s, .error d) =>
          match faultKind d.1 with
          | some k => .settled (parkSeq s b [⟨d.2, .exec, k, 0⟩])
          | none => halt s (if d.1 = .error then 1 else 6) d.2
        | (s, .ok bs) =>
          decoded (s.modBlock b.ref fun b => { b with seq := { b.seq with word := word96 bs } }) (.matrix b.ref) .matrix bs

/-- A device operation or event, as opposed to a word of a stream. -/
def isEvent (i : Instr) : Bool :=
  match i with
  | .illegalEncoding _ => false
  | i => (streamOf i).isNone

/-- The groups of a lane, from the lane's pointer upward and wrapping round (R273); none while a word occupies it (R10). -/
def laneGroups (s : State) (core lane : Nat) : List GroupRef :=
  let here := s.groups.filter fun g => g.ref.core.toNat = core && g.lane.toNat = lane
  let ptr := ((s.core core).lanePtr.get lane).toNat
  if here.any fun g => s.cycle < g.laneUntil then []
  else (sortKeys (fun (g : Group) => [(g.pos + 4 - ptr) % 4]) (here.filter fun g => !g.exited)).map (·.ref)

/-- Whether R29's bound leaves an overdue group no more turns to spare: with n groups on the scheduler it must issue within
16 + (n - 1) cycles, and those that have waited at least as long go before it. -/
def tight (gs : List Group) (now : Nat) (g : Group) : Bool :=
  gs.length + 16 ≤ (now - g.stamp) + (gs.filter fun h => h.stamp ≤ g.stamp).length
/-- R274's key of a group. Where the key as it is written would pass over an overdue group past R29's bound, that group comes
first, the oldest of such: the model's choice between the two rules (assumption 94). -/
def scalarKey (gs : List Group) (now : Nat) (g : Group) : List Nat :=
  (if tight gs now g then [0, g.stamp]
   else [1, if g.stamp + 16 ≤ now then 0 else 1, if g.queue.isEmpty then 0 else 1, g.stamp]) ++ [g.lane.toNat, g.pos]
/-- The groups of a scheduler by R274's key; none once its scalar unit has issued two words in the cycle. -/
def scalarGroups (s : State) (core sched : Nat) : List GroupRef :=
  let r := (s.core core).scheds.getD sched ⟨0, 0, none, none⟩
  let gs := s.groups.filter fun g => !g.exited && g.ref.core.toNat = core && g.lane.toNat / 32 = sched
  if r.cycle = s.cycle && 2 ≤ r.words then [] else (sortKeys (scalarKey gs s.cycle) gs).map (·.ref)
/-- A group whose next scalar word cannot issue in this cycle: it is ready in a later one at the earliest (R274). -/
def notReady (s : State) (r : GroupRef) : State := s.modGroup r fun g => { g with stamp := s.cycle + 1 }

/-- Who writes a register, where an event is the write of one (R328). -/
def writerOf (i : Instr) : Option Writer :=
  match i with
  | .registerWrite wr _ _ | .doorbell wr _ | .msigen wr _ | .sysdone wr _ | .faultRetry wr _ _ _ | .faultFatal wr _ _ _ | .bind wr _ _
  | .makeres wr _ _ | .preempt wr _ _ | .reset wr _ _ | .release wr _ _ | .stop wr _ _ | .resume wr _ _ | .stepL wr _ _ | .stepS wr _ _
  | .tlbInvalidatePage wr _ | .tlbInvalidateContext wr _ | .tlbInvalidateAll wr _ | .scpartWrite wr _ _ | .pwrpoolWrite wr _
  | .enter wr _ | .start wr _ | .leave wr _ | .handover wr _ | .headRelease wr _ | .powerSave wr | .powerOff wr | .powerReset wr => some wr
  | _ => none

/-- R336: what a device that is not up, or in a low-power state, still hears (assumption 29). -/
def powerEvent (i : Instr) : Bool :=
  match i with
  | .powerGood | .perst | .functionLevelReset | .powerRemoval _ | .d3hotExit => true
  | _ => false
def heard (s : State) (t : Turn) : Bool :=
  match t with
  | .tick => true
  | .extWrite pa _ | .hostWrite pa _ => s.power == .d0 || gddrTop ≤ pa
  | .hostDone i => (s.hostPend[i]?).any fun w => s.power == .d0 || gddrTop ≤ w.1
  | .event i =>
    match s.power with
    | .d3cold => i == .powerGood
    -- The I/O cores stay on; the large cores, the other writers of the system die, are off (R337).
    | .d3hot => powerEvent i || (writerOf i).any isSysWriter
    | .d0 => s.booted || powerEvent i || match i with
      | .powerSave _ | .powerOff _ | .powerReset _ => true
      | .registerWrite _ off _ => off = 0x60000
      | _ => false
  | _ => s.power == .d0 && s.booted
/-- The host's register writes, but for PWRCTL's (R328, R336). -/
def isHeld (i : Instr) : Bool :=
  match i with
  | .powerSave _ | .powerOff _ | .powerReset _ => false
  | _ => writerOf i == some .host
/-- A turn that is not heard: before bring-up completes a write of BAR0 is held (R336), and nothing else stays. -/
def unheard (s : State) (t : Turn) : State :=
  match t with
  | .event i => if s.power == .d0 && isHeld i then { s with heldWrites := s.heldWrites ++ [i] } else s
  | _ => s

/-- A cycle passes; the draft units form their tiles (R257). -/
def newCycle (s : State) : State := (List.range Config.cores).foldl formTiles { s with cycle := s.cycle + 1 }
/-- One turn of anything but a lane or a scalar unit. -/
def otherTurn (s : State) (t : Turn) : Prep :=
  match t with
  | .scalar _ _ | .lane _ _ => .settled s
  | .matrix r =>
    match s.block? r with
    | some b => matrixNext s b
    | none => .settled s
  | .event i => if isEvent i then .run i { s with cur := .none } else .settled s
  | .tick => .settled (newCycle s)
  | .extWrite pa bytes => .settled (physWrite s pa bytes)
  | .hostWrite pa bytes => .settled { s with hostPend := s.hostPend ++ [(pa, bytes)] }
  | .hostDone i => .settled (hostDone s i)
  | .spoil p => .settled (spoilCell s p)
  | .thermal u => .settled (logThermal s u)
  | .engineCreate e c base scope => .settled (createEngine s e c (base.setWidth 64) scope)
  | .detectError u corrected addr => .settled (detectError s u corrected addr)
  | .poison pa n => .settled (poisonBytes s pa n)
/-- One turn. -/
def turnOf (s : State) (t : Turn) : Turned :=
  match t with
  | .scalar c d => .scalar s (scalarGroups s c.toNat d.toNat)
  | .lane c l => .lane s (laneGroups s c.toNat l.toNat)
  | t => .one (otherTurn s t)

/-- The lanes and the schedulers of a round that hold a group; a scheduler issues up to two words in a cycle (R274). -/
def laneTurns (s : State) : List Turn :=
  ((s.groups.filter fun g => !g.exited).map fun g => (g.ref.core, g.lane)).eraseDups.map fun (c, l) => .lane c l
def scalarTurns (s : State) : List Turn :=
  let units := ((s.groups.filter fun g => !g.exited).map fun g => (g.ref.core, g.lane.toNat / 32)).eraseDups
  (units ++ units).map fun (c, d) => .scalar c (BitVec.ofNat 2 d)

/-- What the device's units still have to do. -/
def ctxTurns (x : Ctx) : List Instr :=
  (if x.posts.isEmpty then [] else [.faultPost x.id]) ++
  (if x.st == .draining then [.firstDeadline x.id, .secondDeadline x.id] else [])
def coreTurns (s : State) (n : Nat) : List Instr :=
  let k := s.core n
  let c := BitVec.ofNat 6 n
  (if k.pend.isEmpty then [] else [.writeAcknowledge c 0]) ++
  (if k.rowsWait.isEmpty && k.tiles.isEmpty && k.nevals.isEmpty then [] else [.tileWindowClose c, .draftTileRun c]) ++
  (if (chosen s n).isSome then [.arrayGrant c] else []) ++ (if k.array.isSome then [.attemptEnd c] else [])
def groupTurns (g : Group) : List Instr :=
  (if g.loads.isEmpty then [] else [.longLatencyResolve g.ref 0 0xFFFFFFFF]) ++ (if g.pend.isSome then [.trapEntry g.ref] else []) ++
  (if g.waits.ln.isSome then [.lnwaitTimeout g.ref] else [])
def islandTurns (s : State) (n : Nat) : List Instr :=
  let i := s.island n
  let r := BitVec.ofNat 5 n
  (if i.input.isEmpty then [] else [.islandAccept r]) ++ (if i.flight.isEmpty then [] else [.islandPass r]) ++
  (if i.out.isEmpty then [] else [.islandDeliver r]) ++ (if s.rays.any (·.island = n) then [.shaderTableLookup r] else [])
def commandTurns (c : CmdRef) : List Instr := [.nop c, .copy c, .fill c, .link c, .wait c, .commandComplete c]
def engineTurns (e : EngineCtx) : List Instr :=
  (e.cmds.map (·.n) ++ [e.nextN]).eraseDups.flatMap fun n => commandTurns (.chain e.ref n)
def unitTurns (s : State) : List Instr :=
  s.ctxs.flatMap ctxTurns ++
  (if s.ctxs.any fun x => x.st == .resident then [.launchExpand, .joinCounterReread, .dispatch, .moveMark]
   else if s.ctxs.any fun x => !x.dones.isEmpty then [.joinCounterReread] else []) ++
  (List.range Config.cores).flatMap (coreTurns s) ++ s.groups.flatMap groupTurns ++ s.blocks.map (fun b => .blockRetire b.ref) ++
  (List.range 32).flatMap (islandTurns s) ++ s.engines.flatMap engineTurns ++
  (s.copies.filter fun k => !k.done).flatMap (fun k => commandTurns (.copy k.g k.n)) ++
  (if (headRequest? s).isSome then [.loadobj, .bindisl, .relport, .attest, .genkey, .keyinstall, .keyrevoke, .lcchange] else []) ++
  (if s.regs.tlbBusy then [.tlbInvalidationDone] else [])

/-- A round of turns, for an agenda that has run out (assumption 4): a cycle, host writes, the units, the lanes, the scalar units
and the sequencers. -/
def round (s : State) : List Turn :=
  .tick :: (s.hostPend.map fun _ => Turn.hostDone 0) ++ (unitTurns s).map Turn.event ++ laneTurns s ++ scalarTurns s ++ (s.blocks.filter fun b => !b.seq.idle).map fun b => .matrix b.ref

/-- What a step does before exec. -/
def prepare (s : State) : Turned :=
  match s.agenda with
  | [] => .one (.settled { s with agenda := round s })
  | t :: r =>
    let s := { s with agenda := r, issued := false }
    if heard s t then turnOf s t else .one (.settled (unheard s t))

/-- What a step does after exec: no word is being executed. -/
def settle (s : State) : State := { s with cur := .none }

/-- Where an installed word lies, for its context and in physical memory. -/
def wordAddr : Nat := 0x10000
/-- The page tables of an installed context: one 1 GiB leaf that maps the first GiB onto itself, readable, writable and
executable, reordering-cached, with A and D set (R53, R54). -/
def identityTables : List (Nat × Nat) :=
  [(0x30000000, 1 + 0x30001 * 2 ^ 20), (0x30001000, 1 + 0x30002 * 2 ^ 20), (0x30002000, 0x1FB)]
/-- An installed context's descriptor (R305). -/
def wordDesc : Desc :=
  { ptroot := 0x30000000, flags := 0, keyslot := 0, d1 := 1, d2 := 2, tqtab := 0x20000, porttab := 0x23000, nettab := 0x24000
    netcount := 0, mrcount := 0, mrtab := 0x25000, tfbase := 0x1000000, hspc := 0x26000, hlbase := 0x27000, fqbase := 0x28000
    fqlog2 := 6, savebase := 0x2000000, savelen := 0, bps := [0, 0, 0, 0], wps := [(0, 0), (0, 0)] }
def wordCtx : Ctx := { boundCtx 1 wordDesc with st := .resident, att := [] }
/-- An installed kernel: one group and a matrix section. -/
def wordVariant : Variant :=
  { vcnt := 128, groups := 1, scratch := 0x10000, priv := 128, accrows := 2048, bslots := 128, scalekb := 64, msec := true
    sentry := BitVec.ofNat 52 wordAddr, lbase := BitVec.ofNat 52 wordAddr, lentry := 0, mentry := BitVec.ofNat 52 wordAddr
    breload := List.replicate 16 2 }
def wordKernel : Kernel :=
  { addr := 0x11000, compat := false, draft := false, variants := [wordVariant], qdepth := List.replicate 8 16
    qbind := List.replicate 8 0, swpts := [] }
def wordBlockRef : BlockRef := ⟨0, 0⟩
def wordGroupRef : GroupRef := ⟨0, 0, 0⟩
def wordBlock : Block := freshBlock wordBlockRef 1 wordKernel 0 wordVariant testMember 1 [0, 1, 2, 3]
/-- The group of an installed word: for a lane word, its lane queue holds one run of one word. -/
def wordGroup (st : Stream) : Group :=
  let run : Run := { first := BitVec.ofNat 52 wordAddr, words := 1, started := false, depth := 0, caps := [], marks := []
                     later := [], snapS := [], snapK := [] }
  { freshGroup wordGroupRef 1 0 wordVariant ⟨0, 0, false, footprint 128 128⟩ 0 with runs := if st = .lane then [run] else [] }
def wordTurn (nbits w : Nat) : Turn :=
  match tableStream nbits w with
  | .scalar => .scalar 0 0
  | .lane => .lane 0 0
  | .matrix => .matrix wordBlockRef

/-- A resident context with one block, whose next word is the given one, and whose turn is next (assumption 30). -/
def installWord (s : State) (nbits w : Nat) : State :=
  let mem := identityTables.foldl (fun (m : Memory) e => m.write e.1 (leBytes 8 e.2)) (s.mem.write wordAddr (leBytes 12 w))
  { s with
    mem := mem
    ctxs := wordCtx :: s.ctxs.filter (·.id ≠ 1)
    blocks := wordBlock :: s.blocks.filter (·.ref.core ≠ 0)
    groups := wordGroup (tableStream nbits w) :: s.groups.filter fun g => g.ref.core ≠ 0
    cores := listSet s.cores 0 { keepCode (s.core 0) (fun _ => false) with tlb := [], scheds := Core.reset.scheds, lanePtr := [] }
    chamberTlb := listSet s.chamberTlb 0 []
    imid := listSet s.imid 0 []
    poison := []
    agenda := wordTurn nbits w :: s.agenda
    power := .d0
    booted := true }

end Sys2Proof.Machine
end

