-- ==== Sys2Proof/Machine/Step.lean ====
section
/-! DEFINITION. One step of the machine. -/

namespace Sys2Proof.Machine

open Sys2Proof

/-- A word or event that is prepared, executed. -/
def runPrep (p : Prep) : Host.Outcome State Fault Refusal :=
  match p with
  | .settled s => .next s
  | .run i s =>
    match exec i s with
    | .next s => .next (settle s)
    | .fault r => .fault r
    | .refused r => .refused r

/-- A lane tries its groups in the order of R273, until a word of one has issued. -/
def runLane (s : State) : List GroupRef → Host.Outcome State Fault Refusal
  | [] => .next s
  | r :: rs =>
    match runPrep (groupTurn s r .lane laneNext) with
    | .next t => if t.issued then .next t else runLane t rs
    | .fault f => .fault f
    | .refused f => .refused f

/-- A scalar unit issues a word of the first ready group by R274's key; of the groups behind it, those that could not issue one
lose their ready stamp, and the others keep it. -/
def runScalar (s : State) (done : Bool) : List GroupRef → Host.Outcome State Fault Refusal
  | [] => .next { s with issued := done }
  | r :: rs =>
    match runPrep (groupTurn { s with issued := false } r .scalar scalarNext) with
    | .next t => if t.issued then (if done then runScalar s true rs else runScalar t true rs) else runScalar (notReady t r) done rs
    | .fault f => .fault f
    | .refused f => .refused f

/-- The next turn of the agenda: a word of a stream, a device event, or what the turn itself does. -/
def step (s : State) : Host.Outcome State Fault Refusal :=
  match prepare s with
  | .one p => runPrep p
  | .lane s rs => runLane s rs
  | .scalar s rs => runScalar s false rs

/-- A state whose next step runs one instruction (assumption 30): a program as the host and system software load it
(R13, R20, R305). -/
def State.withFetchWord (s : State) (nbits w : Nat) : State := installWord s nbits w

end Sys2Proof.Machine
end

