-- ==== Sys2Proof/Safety.lean ====
section
/-! DEFINITION. What a safe run is, and the vocabulary of the statements: the invariant of memory, the states that steps
reach, a word that may issue, the state it leaves, and what a word leaves unchanged. -/

namespace Sys2Proof.Machine

open Sys2Proof

/-- Memory is in its canonical form. -/
def State.Ok (s : State) : Prop := Memory.wf s.mem = true

/-- The states that steps reach. -/
inductive Reaches (s : State) : State → Prop where
  | here : Reaches s s
  | next {t u : State} : Reaches s t → step t = .next u → Reaches s u

/-- No step from a state on is a fault or a refusal. -/
def Safe (s : State) : Prop := ∀ t, Reaches s t → ∃ u, step t = .next u

/-- The scalar stream of a group executes: the group and its block. -/
abbrev ScalarCur (s : State) (g : Group) (b : Block) : Prop :=
  s.cur = .scalar g.ref ∧ s.group? g.ref = some g ∧ s.block? (blockOf g.ref) = some b

/-- A scalar word may issue: no register it uses has a write pending and no window holds it (R126, R141); no debugger
holds the group and nothing is being re-injected. -/
abbrev ScalarAt (s : State) (g : Group) (b : Block) (uses : List (BitVec 5)) (closes : Bool) : Prop :=
  ScalarCur s g b ∧ uses.any g.pendingS = false ∧ windowOpen s g .scalar closes = true ∧ g.hold = .run ∧ g.inject = none

/-- A group whose scalar stream has issued the word at `pc0` in cycle `now` and goes on at `pc`. -/
def Group.afterScalar (g : Group) (pc0 pc : VAddr) (now : Nat) : Group :=
  { g.issued .scalar with spc := pc, blockedS := false, skipbp := skipAfter g.skipbp pc0, stamp := now }

/-- Nothing but the group g has changed, and it is now g'. -/
def GroupOnly (s t : State) (g g' : Group) : Prop :=
  t = { s with groups := t.groups } ∧ t.group? g.ref = some g' ∧ ∀ r, r ≠ g.ref → t.group? r = s.group? r
/-- Nothing but the block b has changed, and it is now b'. -/
def BlockOnly (s t : State) (b b' : Block) : Prop :=
  t = { s with blocks := t.blocks } ∧ t.block? b.ref = some b' ∧ ∀ r, r ≠ b.ref → t.block? r = s.block? r
/-- Nothing but a group and a block has changed. -/
def GroupBlockOnly (s t : State) (g g' : Group) (b b' : Block) : Prop :=
  t = { s with groups := t.groups, blocks := t.blocks } ∧ t.group? g.ref = some g' ∧
  (∀ r, r ≠ g.ref → t.group? r = s.group? r) ∧ t.block? b.ref = some b' ∧ ∀ r, r ≠ b.ref → t.block? r = s.block? r

/-- The cause that a word of the scalar stream raises at its own SPC, with no thread mask. -/
def scalarCause (g : Group) (code : Nat) (faddr : W64) : Cause := causeAt g code 0 0 0 g.spc 0 faddr

/-- The lane stream of a group executes: the group and its block. -/
abbrev LaneCur (s : State) (g : Group) (b : Block) : Prop :=
  s.cur = .lane g.ref ∧ s.group? g.ref = some g ∧ s.block? (blockOf g.ref) = some b

/-- A lane word may issue, for the V registers that it meets (R37, R126), outside a re-injection and a debugger's hold; no load
that it may depend on is outstanding, none of those registers is poisoned (R345), and code 253 is used in trap mode only (R116), with
no H register poisoned. -/
abbrev LaneAt (s : State) (g : Group) (b : Block) (codes : List (BitVec 8)) (vs : List Nat) (control : Bool) : Prop :=
  LaneCur s g b ∧ windowOpen s g .lane control = true ∧ g.dependsLane vs (List.range 48) = false ∧ pendingV s g.ref vs = false ∧
  g.badV.all (fun c => !vs.contains (c / 32)) = true ∧ (g.badH = [] ∨ codes.contains 253#8 = false) ∧
  g.hold = .run ∧ g.inject = none ∧ (g.trapm = true ∨ codes.contains 253#8 = false) ∧ vs.all (fun n => n < g.vcnt) = true

/-- A group whose lane stream has issued the word at `pc0` and goes on at `pc`. -/
def Group.afterLane (g : Group) (pc0 pc : VAddr) : Group :=
  Group.runOver { g.issued .lane with lpc := pc, blockedL := false, fenced := false, skipbpL := skipAfter g.skipbpL pc0 }

/-- A matrix word may issue: the block's sequencer executes, no transfer has to resolve first (R126, R235), and no word
that a save abandoned executes again (R247). -/
abbrev MatrixAt (s : State) (b : Block) : Prop :=
  s.cur = .matrix b.ref ∧ s.block? b.ref = some b ∧ b.seq.mloads = [] ∧ b.seq.redo = []

/-- The accesses of a word are allowed, meet no uncorrectable error and no watch point (in a test block: outside a REPLAY); `s1` holds what their
translation left (R52-R58, R322, R345). -/
abbrev Accesses (s s1 : State) (g : Group) (b : Block) (k : Access) (size : Nat) (vas : List (Nat × W64))
    (xs : List (Nat × W64 × Xlat)) : Prop :=
  access s (some g.ref.core.toNat) b.test g.ctx k size vas = (s1, .ok xs) ∧ (k = .write ∨ poisonedAt s1 size xs = []) ∧
  (if b.test then g.loop = none else watchHit s1 g.ctx k size vas = 0)

/-- The scalar stream reads n-byte items at some addresses, and is allowed to: the state after, and the bytes. -/
def Reads (s u : State) (g : Group) (b : Block) (size : Nat) (vas : List W64) (bs : List Byte) : Prop :=
  ∃ s1 xs, Accesses s s1 g b .read size (vas.map fun va => (0, va)) xs ∧ soReady (allocateAll s1 size xs) g.ref.core.toNat xs = true ∧
    readNow (allocateAll s1 size xs) g size xs = (u, bs)

/-- Lane threads read items of `size` bytes, and are allowed to: the state after, and the values. `kind` is the strongest kind
among the word's other pages (R66). -/
def LaneReads (s u : State) (g : Group) (b : Block) (kind size : Nat) (vas : List (Nat × W64)) (vs : List Nat) : Prop :=
  (vas = [] ∧ u = s ∧ vs = []) ∨
  (vas ≠ [] ∧ ∃ s1 xs, Accesses s s1 g b .read size vas xs ∧
    kindReady (allocateAll s1 size xs) g.ref.core.toNat (min kind (strongest xs)) = true ∧
    laneNow (allocateAll s1 size xs) g (min kind (strongest xs)) size xs = (u, vs))

/-- Every byte of memory reads as before. -/
def SameMem (s t : State) : Prop := ∀ a, memByte t a = memByte s a
/-- Every byte of memory outside n bytes at pa reads as before. -/
def SameMemBut (s t : State) (pa n : Nat) : Prop := ∀ a, a < pa ∨ pa + n ≤ a → memByte t a = memByte s a

/-- The registers of a group are unchanged: S, V, H, P, the walkers and their flags, the special registers, private
memory, the reconvergence and return stacks, the return pcs apart. -/
def SameRegs (g h : Group) : Prop :=
  h.s = g.s ∧ h.v = g.v ∧ h.h = g.h ∧ h.p = g.p ∧ h.walkers = g.walkers ∧ h.e = g.e ∧ h.wlast = g.wlast ∧
  h.trapm = g.trapm ∧ h.variant = g.variant ∧ h.vcnt = g.vcnt ∧ h.cause = g.cause ∧ h.fsr = g.fsr ∧ h.sr = g.sr ∧
  h.priv = g.priv ∧ h.stack = g.stack ∧ h.ras = g.ras ∧ h.rasHw = g.rasHw ∧ h.exited = g.exited

/-- The registers and stores of a block are unchanged: K, its barriers and queues, the scratchpad, and the ceiling-die
stores. -/
def SameBlock (b c : Block) : Prop :=
  c.k = b.k ∧ c.kpend = b.kpend ∧ c.bars = b.bars ∧ c.queues = b.queues ∧ c.scratch = b.scratch ∧ c.acc = b.acc ∧
  c.bstore = b.bstore ∧ c.scale = b.scale

/-- Every context, engine, island and device register is unchanged. -/
def SameDevice (s t : State) : Prop :=
  t.ctxs = s.ctxs ∧ t.engines = s.engines ∧ t.islands = s.islands ∧ t.regs = s.regs ∧ t.copies = s.copies ∧
  t.heads = s.heads ∧ t.verify = s.verify ∧ t.grids = s.grids

/-- A scalar word raises a cause at its own SPC, precisely and with no effect of its own (R306): one that waited is no longer
begun. -/
def RaisesS (s : State) (g : Group) (i : Instr) (code : Nat) (faddr : W64) : Prop :=
  exec i s = .next { raiseWord s g .scalar g.spc code 0 0 faddr with issued := true }
/-- A word of a stream raises a cause at `pc`, precisely and with no effect of its own; `u` is what its translations left. -/
def RaisesAt (s u : State) (g : Group) (i : Instr) (st : Stream) (pc : VAddr) (code : Nat) (tm : Mask) (fa : W64) : Prop :=
  exec i s = .next { raiseWord u g st pc code 0 tm fa with issued := true }
/-- A waiting word of a stream has its place among the 12 loads and words that a group may have unfinished (R310). -/
def roomS (s : State) (g : Group) : Prop := g.blockedS = true ∨ inFlight s g < 12
def roomL (s : State) (g : Group) : Prop := g.blockedL = true ∨ inFlight s g < 12
/-- A scalar word has begun and waits: its scheduler counts it (R274), its stream is blocked and nothing else changes (R175);
with 12 loads and words of the group unfinished it does not begin (R310). -/
def BlocksS (s : State) (g : Group) (i : Instr) : Prop :=
  (roomS s g → ∃ t, exec i s = .next t ∧ GroupOnly (issueWord s g .scalar) t g { g with blockedS := true }) ∧
  (¬ roomS s g → exec i s = .next s)
/-- A scalar word does not issue yet: nothing changes. -/
def WaitsS (s : State) (i : Instr) : Prop := exec i s = .next s

/-- The result of a scalar word that only reads registers and writes S[d] (R141): the group with the value in S[d], one word
further; the scalar unit notes that it has issued a word (issueWord, R274), and nothing else of the machine changes. -/
def WritesS (s : State) (g : Group) (i : Instr) (d : BitVec 5) (v : W64) : Prop :=
  ∃ t, exec i s = .next t ∧ GroupOnly (issueWord s g .scalar) t g ((g.writeS d v).afterScalar g.spc (g.spc + 4) s.cycle)
/-- A scalar word that has changed only its group, to g', and goes on with the next word. -/
def NextS (s : State) (g : Group) (i : Instr) (g' : Group) : Prop :=
  ∃ t, exec i s = .next t ∧ GroupOnly (issueWord s g .scalar) t g (g'.afterScalar g.spc (g.spc + 4) s.cycle)
/-- The same, for a word that goes on at `pc`. -/
def JumpsS (s : State) (g : Group) (i : Instr) (pc : VAddr) (g' : Group) : Prop :=
  ∃ t, exec i s = .next t ∧ GroupOnly (issueWord s g .scalar) t g (g'.afterScalar g.spc pc s.cycle)

/-- After a scalar word the group's registers are those of g', and its stream goes on with the next word. -/
def AdvancesS (t : State) (g g' : Group) : Prop :=
  ∃ h, t.group? g.ref = some h ∧ SameRegs g' h ∧ h.spc = g.spc + 4 ∧ h.lpc = g.lpc
/-- After a lane word the group's registers are those of g', and its stream goes on with the next word. -/
def AdvancesL (t : State) (g g' : Group) : Prop :=
  ∃ h, t.group? g.ref = some h ∧ SameRegs g' h ∧ h.lpc = g.lpc + 12 ∧ h.spc = g.spc
/-- After a matrix word the block's registers and stores are those of b', and its sequencer goes on with the next word. -/
def AdvancesM (t : State) (b b' : Block) : Prop :=
  ∃ c, t.block? b.ref = some c ∧ SameBlock b' c ∧ c.seq.mpc = b.seq.mpc + 12

/-- The threads that a lane word acts for (R118): those active in which P[GP] XOR GN is 1. -/
def laneSelected (g : Group) (w : LaneWord) : Mask :=
  g.active &&& if w.gn then ~~~(g.readP w.gp.toNat) else g.readP w.gp.toNat
/-- A lane word raises a cause at its own LPC, precisely and with no effect of its own, for some threads. -/
def RaisesL (s : State) (g : Group) (i : Instr) (code : Nat) : Prop :=
  ∃ tm fa, exec i s = .next { raiseWord s g .lane g.lpc code 0 tm fa with issued := true }
/-- A lane word with no effect: its stream goes on with the next word. -/
def PassesL (s : State) (g : Group) (i : Instr) : Prop := ∃ t, exec i s = .next t ∧ AdvancesL t g g ∧ SameMem s t ∧ t.blocks = s.blocks

/-- What a lane word with a register destination leaves (R117, R178), `u` being the state after its operands are read: V and H
registers take the value of each selected thread, S and K that of the lowest one, code 254 none; FSR is as given, and no other
register and no byte of memory changes. -/
def LaneWrote (u t : State) (g : Group) (b : Block) (w : LaneWord) (sel : Mask) (wide : Bool) (val : Nat → W64) (fsr : W32) : Prop :=
  ∃ gu bu h, u.group? g.ref = some gu ∧ u.block? b.ref = some bu ∧ t.group? g.ref = some h ∧
    SameRegs { gu with s := h.s, v := h.v, h := h.h, fsr := fsr } h ∧ h.lpc = g.lpc + 12 ∧ h.spc = g.spc ∧ SameMem u t ∧
    (∀ n k, k < 32 → h.readV n k =
      if isV w.d = true ∧ sel.getLsbD k = true ∧ n = w.d.toNat then (val k).setWidth 32
      else if isV w.d = true ∧ wide = true ∧ sel.getLsbD k = true ∧ n = w.d.toNat + 1 then (val k).extractLsb' 32 32
      else gu.readV n k) ∧
    (∀ n k, k < 32 → h.readH n k =
      if w.d = 253 ∧ sel.getLsbD k = true ∧ n = w.ix % 8 then (val k).setWidth 32 else gu.readH n k) ∧
    (∀ n : BitVec 5, h.readS n = if w.d = 249 ∧ n = BitVec.ofNat 5 w.ix ∧ n ≠ 0 then val (lowest sel) else gu.readS n) ∧
    t.block? b.ref = some (if w.d = 250 then bu.writeK u.cycle (w.ix % 16) g.ref.slot.toNat (val (lowest sel)) else bu)

/-- The same for a word whose D is a predicate field: bit k of the predicate for each selected thread; P0 is kept. -/
def PredWrote (u t : State) (g : Group) (w : LaneWord) (sel : Mask) (val : Nat → Bool) (fsr : W32) : Prop :=
  ∃ gu h, u.group? g.ref = some gu ∧ t.group? g.ref = some h ∧ SameRegs { gu with p := h.p, fsr := fsr } h ∧
    h.lpc = g.lpc + 12 ∧ h.spc = g.spc ∧ SameMem u t ∧ t.blocks = u.blocks ∧
    ∀ n k, k < 32 → (h.readP n).getLsbD k =
      if n = w.d.toNat ∧ n ≠ 0 ∧ sel.getLsbD k = true then val k else (gu.readP n).getLsbD k

/-- The thread whose operands give thread k's result: with .U the lowest selected one (R11). -/
def passThread (w : LaneWord) (sel : Mask) (k : Nat) : Nat := if w.u then lowest sel else k
/-- The exceptions of a word's threads together (R95). -/
def wordExc (w : LaneWord) (sel : Mask) (f : Nat → Exc) : Exc := combine (passes w sel) f

/-- An arithmetic lane word (R178, R95): `cs` its source codes, `vs` the V registers it meets. With no selected thread it has no
effect. Otherwise it writes each thread's value and ORs the exceptions into FSR, or, where an enabled exception occurs, raises
the lowest such cause. `ok` is what its own value checks ask. -/
def LaneArith (i : Instr) (w : LaneWord) (cs : List (BitVec 8)) (vs : List Nat) (wide : Bool) (ok : Env → Mask → Prop)
    (val : Env → Nat → W64 × Exc) : Prop :=
  ∀ (s u : State) (g : Group) (blk : Block) (gv : W64), LaneAt s g blk (w.d :: cs) vs false →
    let sel := laneSelected g w
    let e : Env := ⟨g, w, gv⟩
    let ex := wordExc w sel fun k => (val e k).2
    (sel = 0 → PassesL s g i) ∧
    (sel ≠ 0 → selector s g blk w cs = .ok u gv → ok e (passes w sel) →
      (enabledCause g.fsr ex = none → ∃ t, exec i s = .next t ∧
        LaneWrote u t g blk w sel wide (fun k => (val e (passThread w sel k)).1) (g.fsr ||| ex.toFlags.setWidth 32)) ∧
      ∀ code, enabledCause g.fsr ex = some code → RaisesL s g i code)

/-- A lane word whose D is a predicate field, in the same way; `val` has the selected threads too. -/
def LanePred (i : Instr) (w : LaneWord) (cs : List (BitVec 8)) (wide : Bool) (val : Env → Mask → Nat → Bool × Exc) : Prop :=
  ∀ (s u : State) (g : Group) (blk : Block) (gv : W64), LaneAt s g blk cs (vregs wide cs) false →
    let sel := laneSelected g w
    let e : Env := ⟨g, w, gv⟩
    let ex := wordExc w sel fun k => (val e sel k).2
    (sel = 0 → PassesL s g i) ∧
    (sel ≠ 0 → selector s g blk w cs = .ok u gv →
      (enabledCause g.fsr ex = none → ∃ t, exec i s = .next t ∧
        PredWrote u t g w sel (fun k => (val e sel (passThread w sel k)).1) (g.fsr ||| ex.toFlags.setWidth 32)) ∧
      ∀ code, enabledCause g.fsr ex = some code → RaisesL s g i code)

/-- The scalar register and immediate forms (R142-R144): the register they write, those they use, and whether the word
closes a window (R126). -/
def scalarForm : Instr → Option (BitVec 5 × List (BitVec 5) × Bool)
  | .add d a b _ | .sub d a b _ | .mul d a b _ | .mulh d a b _ | .and d a b | .or d a b | .xor d a b | .shl d a b _
  | .shr d a b _ | .sha d a b _ | .min d a b _ | .max d a b _ | .cmp d a b _ _ => some (d, [d, a, b], false)
  | .sel d a b c => some (d, [d, a, b, c], false)
  | .addImmediate d a _ | .andImmediate d a _ | .orImmediate d a _ | .xorImmediate d a _ | .shlImmediate d a _ _
  | .shrImmediate d a _ _ | .shaImmediate d a _ _ | .cmpImmediate d a _ _ _ => some (d, [d, a], false)
  | .movi d _ | .movhi d _ _ => some (d, [d], false)
  | .lea d _ => some (d, [d], true)
  | _ => none

end Sys2Proof.Machine
end

