-- ==== Sys2Proof/Certificates/Slice0/Obligations.lean ====
section
/-! DEFINITION. The statements for the provers. -/

open Sys2Proof Sys2Proof.Machine

/-- R142, R113: every scalar register form writes S[d]: its operation on S[a] and S[b], with .W on bits [31:0] and
sign-extended, with .N unsigned; shifts take their amount modulo 64, or 32 with .W; SEL takes S[a] where S[c] is not 0. -/
def Obligations.ScalarRegisterForms : Prop :=
  ∀ (s : State) (g : Group) (blk : Block) (d a b c : BitVec 5), ScalarAt s g blk [d, a, b, c] false →
    let x := g.readS a
    let y := g.readS b
    let x32 : W32 := x.setWidth 32
    let y32 : W32 := y.setWidth 32
    let one := fun (p : Bool) => if p then (1 : W64) else 0
    WritesS s g (.add d a b false) d (x + y) ∧ WritesS s g (.add d a b true) d ((x32 + y32).signExtend 64) ∧
    WritesS s g (.sub d a b false) d (x - y) ∧ WritesS s g (.sub d a b true) d ((x32 - y32).signExtend 64) ∧
    WritesS s g (.mul d a b false) d (x * y) ∧ WritesS s g (.mul d a b true) d ((x32 * y32).signExtend 64) ∧
    WritesS s g (.mulh d a b true) d (BitVec.ofNat 64 (x.toNat * y.toNat / 2 ^ 64)) ∧
    WritesS s g (.mulh d a b false) d (BitVec.ofInt 64 (x.toInt * y.toInt / 2 ^ 64)) ∧
    WritesS s g (.and d a b) d (x &&& y) ∧ WritesS s g (.or d a b) d (x ||| y) ∧ WritesS s g (.xor d a b) d (x ^^^ y) ∧
    WritesS s g (.shl d a b false) d (x <<< (y.toNat % 64)) ∧
    WritesS s g (.shl d a b true) d ((x32 <<< (y.toNat % 32)).signExtend 64) ∧
    WritesS s g (.shr d a b false) d (x >>> (y.toNat % 64)) ∧
    WritesS s g (.shr d a b true) d ((x32 >>> (y.toNat % 32)).signExtend 64) ∧
    WritesS s g (.sha d a b false) d (x.sshiftRight (y.toNat % 64)) ∧
    WritesS s g (.sha d a b true) d ((x32.sshiftRight (y.toNat % 32)).signExtend 64) ∧
    WritesS s g (.min d a b false) d (if y.toInt < x.toInt then y else x) ∧
    WritesS s g (.min d a b true) d (if y.toNat < x.toNat then y else x) ∧
    WritesS s g (.max d a b false) d (if x.toInt < y.toInt then y else x) ∧
    WritesS s g (.max d a b true) d (if x.toNat < y.toNat then y else x) ∧
    (∀ n, WritesS s g (.cmp d a b .eq n) d (one (x = y)) ∧ WritesS s g (.cmp d a b .ne n) d (one (x ≠ y))) ∧
    WritesS s g (.cmp d a b .lt false) d (one (x.toInt < y.toInt)) ∧ WritesS s g (.cmp d a b .lt true) d (one (x.toNat < y.toNat)) ∧
    WritesS s g (.cmp d a b .ge false) d (one (y.toInt ≤ x.toInt)) ∧ WritesS s g (.cmp d a b .ge true) d (one (y.toNat ≤ x.toNat)) ∧
    WritesS s g (.cmp d a b .le false) d (one (x.toInt ≤ y.toInt)) ∧ WritesS s g (.cmp d a b .le true) d (one (x.toNat ≤ y.toNat)) ∧
    WritesS s g (.cmp d a b .gt false) d (one (y.toInt < x.toInt)) ∧ WritesS s g (.cmp d a b .gt true) d (one (y.toNat < x.toNat)) ∧
    WritesS s g (.sel d a b c) d (if g.readS c ≠ 0 then x else y)

/-- R143, R144, R113: every scalar immediate form writes S[d]: IMM16 sign-extended for ADD and MOVI, zero-extended for the
logical words; the shift amount of the word; MOVHI replaces one 16-bit part; LEA adds four times its offset to SPC. -/
def Obligations.ScalarImmediateForms : Prop :=
  ∀ (s : State) (g : Group) (blk : Block) (d a : BitVec 5) (imm : BitVec 16) (imm12 : BitVec 12) (n : BitVec 6),
    ScalarAt s g blk [d, a] false →
    let x := g.readS a
    let x32 : W32 := x.setWidth 32
    let y : W64 := imm12.signExtend 64
    let one := fun (p : Bool) => if p then (1 : W64) else 0
    WritesS s g (.addImmediate d a imm) d (x + imm.signExtend 64) ∧
    WritesS s g (.andImmediate d a imm) d (x &&& imm.setWidth 64) ∧
    WritesS s g (.orImmediate d a imm) d (x ||| imm.setWidth 64) ∧
    WritesS s g (.xorImmediate d a imm) d (x ^^^ imm.setWidth 64) ∧
    WritesS s g (.shlImmediate d a false n) d (x <<< n.toNat) ∧
    WritesS s g (.shrImmediate d a false n) d (x >>> n.toNat) ∧
    WritesS s g (.shaImmediate d a false n) d (x.sshiftRight n.toNat) ∧
    (n.toNat < 32 →
      WritesS s g (.shlImmediate d a true n) d ((x32 <<< n.toNat).signExtend 64) ∧
      WritesS s g (.shrImmediate d a true n) d ((x32 >>> n.toNat).signExtend 64) ∧
      WritesS s g (.shaImmediate d a true n) d ((x32.sshiftRight n.toNat).signExtend 64)) ∧
    (∀ u, WritesS s g (.cmpImmediate d a .eq u imm12) d (one (x = y)) ∧ WritesS s g (.cmpImmediate d a .ne u imm12) d (one (x ≠ y))) ∧
    WritesS s g (.cmpImmediate d a .lt false imm12) d (one (x.toInt < y.toInt)) ∧
    WritesS s g (.cmpImmediate d a .lt true imm12) d (one (x.toNat < y.toNat)) ∧
    WritesS s g (.cmpImmediate d a .ge false imm12) d (one (y.toInt ≤ x.toInt)) ∧
    WritesS s g (.cmpImmediate d a .ge true imm12) d (one (y.toNat ≤ x.toNat)) ∧
    WritesS s g (.cmpImmediate d a .le false imm12) d (one (x.toInt ≤ y.toInt)) ∧
    WritesS s g (.cmpImmediate d a .le true imm12) d (one (x.toNat ≤ y.toNat)) ∧
    WritesS s g (.cmpImmediate d a .gt false imm12) d (one (y.toInt < x.toInt)) ∧
    WritesS s g (.cmpImmediate d a .gt true imm12) d (one (y.toNat < x.toNat)) ∧
    WritesS s g (.movi d imm) d (imm.signExtend 64) ∧
    (∀ h : BitVec 2, ∃ v : W64, WritesS s g (.movhi d h imm) d v ∧
      ∀ k, k < 64 → v.getLsbD k = if k / 16 = h.toNat then imm.getLsbD (k % 16) else (g.readS d).getLsbD k) ∧
    (windowOpen s g .scalar true = true →
      ∀ off : BitVec 21, WritesS s g (.lea d off) d (g.spc.setWidth 64 + (off.signExtend 64 <<< 2)))

/-- R33, R141: the frame of the scalar register and immediate forms. They change no S register but their D, no other
register of the group, no other group, no block, no byte of memory and no register of the device. -/
def Obligations.ScalarFormsFrame : Prop :=
  ∀ (i : Instr) (d : BitVec 5) (uses : List (BitVec 5)) (closes : Bool) (s : State) (g : Group) (blk : Block),
    scalarForm i = some (d, uses, closes) → ScalarAt s g blk uses closes →
    ∃ t h, exec i s = .next t ∧ t.group? g.ref = some h ∧ (∀ n, n ≠ d → h.readS n = g.readS n) ∧
      SameRegs { g with s := h.s } h ∧ h.lpc = g.lpc ∧ (∀ r, r ≠ g.ref → t.group? r = s.group? r) ∧ t.blocks = s.blocks ∧
      SameMem s t ∧ SameDevice s t

/-- R33, R37: a register keeps what is written to it; S0 reads 0 and P0 reads 1 in every thread, and both ignore writes;
no register answers for another. -/
def Obligations.RegisterReadAfterWrite : Prop :=
  ∀ (g : Group) (n m : BitVec 5) (v : W64) (p q : Nat) (mask : Mask) (k j t u : Nat) (x : W32), t < 32 → u < 32 →
    (g.writeS n v).readS m = (if m = n ∧ n ≠ 0 then v else g.readS m) ∧ g.readS 0 = 0 ∧ (g.writeS 0 v) = g ∧
    (g.writeP p mask).readP q = (if q = p ∧ p ≠ 0 then mask else g.readP q) ∧ g.readP 0 = 0xFFFFFFFF#32 ∧ (g.writeP 0 mask) = g ∧
    (g.writeV k t x).readV j u = (if j = k ∧ u = t then x else g.readV j u) ∧
    (g.writeH k t x).readH j u = (if j = k ∧ u = t then x else g.readH j u)

/-- R149, R150, R111: the scalar control words. BR, CALL and a taken BRC go to SPC plus four times their offset; JMP and
CALLI to S[A], which must be a multiple of four below 2^52; CALL and CALLI push the next word's address, at most 40 deep, and
RET pops it. Of the entries the newest, at most 8, are in hardware: a push adds one, a pop takes one, and a pop that empties
them refills one. -/
def Obligations.ScalarControl : Prop :=
  ∀ (s : State) (g : Group) (blk : Block) (a : BitVec 5) (c : BrCond) (off : BitVec 26) (off16 : BitVec 16),
    ScalarAt s g blk [a] true →
    let v := g.readS a
    let far : VAddr := g.spc + (off.signExtend 52 <<< 2)
    let near : VAddr := g.spc + (off16.signExtend 52 <<< 2)
    let ok := v.toNat % 4 = 0 ∧ v.toNat < 2 ^ 52
    let push := { g with ras := (g.spc + 4) :: g.ras, rasHw := min 8 (g.rasHw + 1) }
    let holds := match c with
      | .eqz => v = 0 | .nez => v ≠ 0 | .ltz => v.toInt < 0 | .gez => 0 ≤ v.toInt | .lez => v.toInt ≤ 0 | .gtz => 0 < v.toInt
      | .e n => g.e.getLsbD n.toNat = true | .ne n => g.e.getLsbD n.toNat = false
    JumpsS s g (.br off) far g ∧
    (holds → JumpsS s g (.brc c a off16) near g) ∧ (¬ holds → NextS s g (.brc c a off16) g) ∧
    (g.ras.length < 40 → JumpsS s g (.call off) far push) ∧
    (ok → JumpsS s g (.jmp a) (v.setWidth 52) g ∧ (g.ras.length < 40 → JumpsS s g (.calli a) (v.setWidth 52) push)) ∧
    (∀ i, i = .jmp a ∨ i = .calli a → (v.toNat % 4 ≠ 0 → RaisesS s g i 5 v) ∧
      (v.toNat % 4 = 0 → 2 ^ 52 ≤ v.toNat → RaisesS s g i 6 v)) ∧
    (40 ≤ g.ras.length → RaisesS s g (.call off) 0x0A 0 ∧ (ok → RaisesS s g (.calli a) 0x0A 0)) ∧
    (∀ pc r, g.ras = pc :: r →
      JumpsS s g .ret pc { g with ras := r, rasHw := if 1 < g.rasHw then g.rasHw - 1 else if r = [] then 0 else 1 }) ∧
    (g.ras = [] → RaisesS s g .ret 0x0A 0)

/-- The scalar loads of R145, with the size of their element and whether it is signed. -/
def Sys2Proof.Machine.dispLoads (d a : BitVec 5) (la : BitVec 4) (disp : BitVec 12) : List (Instr × Nat × Bool) :=
  [(.ldN8 d a la disp, 1, false), (.ldN16 d a la disp, 2, false), (.ldN32 d a la disp, 4, false), (.ldN64 d a la disp, 8, false),
   (.ldI8 d a la disp, 1, true), (.ldI16 d a la disp, 2, true), (.ldI32 d a la disp, 4, true)]
/-- The ordered load of R146, for each WIDTH. -/
def Sys2Proof.Machine.ordLoads (d a : BitVec 5) (la : BitVec 4) (o : OrdMod) (sc : BitVec 3) : List (Instr × Nat × Bool) :=
  [(.ldOrdered d a la .n8 o sc, 1, false), (.ldOrdered d a la .n16 o sc, 2, false), (.ldOrdered d a la .n32 o sc, 4, false),
   (.ldOrdered d a la .w64 o sc, 8, false), (.ldOrdered d a la .i8 o sc, 1, true), (.ldOrdered d a la .i16 o sc, 2, true),
   (.ldOrdered d a la .i32 o sc, 4, true)]

/-- A scalar load has issued: it is the newest outstanding load of its group, for S[d], with a window of LA words; where no
open choice is listed it has the value its core sees now. Registers and memory stay. -/
def Sys2Proof.Machine.LoadIssued (s1 t : State) (g : Group) (d : BitVec 5) (la : BitVec 4) (size : Nat) (signed : Bool) (va : W64)
    (x : Xlat) : Prop :=
  AdvancesS t g g ∧ SameMem s1 t ∧ ∃ h l, t.group? g.ref = some h ∧ h.loads.getLast? = some l ∧ l.stream = .scalar ∧
    l.dst = d.toNat ∧ l.discard = decide (d = 0) ∧ l.size = size ∧ l.signed = signed ∧ l.pc = g.spc ∧ l.window = la.toNat ∧
    l.core = g.ref.core ∧ h.loads.length = g.loads.length + 1 ∧
    (∃ v, l.parts = [⟨0, va, x.pa, v⟩] ∧
      (s1.choices = [] → v = some (BitVec.ofNat 128 (leNat (freshRead s1 g.ref.core.toNat x.pa size)))))

/-- R145, R146, R126: a scalar load whose access is allowed issues and is outstanding; its address is S[a] plus DISP12 times
the size, or S[a] exactly for the ordered form, whose release part waits as LWAIT does. -/
def Sys2Proof.Machine.loadsIssueRule : Prop :=
  ∀ (s s1 : State) (g : Group) (blk : Block) (d a : BitVec 5) (la : BitVec 4) (disp : BitVec 12) (o : OrdMod) (sc : BitVec 3)
    (i : Instr) (size : Nat) (signed : Bool) (x : Xlat) (va : W64),
    ScalarAt s g blk [d, a] false → loadRoom s g = true →
    ((i, size, signed) ∈ dispLoads d a la disp ∧ va = g.readS a + disp.signExtend 64 * BitVec.ofNat 64 size ∨
      (i, size, signed) ∈ ordLoads d a la o sc ∧ i.wf = true ∧ va = g.readS a ∧ (o = .ar → lanesDone s g = true) ∧
        relReady s1 g.ref.core.toNat o sc.toNat = true) →
    Accesses s s1 g blk .read size [(0, va)] [(0, va, x)] → soReady s1 g.ref.core.toNat [(0, va, x)] = true →
    ∃ t, exec i s = .next t ∧ LoadIssued s1 t g d la size signed va x

/-- R127, R145, R210: LONG_LATENCY_RESOLVE writes a scalar load's register, sign- or zero-extended from the bytes the load
took, or sees now where it has taken none; the load is no longer outstanding. A load into S0 discards them. -/
def Sys2Proof.Machine.loadResolvesRule : Prop :=
  ∀ (s : State) (g : Group) (n : Nat) (l : Load) (p : LoadPart), s.group? g.ref = some g → g.loads[n]? = some l →
    l.stream = .scalar → l.parts = [p] → p.t = 0 → l.pred = 0 → l.watch = none → l.discard = decide (l.dst = 0) → l.dst < 32 →
    (l.size = 1 ∨ l.size = 2 ∨ l.size = 4 ∨ l.size = 8) →
    let raw := ((p.val.map fun v => v.toNat).getD (leNat (freshRead s l.core.toNat p.pa l.size))) % 2 ^ (8 * l.size)
    let v : W64 := if l.signed ∧ 2 ^ (8 * l.size - 1) ≤ raw then BitVec.ofInt 64 ((raw : Int) - 2 ^ (8 * l.size)) else BitVec.ofNat 64 raw
    ∃ t h, exec (.longLatencyResolve g.ref n 1) s = .next t ∧ t.group? g.ref = some h ∧
      SameRegs (g.writeS (BitVec.ofNat 5 l.dst) v) h ∧ h.loads = g.loads.eraseIdx n ∧ h.spc = g.spc ∧ h.lpc = g.lpc ∧
      t.blocks = s.blocks ∧ SameMem s t ∧ SameDevice s t ∧ ∀ r, r ≠ g.ref → t.group? r = s.group? r

/-- The one access of a scalar load, store or atomic (R145-R147): the S registers that the word uses, the kind of the access, its size
and its address, whether the word is a load, and whether it waits for the lanes as a release does. -/
def Sys2Proof.Machine.scalarAccess (g : Group) : Instr → Option (List (BitVec 5) × Access × Nat × W64 × Bool × Bool)
  | .ldN8 d a _ v | .ldI8 d a _ v => some ([d, a], .read, 1, g.readS a + v.signExtend 64, true, false)
  | .ldN16 d a _ v | .ldI16 d a _ v => some ([d, a], .read, 2, g.readS a + v.signExtend 64 * 2, true, false)
  | .ldN32 d a _ v | .ldI32 d a _ v => some ([d, a], .read, 4, g.readS a + v.signExtend 64 * 4, true, false)
  | .ldN64 d a _ v => some ([d, a], .read, 8, g.readS a + v.signExtend 64 * 8, true, false)
  | .stN8 d a _ v => some ([d, a], .write, 1, g.readS a + v.signExtend 64, false, false)
  | .stN16 d a _ v => some ([d, a], .write, 2, g.readS a + v.signExtend 64 * 2, false, false)
  | .stN32 d a _ v => some ([d, a], .write, 4, g.readS a + v.signExtend 64 * 4, false, false)
  | .stN64 d a _ v => some ([d, a], .write, 8, g.readS a + v.signExtend 64 * 8, false, false)
  | .ldOrdered d a _ w o _ => some ([d, a], .read, Width.size w, g.readS a, true, o = .ar)
  | .stOrdered d a _ w o _ => some ([d, a], .write, Width.size w, g.readS a, false, o = .rel || o = .ar)
  | .atom d a _ w o _ op =>
    some (if op = .cas then [d, d + 1, a] else [d, a], .atomic, Width.size w, g.readS a, false, o = .rel || o = .ar)
  | _ => none

/-- A park holds a fault of an access at `va` (R59, R314): it waits on a pending entry of the context for that page, access and kind,
or, while no ID is free, keeps the fault to be posted. -/
def Sys2Proof.Machine.FaultHeld (t : State) (c : BitVec 8) (p : Park) (k : Access) (va : W64) (d : Deny) : Prop :=
  (∃ x q, t.ctx? c = some x ∧ q ∈ x.pending ∧ q.id ∈ p.ids ∧ q.va = BitVec.ofNat 64 (va.toNat / 4096 * 4096) ∧ q.access = k.code ∧
    some q.kind.toNat = faultKind d) ∨
  ∃ f ∈ p.unposted, f.1.toNat / 4096 = va.toNat / 4096 ∧ f.2.1 = k.code ∧ some f.2.2.1 = faultKind d

/-- R58, R59, R145-R147, R345: the faults of a scalar load, store or atomic, all before any effect. A misaligned address raises cause
0x05; one past 52 bits, or whose page denies the access, cause 0x06; an uncorrectable error in a table, or in bytes to be read, cause
0x01; a page that does not translate parks the stream, its registers as they were. -/
def Sys2Proof.Machine.scalarFaultsRule : Prop :=
  ∀ (s : State) (g : Group) (blk : Block) (i : Instr) (uses : List (BitVec 5)) (k : Access) (size : Nat) (va : W64) (load rel : Bool),
    scalarAccess g i = some (uses, k, size, va, load, rel) → ScalarAt s g blk uses false → (load = true → loadRoom s g = true) →
    (rel = true → lanesDone s g = true) →
    (va.toNat % size ≠ 0 → RaisesS s g i 5 va) ∧
    (va.toNat % size = 0 → ∀ (s1 : State) (r : Except Deny Xlat), translateWord s (some g.ref.core.toNat) blk.test g.ctx k va = (s1, r) →
      (2 ^ 52 ≤ va.toNat ∨ r = .error .protection → RaisesAt s s1 g i .scalar g.spc 6 0 va) ∧
      (va.toNat < 2 ^ 52 → r = .error .error → RaisesAt s s1 g i .scalar g.spc 1 0 va) ∧
      (va.toNat < 2 ^ 52 → ∀ x, r = .ok x → k ≠ .write → poisoned s1 x.pa size = true →
        RaisesAt s (logPoison s1 x.pa) g i .scalar g.spc 1 0 va) ∧
      (va.toNat < 2 ^ 52 → ∀ d, r = .error d → d = .notPresent ∨ d = .malformed ∨ d = .notify → roomS s g →
        ∃ t h p, exec i s = .next t ∧ t.group? g.ref = some h ∧ h.parkS = some p ∧ SameRegs g h ∧ h.spc = g.spc ∧ h.lpc = g.lpc ∧
          SameMem s1 t ∧ t.blocks = s1.blocks ∧ FaultHeld t g.ctx p k va d))

/-- R145, R146, R126, R127, R210, R58, R59: a scalar load issues, is outstanding, and resolves; and the faults of the scalar loads,
stores and atomics. -/
def Obligations.ScalarLoads : Prop := loadsIssueRule ∧ loadResolvesRule ∧ scalarFaultsRule

/-- A write of a core to a page: performed at once on a strongly ordered page, else accepted into the core's pending table
(R65, R71), where an ordered write (`seals`) orders the earlier UO writes of its issuer. Memory outside its bytes stays. -/
def Sys2Proof.Machine.StoreMade (s1 t : State) (core : Nat) (who : Agent) (seals : Bool) (x : Xlat) (bytes : List Byte) : Prop :=
  SameMemBut s1 t x.pa bytes.length ∧
  (x.pte.ord = 0 → x.pa + bytes.length ≤ physTop → ∀ k, k < bytes.length → memByte t (x.pa + k) = bytes.getD k 0) ∧
  (x.pte.ord ≠ 0 → SameMem s1 t ∧ (core < s1.cores.length →
    (t.core core).pend = ((s1.core core).pend.map fun w => if seals ∧ w.who = who then { w with uo := false } else w) ++
      [⟨x.pa, bytes, decide (x.pte.ord = 2), who, s1.cycle⟩]))

/-- R145, R146: a scalar store whose access is allowed writes the low bytes of S[d], as many as its size, at S[a] plus DISP12
times the size, or at S[a] exactly for the ordered form, whose release part waits as LWAIT does; it changes no register and no
other byte. -/
def Obligations.ScalarStores : Prop :=
  ∀ (s s1 : State) (g : Group) (blk : Block) (d a : BitVec 5) (la : BitVec 4) (disp : BitVec 12) (o : OrdMod) (sc : BitVec 3)
    (i : Instr) (size : Nat) (x : Xlat) (va : W64) (seals : Bool),
    ScalarAt s g blk [d, a] false →
    ((i, size) ∈ [(.stN8 d a la disp, 1), (.stN16 d a la disp, 2), (.stN32 d a la disp, 4), (.stN64 d a la disp, 8)] ∧
        va = g.readS a + disp.signExtend 64 * BitVec.ofNat 64 size ∧ seals = false ∨
      (i, size) ∈ [(.stOrdered d a la .n8 o sc, 1), (.stOrdered d a la .n16 o sc, 2), (.stOrdered d a la .n32 o sc, 4),
        (.stOrdered d a la .w64 o sc, 8)] ∧ i.wf = true ∧ va = g.readS a ∧ seals = decide (o ≠ .relaxed) ∧ (o ≠ .relaxed → lanesDone s g = true) ∧
        relReady s1 g.ref.core.toNat o sc.toNat = true) →
    Accesses s s1 g blk .write size [(0, va)] [(0, va, x)] → soReady s1 g.ref.core.toNat [(0, va, x)] = true →
    ∃ t, exec i s = .next t ∧ AdvancesS t g g ∧
      StoreMade s1 t g.ref.core.toNat (.scalar g.ref) seals x (bytesOf size (g.readS d).toNat)

/-- R147: a scalar atomic whose access is allowed reads x at S[a], writes its operation's value there at once, and returns x
in S[d], sign-extended for a signed 32-bit MIN or MAX. CAS stores S[d+1] where x equals S[d]. It changes no other byte. -/
def Obligations.ScalarAtomics : Prop :=
  ∀ (s s1 : State) (g : Group) (blk : Block) (d a : BitVec 5) (la : BitVec 4) (w : Width) (o : OrdMod) (sc : BitVec 3)
    (op : AtomOp) (x : Xlat), (Instr.atom d a la w o sc op).wf = true →
    let size := if w = .n32 then 4 else 8
    let m := 2 ^ (8 * size)
    let va := g.readS a
    let old := memNat s1 x.pa size
    let arg := (g.readS d).toNat % m
    let si := fun (v : Nat) => if m ≤ 2 * v then (v : Int) - m else (v : Int)
    let new := match op with
      | .add => (old + arg) % m
      | .min => if si arg < si old then arg else old
      | .max => if si old < si arg then arg else old
      | .minN => min old arg
      | .maxN => max old arg
      | .and => old &&& arg
      | .or => old ||| arg
      | .xor => old ^^^ arg
      | .xchg => arg
      | .cas => if old = arg then (g.readS (d + 1)).toNat % m else old
    ScalarAt s g blk (if op = .cas then [d, d + 1, a] else [d, a]) false → (o = .rel ∨ o = .ar → lanesDone s g = true) →
    Accesses s s1 g blk .atomic size [(0, va)] [(0, va, x)] → soReady s1 g.ref.core.toNat [(0, va, x)] = true →
    relReady s1 g.ref.core.toNat o sc.toNat = true → pendOverlap s1 g.ref.core.toNat x.pa size = false →
    x.pa + size ≤ physTop →
    ∃ t, exec (.atom d a la w o sc op) s = .next t ∧
      AdvancesS t g (g.writeS d (if size = 4 ∧ (op = .min ∨ op = .max) then BitVec.ofInt 64 (si old) else BitVec.ofNat 64 old)) ∧
      memNat t x.pa size = new ∧ SameMemBut s1 t x.pa size

/-- R148, R41: LDS and STS access the block's scratchpad at S[a] plus UDISP9 times the size, taken modulo 2^64: an aligned
access within its size completes; a misaligned one raises cause 0x05, one that passes the size cause 0x06, and a load that meets an
uncorrectable error cause 0x01 (R345). A store to locked rows waits (R245). -/
def Obligations.ScratchpadWords : Prop :=
  ∀ (s : State) (g : Group) (blk : Block) (d a : BitVec 5) (disp : BitVec 9) (w : Width) (size : Nat) (signed : Bool),
    (w, size, signed) ∈ [(.n8, 1, false), (.n16, 2, false), (.n32, 4, false), (.w64, 8, false), (.i8, 1, true), (.i16, 2, true),
      (.i32, 4, true)] → ScalarAt s g blk [d, a] false →
    let addr := ((g.readS a).toNat + disp.toNat * size) % 2 ^ 64
    let raw := leNat (blk.scratch.read addr size)
    let store := { blk with scratch := blk.scratch.write addr (bytesOf size (g.readS d).toNat),
                            badPad := blk.badPad.filter fun x => !(decide (addr ≤ x) && decide (x < addr + size)) }
    (addr % size = 0 → addr + size ≤ (blk.variantAt blk.variant).scratch →
      ((∀ x ∈ blk.badPad, x < addr ∨ addr + size ≤ x) → WritesS s g (.lds d a w disp) d
        (if signed ∧ 2 ^ (8 * size - 1) ≤ raw then BitVec.ofInt 64 ((raw : Int) - 2 ^ (8 * size)) else BitVec.ofNat 64 raw)) ∧
      ((∃ x ∈ blk.badPad, addr ≤ x ∧ x < addr + size) →
        RaisesAt s (logSpoiled s g.ref.core.toNat) g (.lds d a w disp) .scalar g.spc 1 0 (BitVec.ofNat 64 addr)) ∧
      (signed = false → lockedAt blk addr size = false → ∃ t, exec (.sts d a w disp) s = .next t ∧
        GroupBlockOnly (issueWord s g .scalar) t g (g.afterScalar g.spc (g.spc + 4) s.cycle) blk store ∧
        ∀ k, k < addr ∨ addr + size ≤ k → store.scratch.get k = blk.scratch.get k) ∧
      (signed = false → lockedAt blk addr size = true → WaitsS s (.sts d a w disp))) ∧
    ∀ i, i = .lds d a w disp ∨ i = .sts d a w disp ∧ signed = false →
      (addr % size ≠ 0 → RaisesS s g i 5 (BitVec.ofNat 64 addr)) ∧
      (addr % size = 0 → (blk.variantAt blk.variant).scratch < addr + size → RaisesS s g i 6 (BitVec.ofNat 64 addr))

/-- R152, R14, R15, R205: LRUN appends a run of NW+1 words at the group's lane base plus twelve times its offset to its lane
queue, where one of the queue's entries is free (16, or 4 in trap mode). A word of the run that reads an S register through
code 249 takes the value it has now; while such a register has a write pending, LRUN waits. With the queue full it
blocks. The model's own choice, which neither R14 nor R152 states (DEDUCED, assumption 17): for a word whose page does not
translate the run keeps the S registers as they are now, and LRUN waits while any has a write pending. -/
def Sys2Proof.Machine.laneRunsRule : Prop :=
  ∀ (s : State) (g : Group) (blk : Block) (nw : BitVec 5) (off : BitVec 21), ScalarAt s g blk [] true →
    let room := if g.trapm then 4 else 16
    let first := laneBase s g blk + BitVec.ofNat 52 (12 * off.toNat)
    let word := fun (k : Nat) => scanWord s g blk.test (first + BitVec.ofNat 52 (12 * k))
    let captures := fun (k n : Nat) => ∃ w, word k = some (some w) ∧ captureOf w = some (249#8, n)
    let open' := fun (k : Nat) => k ≤ nw.toNat ∧ word k = none
    let pending := ∃ n : BitVec 5, g.pendingS n = true ∧ ((∃ k, open' k) ∨ ∃ k m, k ≤ nw.toNat ∧ captures k m ∧ n = BitVec.ofNat 5 m)
    (room ≤ g.queue.length → BlocksS s g (.lrun nw off)) ∧
    (g.queue.length < room → pending → WaitsS s (.lrun nw off)) ∧
    (g.queue.length < room → ¬ pending →
      ∃ run : Run, NextS s g (.lrun nw off) (g.setQueue (g.queue ++ [run])) ∧ run.first = first ∧ run.words = nw.toNat + 1 ∧
        run.started = false ∧ run.caps.length = nw.toNat + 1 ∧
        (∀ k n, k ≤ nw.toNat → captures k n → run.caps[k]? = some (g.readS (BitVec.ofNat 5 n))) ∧
        (∀ k, k ∈ run.later ↔ open' k) ∧ ((∃ k, open' k) → run.snapS = g.s))

/-- R153, R15, R10: LWAIT completes when no run of the group's queue is left, its last word's occupancy has passed and no
long-latency lane word is unresolved; until then it blocks. -/
def Sys2Proof.Machine.lwaitWaitsForLanesRule : Prop :=
  ∀ (s : State) (g : Group) (blk : Block), ScalarAt s g blk [] true →
    (lanesDone s g = true → NextS s g .lwait g) ∧ (lanesDone s g = false → BlocksS s g .lwait) ∧
    (lanesDone s g = true ↔ g.queue = [] ∧ g.laneUntil ≤ s.cycle ∧ (∀ l ∈ g.loads, l.stream ≠ .lane) ∧
      g.traces = [] ∧ ∀ n ∈ (s.core g.ref.core.toNat).nevals, n.g ≠ g.ref)

/-- All of laneRunsRule, lwaitWaitsForLanesRule, each stated above with its rules. -/
def Obligations.LaneRunsAndWaits : Prop := laneRunsRule ∧ lwaitWaitsForLanesRule

/-- R154-R156: WBIND binds walker k to the 64-byte descriptor at S[a], once the lanes are done, or raises cause 0x0B for a
malformed one; WREAD writes BASE plus the indices times the strides into S[d], sets E and WLAST, and steps the indices; an
unbound walker gives 0 and every flag. -/
def Obligations.Walkers : Prop :=
  (∀ (s s1 : State) (g : Group) (blk : Block) (k : BitVec 3) (a : BitVec 5) (xs : List (Nat × W64 × Xlat)),
    let vas := (List.range 8).map fun n => (0, g.readS a + BitVec.ofNat 64 (8 * n))
    let bytes := xs.flatMap fun x => freshRead s1 g.ref.core.toNat x.2.2.pa 8
    ScalarAt s g blk [a] false → lanesDone s g = true → Accesses s s1 g blk .read 8 vas xs →
    soReady s1 g.ref.core.toNat xs = true → s1.choices = [] →
    (∀ w, walkerOf bytes = some w →
      ∃ t, exec (.wbind k a) s = .next t ∧ AdvancesS t g { g with walkers := listSet g.walkers k.toNat w } ∧ SameMem s1 t) ∧
    (walkerOf bytes = none → ∃ u, SameMem s1 u ∧ RaisesAt s u g (.wbind k a) .scalar g.spc 0x0B 0 (g.readS a))) ∧
  (∀ (s : State) (g : Group) (blk : Block) (d : BitVec 5) (k : BitVec 3), ScalarAt s g blk [d] false →
    (∀ w, g.walkers[k.toNat]? = some w → w.counts ≠ [] →
      let v := BitVec.ofInt 64 ((w.base.toNat : Int) + ((w.idx.zip w.strides).map fun p => (p.1 : Int) * p.2).sum)
      let g' := { g with e := walkerFlags w, wlast := k, walkers := listSet g.walkers k.toNat { w with idx := stepIndex w.idx w.counts } }
      NextS s g (.wread d k) (g'.writeS d v)) ∧
    ((∀ w, g.walkers[k.toNat]? = some w → w.counts = []) →
      NextS s g (.wread d k) ({ g with e := 0x3F, wlast := k }.writeS d 0)))

/-- R38, R39, R157: RGROW.B n and RGROW.C n grant 8n V registers, which read 0, where the lane has n units free beside those of
its resident groups and no request of the lane waits before; RGROW.B blocks and waits in line where it does not, RGROW.C answers 1; a request that could never be granted
raises cause 0x08, or answers 2. RSHRINK gives up 8n registers, but never the last 8. -/
def Obligations.RegisterCount : Prop :=
  ∀ (s : State) (g : Group) (blk : Block) (d n : BitVec 5), ScalarAt s g blk [d] false → lanesDone s g = true →
    let r := growResult s g (privOf blk g) n.toNat (growFirst s g)
    (r = 0 →
      (∃ t, exec (.rgrowB n) s = .next t ∧
        AdvancesS t g { g with vcnt := g.vcnt + 8 * n.toNat, v := g.v.clear (32 * g.vcnt) (256 * n.toNat) } ∧
        SameMem s t ∧ t.blocks = s.blocks) ∧
      NextS s g (.rgrowC d n) ({ g with vcnt := g.vcnt + 8 * n.toNat, v := g.v.clear (32 * g.vcnt) (256 * n.toNat),
                                        badV := Block.clean g.badV (32 * g.vcnt) (256 * n.toNat) }.writeS d 0)) ∧
    (r = 1 → (roomS s g → ∃ t h, exec (.rgrowB n) s = .next t ∧ t.group? g.ref = some h ∧ h.blockedS = true ∧ SameRegs g h ∧ h.spc = g.spc ∧
        (g.ref.core.toNat < s.cores.length → (t.core g.ref.core.toNat).growers.any (·.1 = g.ref) = true)) ∧
      WritesS s g (.rgrowC d n) d 1) ∧
    (r = 2 → RaisesS s g (.rgrowB n) 8 0 ∧ WritesS s g (.rgrowC d n) d 2) ∧
    (n = 0 → r = 0) ∧
    (let units := fun (h : Group) => 1 + h.vcnt / 8 + ((s.block? (blockOf h.ref)).elim 32 (privOf · h)) / 32
     let used := fun (lane : Nat) => ((s.groups.filter fun h => h.ref.core = g.ref.core && !h.exited).map fun h =>
       if h.wide then (if h.lane.toNat = lane then units h - 24 else if h.lane.toNat + 1 = lane then min 24 (units h) else 0)
       else if h.lane.toNat = lane then units h else 0).sum
     let free := (24 - used g.lane.toNat) + if g.wide then 24 - used (g.lane.toNat + 1) else 0
     let waiting := (s.core g.ref.core.toNat).growers.filter fun q => (s.group? q.1).any fun h => h.lane = g.lane
     let first := ∀ q, waiting.head? = some q → q.1 = g.ref
     n ≠ 0 → g.vcnt + 8 * n.toNat ≤ 248 →
     1 + (g.vcnt + 8 * n.toNat) / 8 + (blk.variantAt g.variant).priv / 32 ≤ (if g.wide then 48 else 24) →
       (first → n.toNat ≤ free → r = 0) ∧ (¬ first ∨ free < n.toNat → r = 1)) ∧
    (n ≠ 0 → 248 < g.vcnt + 8 * n.toNat ∨
      (if g.wide then 48 else 24) < 1 + (g.vcnt + 8 * n.toNat) / 8 + (blk.variantAt g.variant).priv / 32 → r = 2) ∧
    (n = 0 → NextS s g (.rshrink n) g) ∧
    (n ≠ 0 → g.vcnt < 8 * n.toNat + 8 → RaisesS s g (.rshrink n) 8 0) ∧
    (n ≠ 0 → 8 * n.toNat + 8 ≤ g.vcnt → (∀ w ∈ (s.core g.ref.core.toNat).growers, w.1 ≠ g.ref) → ∃ t, exec (.rshrink n) s = .next t ∧
      AdvancesS t g { g with vcnt := g.vcnt - 8 * n.toNat, v := g.v.clear (32 * (g.vcnt - 8 * n.toNat)) (256 * n.toNat) } ∧
      SameMem s t ∧ t.blocks = s.blocks)

/-- R74: an arrival adds one; when the arrivals reach the reload count the barrier drains, and it re-arms with none once the
leaves reach the count too; an arrive-only arrival counts as its own leave at completion. -/
def Sys2Proof.Machine.barrierUseRule : Prop :=
  ∀ (x : Barrier) (p : Nat) (nw : Bool), x.draining = false → 0 < x.reload → x.leaves = 0 →
    let y := x.arrive p nw
    let own := ((x.parties ++ [(p, nw)]).filter (·.2)).length
    (x.arrivals + 1 < x.reload → y.draining = false ∧ y.arrivals = x.arrivals + 1 ∧ y.leaves = 0 ∧ y.parties = x.parties ++ [(p, nw)]) ∧
    (x.reload ≤ x.arrivals + 1 → own < x.reload → y.draining = true ∧ y.leaves = own ∧
      y.parties = (x.parties ++ [(p, nw)]).filter fun q => !q.2) ∧
    (x.reload ≤ x.arrivals + 1 → x.reload ≤ own → y.draining = false ∧ y.arrivals = 0 ∧ y.leaves = 0 ∧ y.parties = []) ∧
    ∀ (d : Barrier) (q : Nat), d.draining = true →
      (d.leaves + 1 < d.reload → (d.leave q).draining = true ∧ (d.leave q).leaves = d.leaves + 1) ∧
      (d.reload ≤ d.leaves + 1 → (d.leave q).draining = false ∧ (d.leave q).arrivals = 0 ∧ (d.leave q).leaves = 0)

/-- R74, R159: BAR.ARRIVE at a block barrier, once the lanes are done: cause 0x0B where the reload count is 0 or the group's
arrival in this use is still unmatched, a stall while it drains, else the arrival is counted. BAR.WAIT: cause 0x0B with no
arrival, blocked until the use completes, then the leave. -/
def Sys2Proof.Machine.blockBarriersRule : Prop :=
  ∀ (s : State) (g : Group) (blk : Block) (nw : Bool) (n : BitVec 8), ScalarAt s g blk [] false →
    let x := blk.barrier n.toNat
    let p := g.ref.slot.toNat
    let here := x.parties.any fun q => q.1 = p
    (lanesDone s g = true →
      (x.reload = 0 ∨ here = true → RaisesS s g (.barArrive nw n) 0x0B 0) ∧
      (x.reload ≠ 0 → here = false → x.draining = true → WaitsS s (.barArrive nw n)) ∧
      (x.reload ≠ 0 → here = false → x.draining = false → blk.kPending s.cycle p = false →
        ∃ t, exec (.barArrive nw n) s = .next t ∧ AdvancesS t g g ∧ SameMem s t ∧
          t.block? blk.ref = some { blk with bars := listSet blk.bars n.toNat (x.arrive p nw) })) ∧
    (lanesDone s g = false → WaitsS s (.barArrive nw n)) ∧
    ((x.parties.any fun q => q.1 = p && !q.2) = false → RaisesS s g (.barWait n) 0x0B 0) ∧
    ((x.parties.any fun q => q.1 = p && !q.2) = true → x.draining = false → BlocksS s g (.barWait n)) ∧
    ((x.parties.any fun q => q.1 = p && !q.2) = true → x.draining = true →
      ∃ t, exec (.barWait n) s = .next t ∧ AdvancesS t g g ∧ SameMem s t ∧
        t.block? blk.ref = some { blk with bars := listSet blk.bars n.toNat (x.leave p) })

/-- All of barrierUseRule, blockBarriersRule, each stated above with its rules. -/
def Obligations.BlockBarriers : Prop := barrierUseRule ∧ blockBarriersRule

/-- R75, R159: a block's arrival at a peloton updates the barrier word at BARW: BAR.PARRIVE.NW goes on, BAR.PARRIVE waits, and
once the use has completed it makes the block's leave and goes on. BAR.WAIT.PEL waits for the uses in which the block has
arrived, and raises cause 0x0B where it never has. -/
def Obligations.PelotonBarriers : Prop :=
  (∀ (s s1 : State) (g : Group) (blk : Block) (n : BitVec 8) (p : Peloton) (x : Xlat) (w : BarWord),
    ScalarAt s g blk [] false → lanesDone s g = true → pelotonOf s blk n.toNat = some p → p.barrier = true →
    Accesses s s1 g blk .write 8 [(0, p.barw)] [(0, p.barw, x)] → released s1 g.ref.core.toNat 5 = true →
    barWordOf (memNat s1 x.pa 8) = some w → x.pa + 8 ≤ physTop →
    (g.waits.pel ≠ some n →
      (blk.pels.any fun a => a.peloton = p.index && (a.owed || pelUse s blk p.index ≤ a.use)) = false →
      blk.kPending s.cycle g.ref.slot.toNat = false → w.draining = false →
      (∃ t, exec (.barParrive true n) s = .next t ∧ AdvancesS t g g ∧ memNat t x.pa 8 = (w.arrive true).1.encode ∧
        SameMemBut s1 t x.pa 8) ∧
      (roomS s g → ∃ t h, exec (.barParrive false n) s = .next t ∧ t.group? g.ref = some h ∧ SameRegs g h ∧ h.blockedS = true ∧
        h.waits.pel = some n ∧ h.spc = g.spc ∧ memNat t x.pa 8 = (w.arrive false).1.encode ∧ SameMemBut s1 t x.pa 8)) ∧
    (g.waits.pel = some n →
      (blk.pels.any fun a => a.peloton = p.index && a.slot = g.ref.slot.toNat && a.owed && pelUse s blk p.index ≤ a.use) = false →
      ∀ nw, ∃ t, exec (.barParrive nw n) s = .next t ∧ AdvancesS t g g ∧ memNat t x.pa 8 = w.leave.encode ∧
        SameMemBut s1 t x.pa 8)) ∧
  ∀ (s : State) (g : Group) (blk : Block) (n : BitVec 8), ScalarAt s g blk [] false →
    ((∀ a ∈ blk.pels, a.peloton ≠ n.toNat) → RaisesS s g (.barWaitPel n) 0x0B 0) ∧
    ((∃ a ∈ blk.pels, a.peloton = n.toNat) →
      ((∃ a ∈ blk.pels, a.peloton = n.toNat ∧ pelUse s blk n.toNat ≤ a.use) → BlocksS s g (.barWaitPel n)) ∧
      ((∀ a ∈ blk.pels, a.peloton = n.toNat → a.use < pelUse s blk n.toNat) →
        ∃ t, exec (.barWaitPel n) s = .next t ∧ AdvancesS t g g ∧ SameMem s t ∧ t.blocks = s.blocks))

/-- R77, R160: QPUSH appends the low 32 bits of S[a] to a queue that has room, once the lanes are done, and blocks while it is
full; QPOP takes the queue's oldest unclaimed entry, zero-extended, into S[d], and blocks while there is none; a queue of
depth 0 raises cause 0x0B. A push, or a pop, after one of a higher slot in the same cycle goes in a later one. -/
def Obligations.NamedQueues : Prop :=
  ∀ (s : State) (g : Group) (blk : Block) (r : BitVec 5) (q : BitVec 3), ScalarAt s g blk [r] false →
    let depth := blk.kernel.qdepth.getD q.toNat 0
    let l := blk.queues.getD q.toNat []
    let k := blk.claimed q.toNat g.ref.slot.toNat
    let me := g.ref.slot.toNat
    let late := fun (push : Bool) => ∃ m, (q.toNat, push, s.cycle, m) ∈ blk.lastQueue ∧ me < m
    let noted := fun (push : Bool) => (q.toNat, push, s.cycle, me) :: blk.lastQueue.filter fun x => !(x.1 = q.toNat && x.2.1 = push)
    (depth = 0 → (lanesDone s g = true → RaisesS s g (.qpush r q) 0x0B 0) ∧ RaisesS s g (.qpop r q) 0x0B 0) ∧
    (depth ≠ 0 → lanesDone s g = true → depth ≤ l.length → BlocksS s g (.qpush r q)) ∧
    (lanesDone s g = true → l.length < depth → late true → WaitsS s (.qpush r q)) ∧
    (lanesDone s g = true → l.length < depth → blk.kPending s.cycle g.ref.slot.toNat = false → ¬ late true →
      ∃ t, exec (.qpush r q) s = .next t ∧ AdvancesS t g g ∧ SameMem s t ∧
        t.block? blk.ref = some { blk with lastQueue := noted true, queues := listSet blk.queues q.toNat (l ++ [(g.readS r).setWidth 32]) }) ∧
    (depth ≠ 0 → l.length ≤ k → BlocksS s g (.qpop r q)) ∧
    ∀ v, depth ≠ 0 → l[k]? = some v → (late false → WaitsS s (.qpop r q)) ∧ (¬ late false →
      ∃ t, exec (.qpop r q) s = .next t ∧ AdvancesS t g (g.writeS r (v.setWidth 64)) ∧ SameMem s t ∧
        t.block? blk.ref = some { blk with lastQueue := noted false, queues := listSet blk.queues q.toNat (l.eraseIdx k) })

/-- R161-R164, R80: a malformed engine handle in S[a] raises cause 0x0B, one that names no engine context of the group's context
and generation cause 0x06. CTAIL waits until the lanes are done, and until the core's writes are performed where the engine is not
the core's own; then it raises the chain's TAIL to S[d]. TLWAIT blocks until the timeline has reached S[d], and then acquires at the
timeline's scope. TLREAD writes the timeline into S[d]. -/
def Sys2Proof.Machine.engineHandlesRule : Prop :=
  ∀ (s : State) (g : Group) (blk : Block) (d a : BitVec 5), ScalarAt s g blk [d, a] false →
    let h := g.readS a
    let c := g.ref.core.toNat
    (lanesDone s g = false → WaitsS s (.ctail d a)) ∧
    (∀ i, i = .ctail d a ∧ lanesDone s g = true ∨ i = .tlwait d a ∨ i = .tlread d a →
      (handleBad h = true → RaisesS s g i 0x0B 0) ∧
      (handleBad h = false → blk.test = true ∨ handleCtx s g.ctx h = none → RaisesS s g i 6 0)) ∧
    ∀ e, handleBad h = false → blk.test = false → handleCtx s g.ctx h = some e →
      let out := e.ref.engine.toNat ≠ c ∧ (s.core c).pend ≠ []
      (lanesDone s g = true → out → WaitsS s (.ctail d a)) ∧
      (lanesDone s g = true → ¬ out →
        ∃ t, exec (.ctail d a) s = .next t ∧ AdvancesS t g g ∧ SameMem s t ∧
          t.engine? e.ref = some { e with tail := if e.tail.toNat < (g.readS d).toNat then g.readS d else e.tail }) ∧
      (e.timeline.toNat < (g.readS d).toNat → BlocksS s g (.tlwait d a)) ∧
      ((g.readS d).toNat ≤ e.timeline.toNat → ∃ t, exec (.tlwait d a) s = .next t ∧ AdvancesS t g g ∧ SameMem s t ∧
        (e.scope ≠ 0 ∨ 64 ≤ e.ref.engine.toNat → (t.core c).l1 = [] ∧ (t.core c).cc = [])) ∧
      WritesS s g (.tlread d a) d e.timeline

/-- R81, R163, R219: CCLOSE, once the lanes are done, puts the group's open copies into its next batch, whose number it writes into
S[d]. CWAIT passes at once for batch 0 or one not yet closed, blocks until the copies of the batch and of every earlier one are
done and the batch's release is made (assumption 89), raises the cause of the lowest failed copy not yet reported, which is then
reported, and else acquires at the batch's scope and goes on. -/
def Sys2Proof.Machine.copyBatchesRule : Prop :=
  ∀ (s : State) (g : Group) (blk : Block) (r : BitVec 5) (sc : BitVec 3), ScalarAt s g blk [r] false →
    let n := g.lastBatch + 1
    let b := (g.readS r).toNat
    let mine := s.copies.filter fun c => c.g = g.ref && c.batch.any (· ≤ b)
    let fails := mine.filter fun c => c.status ≠ 0 && !c.reported
    let core := s.core g.ref.core.toNat
    let scope := ((s.batches.find? fun x => x.g = g.ref && x.n = b).map (·.scope)).getD 0
    let out := scope ≠ 0 ∧ core.pend ≠ []
    (lanesDone s g = false → WaitsS s (.cclose r sc)) ∧
    (lanesDone s g = true → ∃ t h, exec (.cclose r sc) s = .next t ∧ AdvancesS t g (g.writeS r (BitVec.ofNat 64 n)) ∧ SameMem s t ∧
      t.group? g.ref = some h ∧ h.lastBatch = n ∧ t.batches = s.batches ++ [⟨g.ref, n, sc⟩] ∧
      t.copies = s.copies.map fun c => if c.g = g.ref && c.batch = none then { c with batch := some n } else c) ∧
    (b = 0 ∨ g.lastBatch < b → NextS s g (.cwait r) g) ∧
    (0 < b → b ≤ g.lastBatch →
      ((∃ c ∈ mine, c.done = false) ∨ out → BlocksS s g (.cwait r)) ∧
      ((∀ c ∈ mine, c.done = true) → ¬ out → fails = [] → ∃ t, exec (.cwait r) s = .next t ∧ AdvancesS t g g ∧ SameMem s t ∧
        (scope ≠ 0 → (t.core g.ref.core.toNat).l1 = [] ∧ (t.core g.ref.core.toNat).cc = [])) ∧
      ((∀ c ∈ mine, c.done = true) → ¬ out → fails ≠ [] → ∃ c ∈ fails, (∀ c' ∈ fails, c.n ≤ c'.n) ∧
        RaisesAt s { s with copies := s.copies.map fun k => if k.g = g.ref && k.n = c.n then { k with reported := true } else k } g
          (.cwait r) .scalar g.spc (if c.status = 4 then 7 else if c.status = 5 then 1 else 6) 0 0))

/-- All of engineHandlesRule, copyBatchesRule, each stated above with its rules. -/
def Obligations.EnginesAndBatches : Prop := engineHandlesRule ∧ copyBatchesRule

/-- R165, R69, R71, R49: a fence's release part waits as LWAIT does and until the core's writes are performed, at any scope
but 0; its acquire part empties the core's data and constant caches; FENCE.I waits until the stores of its own group, of its lanes
and of its scalar stream, are performed, and then empties the instruction cache and the line buffers of every core within its scope,
scope 0 counting as 1, and the middle level of every chamber that has such a core, and no other. Registers and memory stay. -/
def Sys2Proof.Machine.scalarFencesRule : Prop :=
  ∀ (s : State) (g : Group) (blk : Block) (sc : BitVec 3), ScalarAt s g blk [] false →
    let c := g.ref.core.toNat
    let out := sc ≠ 0 ∧ (s.core c).pend ≠ []
    (∃ t, exec (.fenceAcq sc) s = .next t ∧ AdvancesS t g g ∧ SameMem s t ∧ (sc ≠ 0 → (t.core c).l1 = [] ∧ (t.core c).cc = [])) ∧
    (∀ i, i = .fenceRel sc ∨ i = .fenceAr sc → (lanesDone s g = false ∨ out → WaitsS s i)) ∧
    (lanesDone s g = true → ¬ out →
      (∃ t, exec (.fenceRel sc) s = .next t ∧ AdvancesS t g g ∧ SameMem s t) ∧
      ∃ t, exec (.fenceAr sc) s = .next t ∧ AdvancesS t g g ∧ SameMem s t ∧ (sc ≠ 0 → (t.core c).l1 = [] ∧ (t.core c).cc = [])) ∧
    let own := ∃ w ∈ (s.core c).pend, w.who = .scalar g.ref ∨ ∃ k, w.who = .thread g.ref k
    let within := fun (k : Nat) => k < Config.cores ∧ (k = c ∨ inScope s c k (max 1 sc.toNat) = true)
    (own → WaitsS s (.fenceI sc)) ∧
    (¬ own → c < Config.cores → ∃ t, exec (.fenceI sc) s = .next t ∧ AdvancesS t g g ∧ SameMem s t ∧
      (∀ k, within k → (t.core k).icache = [] ∧ (∀ l ∈ (t.core k).ibuf, l = []) ∧
        (chamberOf k < s.imid.length → t.imid[chamberOf k]? = some [])) ∧
      (∀ k, ¬ within k → (t.core k).icache = (s.core k).icache ∧ (t.core k).ibuf = (s.core k).ibuf) ∧
      ∀ h, (∀ k, within k → chamberOf k ≠ h) → t.imid[h]? = s.imid[h]?)

/-- R86, R87, R166, R167: LNARM arms monitor m on the line of S[a] (lost on an uncached page,
or where the open choice is that the slice's capacity is exhausted); LNWAIT completes with 0 once a
monitor is triggered, 1 when one is lost, 3 when none is armed, 2 when its limit has passed, with the triggered and the lost
monitors in its upper bits, and disarms them all; until then it blocks, its limit S[a] cycles from its issue. -/
def Sys2Proof.Machine.lineMonitorsRule : Prop :=
  (∀ (s s1 : State) (g : Group) (blk : Block) (a : BitVec 5) (m : BitVec 2) (x : Xlat), ScalarAt s g blk [a] false →
    access s (some g.ref.core.toNat) blk.test g.ctx .read 1 [(0, g.readS a)] = (s1, .ok [(0, g.readS a, x)]) → g.mons.length = 4 →
    ∃ t h, exec (.lnarm a m) s = .next t ∧ AdvancesS t g g ∧ SameMem s1 t ∧ t.group? g.ref = some h ∧
      ∃ mon, h.mons[m.toNat]? = some mon ∧ mon.line = x.pa / 128 ∧ (mon.st = .lost ∨ mon.st = .armed) ∧
        (x.pte.cpol = 3 → mon.st = .lost) ∧ (x.pte.cpol ≠ 3 → s1.choices = [] → mon.st = .armed)) ∧
  ∀ (s : State) (g : Group) (blk : Block) (d a : BitVec 5), ScalarAt s g blk [d, a] false →
    let fired := monMask g .triggered
    let lost := monMask g .lost
    let ends := fun (code : Nat) => NextS s g (.lnwait d a)
      { g.writeS d (BitVec.ofNat 64 (code + 2 ^ 8 * fired + 2 ^ 12 * lost)) with
        mons := List.replicate 4 ⟨.unarmed, 0, 0⟩, waits := { g.waits with ln := none } }
    (fired ≠ 0 → ends 0) ∧ (fired = 0 → lost ≠ 0 → ends 1) ∧ (fired = 0 → lost = 0 → monMask g .armed = 0 → ends 3) ∧
    (fired = 0 → lost = 0 → monMask g .armed ≠ 0 →
      (∀ l, g.waits.ln = some l → l.timeout = true → ends 2) ∧
      (g.waits.ln = none → roomS s g → ∃ t h, exec (.lnwait d a) s = .next t ∧ t.group? g.ref = some h ∧ SameRegs g h ∧ h.spc = g.spc ∧
        h.blockedS = true ∧ h.waits.ln = some ⟨s.cycle, if 2 ^ 40 ≤ (g.readS a).toNat then 0 else (g.readS a).toNat, false⟩))

/-- All of scalarFencesRule, lineMonitorsRule, each stated above with its rules. -/
def Obligations.FencesAndMonitors : Prop := scalarFencesRule ∧ lineMonitorsRule

/-- R168: SPAWN reads the record at S[a], with its extension for a launch, and the descriptor of task queue q; with room in the
ring of the record's priority it writes the record, and a launch's extension, into the next slots, then TAIL, exposes the record
to the dispatcher as R264 and R265 say (exposeSlot), and S[d] is 0. A record of another
form gives 3, a queue that is not enabled 2, a full ring 1, and nothing is written. -/
def Sys2Proof.Machine.spawnEnqueuesRule : Prop :=
  ∀ (s u u1 u2 : State) (g : Group) (blk : Block) (d a : BitVec 5) (q : BitVec 6) (bs es ds : List Byte),
    ScalarAt s g blk [d, a] false → Reads s u g blk 64 [g.readS a] bs →
    let r := slotOf bs
    let n := if recForm r = 1 then 2 else 1
    let dva := queueVa u1 g.ctx q.toNat
    let answers := fun (v : Nat) => ∃ t, exec (.spawn d a q) s = .next t ∧ AdvancesS t g (g.writeS d (BitVec.ofNat 64 v)) ∧ SameMem u2 t
    (2 ≤ recForm r → ∃ t, exec (.spawn d a q) s = .next t ∧ AdvancesS t g (g.writeS d 3) ∧ SameMem u t) ∧
    (recForm r < 2 → (recForm r = 1 → Reads u u1 g blk 64 [g.readS a + 64] es) → (recForm r = 0 → u1 = u) → blk.test = false →
      Reads u1 u2 g blk 64 [dva, dva + 64] ds →
      (queueDesc ds = none → answers 2) ∧
      ∀ qd, queueDesc ds = some qd →
        (qd.full (recPrio r) n = true → answers 1) ∧
        (qd.full (recPrio r) n = false →
          ∀ (u3 u4 : State) (tx : Xlat) (xs : List (Nat × W64 × Xlat)),
            let tail := qd.tails.getD (recPrio r) 0
            let tva := dva + BitVec.ofNat 64 (68 + 8 * recPrio r)
            Accesses u2 u3 g blk .write 4 [(0, tva)] [(0, tva, tx)] →
            Accesses (allocateAll u3 4 [(0, tva, tx)]) u4 g blk .write 64
              ((List.range n).map fun k => (0, qd.slotVa (recPrio r) (tail + k))) xs →
            released u4 g.ref.core.toNat 5 = true → tx.pa + 4 ≤ physTop → (∀ x ∈ xs, x.2.2.pa + 64 ≤ physTop) →
            let apart := fun (a b n m : Nat) => a + n ≤ b ∨ b + m ≤ a
            let ext := if recForm r = 1 then some (slotOf es) else none
            ∃ t v, exec (.spawn d a q) s = .next t ∧ AdvancesS t g (g.writeS d 0) ∧
              memNat v tx.pa 4 = (tail + n) % 2 ^ 32 ∧
              (∀ k x, xs[k]? = some x → apart x.2.2.pa tx.pa 64 4 → (∀ j y, j ≠ k → xs[j]? = some y → apart x.2.2.pa y.2.2.pa 64 64) →
                memBytes v x.2.2.pa 64 = slotBytes (if k = 0 then r else slotOf es)) ∧
              (∀ b, apart b tx.pa 1 4 → (∀ x ∈ xs, apart b x.2.2.pa 1 64) → memByte v b = memByte u4 b) ∧
              t.ctxs = (exposeSlot v g.ctx q.toNat (recPrio r) tail (some blk.grid) (some r) ext).ctxs ∧
              SameMem (exposeSlot v g.ctx q.toNat (recPrio r) tail (some blk.grid) (some r) ext) t ∧
              ∀ y, v.ctx? g.ctx = some y → (∀ k ∈ y.slots, ¬ (k.q = q.toNat ∧ k.prio = recPrio r ∧ k.slot = tail)) → recJoin r = 0 →
                SameMem v t ∧ ∃ z j, t.ctx? g.ctx = some z ∧ j ∈ z.slots ∧ j.q = q.toNat ∧ j.prio = recPrio r ∧ j.slot = tail ∧
                  j.read = some r ∧ j.ext = ext ∧ j.ready = some s.cycle))

/-- R169: JOIN, once the lanes are done and the release part allows it, takes one from the 32-bit counter at S[a], at once; a
counter of 0 raises cause 0x0B. It changes no register and no other byte. -/
def Sys2Proof.Machine.joinDecrementsRule : Prop :=
  ∀ (s s1 : State) (g : Group) (blk : Block) (a : BitVec 5) (sc : BitVec 3) (x : Xlat), ScalarAt s g blk [a] false →
    lanesDone s g = true → Accesses s s1 g blk .atomic 4 [(0, g.readS a)] [(0, g.readS a, x)] →
    released s1 g.ref.core.toNat sc.toNat = true → soReady s1 g.ref.core.toNat [(0, g.readS a, x)] = true →
    pendOverlap s1 g.ref.core.toNat x.pa 4 = false → x.pa + 4 ≤ physTop →
    let v := memNat s1 x.pa 4
    (0 < v → ∃ t, exec (.join a sc) s = .next t ∧ AdvancesS t g g ∧ memNat t x.pa 4 = v - 1 ∧ SameMemBut s1 t x.pa 4) ∧
    (v = 0 → ∃ u, SameMem s1 u ∧ RaisesAt s u g (.join a sc) .scalar g.spc 0x0B 0 (g.readS a))

/-- R168, R332: AMSEND reads the record at S[a] and the route of its number in the context's message-route table. To a system
queue with room it posts the record in the ring's next slot and advances TAIL; to a task queue of another context it writes the
record into the next slot of the ring of its priority, and TAIL, and exposes it to the dispatcher; S[d] is then 0. A record that is
no message gives 3; a route that is not valid, or a queue that is not enabled or whose pages do not translate, 2; a full ring 1. -/
def Sys2Proof.Machine.amsendDeliversRule : Prop :=
  ∀ (s u u1 : State) (g : Group) (blk : Block) (d a : BitVec 5) (q : BitVec 6) (bs rs : List Byte) (x : Ctx),
    ScalarAt s g blk [d, a] false → Reads s u g blk 64 [g.readS a] bs →
    let r := slotOf bs
    let answers := fun (v : W64) => ∃ t, exec (.amsend d a q) s = .next t ∧ AdvancesS t g (g.writeS d v)
    (recForm r ≠ 2 → answers 3) ∧
    (recForm r = 2 → blk.test = false → u.ctx? g.ctx = some x →
      (x.desc.mrcount ≤ q.toNat → answers 2) ∧
      (q.toNat < x.desc.mrcount → Reads u u1 g blk 8 [x.desc.mrtab + BitVec.ofNat 64 (8 * q.toNat)] rs →
        (routeOf (leNat rs) = none → answers 2) ∧
        (∀ c k, routeOf (leNat rs) = some (true, c, k) → k < 16 →
          let ring := u1.regs.rings.getD (2 + k) Ring.reset
          let room := 4 ≤ ring.log2.toNat ∧ ring.log2.toNat ≤ 16 ∧ (ring.tail - ring.head).toNat < 2 ^ ring.log2.toNat
          let pa := ring.base.toNat + 64 * (ring.tail.toNat % 2 ^ ring.log2.toNat)
          (room → ∃ t, exec (.amsend d a q) s = .next t ∧ AdvancesS t g (g.writeS d 0) ∧
            SameMemBut u1 t pa 64 ∧ (pa + 64 ≤ physTop → memBytes t pa 64 = slotBytes r) ∧
            t.regs = { u1.regs with rings := listSet u1.regs.rings (2 + k) { ring with tail := ring.tail + 1 } }) ∧
          (¬ room → answers 1)) ∧
        ∀ c k, routeOf (leNat rs) = some (false, c, k) →
          let dva := queueVa u1 c k
          ((∀ bs, (readVirt u1 c false dva 128).2 ≠ .ok bs) → answers 2) ∧
          ∀ (u2 : State) (ds : List Byte), readVirt u1 c false dva 128 = (u2, .ok ds) →
            (queueDesc ds = none → answers 2) ∧
            ∀ (qd : QDesc), queueDesc ds = some qd →
              let tail := qd.tails.getD (recPrio r) 0
              let tailAt := spanOf u2 c .write false (dva + BitVec.ofNat 64 (68 + 8 * recPrio r)) 4
              let slotAt := spanOf tailAt.1 c .write false (qd.slotVa (recPrio r) tail) 64
              ((∀ pas, tailAt.2 ≠ .ok pas) → answers 2) ∧
              ∀ tpas, tailAt.2 = .ok tpas →
                ((∀ pas, slotAt.2 ≠ .ok pas) → answers 2) ∧
                ∀ pas, slotAt.2 = .ok pas →
                  (qd.full (recPrio r) 1 = true → answers 1) ∧
                  (qd.full (recPrio r) 1 = false → ∃ t v, exec (.amsend d a q) s = .next t ∧ AdvancesS t g (g.writeS d 0) ∧
                    (∀ b, b ∉ pas → b ∉ tpas → memByte v b = memByte slotAt.1 b) ∧
                    ((∀ b ∈ pas ++ tpas, b < physTop) → (pas ++ tpas).Nodup →
                      pas.map (memByte v) = slotBytes r ∧ tpas.map (memByte v) = bytesOf 4 ((tail + 1) % 2 ^ 32)) ∧
                    t.ctxs = (exposeSlot v c k (recPrio r) tail none (some r) none).ctxs ∧
                    SameMem (exposeSlot v c k (recPrio r) tail none (some r) none) t)))

/-- All of spawnEnqueuesRule, joinDecrementsRule, amsendDeliversRule, each stated above with its rules. -/
def Obligations.TaskWords : Prop := spawnEnqueuesRule ∧ joinDecrementsRule ∧ amsendDeliversRule

/-- R170, R140, R28: SWPT with an index past the kernel's switch points raises cause 0x02. A group whose block is not marked, that
is in trap mode, runs the target already, has an open copy or a ray, or whose lane has no room passes it with no effect. Else it
moves: VCNT, the variant, SPC and LPC become the target's, and the listed V registers move; every other register stays. -/
def Sys2Proof.Machine.switchPointsRule : Prop :=
  ∀ (s : State) (g : Group) (blk : Block) (n : BitVec 16), ScalarAt s g blk [] false → lanesDone s g = true →
    (blk.kernel.swpts[n.toNat]? = none → RaisesS s g (.swpt n) 2 0) ∧
    ∀ p, blk.kernel.swpts[n.toNat]? = some p →
      (blk.mark = none → NextS s g (.swpt n) g) ∧
      ∀ v, blk.mark = some v →
        let stays := g.trapm = true ∨ g.variant = v ∨ (s.copies.any fun c => c.g = g.ref && c.batch.isNone) = true ∨
          (s.rays.any fun y => y.g = g.ref) = true ∨
          freeUnits (placedOn s g.ref.core.toNat) g.lane.toNat g.wide < (blk.variantAt v).vcnt / 8 - g.vcnt / 8
        (stays → NextS s g (.swpt n) g) ∧
        (¬ stays → (∀ x ∈ (s.core g.ref.core.toNat).growers, x.1 ≠ g.ref) → ∃ t h, exec (.swpt n) s = .next t ∧
          t.group? g.ref = some h ∧ SameRegs { g with v := movedV g p v, variant := v, vcnt := (blk.variantAt v).vcnt } h ∧
          h.spc = p.spc.getD v 0 ∧ h.lpc = p.lpc.getD v 0 ∧ SameMem s t)

/-- R32, R172, R173, R75: YIELD goes on with the next word. EXIT, once the lanes are done and every load, ray and draft result of
the group has returned, ends the group: its monitors are disarmed, its walkers unbound, its unmatched arrivals at block barriers
count their leaves, and no other register changes. A leave that it owes a peloton it makes at the peloton's barrier word, and where
that does not translate it parks. -/
def Sys2Proof.Machine.yieldAndExitRule : Prop :=
  ∀ (s : State) (g : Group) (blk : Block),
    (ScalarAt s g blk [] false → NextS s g .yield g) ∧
    (ScalarAt s g blk [] true → lanesDone s g = true → g.loads = [] → resultsOut s g.ref = false →
      (∀ x ∈ (s.core g.ref.core.toNat).growers, x.1 ≠ g.ref) → (∀ c, blk.seq.carrier ≠ some (g.ref.slot.toNat, c)) →
      let owed := blk.pels.filter fun a => a.owed && a.slot = g.ref.slot.toNat
      let ends := fun (t : State) => ∃ h b', t.group? g.ref = some h ∧
        SameRegs { g with exited := true, walkers := List.replicate 8 ⟨0, [], [], []⟩ } h ∧
        h.mons = List.replicate 4 ⟨.unarmed, 0, 0⟩ ∧ t.block? blk.ref = some b' ∧
        b'.bars = blk.bars.map fun x => x.retire g.ref.slot.toNat
      (owed = [] → ∃ t, exec .exit s = .next t ∧ ends t ∧ SameMem s t) ∧
      ∀ (a : PelArrival) (p : Peloton) (s1 : State), owed = [a] → pelotonOf s blk a.peloton = some p →
        (∀ x w, access s (some g.ref.core.toNat) blk.test g.ctx .write 8 [(0, p.barw)] = (s1, .ok [(0, p.barw, x)]) →
          barWordOf (memNat s1 x.pa 8) = some w → x.pa + 8 ≤ physTop →
          ∃ t, exec .exit s = .next t ∧ ends t ∧ memNat t x.pa 8 = w.leave.encode ∧ SameMemBut s1 t x.pa 8) ∧
        (∀ fs, access s (some g.ref.core.toNat) blk.test g.ctx .write 8 [(0, p.barw)] = (s1, .park fs) → roomS s g →
          ∃ t h, exec .exit s = .next t ∧ t.group? g.ref = some h ∧ h.parkS.isSome = true ∧ SameRegs g h ∧ h.spc = g.spc ∧ SameMem s1 t))

/-- R158, R34, R95, R98, R306: the special registers. SPRD reads GSR, FSR or the cause; SPWR ignores a write of GSR, and writes
FSR's writable bits unless RM would be 4-7, which raises cause 0x02; SRSEED sets the stochastic-rounding state, 0 as 1; CAUSEW in
trap mode writes the cause, outside it raises the cause it names, 0 none, and an unknown code raises cause 0x02. -/
def Obligations.SpecialRegisters : Prop :=
  ∀ (s : State) (g : Group) (blk : Block) (r : BitVec 5) (sp : BitVec 8), ScalarAt s g blk [r] false → lanesDone s g = true →
    let x := g.readS r
    let c := x.toNat % 256
    (∃ v : W64, WritesS s g (.sprd r 0) r v ∧ v.extractLsb' 0 6 = g.e ∧ v.extractLsb' 6 3 = g.wlast ∧
      v.extractLsb' 9 5 = g.ref.slot ∧ v.extractLsb' 14 3 = g.ref.bslot ∧ v.getLsbD 17 = g.wide ∧ v.extractLsb' 18 7 = g.lane ∧
      v.extractLsb' 25 6 = g.ref.core ∧ v.extractLsb' 31 5 = BitVec.ofNat 5 (g.vcnt / 8) ∧
      v.extractLsb' 36 2 = BitVec.ofNat 2 g.variant ∧ v.getLsbD 38 = blk.kernel.compat ∧ v.getLsbD 39 = g.trapm ∧
      v.extractLsb' 40 8 = g.ctx ∧ v.extractLsb' 48 16 = 0) ∧
    WritesS s g (.sprd r 1) r (g.fsr.setWidth 64) ∧ WritesS s g (.sprd r 2) r (g.cause.setWidth 64) ∧
    NextS s g (.spwr r 0) g ∧
    (x.getLsbD 15 = false → NextS s g (.spwr r 1) { g with fsr := x.setWidth 32 &&& 0x0000FF1F#32 }) ∧
    (x.getLsbD 15 = true → RaisesS s g (.spwr r 1) 2 0) ∧
    (3 ≤ sp.toNat → RaisesS s g (.sprd r sp) 2 0) ∧ (2 ≤ sp.toNat → RaisesS s g (.spwr r sp) 2 0) ∧
    NextS s g (.srseed r) { g with sr := if x.setWidth 32 = 0#32 then 1 else x.setWidth 32 } ∧
    (causeKnown c = false → RaisesS s g (.causew r) 2 0) ∧
    (causeKnown c = true → g.trapm = true → NextS s g (.causew r) { g with cause := BitVec.ofNat 8 c }) ∧
    (c = 0 → g.trapm = false → NextS s g (.causew r) g) ∧
    (causeKnown c = true → c ≠ 0 → g.trapm = false →
      exec (.causew r) s = .next { raise s g (causeAt g c 0 2 0 g.spc 0 0) with issued := true })

/-- R171, R172, R332: TRAP completes and then raises cause 0x40 with its code. SYSCALL posts one call record of R171 in the next
slot of system ring 1, advances its TAIL and waits; once the service has answered it writes the two results into S1 and S2 and goes
on, or raises cause 0x01 where the service's slot held an uncorrectable error (R345); with the ring full it does not begin. -/
def Sys2Proof.Machine.systemCallsRule : Prop :=
  ∀ (s : State) (g : Group) (blk : Block) (code : BitVec 12),
    (ScalarAt s g blk [] true → ∃ u g', GroupOnly (issueWord s g .scalar) u g g' ∧ g' = g.afterScalar g.spc (g.spc + 4) s.cycle ∧
      exec (.trap code) s = .next (raise u g' (causeAt g' 0x40 0 0 code.toNat g.spc 0 0))) ∧
    (ScalarAt s g blk [1, 2, 3, 4, 5, 6] false → lanesDone s g = true →
      let ring := s.regs.rings.getD 1 Ring.reset
      let room := 4 ≤ ring.log2.toNat ∧ ring.log2.toNat ≤ 16 ∧ (ring.tail - ring.head).toNat < 2 ^ ring.log2.toNat
      let pa := ring.base.toNat + 64 * (ring.tail.toNat % 2 ^ ring.log2.toNat)
      (∀ k v1 v2, g.waits.call = some ⟨k, some (some (v1, v2))⟩ →
        NextS s g (.syscall code) { (g.writeS 1 v1).writeS 2 v2 with waits := { g.waits with call := none } }) ∧
      (∀ k, g.waits.call = some ⟨k, some none⟩ → ∃ u, GroupOnly s u g { g with waits := { g.waits with call := none } } ∧
        RaisesAt s u g (.syscall code) .scalar g.spc 1 0 0) ∧
      (∀ k, g.waits.call = some ⟨k, none⟩ → BlocksS s g (.syscall code)) ∧
      (g.waits.call = none → ¬ room → WaitsS s (.syscall code)) ∧
      (g.waits.call = none → room → roomS s g → ∃ t h, exec (.syscall code) s = .next t ∧ t.group? g.ref = some h ∧ SameRegs g h ∧
        h.blockedS = true ∧ h.waits.call = some ⟨ring.tail.toNat % 2 ^ ring.log2.toNat, none⟩ ∧
        t.regs = { s.regs with rings := listSet s.regs.rings 1 { ring with tail := ring.tail + 1 } } ∧ SameMemBut s t pa 64 ∧
        (pa + 64 ≤ physTop →
          let bs := memBytes t pa 64
          fieldAt bs 0 2 = code.toNat ∧ fieldAt bs 2 1 = g.ctx.toNat ∧ fieldAt bs 3 1 = g.ref.core.toNat ∧
          fieldAt bs 4 1 = 32 * g.ref.bslot.toNat + g.ref.slot.toNat ∧ fieldAt bs 5 3 = 0 ∧ fieldAt bs 8 4 = g.active.toNat ∧
          fieldAt bs 12 4 = 0 ∧ ∀ n, n < 6 → fieldAt bs (16 + 8 * n) 8 = (g.readS (BitVec.ofNat 5 (n + 1))).toNat)))

/-- R174, R324: REPLAY outside loop-buffer mode raises cause 0x03. In it, a descriptor that is not 16-byte aligned gives 1; a sound
one starts its loop and the word waits; once the loop has ended S[d] is its iterations times 2^32, plus 1 after a cause. -/
def Sys2Proof.Machine.replayWordRule : Prop :=
  ∀ (s : State) (g : Group) (blk : Block) (d a : BitVec 5), ScalarAt s g blk [d, a] false →
    let mode := blk.test = true ∧ (s.core g.ref.core.toNat).loopMode = true
    (¬ mode → RaisesS s g (.replay d a) 3 0) ∧
    (mode → g.loop = none → (g.readS a).toNat % 16 ≠ 0 →
      ∃ t, exec (.replay d a) s = .next t ∧ AdvancesS t g (g.writeS d 1) ∧ SameMem s t) ∧
    (mode → g.loop = none → (g.readS a).toNat % 16 = 0 → ∀ u bs l,
      Reads s u g blk 16 ((List.range 33).map fun k => g.readS a + BitVec.ofNat 64 (16 * k)) bs → loopOf (g.readS a) bs = some l → roomS s g →
      ∃ t h, exec (.replay d a) s = .next t ∧ t.group? g.ref = some h ∧ h.loop = some l ∧ h.blockedS = true ∧ SameRegs g h ∧
        SameMem u t) ∧
    ∀ l, mode → g.loop = some l → (l.ended = false → BlocksS s g (.replay d a)) ∧
      (l.ended = true → ∃ t h, exec (.replay d a) s = .next t ∧ t.group? g.ref = some h ∧ h.loop = none ∧
        AdvancesS t g (g.writeS d (BitVec.ofNat 64 (l.iter * 2 ^ 32 + if l.err then 1 else 0))) ∧ SameMem s t)

/-- R174, R324: REPLAY, whose OP6 is 0x3E. In the code of any context it raises cause 0x03, whatever its other fields; it has its effect in
loop-buffer mode. -/
def Obligations.ReplayWord : Prop :=
  (∀ w : BitVec 32, w.extractLsb' 26 6 = 0x3E → decodeScalar w = .ok (.replay (w.extractLsb' 21 5) (w.extractLsb' 16 5))) ∧
  (∀ (s : State) (g : Group) (blk : Block) (d a : BitVec 5), ScalarAt s g blk [d, a] false → blk.test = false →
    RaisesS s g (.replay d a) 3 0) ∧
  replayWordRule

/-- All of switchPointsRule, yieldAndExitRule, systemCallsRule, each stated above with its rules. -/
def Obligations.SwitchCallExit : Prop := switchPointsRule ∧ yieldAndExitRule ∧ systemCallsRule

/-- The lane integer and bit words with a register destination (R179-R186, R196): their source codes, the V registers they meet,
whether the result is a pair, what their own check asks, and the value of a thread. `ia`, `ib`, `ic` read A, B and C as exact
integers of the word's type; a value outside the type wraps, or with .SAT is clamped. -/
def Sys2Proof.Machine.laneIntTable (w : LaneWord) :
    List (Instr × List (BitVec 8) × List Nat × Bool × (Env → Mask → Prop) × (Env → Nat → W64)) :=
  let n := tyWidth w.ty
  let pair := decide (6 ≤ w.ty)
  let sat := fun (v : Int) => if w.rm % 2 = 1 then max (intMin (tySigned w.ty) n) (min (intMax (tySigned w.ty) n) v) else v
  let out := fun (v : Int) => if tySigned w.ty then BitVec.ofInt 64 (sext n (wrap n v)) else BitVec.ofNat 64 (wrap n v % 2 ^ n)
  let any := fun (_ : Env) (_ : Mask) => True
  let ab := [w.a, w.b]
  let ty := fun (i : Instr) (cs : List (BitVec 8)) (f : Env → Nat → Int) =>
    (i, cs, vregs pair (w.d :: cs), pair, any, fun e k => out (f e k))
  let shift := fun (i : Instr) (f : Int → Nat → Int) =>
    (i, ab, vregs pair [w.d, w.a] ++ vregs false [w.b], pair, any, fun (e : Env) (k : Nat) => out (f (ia e k) ((e.r32 w.b k).toNat % n)))
  let word := fun (i : Instr) (cs : List (BitVec 8)) (f : Env → Nat → W32) =>
    (i, cs, vregs false (w.d :: cs), false, any, fun (e : Env) (k : Nat) => (f e k).setWidth 64)
  let a := fun (e : Env) (k : Nat) => e.r32 w.a k
  let b := fun (e : Env) (k : Nat) => e.r32 w.b k
  let mixed := if w.x = 1 then [w.a, w.b, w.c] else ab
  [ty (.iadd w) ab fun e k => sat (ia e k + ib e k), ty (.isub w) ab fun e k => sat (ia e k - ib e k),
   ty (.imul w) ab fun e k => sat (ia e k * ib e k), ty (.imad w) [w.a, w.b, w.c] fun e k => sat (ia e k * ib e k + ic e k),
   ty (.imulh w) ab fun e k => ia e k * ib e k / 2 ^ 32, ty (.imin w) ab fun e k => min (ia e k) (ib e k),
   ty (.imax w) ab fun e k => max (ia e k) (ib e k), ty (.mov w) [w.a] ia,
   (.idiv w, ab, vregs pair (w.d :: ab), pair, fun e m => ∀ k ∈ threadsOf m, ib e k ≠ 0,
     fun e k => out (if w.x = 1 then (ia e k).tmod (ib e k) else sat ((ia e k).tdiv (ib e k)))),
   shift (.laneShl w) fun v k => v * 2 ^ k, shift (.laneShr w) fun v k => (wrap n v : Int) / 2 ^ k,
   shift (.laneSha w) fun v k => sext n (wrap n v) / 2 ^ k,
   word (.laneAnd w) ab fun e k => a e k &&& b e k, word (.laneOr w) ab fun e k => a e k ||| b e k,
   word (.laneXor w) ab fun e k => a e k ^^^ b e k, word (.not w) [w.a] fun e k => ~~~(a e k),
   word (.bfi w) [w.a, w.b, w.c] fun e k => bfi (a e k) (b e k) (e.r32 w.c k),
   word (.bilv w) mixed fun e k => interleave (w.x.toNat + 2) fun j => e.r32 (if j = 0 then w.a else if j = 1 then w.b else w.c) k,
   word (.bdlv w) [w.a] fun e k => deinterleave (w.x.toNat % 4 + 2) (w.x.toNat / 4) (a e k),
   word (.laneSel w) ab fun e k => if (e.g.readP w.c.toNat).getLsbD k then a e k else b e k,
   (.bfe w, ab, vregs false (w.d :: ab), false, any, fun e k =>
     let len := bfLen (b e k)
     let f := (a e k).toNat / 2 ^ bfPos (b e k) % 2 ^ len
     if w.ty = 0 ∧ len ≠ 0 then BitVec.ofInt 64 (sext len f) else BitVec.ofNat 64 f)]

/-- The count and reverse words of R185, with the value of a thread. -/
def Sys2Proof.Machine.countTable (w : LaneWord) : List (Nat × Instr × (W32 → W32)) :=
  [(0x019, .popc w, fun a => BitVec.ofNat 32 ((List.range 32).countP fun j => a.getLsbD j)),
   (0x01A, .clz w, fun a => BitVec.ofNat 32 (((List.range 32).find? fun j => a.getLsbD (31 - j)).getD 32)),
   (0x01B, .brev w, fun a => maskOf fun i => a.getLsbD (31 - i))]

/-- R185: POPC gives the number of 1 bits of A, CLZ the number of 0 bits above the highest 1 bit, 32 for 0, BREV bit i of A in bit 31 - i; they
act on 32-bit A, and a word with MOD[6:0] or X not zero is none of them. -/
def Obligations.CountWords : Prop :=
  ∀ w : LaneWord, ∀ x ∈ countTable w,
    (∀ i, decodeLane (pack x.1 w) = .ok i → i = x.2.1 ∧ w.md.toNat % 128 = 0 ∧ w.x = 0) ∧
    (x.2.1.wf = true → LaneArith x.2.1 w [w.a] (vregs false [w.d, w.a]) false (fun _ _ => True)
      fun e k => ((x.2.2 (e.r32 w.a k)).setWidth 64, Exc.none))

/-- R178-R186, R196: every lane integer, bit, select and move word completes with its value in the destination of every selected
thread, whatever its operand forms; it raises no exception and changes nothing else. -/
def Sys2Proof.Machine.laneIntegerWordsRule : Prop :=
  ∀ w, ∀ x ∈ laneIntTable w, x.1.wf = true →
    LaneArith x.1 w x.2.1 x.2.2.1 x.2.2.2.1 x.2.2.2.2.1 fun e k => (x.2.2.2.2.2 e k, Exc.none)

/-- R181, R306: IDIV with a zero divisor in a selected thread raises cause 0x28, precisely. -/
def Sys2Proof.Machine.divideByZeroTrapsRule : Prop :=
  ∀ (s u : State) (g : Group) (blk : Block) (w : LaneWord) (gv : W64), (Instr.idiv w).wf = true →
    LaneAt s g blk [w.d, w.a, w.b] (vregs (decide (6 ≤ w.ty)) [w.d, w.a, w.b]) false → laneSelected g w ≠ 0 →
    selector s g blk w [w.a, w.b] = .ok u gv →
    (∃ k ∈ threadsOf (passes w (laneSelected g w)), ib ⟨g, w, gv⟩ k = 0) → RaisesL s g (.idiv w) 0x28

/-- All of laneIntegerWordsRule, divideByZeroTrapsRule, each stated above with its rules. -/
def Obligations.LaneIntegerWords : Prop := laneIntegerWordsRule ∧ divideByZeroTrapsRule

/-- The lane floating-point words (R187-R192): a thread's value, rounded once under the word's mode, with its exceptions. `fa` is
A with .NA, `fl` another operand with .NL; sums and products are exact before the rounding. -/
def Sys2Proof.Machine.laneFloatTable (w : LaneWord) : List (Instr × List (BitVec 8) × List Nat × (Env → Nat → Nat × Exc)) :=
  let ab := [w.a, w.b]
  let abc := [w.a, w.b, w.c]
  let rd := fun (f : Fmt) (e : Env) (v : Val × Bool) => let r := f.round (modeIn e) v.1; (r.1, r.2.or { i := v.2 })
  let one := fun (i : Instr) (cs : List (BitVec 8)) (f : Env → Nat → Val × Bool) =>
    (i, cs, vregs false (w.d :: cs), fun (e : Env) (k : Nat) => rd .f32 e (f e k))
  let fn := fun (i : Instr) (f : Val → Val × Exc) =>
    (i, [w.a], vregs false [w.d, w.a], fun (e : Env) (k : Nat) =>
      let v := f (e.f32 w.a k)
      let r := Fmt.f32.round (modeIn e) v.1
      (r.1, r.2.or v.2))
  let two := fun (i : Instr) (cs : List (BitVec 8)) (f : Env → Nat → Nat → Val × Bool) =>
    (i, cs, vregs false (w.d :: cs), fun (e : Env) (k : Nat) =>
      let lo := rd (fmtOf w.ty) e (f e k 0)
      let hi := rd (fmtOf w.ty) e (f e k 1)
      (lo.1 + 2 ^ 16 * hi.1, lo.2.or hi.2))
  let dot := fun (i : Instr) (n bw : Nat) =>
    (i, abc, vregs false (w.d :: abc) ++ [w.ix, w.ix + 1], fun (e : Env) (k : Nat) => dotFloat e n bw k)
  [one (.fadd w) ab fun e k => addIn (modeIn e) (fa e k) (fl e w.b k), one (.fmul w) ab fun e k => Val.mul (fa e k) (e.f32 w.b k),
   one (.ffma w) abc fun e k => fmaIn (modeIn e) (fa e k) (e.f32 w.b k) (fl e w.c k),
   (.fmin w, ab, vregs false (w.d :: ab), fun e k => minNum false (e.r32 w.a k) (e.r32 w.b k)),
   (.fmax w, ab, vregs false (w.d :: ab), fun e k => minNum true (e.r32 w.a k) (e.r32 w.b k)),
   fn (.frcp w) frcpVal, fn (.frsq w) frsqVal, fn (.fsqrt w) fsqrtVal, fn (.fexp2 w) fexp2Val, fn (.flog2 w) flog2Val,
   fn (.fsin w) fsinVal, fn (.fcos w) fcosVal,
   two (.pkadd w) ab fun e k j => addIn (modeIn e) (half e w.a k j) (half e w.b k j),
   two (.pkfma w) abc fun e k j => fmaIn (modeIn e) (half e w.a k j) (half e w.b k j) (half e w.c k j)] ++
  (if w.ty = 4 ∨ w.ty = 5 then [(.vdot4 w, abc, vregs false (w.d :: abc), fun e k =>
      ((widen 32 true (dotInt e k)).toNat, Exc.none))]
   else [dot (.vdot4 w) 4 8]) ++ [dot (.vdot8 w) 8 4]

/-- R95, R178, R187-R192: every lane floating-point and dot-product word completes with its value in every selected thread and ORs
its exceptions into FSR; where one of them is enabled it raises the lowest such cause and has no effect. The model's own choices: a
VDOT4.N8 result in an S or K register is sign-extended (DESIGN CHOICE, assumption 88), and the flags rest on which NaN codes of the
8-bit formats signal (DESIGN CHOICE, assumption 81). -/
def Sys2Proof.Machine.laneFloatRule : Prop :=
  ∀ w, ∀ x ∈ laneFloatTable w, x.1.wf = true →
    LaneArith x.1 w x.2.1 x.2.2.1 false (fun _ _ => True) fun e k => (BitVec.ofNat 64 (x.2.2.2 e k).1, (x.2.2.2 e k).2)

/-- R193, R194, R98: CVT writes the n converted elements of each selected thread, lowest register first, and ORs their exceptions
into FSR; a .SR word steps the group's generator first, once, with or without a selected thread, and converts with it. An enabled
exception raises its cause, and nothing is stepped. The model's own choices: a scaled conversion of eight elements takes one scale byte for
all (DESIGN CHOICE, assumption 83), an integer destination's range is judged on the rounded value (DESIGN CHOICE, assumption 82), and
which NaN codes of the 8-bit formats signal (DESIGN CHOICE, assumption 81). -/
def Sys2Proof.Machine.conversionsRule : Prop :=
  ∀ (s u : State) (g : Group) (blk : Block) (w : LaneWord) (gv : W64), (Instr.cvt w).wf = true →
    let ws := elemWidth w.stype
    let wd := elemWidth w.ty
    let n := cvtCount ws wd
    let stepped := if w.rm = 4 then { g with sr := lfsrStep g.sr } else g
    let sel := laneSelected g w
    let e : Env := ⟨stepped, w, gv⟩
    let ex := wordExc w sel fun k => (cvtAll e ws wd n k).2
    let val := fun (k : Nat) => (cvtAll e ws wd n (passThread w sel k)).1
    LaneAt s g blk [w.d, w.a] (cvtRegs w.d n wd ++ cvtRegs w.a n ws ++ vregs false [w.b]) false →
    (sel = 0 → ∃ t, exec (.cvt w) s = .next t ∧ AdvancesL t g stepped ∧ SameMem s t) ∧
    (sel ≠ 0 → selector (if w.rm = 4 then s.modGroup g.ref fun g => { g with sr := lfsrStep g.sr } else s) stepped blk w [w.a] = .ok u gv →
      (∀ code, enabledCause g.fsr ex = some code → RaisesL s g (.cvt w) code) ∧
      (enabledCause g.fsr ex = none → ∃ t h gu, exec (.cvt w) s = .next t ∧ t.group? g.ref = some h ∧ u.group? g.ref = some gu ∧
        h.lpc = g.lpc + 12 ∧ h.spc = g.spc ∧ h.sr = stepped.sr ∧ h.fsr = g.fsr ||| ex.toFlags.setWidth 32 ∧ SameMem u t ∧
        (isV w.d = true → SameRegs { gu with v := h.v, fsr := h.fsr } h ∧ ∀ r k, k < 32 → h.readV r k =
          if sel.getLsbD k = true ∧ w.d.toNat ≤ r ∧ r < w.d.toNat + cvtSpan n wd then
            BitVec.ofNat 32 (val k / 2 ^ (32 * (r - w.d.toNat))) else gu.readV r k) ∧
        (isV w.d = false → LaneWrote u t g blk w sel (decide (wd = 64)) (fun k => if wd = 64 then BitVec.ofNat 64 (val k)
          else widen 32 (decide (w.ty = 0 ∨ w.ty = 2 ∨ w.ty = 4)) (val k)) h.fsr)))

/-- All of laneFloatRule, conversionsRule, each stated above with its rules. -/
def Obligations.LaneFloatWords : Prop := laneFloatRule ∧ conversionsRule

/-- R195: PAND, POR, PXOR and PNOT write P[D] of each selected thread from P[A] and P[B], inverted before use by X[0] and X[1]; a word with
MOD[6:0] or X[3:2] not zero, or X[1] on PNOT, is none of them. -/
def Obligations.PredicateLogic : Prop :=
  ∀ w : LaneWord,
    let neg := fun (b : Bool) (m : Mask) => if b then ~~~m else m
    let pa := fun (e : Env) => neg (w.x.getLsbD 0) (e.g.readP w.a.toNat)
    let pb := fun (e : Env) => neg (w.x.getLsbD 1) (e.g.readP w.b.toNat)
    let logic := fun (i : Instr) (f : Bool → Bool → Bool) => i.wf = true →
      LanePred i w [] false fun e _ k => (f ((pa e).getLsbD k) ((pb e).getLsbD k), Exc.none)
    (∀ op i, (op, i) ∈ [(0x080, Instr.pand w), (0x081, .por w), (0x082, .pxor w), (0x083, .pnot w)] → ∀ j,
      decodeLane (pack op w) = .ok j → j = i ∧ w.md.toNat % 128 = 0 ∧ w.x.toNat < (if op = 0x083 then 2 else 4)) ∧
    logic (.pand w) (· && ·) ∧ logic (.por w) (· || ·) ∧ logic (.pxor w) (fun a b => a != b) ∧
    ((Instr.pnot w).wf = true → LanePred (.pnot w) w [] false fun e _ k => (!(pa e).getLsbD k, Exc.none))

/-- R182, R189, R198: ICMP, FCMP and VOTE write bit k of predicate D for every selected thread k; VOTE's result is over the selected
threads (of the thread's half in a previous-generation kernel). -/
def Obligations.PredicateWords : Prop :=
  ∀ w : LaneWord,
    ((Instr.icmp w).wf = true → LanePred (.icmp w) w [w.a, w.b] (decide (6 ≤ w.ty)) fun e _ k =>
      (match w.x.toNat with
        | 0 => decide (ia e k = ib e k) | 1 => decide (ia e k ≠ ib e k) | 2 => decide (ia e k < ib e k)
        | 3 => decide (ib e k ≤ ia e k) | 4 => decide (ia e k ≤ ib e k) | _ => decide (ib e k < ia e k), Exc.none)) ∧
    ((Instr.fcmp w).wf = true → LanePred (.fcmp w) w [w.a, w.b] false fun e _ k => fcond w.x.toNat (e.f32 w.a k) (e.f32 w.b k)) ∧
    ∀ compat, (Instr.vote w).wf = true → ∀ (s u : State) (g : Group) (blk : Block) (gv : W64), blk.kernel.compat = compat →
      LaneAt s g blk [] [] false →
      let sel := laneSelected g w
      let a := fun (k : Nat) => (g.readP w.a.toNat).getLsbD k != w.x.getLsbD 2
      let us := fun (k : Nat) => (threadsOf sel).filter fun j => !compat || j / 16 = k / 16
      sel ≠ 0 → selector s g blk w [] = .ok u gv → ∃ t, exec (.vote w) s = .next t ∧ PredWrote u t g w sel (fun k =>
        let vs := us (passThread w sel k)
        match w.x.toNat % 4 with
          | 0 => vs.all a | 1 => vs.any a | 2 => vs.all a || vs.all fun j => !(a j) | _ => (vs.countP a) % 2 = 1) g.fsr

/-- R197, R199, R206: SHFL gives each selected thread the V register of its source thread, in its segment, or C past the segment's
ends; a B that must be the same in every selected thread and is not raises cause 0x04. BALLOT gives the selected threads of a
predicate as a mask, as their number, or as the number below the thread. -/
def Obligations.CrossThreadWords : Prop :=
  ∀ (s u : State) (g : Group) (blk : Block) (w : LaneWord) (gv : W64),
    let compat := blk.kernel.compat
    let sel := laneSelected g w
    let e : Env := ⟨g, w, gv⟩
    let cs := if w.x = 2 then [w.a, w.b, w.c] else [w.a, w.b]
    ((Instr.shfl w).wf = true → LaneAt s g blk (w.d :: cs) (vregs false (w.d :: cs)) false →
      (sel = 0 → PassesL s g (.shfl w)) ∧
      (sel ≠ 0 → selector s g blk w cs = .ok u gv →
        let b := fun (k : Nat) => shflB w.x.toNat (e.r32 w.b k)
        let same := ∀ j ∈ threadsOf (passes w sel), ∀ k ∈ threadsOf (passes w sel), b j = b k
        (w.x ≠ 0 → ¬ same → RaisesL s g (.shfl w) 4) ∧
        (w.x = 0 ∨ same → ∃ t, exec (.shfl w) s = .next t ∧ LaneWrote u t g blk w sel false (fun k =>
          let k := passThread w sel k
          (match shflSource w.x.toNat compat (e.r32 w.b k) k with
            | some j => g.readV w.a.toNat j
            | none => e.r32 w.c k).setWidth 64) g.fsr))) ∧
    ((Instr.ballot w).wf = true → LaneAt s g blk [w.d] (vregs false [w.d]) false →
      let p := if w.x.getLsbD 0 then ~~~(g.readP w.a.toNat) else g.readP w.a.toNat
      (sel = 0 → PassesL s g (.ballot w)) ∧
      (sel ≠ 0 → ∃ t, exec (.ballot w) s = .next t ∧ LaneWrote s t g blk w sel false
        (fun k => (ballotOf (w.x.toNat / 2) compat sel p (passThread w sel k)).setWidth 64) g.fsr))

/-- R200-R204: the lane control words. SPLIT pushes the else and the then path of the predicate and goes on with the then path,
or with the else path where no active thread holds the predicate. JOIN.L pops a path and goes to the entry below; LCALL pushes a
return entry and one path for each target, the lowest on top; LRET pops to the next path, or past the return entry. More than 64
entries raise cause 0x09, an entry that does not fit cause 0x0B. -/
def Obligations.LaneControl : Prop :=
  ∀ (s : State) (g : Group) (blk : Block) (w : LaneWord) (top : Entry) (rest : List Entry), g.stack = top :: rest →
    let goes := fun (i : Instr) (stack : List Entry) (pc : VAddr) =>
      ∃ t h, exec i s = .next t ∧ t.group? g.ref = some h ∧ SameRegs { g with stack := stack } h ∧ h.lpc = pc ∧ h.spc = g.spc ∧
        SameMem s t ∧ t.blocks = s.blocks
    let fits := fun (stack : List Entry) => ({ g with stack := stack } : Group).counted ≤ 64
    LaneAt s g blk [] [] true →
    (let yes := top.mask &&& g.readP w.a.toNat
     let no := top.mask &&& ~~~yes
     let els := g.lpc + 12 * (w.imm.extractLsb' 0 16).signExtend 52
     let base : List Entry := { top with kind := 1, lpc := g.lpc + 12 * (w.imm.extractLsb' 16 16).signExtend 52 } :: rest
     let low := if no = 0 then base else ⟨0, els, 0, no⟩ :: base
     (yes ≠ 0 → fits (⟨0, g.lpc + 12, 0, yes⟩ :: low) → goes (.split w) (⟨0, g.lpc + 12, 0, yes⟩ :: low) (g.lpc + 12)) ∧
     (yes ≠ 0 → ¬ fits (⟨0, g.lpc + 12, 0, yes⟩ :: low) → RaisesL s g (.split w) 9) ∧
     (yes = 0 → fits low → goes (.split w) low els)) ∧
    (∀ n r, rest = n :: r → n.kind ≠ 2 → n.kind ≠ 3 → goes (.joinL w) (n :: r) n.lpc) ∧
    (rest = [] ∨ (∃ n r, rest = n :: r ∧ (n.kind = 3 ∨ n.kind = 2 ∧ g.trapm = false)) → RaisesL s g (.joinL w) 0x0B) ∧
    (∀ n r, rest = n :: r → n.kind = 0 → goes (.lret w) (n :: r) n.lpc) ∧
    (∀ n m r, rest = n :: m :: r → n.kind = 3 → goes (.lret w) (m :: r) n.lpc) ∧
    (∀ (gv : W64) (targets : List Nat), (Instr.lcall w).wf = true → LaneAt s g blk [w.a] (vregs false [w.a]) true →
      selector s g blk w [w.a] = .ok s gv →
      let tau := fun (k : Nat) => ((⟨g, w, gv⟩ : Env).r32 w.a k).toNat
      let lbase := (blk.variantAt g.variant).lbase
      let ret : Entry := ⟨3, g.lpc + 12, BitVec.ofNat 32 g.ras.length, top.mask⟩
      let stack := (targets.map fun a => (⟨0, lbase + BitVec.ofNat 52 (12 * a), 0,
        maskOf fun k => top.mask.getLsbD k && tau k = a⟩ : Entry)) ++ ret :: top :: rest
      targets.Pairwise (· < ·) → (∀ a, a ∈ targets ↔ ∃ k, k < 32 ∧ top.mask.getLsbD k = true ∧ tau k = a) →
      ∀ a more, targets = a :: more →
        (fits stack → goes (.lcall w) stack (lbase + BitVec.ofNat 52 (12 * a))) ∧ (¬ fits stack → RaisesL s g (.lcall w) 9))

/-- R116, R36, R37, R124, R178, R345: outside trap mode an arithmetic lane word that uses code 253 raises cause 0x03; else one that
reads a V register, or by code 253 an H register, of a selected thread that an uncorrectable error has spoilt raises cause 0x01; else
one with a selected thread that names a V register at or past VCNT raises cause 0x08; all before any effect. -/
def Obligations.LaneOperandChecks : Prop :=
  ∀ (s : State) (g : Group) (blk : Block) (w : LaneWord) (i : Instr) (cs : List (BitVec 8)) (vs : List Nat),
    ((∃ x ∈ laneIntTable w, x.1 = i ∧ x.2.1 = cs ∧ x.2.2.1 = vs) ∨ (∃ x ∈ laneFloatTable w, x.1 = i ∧ x.2.1 = cs ∧ x.2.2.1 = vs) ∨
      ∃ x ∈ countTable w, x.2.1 = i ∧ cs = [w.a] ∧ vs = vregs false [w.d, w.a]) →
    i.wf = true → LaneCur s g blk → windowOpen s g .lane false = true → g.dependsLane vs (List.range 48) = false → pendingV s g.ref vs = false →
    g.inject = none →
    (g.trapm = false → (w.d :: cs).contains 253#8 = true → RaisesL s g i 3) ∧
    (g.trapm = true ∨ (w.d :: cs).contains 253#8 = false →
      ((∃ a ∈ cs, isV a = true ∧ ∃ k, k < 32 ∧ (passes w (laneSelected g w)).getLsbD k = true ∧ 32 * a.toNat + k ∈ g.badV) →
        ∃ tm, RaisesAt s (logSpoiled s g.ref.core.toNat) g i .lane g.lpc 1 tm 0) ∧
      (253#8 ∈ cs → (∃ k, k < 32 ∧ (passes w (laneSelected g w)).getLsbD k = true ∧ 32 * (w.ix % 8) + k ∈ g.badH) →
        ∃ tm, RaisesAt s (logSpoiled s g.ref.core.toNat) g i .lane g.lpc 1 tm 0) ∧
      (laneSelected g w ≠ 0 → (∃ n ∈ vs, g.vcnt ≤ n) → (∀ c ∈ g.badV, c / 32 ∉ vs) → (g.badH = [] ∨ 253#8 ∉ cs) → RaisesL s g i 8))

/-- R207-R212, R126: LD and LDC whose accesses are allowed issue and are outstanding, one part for each selected thread (one for
the lowest thread with .U) at its own address; where no open choice is listed each part has the value its core sees now.
Registers stay, but for a walker that the word reads, and so does memory. -/
def Sys2Proof.Machine.laneLoadsIssueRule : Prop :=
  ∀ (s s1 u : State) (g : Group) (blk : Block) (w : LaneWord) (gv : W64) (xs : List (Nat × W64 × Xlat)) (i : Instr) (const : Bool),
    (i = .laneLd w ∧ const = false ∨ i = .ldc w ∧ const = true) → i.wf = true →
    let size := laneSize w.mwidth
    let sel := laneSelected g w
    let e : Env := ⟨g, w, gv⟩
    LaneAt s g blk [w.a] (dataRegs size w.d ++ addrRegs w true) false → sel ≠ 0 → selector s g blk w [w.a] = .ok u gv →
    loadRoom s g = true → Accesses s s1 g blk .read size ((threadsOf (passes w sel)).map fun k => (k, addrOf e true k)) xs →
    (const = true ∨ soReady s1 g.ref.core.toNat xs = true) → relReady s1 g.ref.core.toNat (laneOrd w.mord) w.x.toNat = true →
    ∃ t h l, exec i s = .next t ∧ AdvancesL t g (if w.a = 251#8 then (readWalker g (w.ix % 8)).2 else g) ∧ SameMem s1 t ∧
      t.group? g.ref = some h ∧ h.loads.getLast? = some l ∧ h.loads.length = g.loads.length + 1 ∧ l.stream = .lane ∧
      l.dst = w.d.toNat ∧ l.discard = !(isV w.d) ∧ l.size = size ∧ l.signed = laneSigned w.mwidth ∧ l.window = w.la.toNat ∧
      l.spread = (if w.u then sel else 0) ∧ l.parts.map (fun p => (p.t, p.va, p.pa)) = xs.map (fun x => (x.1, x.2.1, x.2.2.pa)) ∧
      (s1.choices = [] → l.parts.map (·.val) = xs.map fun x =>
        some (BitVec.ofNat 128 (leNat (freshRead s1 g.ref.core.toNat x.2.2.pa size))))

/-- R127, R208, R210, R212, R230: LONG_LATENCY_RESOLVE of a lane load for some threads. For each part of theirs it writes the V
registers of the part's thread, or with .U those of every thread that the word selected: an element of up to 32 bits zero- or
sign-extended into one register, of 64 or 128 bits into two or four, lowest first, from the bytes the part took, or sees now where
it has taken none; a destination of code 254 takes nothing, and REFILL's predicate becomes 1 for the thread. The parts of the other
threads stay outstanding. -/
def Sys2Proof.Machine.laneLoadResolvesRule : Prop :=
  ∀ (s : State) (g : Group) (n : Nat) (m : Mask) (l : Load), s.group? g.ref = some g → g.loads[n]? = some l → l.stream = .lane →
    l.watch = none → (∀ p ∈ l.parts, p.t < 32) → l.parts.Pairwise (fun p q => p.t ≠ q.t) → (l.spread ≠ 0 → l.parts.length = 1) →
    (l.size = 1 ∨ l.size = 2 ∨ l.size = 4 ∨ l.size = 8 ∨ l.size = 16) →
    let raw := fun (p : LoadPart) => ((p.val.map fun v => v.toNat).getD (leNat (freshRead s l.core.toNat p.pa l.size))) % 2 ^ (8 * l.size)
    let word := fun (p : LoadPart) (r : Nat) =>
      if l.size ≤ 4 then
        (if l.signed = true ∧ 2 ^ (8 * l.size - 1) ≤ raw p then BitVec.ofInt 32 ((raw p : Int) - 2 ^ (8 * l.size)) else BitVec.ofNat 32 (raw p))
      else BitVec.ofNat 32 (raw p / 2 ^ (32 * (r - l.dst)))
    let gets := fun (p : LoadPart) (k : Nat) => m.getLsbD p.t = true ∧ (if l.spread = 0 then k = p.t else l.spread.getLsbD k = true)
    let rest := l.parts.filter fun p => !(m.getLsbD p.t)
    ∃ t h, exec (.longLatencyResolve g.ref n m) s = .next t ∧ t.group? g.ref = some h ∧ SameRegs { g with v := h.v, p := h.p } h ∧
      h.loads = (if rest = [] then g.loads.eraseIdx n else g.loads.set n { l with parts := rest }) ∧ h.spc = g.spc ∧ h.lpc = g.lpc ∧
      (∀ p ∈ l.parts, ∀ k r, k < 32 → gets p k → l.discard = false → l.dst ≤ r → r < l.dst + max 1 (l.size / 4) → h.readV r k = word p r) ∧
      (∀ k r, k < 32 → (l.discard = true ∨ r < l.dst ∨ l.dst + max 1 (l.size / 4) ≤ r ∨ ∀ p ∈ l.parts, ¬ gets p k) →
        h.readV r k = g.readV r k) ∧
      (∀ c k, k < 32 → (h.readP c).getLsbD k =
        if c = l.pred ∧ c ≠ 0 ∧ m.getLsbD k = true ∧ (∃ p ∈ l.parts, p.t = k) then true else (g.readP c).getLsbD k) ∧
      t.blocks = s.blocks ∧ SameMem s t ∧ SameDevice s t ∧ ∀ r, r ≠ g.ref → t.group? r = s.group? r

/-- R207-R212, R126, R127, R230: the lane loads issue, and resolve. -/
def Obligations.LaneLoads : Prop := laneLoadsIssueRule ∧ laneLoadResolvesRule

/-- R207-R211, R66: ST whose accesses are allowed writes each selected thread's element at its own address, in ascending thread
order: at once where a page is strongly ordered, else into the core's pending table. It changes no register, but for a walker
that it reads, and no other byte. -/
def Sys2Proof.Machine.laneStoresRule : Prop :=
  ∀ (s s1 u : State) (g : Group) (blk : Block) (w : LaneWord) (gv : W64) (xs : List (Nat × W64 × Xlat)), (Instr.laneSt w).wf = true →
    let size := laneSize w.mwidth
    let sel := laneSelected g w
    let e : Env := ⟨g, w, gv⟩
    let core := g.ref.core.toNat
    let data := fun (x : Nat × W64 × Xlat) => bytesOf size (storeData e size x.1)
    LaneAt s g blk [w.a, w.c] (dataRegs size w.c ++ addrRegs w true) false → sel ≠ 0 →
    selector s g blk w [w.a, w.c] = .ok u gv →
    Accesses s s1 g blk .write size ((threadsOf sel).map fun k => (k, addrOf e true k)) xs → soReady s1 core xs = true →
    relReady s1 core (laneOrd w.mord) w.x.toNat = true →
    ∃ t, exec (.laneSt w) s = .next t ∧
      AdvancesL t g (if w.a = 251#8 ∨ w.c = 251#8 then (readWalker g (w.ix % 8)).2 else g) ∧
      (∀ a, (∀ x ∈ xs, a < x.2.2.pa ∨ x.2.2.pa + size ≤ a) → memByte t a = memByte s1 a) ∧
      (strongest xs = 0 → ∀ x ∈ xs, x.2.2.pa + size ≤ physTop →
        (∀ y ∈ xs, y.1 ≠ x.1 → y.2.2.pa + size ≤ x.2.2.pa ∨ x.2.2.pa + size ≤ y.2.2.pa) → memBytes t x.2.2.pa size = data x) ∧
      (strongest xs ≠ 0 → SameMem s1 t ∧ (core < s1.cores.length →
        (t.core core).pend = ((s1.core core).pend.map fun q =>
            if laneOrd w.mord ≠ .relaxed ∧ ∃ k, k < 32 ∧ sel.getLsbD k = true ∧ q.who = .thread g.ref k then { q with uo := false } else q) ++
          xs.map fun x => ⟨x.2.2.pa, data x, decide (strongest xs = 2), .thread g.ref x.1, s1.cycle⟩))

/-- The accesses of a lane load, store or atomic on global memory (R207-R214): its source codes and the V registers that it meets, the
kind and size of its accesses, the threads that make them, and whether it is a load. -/
def Sys2Proof.Machine.laneAccess (g : Group) : Instr → Option (LaneWord × List (BitVec 8) × List Nat × Access × Nat × List Nat × Bool)
  | .laneLd w | .ldc w => some (w, [w.a], dataRegs (laneSize w.mwidth) w.d ++ addrRegs w true, .read, laneSize w.mwidth,
      threadsOf (passes w (laneSelected g w)), true)
  | .laneSt w => some (w, [w.a, w.c], dataRegs (laneSize w.mwidth) w.c ++ addrRegs w true, .write, laneSize w.mwidth,
      threadsOf (laneSelected g w), false)
  | .laneAtom w | .red w => some (w, [w.a, w.c], vregs w.aw64 [w.d] ++ (atomRegs w ++ addrRegs w true), .atomic, if w.aw64 then 8 else 4,
      threadsOf (laneSelected g w), false)
  | _ => none

/-- R58, R59, R207, R211, R345: the faults of LD, LDC, ST, ATOM and RED, over every access of the word and all before any effect, in
this order. Misaligned addresses raise cause 0x05 for their threads; addresses past 52 bits cause 0x06; an uncorrectable error in a table
cause 0x01; where pages do not translate the stream parks on all of them, its registers as they were; denied accesses raise cause 0x06;
accesses that only a write notification stops park; bytes to be read that hold an uncorrectable error raise cause 0x01. -/
def Sys2Proof.Machine.laneFaultsRule : Prop :=
  ∀ (s u : State) (g : Group) (blk : Block) (i : Instr) (w : LaneWord) (codes : List (BitVec 8)) (vs : List Nat) (k : Access) (size : Nat)
    (ts : List Nat) (load : Bool) (gv : W64),
    laneAccess g i = some (w, codes, vs, k, size, ts, load) → i.wf = true → LaneAt s g blk codes vs false → laneSelected g w ≠ 0 →
    selector s g blk w codes = .ok u gv → (load = true → loadRoom s g = true) →
    let at' := addrOf ⟨g, w, gv⟩ true
    let raises := fun (u : State) (code : Nat) (bad : Nat → Prop) => ∃ tm fa, RaisesAt s u g i .lane g.lpc code tm fa ∧
      (∀ j, j < 32 → (tm.getLsbD j = true ↔ j ∈ ts ∧ bad j)) ∧ ∃ j ∈ ts, bad j ∧ (∀ m ∈ ts, bad m → j ≤ m) ∧ fa = at' j
    let mis := fun (j : Nat) => (at' j).toNat % size ≠ 0
    ((∃ j ∈ ts, mis j) → raises s 5 mis) ∧
    ((∀ j ∈ ts, ¬ mis j) → ∀ (s1 : State) (xs : List (Nat × W64 × Except Deny Xlat)),
      translateEach s (some g.ref.core.toNat) blk.test g.ctx k (ts.map fun j => (j, at' j)) = (s1, xs) →
      let high := fun (j : Nat) => 2 ^ 52 ≤ (at' j).toNat
      let met := fun (d : Deny) (j : Nat) => ∃ x ∈ xs, x.1 = j ∧ x.2.2 = .error d
      let lost := fun (j : Nat) => met .notPresent j ∨ met .malformed j
      let parks := fun (bad : Nat → Prop) => roomL s g → ∃ t h p, exec i s = .next t ∧ t.group? g.ref = some h ∧ h.parkL = some p ∧
        SameRegs g h ∧ h.lpc = g.lpc ∧ h.spc = g.spc ∧ SameMem s1 t ∧ t.blocks = s1.blocks ∧
        ∀ x ∈ xs, ∀ d, x.2.2 = .error d → bad x.1 → FaultHeld t g.ctx p k x.2.1 d
      ((∃ j ∈ ts, high j) → raises s1 6 high) ∧
      ((∀ j ∈ ts, ¬ high j) → (∃ j ∈ ts, met .error j) → raises s1 1 (met .error)) ∧
      ((∀ j ∈ ts, ¬ high j ∧ ¬ met .error j) → (∃ j ∈ ts, lost j) → parks lost) ∧
      ((∀ j ∈ ts, ¬ high j ∧ ¬ met .error j ∧ ¬ lost j) → (∃ j ∈ ts, met .protection j) → raises s1 6 (met .protection)) ∧
      ((∀ j ∈ ts, ¬ high j ∧ ¬ met .error j ∧ ¬ lost j ∧ ¬ met .protection j) → (∃ j ∈ ts, met .notify j) → parks (met .notify)) ∧
      ((∀ j ∈ ts, ¬ high j) → (∀ x ∈ xs, ∃ y, x.2.2 = .ok y) → k ≠ .write →
        let spoiled' := fun (j : Nat) => ∃ x ∈ xs, x.1 = j ∧ ∃ y, x.2.2 = .ok y ∧ poisoned s1 y.pa size = true
        (∃ j ∈ ts, spoiled' j) → ∃ pa, raises (logPoison s1 pa) 1 spoiled'))

/-- R207-R211, R66, R58, R59: ST writes its elements; and the faults of the lane loads, stores and atomics. -/
def Obligations.LaneStores : Prop := laneStoresRule ∧ laneFaultsRule

/-- R213, R40, R41, R245, R345: the words on the scratchpad and on private memory. LDS and LDP write each selected thread's element
into its registers, STS and STP write it there, at the thread's own address; a misaligned address raises cause 0x05, one past the
scratchpad, or within 32 bytes of the end of private memory, cause 0x06, and a load that meets an uncorrectable error cause 0x01.
STS waits while one of its bytes is locked. Global memory stays. That LDS and STS act at once is the model's own choice (DESIGN CHOICE,
assumption 104). -/
def Obligations.LaneLocalMemory : Prop :=
  ∀ (s u : State) (g : Group) (blk : Block) (w : LaneWord) (gv : W64),
    let size := laneSize w.mwidth
    let sel := laneSelected g w
    let e : Env := ⟨g, w, gv⟩
    let at' := fun (k : Nat) => (addrOf e false k).toNat
    let ts := threadsOf sel
    let walks := fun (cs : List (BitVec 8)) => if cs.contains 251#8 then (readWalker g (w.ix % 8)).2 else g
    let us := threadsOf (passes w sel)
    let padEnd := (blk.variantAt blk.variant).scratch
    let privEnd := (blk.variantAt g.variant).priv
    let padBad := fun (k : Nat) => ∃ x ∈ blk.badPad, at' k ≤ x ∧ x < at' k + size
    let privBad := fun (k : Nat) => ∃ j, j < size ∧ privAt k (at' k + j) ∈ g.badPriv
    let inPad := ∀ k ∈ us, at' k % size = 0 ∧ at' k + size ≤ padEnd
    let inPriv := ∀ k ∈ ts, at' k % size = 0 ∧ at' k + size + 32 ≤ (blk.variantAt g.variant).priv
    let loaded := fun (t : State) (val : Nat → Nat) => ∃ h, t.group? g.ref = some h ∧ h.lpc = g.lpc + 12 ∧ h.spc = g.spc ∧
      SameRegs { walks [w.a] with v := h.v } h ∧ SameMem s t ∧ t.blocks = s.blocks ∧ ∀ r k, k < 32 → h.readV r k =
        if isV w.d = true ∧ sel.getLsbD k = true ∧ w.d.toNat ≤ r ∧ r < w.d.toNat + max 1 (size / 4) then
          (if size ≤ 4 then (extendTo size (laneSigned w.mwidth) (val k)).setWidth 32
           else BitVec.ofNat 32 (val k / 2 ^ (32 * (r - w.d.toNat))))
        else g.readV r k
    sel ≠ 0 →
    (LaneAt s g blk [w.a] (dataRegs size w.d ++ addrRegs w false) false → selector s g blk w [w.a] = .ok u gv →
      ((Instr.laneLds w).wf = true →
        (inPad → (∀ k ∈ us, ¬ padBad k) → ∃ t, exec (.laneLds w) s = .next t ∧
          loaded t fun k => leNat (blk.scratch.read (at' (passThread w sel k)) size)) ∧
        ((∃ k ∈ us, at' k % size ≠ 0) → RaisesL s g (.laneLds w) 5) ∧
        ((∀ k ∈ us, at' k % size = 0) → (∃ k ∈ us, padEnd < at' k + size) → RaisesL s g (.laneLds w) 6) ∧
        (inPad → (∃ k ∈ us, padBad k) → ∃ tm fa, RaisesAt s (logSpoiled s g.ref.core.toNat) g (.laneLds w) .lane g.lpc 1 tm fa)) ∧
      ((Instr.ldp w).wf = true →
        (inPriv → (∀ k ∈ ts, ¬ privBad k) → ∃ t, exec (.ldp w) s = .next t ∧ loaded t fun k => privRead g.priv k (at' k) size) ∧
        ((∃ k ∈ ts, at' k % size ≠ 0) → RaisesL s g (.ldp w) 5) ∧
        ((∀ k ∈ ts, at' k % size = 0) → (∃ k ∈ ts, privEnd < at' k + size + 32) → RaisesL s g (.ldp w) 6) ∧
        (inPriv → (∃ k ∈ ts, privBad k) → ∃ tm fa, RaisesAt s (logSpoiled s g.ref.core.toNat) g (.ldp w) .lane g.lpc 1 tm fa))) ∧
    (LaneAt s g blk [w.a, w.c] (dataRegs size w.c ++ addrRegs w false) false → selector s g blk w [w.a, w.c] = .ok u gv →
      ((Instr.laneSts w).wf = true →
        ((∀ k ∈ ts, at' k % size = 0 ∧ at' k + size ≤ padEnd) → (∀ k ∈ ts, lockedAt blk (at' k) size = false) → ∃ t, exec (.laneSts w) s = .next t ∧ AdvancesL t g (walks [w.a, w.c]) ∧
          SameMem s t ∧ ∃ bad, t.block? blk.ref = some { blk with
            scratch := ts.foldl (fun m k => m.write (at' k) (bytesOf size (storeData e size k))) blk.scratch, badPad := bad } ∧
            ∀ a, a ∈ bad ↔ a ∈ blk.badPad ∧ ∀ k ∈ ts, a < at' k ∨ at' k + size ≤ a) ∧
        ((∀ k ∈ ts, at' k % size = 0 ∧ at' k + size ≤ padEnd) → (∃ k ∈ ts, lockedAt blk (at' k) size = true) →
          exec (.laneSts w) s = .next s) ∧
        ((∃ k ∈ ts, at' k % size ≠ 0) → RaisesL s g (.laneSts w) 5) ∧
        ((∀ k ∈ ts, at' k % size = 0) → (∃ k ∈ ts, padEnd < at' k + size) → RaisesL s g (.laneSts w) 6)) ∧
      ((Instr.stp w).wf = true →
        (inPriv → ∃ t, exec (.stp w) s = .next t ∧ SameMem s t ∧ t.blocks = s.blocks ∧ AdvancesL t g { walks [w.a, w.c] with
          priv := ts.foldl (fun p k => privWrite p k (at' k) (bytesOf size (storeData e size k))) g.priv }) ∧
        ((∃ k ∈ ts, at' k % size ≠ 0) → RaisesL s g (.stp w) 5) ∧
        ((∀ k ∈ ts, at' k % size = 0) → (∃ k ∈ ts, privEnd < at' k + size + 32) → RaisesL s g (.stp w) 6)))

/-- The new value of a location that one atomic operation of a lane thread makes (R214), of n bits, from the old value x, the
operand y and, for CAS, the swap value z. -/
def Sys2Proof.Machine.laneAtomValue (op n x y z : Nat) : Nat :=
  match op with
  | 0 => (x + y) % 2 ^ n
  | 1 => if sext n y < sext n x then y else x
  | 2 => if sext n x < sext n y then y else x
  | 3 => min x y
  | 4 => max x y
  | 5 => x &&& y
  | 6 => x ||| y
  | 7 => x ^^^ y
  | 8 => y
  | 9 => if x = y then z else x
  | _ => (rneF32 (Val.add false (valF32 (BitVec.ofNat 32 x)) (valF32 (BitVec.ofNat 32 y))).1).toNat

/-- R73: one request of the threads that name one address, in ascending order, with their operands and swap values: the new value of
the location, and what each thread gets back. The operands are folded first, from the lowest thread on; the lowest thread gets the old
value, each other one the operation on it and on what the threads below it fold to. An exchange leaves the last operand and hands each
thread the operand before its own; a compare-and-swap is applied thread after thread. -/
def Sys2Proof.Machine.sharedAtomic (op n old : Nat) (vs zs : List Nat) : Nat × List Nat :=
  let fold := fun (l : List Nat) => match l with
    | [] => 0
    | v :: r => r.foldl (fun p y => laneAtomValue op n p y 0) v
  if op = 8 then (vs.getLastD old, old :: vs.dropLast)
  else if op = 9 then (vs.zip zs).foldl (fun (m, ds) (c, z) => (if m = c then z else m, ds ++ [m])) (old, [])
  else (laneAtomValue op n old (fold vs) 0,
    (List.range vs.length).map fun j => if j = 0 then old else laneAtomValue op n old (fold (vs.take j)) 0)

/-- R72, R73, R214: ATOM, RED and ATOMS. The selected threads that name one address make one indivisible change there, in memory or in
the scratchpad, and each other address has its own; ATOM and ATOMS return R73's results in D. Nothing else changes, but for a walker
that the word reads. Addresses of memory that differ lie apart here, and equal ones have one place: the order of requests that meet
is open. ATOMS raises cause 0x05 at a misaligned address, 0x06 at one past the scratchpad, 0x01 at one that an uncorrectable error
has spoilt, and waits while a byte of its own is locked. That all requests of a word are made in one turn is the model's own choice
(DESIGN CHOICE, assumption 99). -/
def Obligations.LaneAtomics : Prop :=
  ∀ (s s1 u : State) (g : Group) (blk : Block) (w : LaneWord) (gv : W64) (xs : List (Nat × W64 × Xlat)) (i : Instr),
    i.wf = true →
    let n := if w.aw64 then 64 else 32
    let size := n / 8
    let e : Env := ⟨g, w, gv⟩
    let core := g.ref.core.toNat
    let sel := laneSelected g w
    let ts := threadsOf sel
    let va := fun (k : Nat) => addrOf e (decide (i ≠ .atoms w)) k
    let mates := fun (k : Nat) => ts.filter fun j => va j = va k
    let one := fun (k old : Nat) => sharedAtomic w.aop n old ((mates k).map (atomOperand e n)) ((mates k).map (atomSwap e n))
    let walked := if w.a = 251#8 ∨ w.c = 251#8 then (readWalker g (w.ix % 8)).2 else g
    let returns := fun (t : State) (old : Nat → Nat) => ∃ h, t.group? g.ref = some h ∧ h.lpc = g.lpc + 12 ∧ h.spc = g.spc ∧
      SameRegs { walked with v := h.v } h ∧
      (∀ j k r, (mates k)[j]? = some k → isV w.d = true → w.d.toNat ≤ r → r < w.d.toNat + n / 32 →
        h.readV r k = BitVec.ofNat 32 ((one k (old k)).2.getD j 0 / 2 ^ (32 * (r - w.d.toNat)))) ∧
      ∀ r k, k < 32 → (isV w.d = false ∨ k ∉ ts ∨ r < w.d.toNat ∨ w.d.toNat + n / 32 ≤ r) → h.readV r k = g.readV r k
    sel ≠ 0 → selector s g blk w [w.a, w.c] = .ok u gv →
    ((i = .laneAtom w ∨ i = .red w) → LaneAt s g blk [w.a, w.c] (vregs w.aw64 [w.d] ++ (atomRegs w ++ addrRegs w true)) false →
      Accesses s s1 g blk .atomic size (ts.map fun k => (k, va k)) xs →
      soReady s1 core xs = true → relReady s1 core (laneOrd w.aord) w.x.toNat = true →
      ∀ pa : Nat → Nat, (∀ x ∈ xs, x.2.2.pa = pa x.1 ∧ pendOverlap s1 core x.2.2.pa size = false ∧ x.2.2.pa + size ≤ physTop) →
      (∀ j ∈ ts, ∀ k ∈ ts, if va j = va k then pa j = pa k else pa j + size ≤ pa k ∨ pa k + size ≤ pa j) →
      ∃ t, exec i s = .next t ∧ returns t (fun k => memNat s1 (pa k) size) ∧
        (∀ k ∈ ts, memNat t (pa k) size = (one k (memNat s1 (pa k) size)).1) ∧
        ∀ a, (∀ k ∈ ts, a < pa k ∨ pa k + size ≤ a) → memByte t a = memByte s1 a) ∧
    (i = .atoms w → LaneAt s g blk [w.a, w.c] (vregs w.aw64 [w.d] ++ (atomRegs w ++ addrRegs w false)) false →
      let at' := fun (k : Nat) => (va k).toNat
      let old := fun (k : Nat) => leNat (blk.scratch.read (at' k) size)
      let fits := ∀ k ∈ ts, at' k % size = 0 ∧ at' k + size ≤ (blk.variantAt blk.variant).scratch
      let bad := ∃ k ∈ ts, ∃ x ∈ blk.badPad, at' k ≤ x ∧ x < at' k + size
      (fits → ¬ bad → (∀ k ∈ ts, lockedAt blk (at' k) size = false) →
        ∃ t b', exec i s = .next t ∧ returns t old ∧ SameMem s t ∧ t.block? blk.ref = some b' ∧
          (∀ k ∈ ts, leNat (b'.scratch.read (at' k) size) = (one k (old k)).1) ∧
          ∀ a, (∀ k ∈ ts, a < at' k ∨ at' k + size ≤ a) → b'.scratch.get a = blk.scratch.get a) ∧
      (fits → ¬ bad → (∃ k ∈ ts, lockedAt blk (at' k) size = true) → exec i s = .next s) ∧
      ((∃ k ∈ ts, at' k % size ≠ 0) → RaisesL s g i 5) ∧
      ((∀ k ∈ ts, at' k % size = 0) → (∃ k ∈ ts, (blk.variantAt blk.variant).scratch < at' k + size) → RaisesL s g i 6) ∧
      (fits → bad → ∃ tm fa, RaisesAt s (logSpoiled s core) g i .lane g.lpc 1 tm fa))

/-- R69, R71, R125, R215, R220, R221: CPY reads a command entry and, where it is sound, adds it to the group's open copies, with the
group's next copy number; FENCE.L takes its 4 cycles of the lane and is then held for the core's writes where it releases, and empties
the core's caches where it acquires;
both FENCE.L and MBAR perform the selected threads' earlier accesses: each of their outstanding loads takes the value that its core
sees now, where it has taken none, and their earlier UO writes are ordered before their later ones. Registers and memory stay. -/
def Obligations.LaneOrderingWords : Prop :=
  (∀ (s s1 u : State) (g : Group) (blk : Block) (w : LaneWord) (gv : W64) (x : Xlat), (Instr.cpy w).wf = true →
    let va := gv + BitVec.ofInt 64 (disp24 w)
    let r : Slot64 := BitVec.ofNat 512 (leNat (freshRead s1 g.ref.core.toNat x.pa 64))
    let lead := lowest (laneSelected g w)
    LaneAt s g blk [w.a] [] false → laneSelected g w ≠ 0 → selector s g blk w [w.a] = .ok u gv →
    Accesses (captureThreads s g.ref 0xFFFFFFFF#32) s1 g blk .read 64 [(lead, va)] [(lead, va, x)] →
    soReady s1 g.ref.core.toNat [(lead, va, x)] = true → s1.choices = [] →
    ((entryOf r).kind ≤ 2 → (entryOf r).ok false (blk.pelotons) = true → ∃ t h c, exec (.cpy w) s = .next t ∧
      AdvancesL t g g ∧ SameMem s1 t ∧ t.group? g.ref = some h ∧ h.nextCopy = g.nextCopy + 1 ∧ t.copies = s.copies ++ [c] ∧
      c.g = g.ref ∧ c.n = g.nextCopy ∧ c.batch = none ∧ c.entry = r ∧ c.performed = false ∧ c.done = false) ∧
    (2 < (entryOf r).kind ∨ (entryOf r).ok false (blk.pelotons) = false → ∃ t, SameMem s1 t ∧
      RaisesAt s t g (.cpy w) .lane g.lpc 0x0B (laneSelected g w) 0)) ∧
  ∀ (s : State) (g : Group) (blk : Block) (w : LaneWord), LaneAt s g blk [] [] false →
    let c := g.ref.core.toNat
    let sel := laneSelected g w
    let out := w.x ≠ 0 ∧ (s.core c).pend ≠ []
    let ordered := fun (t : State) =>
      (∃ h, t.group? g.ref = some h ∧ h.loads.length = g.loads.length ∧ ∀ (n : Nat) (l m : Load), g.loads[n]? = some l → h.loads[n]? = some m →
        m.parts = l.parts.map fun p =>
          if l.stream = .lane ∧ sel.getLsbD p.t = true ∧ p.val = none then
            { p with val := some (BitVec.ofNat 128 (leNat (freshRead s l.core.toNat p.pa l.size))) } else p) ∧
      (c < s.cores.length → (t.core c).pend = (s.core c).pend.map fun q =>
        if ∃ k, k < 32 ∧ sel.getLsbD k = true ∧ q.who = .thread g.ref k then { q with uo := false } else q)
    ((Instr.mbar w).wf = true → ∃ t, exec (.mbar w) s = .next t ∧ AdvancesL t g g ∧ SameMem s t ∧ t.blocks = s.blocks ∧ ordered t) ∧
    ((Instr.fenceL w).wf = true →
      (sel = 0 → PassesL s g (.fenceL w)) ∧
      (sel ≠ 0 → w.md = 0 ∨ ¬ out → ∃ t, exec (.fenceL w) s = .next t ∧ AdvancesL t g g ∧ SameMem s t ∧ ordered t ∧
        (w.md ≠ 1 → w.x ≠ 0 → (t.core c).l1 = [] ∧ (t.core c).cc = [])) ∧
      (sel ≠ 0 → w.md ≠ 0 → out → g.fenced = true → exec (.fenceL w) s = .next s) ∧
      (sel ≠ 0 → w.md ≠ 0 → out → g.fenced = false → g.wordL = pack 0x0D0 w → ∃ t h, exec (.fenceL w) s = .next t ∧
        t.group? g.ref = some h ∧ h.fenced = true ∧ h.laneUntil = s.cycle + 4 ∧ SameRegs g h ∧ h.lpc = g.lpc ∧ h.spc = g.spc ∧
        SameMem s t ∧ t.blocks = s.blocks))

/-- R222-R224, R294: ISUB.ISL offers one record of N words for each selected thread at its port, tagged with the submitter, and
completes when the island has taken them all; QCLOSE sends the marker behind them; QREAD takes one entry of its queue for each
selected thread, in ascending order: the entries leave the queue, a data entry's words go to the thread's registers, and the predicate
of a thread that finds the END entry, or, with .NB, none is cleared and its registers stay; with too few entries and no .NB it blocks. -/
def Obligations.LaneIslandWords : Prop :=
  ∀ (s u : State) (g : Group) (blk : Block) (w : LaneWord) (gv : W64) (p : Port),
    let sel := laneSelected g w
    let e : Env := ⟨g, w, gv⟩
    let n := w.md.toNat + 1
    let left := sel &&& ~~~g.served
    sel ≠ 0 →
    (selector s g blk w [w.b] = .ok u gv → portCheck u blk ((threadsOf sel).map (e.r32 w.b)) false = .ok p →
      p.island < u.islands.length →
      ((Instr.isubIsl w).wf = true → LaneAt s g blk [w.b] ((List.range n).map (w.a.toNat + ·) ++ vregs false [w.b]) false →
        (portIn u p ≠ n → ∃ tm fa, exec (.isubIsl w) s = .next { raiseWord s g .lane g.lpc 0x11 2 tm fa with issued := true }) ∧
        (portIn u p = n → left = 0 → ∃ t h, exec (.isubIsl w) s = .next t ∧ AdvancesL t g g ∧ SameMem s t ∧
          t.group? g.ref = some h ∧ h.served = 0) ∧
        (portIn u p = n → left ≠ 0 → roomL s g → (∀ x ∈ (u.island p.island).input, ∀ k, x.tag ≠ tagOf g k) →
          ∃ t h, exec (.isubIsl w) s = .next t ∧ t.group? g.ref = some h ∧ SameRegs g h ∧ h.blockedL = true ∧ h.lpc = g.lpc ∧
            SameMem s t ∧ ((t.island p.island).input.drop (u.island p.island).input.length).map (fun x => (x.tag, x.words)) =
              (threadsOf left).map fun k => (tagOf g k, (List.range n).map fun j => g.readV (w.a.toNat + j) k))) ∧
      ((Instr.qclose w).wf = true → LaneAt s g blk [w.b] (vregs false [w.b]) false →
        ∃ t, exec (.qclose w) s = .next t ∧ AdvancesL t g g ∧ SameMem s t ∧
          ((t.island p.island).out.getLast?.map fun x => (x.tag, x.port, x.close)) = some (tagOf g 0, p.port, true))) ∧
    ((Instr.qread w).wf = true →
      let m := w.md.toNat % 16 + 1
      LaneAt s g blk [w.a] ((List.range m).map (w.d.toNat + ·)) false → ∀ (key : Nat) (es : List (Option (List W32))),
        readQueue s blk (w.ix % 8) m = .ok (key, es) → blk.claimed key g.ref.slot.toNat = 0 → g.served = 0 →
        (∀ n, (key, false, s.cycle, n) ∈ blk.lastQueue → n ≤ g.ref.slot.toNat) →
        let ts := threadsOf sel
        let got := fun (j : Nat) => (es.getD j none : Option (List W32))
        (ts.length ≤ es.length ∨ w.md.getLsbD 4 = true →
          ∃ t h b', exec (.qread w) s = .next t ∧ t.group? g.ref = some h ∧ h.lpc = g.lpc + 12 ∧ h.spc = g.spc ∧ SameMem s t ∧
            SameRegs { g with v := h.v, p := h.p } h ∧ h.served = 0 ∧
            t.block? blk.ref = some b' ∧ readQueue t b' (w.ix % 8) m = .ok (key, es.drop ts.length) ∧
            (∀ j k, ts[j]? = some k →
              (w.c ≠ 0 → (h.readP w.c.toNat).getLsbD k = (got j).isSome) ∧
              (∀ ws, got j = some ws → ∀ r, r < ws.length → h.readV (w.d.toNat + r) k = ws.getD r 0) ∧
              ∀ r, (got j = none ∨ r < w.d.toNat ∨ ∀ ws, got j = some ws → w.d.toNat + ws.length ≤ r) → h.readV r k = g.readV r k) ∧
            (∀ k, k < 32 → k ∉ ts → (∀ r, h.readV r k = g.readV r k) ∧ ∀ c, (h.readP c).getLsbD k = (g.readP c).getLsbD k) ∧
            ∀ c, c ≠ w.c.toNat → h.readP c = g.readP c) ∧
        (es.length < ts.length → w.md.getLsbD 4 = false → roomL s g →
          ∃ t h b', exec (.qread w) s = .next t ∧ t.group? g.ref = some h ∧ h.blockedL = true ∧ h.lpc = g.lpc ∧ h.spc = g.spc ∧ SameMem s t ∧
            t.block? blk.ref = some b' ∧ readQueue t b' (w.ix % 8) m = .ok (key, []) ∧
            (key, g.ref.slot.toNat, ts.length - es.length) ∈ b'.claims ∧
            ∀ j k ws, ts[j]? = some k → got j = some ws → ∀ r, r < ws.length → h.readV (w.d.toNat + r) k = ws.getD r 0))

/-- R225-R227: ATTR writes, for each selected thread, zeros for a pixel with no primitive, quiet NaNs for a bad instance entry, and
else the barycentrics and the interpolated attributes of its primitive; the table must be 64-byte aligned. TRACE gives status 5 to
the rays that are not valid and offers each of the others at the port of the traversal island as a record of nine words, its ray's
eight and its control word, tagged with its thread; the statuses come later. The model's own choices: a table base that is not 64-byte
aligned raises cause 0x05, and a ray whose tmax is NaN is offered (DEDUCED, assumption 37); ATTR takes, for each of its four rounds of
reads, the kind of every page that the word reads, found by a first reading (DESIGN CHOICE, assumption 96). -/
def Obligations.AttrAndTrace : Prop :=
  ∀ (s u : State) (g : Group) (blk : Block) (w : LaneWord) (gv : W64),
    let sel := laneSelected g w
    let e : Env := ⟨g, w, gv⟩
    let n := w.md.toNat % 16
    let ts := threadsOf sel
    sel ≠ 0 →
    ((Instr.attr w).wf = true →
      LaneAt s g blk [w.c] ((List.range (n + 2)).map (w.d.toNat + ·) ++ [w.a.toNat, w.a.toNat + 1, w.b.toNat]) false →
      selector s g blk w [w.c] = .ok u gv →
      let vis := fun (k : Nat) => (e.pair w.a.toNat k).toNat
      let live := ts.filter fun k => bits (vis k) 39 20 ≠ 0xFFFFF
      (gv.toNat % 64 ≠ 0 → RaisesL s g (.attr w) 5) ∧
      (gv.toNat % 64 = 0 → ∀ (s1 s2 s3 s4 : State) (es ix pos att : List Nat),
        let kind := attrKind s blk e sel
        LaneReads s s1 g blk kind 64 (live.map fun k => (k, gv + BitVec.ofNat 64 (64 * bits (vis k) 39 20))) es →
        let ps := (live.zip es).map fun (k, en) =>
          Pixel.mk k (bits (vis k) 19 0) ((g.readV w.b.toNat k).toNat % 65536) ((g.readV w.b.toNat k).toNat / 65536) en
        let good := ps.filter fun p => !p.bad
        LaneReads s1 s2 g blk kind 4 (good.flatMap fun p => (List.range 3).map fun j =>
          (p.t, BitVec.ofNat 64 (bits p.entry 63 0 + 12 * p.prim + 4 * j))) ix →
        LaneReads s2 s3 g blk kind 4 (good.zipIdx.flatMap fun (p, k) => (piece 3 ix k).flatMap fun v => (List.range 4).map fun j =>
          (p.t, BitVec.ofNat 64 (bits p.entry 127 64 + 16 * v + 4 * j))) pos →
        LaneReads s3 s4 g blk kind 4 (good.zipIdx.flatMap fun (p, k) => (List.range n).flatMap fun j => (piece 3 ix k).map fun v =>
          (p.t, BitVec.ofNat 64 (bits p.entry 191 128 + bits p.entry 207 192 * v + 4 * j))) att →
        ∃ t h, exec (.attr w) s = .next t ∧ t.group? g.ref = some h ∧ h.lpc = g.lpc + 12 ∧ h.spc = g.spc ∧ SameMem s4 t ∧
          SameRegs { g with v := h.v } h ∧
          (∀ k ∈ ts, k ∉ live → ∀ j, j < n + 2 → h.readV (w.d.toNat + j) k = 0) ∧
          (∀ p ∈ ps, p.bad = true → ∀ j, j < n + 2 → h.readV (w.d.toNat + j) p.t = 0x7FC00000#32) ∧
          ∀ m p, good[m]? = some p → ∀ j, j < n + 2 → h.readV (w.d.toNat + j) p.t =
            (attrOut (bits p.entry 239 224) (bits p.entry 255 240) p.px p.py n ((piece 12 pos m).map (BitVec.ofNat 32))
              ((piece (3 * n) att m).map (BitVec.ofNat 32))).getD j 0)) ∧
    ((Instr.trace w).wf = true →
      LaneAt s g blk [w.b, w.c] ([w.d.toNat] ++ ((List.range 8).map (w.a.toNat + ·) ++ vregs false [w.b])) false →
      selector s g blk w [w.b, w.c] = .ok u gv → ∀ p, portCheck s blk [BitVec.ofNat 32 (w.md.toNat % 64)] true = .ok p →
      p.island < s.islands.length →
      let words := fun (k : Nat) => (List.range 8).map fun j => g.readV (w.a.toNat + j) k
      let bad := fun (k : Nat) => rayBad ((words k).map valF32)
      (gv.toNat % 64 ≠ 0 → RaisesL s g (.trace w) 5) ∧
      (gv.toNat % 64 = 0 → ∃ t h, exec (.trace w) s = .next t ∧ t.group? g.ref = some h ∧ h.lpc = g.lpc + 12 ∧ h.spc = g.spc ∧
        SameMem s t ∧ SameRegs { g with v := h.v } h ∧
        (∀ r k, k < 32 → h.readV r k = if k ∈ ts ∧ bad k = true ∧ r = w.d.toNat then 5 else g.readV r k) ∧
        (t.rays.drop s.rays.length).map (fun y => (y.g, y.t, y.d, y.table)) =
          (ts.filter fun k => !(bad k)).map (fun k => (g.ref, k, w.d.toNat, gv)) ∧
        ((t.island p.island).input.drop (s.island p.island).input.length).map (fun x => (x.tag, x.port, x.words, x.ray)) =
          ((ts.filter fun k => !(bad k)).zipIdx).map fun (k, j) =>
            (tagOf g k, p.port, words k ++ [e.r32 w.b k], some (s.nextRay + j))))

/-- The rows of a NEVAL whose table reads are all made: the state after, and the rows with the descriptors read (R257). -/
def Sys2Proof.Machine.Admitted (nettab : W64) : State → List DraftRow → List W64 → State → Prop
  | s, [], ds, t => ds = [] ∧ t = s
  | s, r :: rs, ds, t => ∃ s1 bs more, tileRead s r.ctx r.g.core.toNat (nettab + BitVec.ofNat 64 (8 * r.handle.toNat)) 8 = (s1, .ok bs) ∧
      leNat bs ≠ 0 ∧ ds = BitVec.ofNat 64 (leNat bs) :: more ∧ Admitted nettab (arriveRow s1 r (BitVec.ofNat 64 (leNat bs))) rs more t

/-- R229-R231, R257: REFILL, once its ring's descriptor is read and its atomic can be made, takes as many items as the ring has,
at most one for each selected thread, by one atomic step of HEAD; the predicate of the other threads is cleared, and the items of
the threads that have one are read, as an outstanding load, which takes cause 0x32 where an item meets a watch point, or, where an item
does not translate, as an entry performed before the group's next word. The kind of the items' pages is found by a first reading (the
model's own choice: DESIGN CHOICE, assumption 96). NEVAL gives one row of each selected thread, its features and its network's descriptor, to the draft unit of its
core, and goes on while its results are outstanding; outside a draft kernel it raises cause 0x10. -/
def Obligations.RefillAndNeval : Prop :=
  ∀ (s u : State) (g : Group) (blk : Block) (w : LaneWord) (gv : W64),
    let sel := laneSelected g w
    let ts := threadsOf sel
    let core := g.ref.core.toNat
    sel ≠ 0 →
    ((Instr.refill w).wf = true → LaneAt s g blk [w.a] [w.d.toNat] false → selector s g blk w [w.a] = .ok u gv → loadRoom s g = true →
      (gv.toNat % 64 ≠ 0 → RaisesL s g (.refill w) 5) ∧
      (gv.toNat % 64 = 0 → ∀ (s1 s2 : State) (d : Nat) (x : Xlat), LaneReads s s1 g blk 2 64 [(lowest sel, gv)] [d] →
        bits d 135 128 ≤ 24 → d / 2 ^ 136 = 0 → bits d 127 64 % 4 = 0 →
        Accesses s1 s2 g blk .atomic 8 [(lowest sel, gv)] [(lowest sel, gv, x)] →
        released s2 core w.x.toNat = true → pendOverlap s2 core x.pa 8 = false → x.pa + 8 ≤ physTop →
        let head := memNat s2 x.pa 8 % 2 ^ 32
        let tail := memNat s2 x.pa 8 / 2 ^ 32
        let k := min ts.length ((tail + 2 ^ 32 - head) % 2 ^ 32)
        let items := ((ts.take k).zipIdx).map fun (j, n) =>
          (j, BitVec.ofNat 64 (bits d 127 64 + 4 * ((head + n) % 2 ^ 32 % 2 ^ bits d 135 128)))
        let s3 := allocateAll s2 8 [(lowest sel, gv, x)]
        kindReady s3 core (min (strongest [(lowest sel, gv, x)]) (peekReads s3 g blk 4 items).1) = true →
        (g.trapm = false ∨ refillHold s3 g blk items = none) →
        ∃ t h v, exec (.refill w) s = .next t ∧ t.group? g.ref = some h ∧ h.lpc = g.lpc + 12 ∧ h.spc = g.spc ∧
          SameRegs { g with p := h.p } h ∧
          (∀ c j, j < 32 → (h.readP c).getLsbD j = if c = w.c.toNat ∧ c ≠ 0 ∧ j ∈ ts.drop k then false else (g.readP c).getLsbD j) ∧
          memNat v x.pa 8 = tail * 2 ^ 32 + (head + k) % 2 ^ 32 ∧ SameMemBut s2 v x.pa 8 ∧
          (k = 0 → SameMem v t ∧ h.loads.length = g.loads.length ∧ h.replay = g.replay) ∧
          (k ≠ 0 → ∀ (v' : State) (r : AccessRes), access v (some core) blk.test g.ctx .read 4 items = (v', r) → SameMem v' t ∧
            (∀ ys, r = .ok ys → poisonedAt v' 4 ys = [] → h.replay = g.replay ∧ h.loads.length = g.loads.length + 1 ∧
              ∃ l, h.loads.getLast? = some l ∧ l.stream = .lane ∧ l.dst = w.d.toNat ∧ l.discard = false ∧ l.spread = 0 ∧ l.size = 4 ∧
                l.signed = false ∧ l.pred = w.c.toNat ∧
                l.parts.map (fun p => (p.t, p.va, p.pa)) = ys.map (fun y => (y.1, y.2.1, y.2.2.pa)) ∧
                (v'.choices = [] → l.parts.map (·.val) = ys.map fun y =>
                  some (BitVec.ofNat 128 (leNat (freshRead v' core y.2.2.pa 4)))) ∧
                (blk.test = true ∨ g.trapm = true ∨ watchHit v' g.ctx .read 4 items = 0 → l.watch = none ∧ l.window = w.la.toNat) ∧
                (blk.test = false → g.trapm = false → watchHit v' g.ctx .read 4 items ≠ 0 → l.window = 0 ∧
                  ∃ c, l.watch = some c ∧ c.code = 0x32#8 ∧ c.tmask = watchHit v' g.ctx .read 4 items)) ∧
            (((∀ ys, r ≠ .ok ys) ∨ ∃ ys, r = .ok ys ∧ poisonedAt v' 4 ys ≠ []) → h.loads.length = g.loads.length ∧
              ∃ q, h.replay = g.replay ++ [q] ∧ q.word = pack 0x10A w ∧ q.unfinished = false ∧ q.pc = g.lpc ∧
                (∀ j, j < 32 → (q.rmask.getLsbD j = true ↔ j ∈ ts.take k)) ∧ ∀ y ∈ items, q.addrs[y.1]? = some y.2)))) ∧
    ((Instr.neval w).wf = true →
      LaneAt s g blk [w.b] ((List.range (w.x.toNat + 1)).map (w.d.toNat + ·) ++
        ((List.range (w.md.toNat % 32 + 1)).map (w.a.toNat + ·) ++ vregs false [w.b])) false → selector s g blk w [w.b] = .ok u gv →
      (blk.kernel.draft = false → RaisesL s g (.neval w) 0x10) ∧
      (blk.kernel.draft = true → loadRoom s g = true → core < s.cores.length → ∀ (x : Ctx) (v : State) (rows : List DraftRow) (ds : List W64),
        let e : Env := ⟨g, w, gv⟩
        s.ctx? g.ctx = some x → (∀ k ∈ ts, (e.r32 w.b k).toNat < min 256 x.desc.netcount) →
        rows = ts.map (fun k => DraftRow.mk g.ref g.ctx k (pack 0x110 w) (e.r32 w.b k)
          ((List.range (w.md.toNat % 32 + 1)).map fun j => g.readV (w.a.toNat + j) k) s.cycle 0 none false false) →
        Admitted x.desc.nettab (s.modCore core fun c => { c with nevals := c.nevals ++
          [⟨g.ref, pack 0x110 w, g.lpc, sel, 0, 0, (List.range 32).map (e.r32 w.b), w.la.toNat + 1, []⟩] }) rows ds v →
        ∃ t, exec (.neval w) s = .next t ∧ AdvancesL t g g ∧ SameMem v t ∧ t.blocks = s.blocks ∧
          (∀ (j : Nat) (r : DraftRow) (d : W64), rows[j]? = some r → ds[j]? = some d → ({ r with desc := d } : DraftRow) ∈ (t.core core).rowsIn) ∧
          ∃ n, n ∈ (t.core core).nevals ∧ n.g = g.ref ∧ n.word = pack 0x110 w ∧ n.waiting = sel ∧ n.window = w.la.toNat))

/-- A matrix word has completed: the block's registers and stores are those of b', its sequencer goes on with the next word, no
group and no byte of memory has changed. -/
def Sys2Proof.Machine.MatrixDone (s t : State) (b b' : Block) : Prop := AdvancesM t b b' ∧ SameMem s t ∧ t.groups = s.groups

/-- R239, R240, R248, R249, R307, R345: the matrix words that move tiles, scales and accumulators. ACLR clears rows; AMOVE copies rows, or
adds them with .ADD; AOUT writes rows, scaled, rounded and packed, to the scratchpad, where it waits while a byte is locked, or to memory,
at once on strongly ordered pages and else as writes of the sequencer that the core has accepted, and with .CLR clears them; MLOADB and
MSCALE bring bytes from the scratchpad or memory into a slot or into scale storage. Rows past the share raise cause 0x08, AOUT's base that
is not a multiple of 64 and MSCALE's misaligned source cause 0x05, a range past the scratchpad and MSCALE's destination past the share cause
0x06, and an uncorrectable error in rows or bytes that the word reads cause 0x01; where AOUT or MSCALE meets several of these the lowest is taken, and MLOADB
takes them in the order of R239. -/
def Obligations.MatrixDataWords : Prop :=
  ∀ (s : State) (b : Block) (w : LaneWord), MatrixAt s b →
    let hi := bits w.imm.toNat 31 21
    let mid := bits w.imm.toNat 20 10
    let n := w.c.toNat + 1
    let core := b.ref.core.toNat
    let stops := fun (i : Instr) (code : Nat) (fa : W64) => exec i s = .next (raiseSeq s b code 0 fa)
    let bad := fun (row : Nat) => spoiled b.badAcc (128 * row) (128 * n)
    let error := fun (i : Instr) (fa : W64) => exec i s = .next (raiseSeq (logSpoiled s core) b 1 0 fa)
    let lowest := fun (i : Instr) (k : Access) (size : Nat) (vas : List W64) (code : Nat) (fa : W64) =>
      ∀ (s1 : State) (r : AccessRes), access s (some core) b.test b.ctx k size (vas.map fun va => (0, va)) = (s1, r) →
        (∀ c tm fa', r = .cause c tm fa' → c < code → exec i s = .next (raiseSeq s1 b c 0 fa')) ∧
        ((∀ c tm fa', r = .cause c tm fa' → ¬ c < code) → stops i code fa)
    let rows := fun (i : Instr) (val : Nat → Nat → W96) => ∃ t acc, exec i s = .next t ∧ MatrixDone s t b { b with acc := acc } ∧
      ∀ r j, j < 128 → accAt { b with acc := acc } r j = val r j
    ((Instr.aclr w).wf = true →
      (hi + (mid + 1) ≤ b.accRows → rows (.aclr w) fun r j => if hi ≤ r ∧ r < hi + (mid + 1) then 0 else accAt b r j) ∧
      (b.accRows < hi + (mid + 1) → stops (.aclr w) 8 0)) ∧
    ((Instr.amove w).wf = true →
      let spoiled' := bad mid = true ∨ w.md.getLsbD 0 = true ∧ bad hi = true
      (hi + n ≤ b.accRows → mid + n ≤ b.accRows →
        (spoiled' → error (.amove w) 0) ∧
        (¬ spoiled' → rows (.amove w) fun r j =>
          if hi ≤ r ∧ r < hi + n then
            let x := accAt b (mid + (r - hi)) j
            if w.md.getLsbD 0 then a96Add (accAt b r j) (a96Val x) else x
          else accAt b r j)) ∧
      (b.accRows < hi + n ∨ b.accRows < mid + n → stops (.amove w) 8 0)) ∧
    ((Instr.aout w).wf = true →
      let ty := w.md.toNat / 16
      let size := n * (16 * elemWidth ty)
      let base := b.readK s.cycle (w.ix % 16)
      let ks := fun (k : Nat) => valF32 ((b.readK s.cycle (k % 16)).setWidth 32)
      let bytes := ((List.range n).map fun k => aoutRow ty (modeOfCode (w.md.toNat / 2 % 8))
        (ks (w.b.toNat / 16), ks (w.b.toNat % 16)) ((List.range 128).map fun j => accAt b (hi + k) j)).flatten
      let left := if w.x.getLsbD 0 then clearRows b hi n else b
      let vas := (List.range (size / 64)).map fun k => base + BitVec.ofNat 64 (64 * k)
      let pad := w.md.getLsbD 0 = false
      (bad hi = true → error (.aout w) 0) ∧
      (bad hi = false → base.toNat % 64 ≠ 0 → stops (.aout w) 5 base) ∧
      (bad hi = false → base.toNat % 64 = 0 →
        (pad → b.scratchSize < base.toNat + size → stops (.aout w) 6 base) ∧
        (b.accRows < hi + n →
          (pad → base.toNat + size ≤ b.scratchSize → stops (.aout w) 8 0) ∧ (¬ pad → lowest (.aout w) .write 64 vas 8 0)) ∧
        (hi + n ≤ b.accRows →
          (pad → base.toNat + size ≤ b.scratchSize →
            (lockedAt b base.toNat size = true → exec (.aout w) s = .next s) ∧
            (lockedAt b base.toNat size = false →
              ∃ t, exec (.aout w) s = .next t ∧ MatrixDone s t b { left with scratch := b.scratch.write base.toNat bytes })) ∧
          (¬ pad → ∀ (s1 : State) (xs : List (Nat × W64 × Xlat)),
            access s (some core) b.test b.ctx .write 64 (vas.map fun va => (0, va)) = (s1, .ok xs) →
            soReady s1 core xs = true →
            ∃ t, exec (.aout w) s = .next t ∧ AdvancesM t b left ∧
              (∀ a, (∀ x ∈ xs, a < x.2.2.pa ∨ x.2.2.pa + 64 ≤ a) → memByte t a = memByte s1 a) ∧
              (strongest xs = 0 → ∀ (k : Nat) x, xs[k]? = some x → x.2.2.pa + 64 ≤ physTop →
                (∀ y ∈ xs.drop (k + 1), y.2.2.pa + 64 ≤ x.2.2.pa ∨ x.2.2.pa + 64 ≤ y.2.2.pa) →
                memBytes t x.2.2.pa 64 = (bytes.drop (64 * k)).take 64) ∧
              (strongest xs ≠ 0 → SameMem s1 t ∧ (core < s1.cores.length → (t.core core).pend = (s1.core core).pend ++
                xs.zipIdx.map fun (x, k) => ⟨x.2.2.pa, (bytes.drop (64 * k)).take 64, decide (strongest xs = 2), .seq b.ref, s1.cycle⟩)))))) ∧
    ∀ (i : Instr) (dst rb pieces : Nat) (fit : Bool) (code : Nat) (fa : W64) (fill : List Byte → Block),
      (i = .mloadb w ∧ rb = (if w.md.toNat / 16 % 4 = 1 then 64 else if w.md.toNat / 16 % 4 = 3 then 256 else 128) ∧ pieces = 128 ∧
          dst = w.b.toNat ∧ fit = decide (dst + (if w.md.toNat / 16 % 4 = 3 then 2 else 1) ≤ b.slots) ∧ code = 8 ∧ fa = 0 ∧
          (∀ bs, fill bs = { b with bstore := b.bstore.write (16384 * dst) (tileBytes (w.md.toNat / 16 % 4) bs) }) ∨
        i = .mscale w ∧ rb = 64 ∧ pieces = n ∧ dst = 256 * w.b.toNat ∧ fit = decide (dst + 64 * n ≤ b.scaleSize) ∧ code = 6 ∧
          fa = BitVec.ofNat 64 dst ∧ (∀ bs, fill bs = { b with scale := b.scale.write dst bs })) → i.wf = true →
      let base := (if w.a = 250#8 then b.readK s.cycle (w.ix % 16) else 0) + BitVec.ofInt 64 (disp24 w)
      let vas := (List.range pieces).map fun k => base + BitVec.ofNat 64 (rb * k)
      let pad := w.md.toNat / 64 = 1
      (fit = false → code = 8 ∨ base.toNat % rb = 0 ∧ pad → stops i code fa) ∧
      (fit = false → code = 6 → base.toNat % rb = 0 → ¬ pad → lowest i .read 64 vas 6 fa) ∧
      (fit = true ∨ code = 6 → base.toNat % rb ≠ 0 → stops i 5 base) ∧
      (fit = true → base.toNat % rb = 0 →
        (pad →
          (b.scratchSize < base.toNat + pieces * rb → stops i 6 base) ∧
          (base.toNat + pieces * rb ≤ b.scratchSize →
            (spoiled b.badPad base.toNat (pieces * rb) = true → error i base) ∧
            (spoiled b.badPad base.toNat (pieces * rb) = false →
              ∃ t, exec i s = .next t ∧ MatrixDone s t b (fill (b.scratch.read base.toNat (pieces * rb)))))) ∧
        (¬ pad → ∀ (s1 : State) (xs : List (Nat × W64 × Xlat)),
          access s (some core) b.test b.ctx .read rb (vas.map fun va => (0, va)) = (s1, .ok xs) →
          (∀ x, (poisonedAt s1 rb xs).head? = some x → exec i s = .next (raiseSeq (logPoison s1 x.2.2.pa) b 1 0 x.2.1)) ∧
          (poisonedAt s1 rb xs = [] → soReady s1 core xs = true → s1.choices = [] →
            ∃ t, exec i s = .next t ∧ AdvancesM t b (fill (xs.flatMap fun x => freshRead s1 core x.2.2.pa rb)) ∧ SameMem s1 t)))

/-- R241-R247, R275, R345: MMA checks its rows, slot and scales (causes 0x08, 0x06), takes its source base, a .QH word by one pop that it
keeps, checks the base (0x05, 0x06), and its operands for uncorrectable errors (0x01). It then asks for the array: its pass stands as a
request at its first gear and its rows are locked; ATTEMPT_END says when the word is complete (ArrayAndDraft). A .QS word takes its rows
from its queue as they come, 64 bytes an entry, each into the next 64 bytes from the base; an END entry raises cause 0x11 sub-code 7 and
leaves the rows before it retained. An MMA that has asked and lacks no row waits. -/
def Obligations.MatrixMultiplies : Prop :=
  ∀ (s : State) (b : Block) (w : LaneWord), MatrixAt s b → (Instr.mma w).wf = true →
    let m := mmaOf (pack 0x180 w)
    let stops := fun (code : Nat) (fa : W64) => exec (.mma w) s = .next (raiseSeq s b code 0 fa)
    let asked := fun (t : State) (c : Block) (base : Nat) => t.block? b.ref = some c ∧ c.seq.mpc = b.seq.mpc ∧
      (∃ p, c.seq.pass = some p ∧ (∀ p', b.seq.pass = some p' → p = p' ∧ c.lock = b.lock) ∧
        (b.seq.pass = none → p.word = pack 0x180 w ∧ p.base = base ∧ p.gear = min (bits b.seq.mgear.toNat 3 2) (bits b.seq.mgear.toNat 1 0) ∧
          p.ceil = (if m.noup then p.gear else bits b.seq.mgear.toNat 1 0) ∧ p.floorGear = p.gear ∧ p.attempts = 0 ∧
          p.budget = b.seq.mbudget ∧ p.granted = false ∧ p.stamp = s.cycle ∧ c.lock = some (base, m.rows * m.rowBytes))) ∧
      c.acc = b.acc ∧ c.bstore = b.bstore ∧ c.scale = b.scale ∧ SameMem s t ∧ t.groups = s.groups
    let rowsFit := m.arow + m.rows ≤ b.accRows ∧ m.slot + tileSlots m.bfmt ≤ b.slots
    let scalesFit := m.as + 4 * m.rows ≤ b.scaleSize ∧ m.bs + 512 ≤ b.scaleSize
    let asking := b.seq.pass.isSome = true ∧ (m.src ≠ 2 ∨ b.lacking m = 0)
    (asking → exec (.mma w) s = .next s) ∧
    (¬ asking →
      (¬ rowsFit → stops 8 0) ∧ (rowsFit → ¬ scalesFit → stops 6 0) ∧
      (rowsFit → scalesFit →
        (mmaSource s b m = .empty → exec (.mma w) s = .next s) ∧
        (∀ code sub fa, mmaSource s b m = .cause code sub fa → exec (.mma w) s = .next (raiseSeq s b code sub fa)) ∧
        ∀ u base, mmaSource s b m = .ok u base →
          let fits := base.toNat % 256 = 0 ∧ base.toNat + m.rows * m.rowBytes ≤ b.scratchSize
          (base.toNat % 256 ≠ 0 → exec (.mma w) s = .next (raiseSeq u b 5 0 base)) ∧
          (base.toNat % 256 = 0 → b.scratchSize < base.toNat + m.rows * m.rowBytes →
            exec (.mma w) s = .next (raiseSeq u b 6 0 base)) ∧
          (fits → passSpoiled b m base.toNat = true →
            exec (.mma w) s = .next (raiseSeq (logSpoiled u b.ref.core.toNat) b 1 0 base)) ∧
          (fits → passSpoiled b m base.toNat = false →
            (m.src ≠ 2 → ∃ t bu c, exec (.mma w) s = .next t ∧ asked t c base.toNat ∧ u.block? b.ref = some bu ∧
              c.queues = bu.queues ∧ c.islq = bu.islq ∧ c.seq.handle = bu.seq.handle ∧ c.seq.qsTaken = b.seq.qsTaken ∧ c.scratch = b.scratch) ∧
            (m.src = 2 →
              (∀ code sub p, streamQueue s b (m.ix % 8) = .error (code, sub, p) →
                exec (.mma w) s = .next (raiseSeq s b code sub (BitVec.ofNat 64 p))) ∧
              ∀ key es, streamQueue s b (m.ix % 8) = .ok (key, es) →
                let i := b.claimed key 32
                let taken := (es.drop i).take (b.lacking m)
                (b.lacking m ≠ 0 → es.drop i = [] → exec (.mma w) s = .next s) ∧
                (b.lacking m = 0 ∨ es.drop i ≠ [] → (∀ x ∈ taken, x.isSome = true) →
                  ∃ t c, exec (.mma w) s = .next t ∧ asked t c base.toNat ∧ c.seq.qsTaken = b.seq.qsTaken + taken.length ∧
                    (b.lacking m ≠ 0 → streamQueue t c (m.ix % 8) = .ok (key, es.take i ++ es.drop (i + taken.length))) ∧
                    c.scratch = taken.zipIdx.foldl (fun y (x, k) => y.write (base.toNat + 64 * (b.seq.qsTaken + k))
                      ((x.getD []).map fun v => bytesOf 4 v.toNat).flatten) b.scratch) ∧
                ∀ j, taken.findIdx? (·.isNone) = some j →
                  ∃ v c, exec (.mma w) s = .next (raiseSeq v b 0x11 7 (BitVec.ofNat 64 (key - 8))) ∧ v.block? b.ref = some c ∧
                    c.seq.qsTaken = b.seq.qsTaken + j ∧ c.seq.pass = none ∧ c.acc = b.acc))))

/-- R250-R254: the sequencer's own words. MGEAR and MBUDGET set their registers; MSTAT copies a status word into K, and with .CLR
clears it; MWAITQ waits for a queue's length; BAR.ARRIVE, BAR.WAIT, QPOP, QPUSH and TLWAIT act as the scalar words do, with the
sequencer as their party, a TLWAIT that passes acquiring at the timeline's scope; MEND ends the sequencer; MEND.LOOP counts K down and jumps while it is not 0. -/
def Obligations.MatrixControlWords : Prop :=
  ∀ (s : State) (b : Block) (w : LaneWord), MatrixAt s b →
    let k := b.readK s.cycle (w.ix % 16)
    let v := if w.a = 248#8 then w.imm.setWidth 64 else k
    let stops := fun (i : Instr) (code : Nat) => exec i s = .next (raiseSeq s b code 0 0)
    let done := fun (i : Instr) (b' : Block) => ∃ t, exec i s = .next t ∧ MatrixDone s t b b'
    let waits := fun (i : Instr) => exec i s = .next s
    let seq := fun (i : Instr) (b' : Block) (p : Seq → Prop) => ∃ t c, exec i s = .next t ∧ MatrixDone s t b b' ∧ t.block? b.ref = some c ∧ p c.seq
    ((Instr.mgear w).wf = true → seq (.mgear w) b fun q => q.mgear = v.setWidth 4 ∧ q.mbudget = b.seq.mbudget) ∧
    ((Instr.mbudget w).wf = true → seq (.mbudget w) b fun q => q.mbudget = v.setWidth 24 ∧ q.mgear = b.seq.mgear) ∧
    ((Instr.mstat w).wf = true →
      let x := w.x.toNat % 4
      let clr := w.x.getLsbD 2
      let status := if x = 0 then b.seq.last else if x = 1 then b.seq.count
        else if x = 2 then BitVec.ofNat 64 (16 * b.seq.mbudget.toNat + b.seq.mgear.toNat) else b.seq.draft
      seq (.mstat w) (b.writeK s.cycle (w.ix % 16) 32 status) fun q =>
        q.last = (if clr ∧ x = 0 then b.seq.last &&& 0x7FFFFFFFFFFFFFFF#64 else b.seq.last) ∧
        q.count = (if clr ∧ x = 1 then 0 else b.seq.count) ∧ q.draft = (if clr ∧ x = 3 then 0 else b.seq.draft) ∧
        q.mgear = b.seq.mgear ∧ q.mbudget = b.seq.mbudget) ∧
    (let q := w.b.toNat
      let depth := b.kernel.qdepth.getD q 0
      let l := b.queues.getD q []
      let mine := b.claimed q 32
      (∀ i, i = .mwaitq w ∨ i = .matrixQpop w ∨ i = .matrixQpush w → i.wf = true → depth = 0 → stops i 0x0B) ∧
      ((Instr.mwaitq w).wf = true → depth ≠ 0 →
        let meets := if w.x = 1 then l.length ≤ w.c.toNat else w.c.toNat ≤ l.length
        (meets → done (.mwaitq w) b) ∧ (¬ meets → waits (.mwaitq w))) ∧
      ((Instr.matrixQpop w).wf = true → depth ≠ 0 →
        (l[mine]? = none → waits (.matrixQpop w)) ∧
        ∀ x, l[mine]? = some x → done (.matrixQpop w)
          ({ b with queues := listSet b.queues q (l.eraseIdx mine) }.writeK s.cycle (w.ix % 16) 32 (x.setWidth 64))) ∧
      ((Instr.matrixQpush w).wf = true → depth ≠ 0 →
        (depth ≤ l.length ∨ b.kPending s.cycle 32 = true → waits (.matrixQpush w)) ∧
        (l.length < depth → b.kPending s.cycle 32 = false → done (.matrixQpush w)
          { b with queues := listSet b.queues q (l ++ [v.setWidth 32]) }))) ∧
    (let x := b.barrier w.b.toNat
      let here := x.parties.any fun q => q.1 = 32
      let arrived := x.parties.any fun q => q.1 = 32 && !q.2
      let set := fun (y : Barrier) => { b with bars := listSet b.bars w.b.toNat y }
      ((Instr.matrixBarArrive w).wf = true →
        (x.reload = 0 ∨ here = true → stops (.matrixBarArrive w) 0x0B) ∧
        (x.reload ≠ 0 → here = false → x.draining = true ∨ b.kPending s.cycle 32 = true → waits (.matrixBarArrive w)) ∧
        (x.reload ≠ 0 → here = false → x.draining = false → b.kPending s.cycle 32 = false →
          done (.matrixBarArrive w) (set (x.arrive 32 (w.x.getLsbD 0))))) ∧
      ((Instr.matrixBarWait w).wf = true →
        (arrived = false → stops (.matrixBarWait w) 0x0B) ∧
        (arrived = true → x.draining = false → waits (.matrixBarWait w)) ∧
        (arrived = true → x.draining = true → done (.matrixBarWait w) (set (x.leave 32))))) ∧
    ((Instr.matrixTlwait w).wf = true →
      (handleBad k = true → stops (.matrixTlwait w) 0x0B) ∧
      (handleBad k = false → b.test = true ∨ handleCtx s b.ctx k = none → stops (.matrixTlwait w) 6) ∧
      ∀ e, handleBad k = false → b.test = false → handleCtx s b.ctx k = some e →
        let goal := b.readK s.cycle w.x.toNat
        (e.timeline.toNat < goal.toNat → waits (.matrixTlwait w)) ∧
        (goal.toNat ≤ e.timeline.toNat → ∃ t, exec (.matrixTlwait w) s = .next t ∧ MatrixDone s t b b ∧
          (e.acts ≠ 0 → (t.core b.ref.core.toNat).l1 = [] ∧ (t.core b.ref.core.toNat).cc = []))) ∧
    ((Instr.mend w).wf = true → ∃ t c, exec (.mend w) s = .next t ∧ t.block? b.ref = some c ∧ c.seq.idle = true ∧
      SameBlock { b with bars := b.bars.map fun x => x.retire 32 } c ∧ SameMem s t ∧ t.groups = s.groups) ∧
    ((Instr.mendLoop w).wf = true →
      (k = 0 → done (.mendLoop w) b) ∧ (k = 1 → done (.mendLoop w) (b.writeK s.cycle (w.ix % 16) 32 0)) ∧
      (1 < k.toNat → ∃ t c, exec (.mendLoop w) s = .next t ∧ t.block? b.ref = some c ∧
        SameBlock (b.writeK s.cycle (w.ix % 16) 32 (k - 1)) c ∧ c.seq.mpc = b.seq.mpc + BitVec.ofInt 52 (12 * disp24 w) ∧
        SameMem s t ∧ t.groups = s.groups))

/-- A group stands at the first word of its handler (R308): S1 and S2 hold the frame's address and its cause word, the mode is trap
mode, the handler's base entry stands on the stack above the return entry, and no load is outstanding. V, H, P, the walkers, FSR and
the other S registers are those of the interrupted group. -/
def Sys2Proof.Machine.InHandler (t : State) (g : Group) (c : Cause) (x : Ctx) (fva : W64) (bs : List Byte) : Prop :=
  ∃ h, t.group? g.ref = some h ∧ h.trapm = true ∧ h.cause = c.code ∧ h.spc = x.desc.hspc.setWidth 52 ∧ h.pend = none ∧ h.loads = [] ∧
    let ret : Entry := ⟨2, c.rlpc, BitVec.ofNat 32 (frameIndex g.ref), g.active⟩
    let g' := (g.writeS 1 fva).writeS 2 (BitVec.ofNat 64 (fieldAt bs 0 8))
    SameRegs { g' with trapm := true, cause := c.code, stack := ⟨0, 0, 0, g.active⟩ :: ret :: g.stack } h

/-- R306-R311, R124: taking an exception and returning from one. TRAP_ENTRY writes the frame at TFBASE plus 4096 times the group's
index and enters the handler; a frame that cannot be written is a double fault, which resets the context, and so is a precise
cause in trap mode. The frame holds the cause, the resume addresses, FSR and S1 to S31 at the offsets of R309, and its replay entries at those of R310.
JOIN.L at the return entry leaves trap mode, with the W fields of the frame and the replay entries that it does not cancel; a frame with
an uncorrectable error raises cause 0x01. A word whose encoding names no instruction raises cause 0x02. -/
def Obligations.TrapsAndReturns : Prop :=
  (∀ (s : State) (g : Group) (c : Cause) (x : Ctx), s.group? g.ref = some g → g.pend = some c → s.ctx? g.ctx = some x →
    let fva := x.desc.tfbase + BitVec.ofNat 64 (4096 * frameIndex g.ref)
    let bs := frameBytes g (s.block? (blockOf g.ref)) c false (stopEntries g)
    (resultsOut s g.ref = true ∨ g.trapm = true ∨ g.hold = .stopped → g.stopReq = false → exec (.trapEntry g.ref) s = .next s) ∧
    (resultsOut s g.ref = false → g.trapm = false → g.hold ≠ .stopped → stopsFor s g c = false → g.stopReq = false →
      (∀ s1, writeVirt s g.ctx fva bs = (s1, .ok ()) →
        ∃ t, exec (.trapEntry g.ref) s = .next t ∧ InHandler t g c x fva bs ∧ SameMem s1 t) ∧
      ∀ s1 d, writeVirt s g.ctx fva bs = (s1, .error d) → ∃ t, exec (.trapEntry g.ref) s = .next t ∧ ctxState t g.ctx = .defined)) ∧
  (∀ (s : State) (g : Group) (c : Cause), (s.block? (blockOf g.ref)).any (·.test) = false → (s.ctx? g.ctx).isSome = true →
    g.trapm = true → c.src = 0 ∨ c.src = 2 → ctxState (raise s g c) g.ctx = .defined) ∧
  (∀ (g : Group) (b : Option Block) (c : Cause) (rs : List Replay),
    let bs := frameBytes g b c false rs
    bs.length = 4096 ∧ fieldAt bs 0 1 = c.code.toNat ∧ fieldAt bs 1 1 = c.sub.toNat ∧ fieldAt bs 8 8 = c.rspc.toNat ∧
    fieldAt bs 16 8 = c.rlpc.toNat ∧ fieldAt bs 24 8 = c.fpc.toNat ∧ fieldAt bs 32 4 = c.tmask.toNat ∧
    fieldAt bs 36 4 = g.active.toNat ∧ fieldAt bs 40 8 = c.faddr.toNat ∧ fieldAt bs 56 4 = g.fsr.toNat ∧
    fieldAt bs 60 1 = min rs.length 12 ∧
    (∀ e r, e < 12 → rs[e]? = some r → fieldAt bs (512 + 288 * e) 12 = r.word.toNat ∧
      fieldAt bs (512 + 288 * e + 12) 1 = (if r.stream = .scalar then 1 else 0) ∧ bit (fieldAt bs (512 + 288 * e + 13) 1) 1 = r.unfinished ∧
      fieldAt bs (512 + 288 * e + 16) 8 = r.pc.toNat ∧ fieldAt bs (512 + 288 * e + 24) 4 = r.rmask.toNat ∧
      ∀ k, k < 32 → fieldAt bs (512 + 288 * e + 32 + 8 * k) 8 = (r.addrs.getD k 0).toNat) ∧
    ∀ n, n < 31 → fieldAt bs (64 + 8 * n) 8 = (g.readS (BitVec.ofNat 5 (n + 1))).toNat) ∧
  (∀ (s s1 : State) (g : Group) (blk : Block) (w : LaneWord) (top n : Entry) (r : List Entry) (x : Ctx) (y : Xlat),
    (Instr.joinL w).wf = true → LaneAt s g blk [] [] true → g.stack = top :: n :: r → n.kind = 2 → g.trapm = true →
    (∀ l ∈ g.loads, l.stream ≠ .lane) → resultsOut s g.ref = false → g.held = none → g.heldSeq = none → s.ctx? g.ctx = some x →
    let fva := x.desc.tfbase + BitVec.ofNat 64 (4096 * n.aux.toNat)
    access s (some g.ref.core.toNat) blk.test g.ctx .read 8 [(0, fva)] = (s1, .ok [(0, fva, y)]) →
    let bs := freshRead s1 g.ref.core.toNat y.pa 4096
    (poisoned s1 y.pa 4096 = true → RaisesAt s (logPoison s1 y.pa) g (.joinL w) .lane g.lpc 1 1 fva) ∧
    (poisoned s1 y.pa 4096 = false → bit (fieldAt bs 56 4) 15 = true → RaisesL s g (.joinL w) 2) ∧
    (poisoned s1 y.pa 4096 = false → bit (fieldAt bs 56 4) 15 = false → ∃ t h, exec (.joinL w) s = .next t ∧ t.group? g.ref = some h ∧
      SameRegs { g with s := h.s, p := framePreds bs, trapm := false, cause := 0, stack := r, fsr := BitVec.ofNat 32 (fieldAt bs 56 4) &&& fsrWritable } h ∧
      (∀ k, k < 31 → h.readS (BitVec.ofNat 5 (k + 1)) = BitVec.ofNat 64 (fieldAt bs (64 + 8 * k) 8)) ∧
      h.spc = BitVec.ofNat 52 (fieldAt bs 8 8) ∧ h.lpc = BitVec.ofNat 52 (fieldAt bs 16 8) ∧ h.loads = [] ∧ SameMem s1 t ∧
      (∀ r, r ∈ h.replay ↔ ∃ e, g.kept[e]? = some r ∧ bit (fieldAt bs (512 + 288 * e + 13) 1) 0 = false))) ∧
  ∀ (s : State),
    (∀ g b, ScalarCur s g b → RaisesS s g (.illegalEncoding .scalar) 2 0) ∧
    (∀ g b, LaneCur s g b → RaisesAt s s g (.illegalEncoding .lane) .lane g.lpc 2 0 0) ∧
    ∀ b, s.cur = .matrix b.ref → s.block? b.ref = some b → exec (.illegalEncoding .matrix) s = .next (raiseSeq s b 2 0 0)

/-- R323, R328: the debugger's commands on a group of a context. STOP stops the group, at once outside trap mode, with a frame whose
STOPPED bit is set and whose replay entries are the group's unfinished work, and reports it in DBGSTAT, or resets the context where the
frame cannot be written; a group in trap mode stops after its return. RESUME, STEP.L and STEP.S act on a stopped group only: they apply
the frame's W fields and let it go on with the entries that it does not cancel. A command that names no live group of the context is ignored and logged.
The model's own choices: a STOP that meets trap mode is held until the return (DEDUCED, assumption 21); RESUME and the steps on a group
that is not stopped are ignored and logged (DEDUCED, assumption 66). -/
def Obligations.DebugCommands : Prop :=
  ∀ (s : State) (wr : Writer) (c : BitVec 8) (g : Group) (x : Ctx), isSysWriter wr = true →
    s.group? g.ref = some g → s.ctx? c = some x → (s.block? (blockOf g.ref)).any (·.test) = false →
    let commands := [Instr.stop wr c g.ref, .resume wr c g.ref, .stepL wr c g.ref, .stepS wr c g.ref]
    let fva := x.desc.tfbase + BitVec.ofNat 64 (4096 * frameIndex g.ref)
    (g.ctx ≠ c ∨ g.exited = true → ∀ i ∈ commands, exec i s = .next (logDrop s 0x2018)) ∧
    (g.ctx = c → g.exited = false →
      (g.hold = .stopped → exec (.stop wr c g.ref) s = .next s) ∧
      (g.hold ≠ .stopped → g.trapm = true → ∃ t h, exec (.stop wr c g.ref) s = .next t ∧ t.group? g.ref = some h ∧
        h.stopReq = true ∧ SameRegs g h ∧ h.spc = g.spc ∧ h.lpc = g.lpc ∧ SameMem s t) ∧
      (g.hold ≠ .stopped → g.trapm = false → g.pend = none → resultsOut s g.ref = false →
        let r := resumePcs g.heldUp
        let bs := frameBytes g (s.block? (blockOf g.ref)) { causeAt g 0 0 0 0 g.spc 0 0 with rspc := r.1, rlpc := r.2 } true (stopEntries g.heldUp)
        bit (fieldAt bs 0 8) 19 = true ∧
        ∀ (s1 : State) (res : Except (Deny × W64) Unit), writeVirt s c fva bs = (s1, res) → ∃ t, exec (.stop wr c g.ref) s = .next t ∧
          (res = .ok () → SameMem s1 t ∧ t.regs.dbgstat = 0x100#64 ∧ ∃ h, t.group? g.ref = some h ∧ h.hold = .stopped ∧ h.loads = [] ∧
            h.spc = r.1 ∧ h.lpc = r.2 ∧ h.replay = stopEntries g.heldUp ∧ SameRegs g h) ∧
          (res ≠ .ok () → ctxState t c = .defined)) ∧
      (∀ i ∈ commands.tail, g.hold ≠ .stopped → exec i s = .next (logDrop s 0x2018)) ∧
      (∀ i ∈ commands.tail, g.hold = .stopped → ∀ s1 d, readVirt s c false fva 4096 = (s1, .error d) → exec i s = .next (logDrop s1 0x2018)) ∧
      (g.hold = .stopped → g.heldSeq = none → ∀ (s1 : State) (bs : List Byte),
        readVirt s c false fva 4096 = (s1, .ok bs) → ∀ i h', (i, h') ∈ [(Instr.resume wr c g.ref, DebugHold.run),
          (.stepL wr c g.ref, .stepLane), (.stepS wr c g.ref, .stepScalar)] →
        ∃ t h, exec i s = .next t ∧ t.group? g.ref = some h ∧ h.hold = h' ∧ SameMem s1 t ∧
          SameRegs { g with s := h.s, p := framePreds bs, fsr := BitVec.ofNat 32 (fieldAt bs 56 4) &&& fsrWritable } h ∧
          (∀ k, k < 31 → h.readS (BitVec.ofNat 5 (k + 1)) = BitVec.ofNat 64 (fieldAt bs (64 + 8 * k) 8)) ∧
          h.spc = BitVec.ofNat 52 (fieldAt bs 8 8) ∧ h.lpc = BitVec.ofNat 52 (fieldAt bs 16 8) ∧
          ∀ q, q ∈ h.replay ↔ ∃ e, g.replay[e]? = some q ∧ bit (fieldAt bs (512 + 288 * e + 13) 1) 0 = false))

/-- R312-R315, R331: FAULT_RETRY and FAULT_FATAL end a pending entry: the ID is free, and every stream of the context that waits on it no
longer does, with cause 0x07 to come where the verdict is fatal, where no fault of the context waits for an ID to free; an ID that is not
pending, or a reserved bit, is ignored and logged. FAULT_POST writes the context's oldest entry into its fault queue, advances TAIL and
tells the I/O core bound to the queue, and waits while the queue is full. The model's own choice: that a reserved bit makes the verdict
ignored and logged (DEDUCED, assumption 41), where R314 says so of an ID and of a verdict. -/
def Obligations.FaultQueues : Prop :=
  (∀ (s : State) (wr : Writer) (c : BitVec 8) (rsv : BitVec 32) (id : BitVec 16) (x : Ctx), isSysWriter wr = true →
    s.ctx? c = some x → ∀ i fatal, (i, fatal) ∈ [(Instr.faultRetry wr c rsv id, false), (.faultFatal wr c rsv id, true)] →
    (rsv ≠ 0 ∨ (∀ p ∈ x.pending, p.id ≠ id.toNat) → exec i s = .next (logDrop s 0x2010)) ∧
    ∀ p, rsv = 0 → x.pending.find? (fun q => q.id = id.toNat) = some p → p.chain = none →
      (∀ k ∈ x.slots, k.wait ≠ some id.toNat) → (∀ d ∈ x.dones, d.wait ≠ some id.toNat) → (∀ b ∈ x.bells, b.wait ≠ some id.toNat) →
      let posted := fun (q : Option Park) => ∀ y, q = some y → y.unposted = []
      (∀ g ∈ s.groups, g.ctx = c → posted g.parkS ∧ posted g.parkL) → (∀ b ∈ s.blocks, b.ctx = c → posted b.seq.park) →
      (∀ k ∈ s.copies, k.ctx = c → posted k.park) → (∀ e ∈ s.engines, e.ctx = c → ∀ k ∈ e.cmds, posted k.park) →
      ∃ t y, exec i s = .next t ∧ t.ctx? c = some y ∧ y.pending = x.pending.filter (fun q => q.id ≠ id.toNat) ∧ SameMem s t ∧
        (∀ r g, s.group? r = some g → t.group? r = some (if g.ctx = c then g.release id.toNat fatal else g)) ∧
        (∀ (g : Group) (q : Park), g.parkL = some q → q.ids = [id.toNat] →
          (fatal = false → q.fatal = false → (g.release id.toNat fatal).parkL = none) ∧
          (fatal = true → ((g.release id.toNat fatal).parkL.map (·.fatal)) = some true)) ∧
        ∀ r b, s.block? r = some b → t.block? r = some (if b.ctx = c then b.release id.toNat fatal else b)) ∧
  ∀ (s : State) (c : BitVec 8) (x : Ctx), s.ctx? c = some x →
    (x.posts = [] → exec (.faultPost c) s = .next s) ∧
    ∀ e rest s1 bs, x.posts = e :: rest → readVirt s c false x.desc.fqbase 8 = (s1, .ok bs) →
      let n := 2 ^ x.desc.fqlog2
      let tail := fieldAt bs 4 4
      let used := (tail + 2 ^ 32 - fieldAt bs 0 4) % 2 ^ 32
      let seq := (x.seq + 1) % 2 ^ 32
      (n ≤ used → exec (.faultPost c) s = .next s1) ∧
      (used < n → ∀ s2 s3,
        writeVirt s1 c (x.desc.fqbase + BitVec.ofNat 64 (64 + 32 * (tail % n))) (fqBytes c seq e) = (s2, .ok ()) →
        writeVirt s2 c (x.desc.fqbase + 4) (bytesOf 4 ((tail + 1) % 2 ^ 32)) = (s3, .ok ()) →
        ∃ t y, exec (.faultPost c) s = .next t ∧ SameMem s3 t ∧ t.ctx? c = some y ∧ y.posts = rest ∧ y.seq = seq ∧
          t.ioInts = s3.ioInts ++ [4 + c.toNat % 4])

/-- R304, R305, R316, R317, R320, R321: the commands of CTXCMD and the deadlines of a pre-emption. BIND reads and checks the
descriptor and binds the context; MAKERES loads its islands and makes it resident; PREEMPT drains it, at once where it has no
block; RESET and the second deadline leave it DEFINED with no block; RELEASE unbinds it. CTXSTAT reports the result. The model's own
choices: MAKERES tests FULL first, then the images, then the islands (DESIGN CHOICE, assumption 24), and reports STATE in D3hot (DEDUCED,
assumption 29) and ISLAND where a load would be needed into an island under suspicion (DESIGN CHOICE, assumption 108); a descriptor that an uncorrectable
error has spoilt is logged and reports STATE (DEDUCED, assumptions 35 and 53); what RELEASE and RESET drop or stop (DEDUCED, assumption 54). -/
def Obligations.ContextCommands : Prop :=
  (∀ (s : State) (wr : Writer) (c : BitVec 8), isSysWriter wr = true →
    let result := fun (t : State) (code : Nat) => t.regs.ctxBusy = false ∧ t.regs.ctxResult = BitVec.ofNat 8 code
    let commands := fun (rsv : BitVec 48) => [Instr.bind wr c rsv, .makeres wr c rsv, .preempt wr c rsv, .reset wr c rsv, .release wr c rsv]
    let reports := fun (i : Instr) (u : State) (code : Nat) =>
      exec i s = .next { u with regs := { u.regs with ctxBusy := false, ctxResult := BitVec.ofNat 8 code } }
    let same := fun (i : Instr) (code : Nat) => reports i s code
    (s.regs.ctxBusy = true → ∀ rsv, ∀ i ∈ commands rsv, exec i s = .next (logDrop s 0x2000)) ∧
    (s.regs.ctxBusy = false → ∀ rsv, rsv ≠ 0 → ∀ i ∈ commands rsv, same i 1) ∧
    (s.regs.ctxBusy = false →
      (let pa := s.regs.ctxbase.toNat + 256 * c.toNat
       let d := descOf (fun k => (saveKey s k).isSome) (memBytes s pa 256)
       (ctxState s c ≠ .undefined ∨ poisoned s pa 256 = false ∧ d = none → same (.bind wr c 0) 1) ∧
       (ctxState s c = .undefined → poisoned s pa 256 = true → reports (.bind wr c 0) (logPoison s pa) 1) ∧
       ∀ d', ctxState s c = .undefined → poisoned s pa 256 = false → d = some d' →
        ∃ t, exec (.bind wr c 0) s = .next t ∧ t.ctx? c = some (boundCtx c d') ∧ result t 0 ∧ SameMem s t ∧
          (∀ c', c' ≠ c → t.ctx? c' = s.ctx? c') ∧ t.groups = s.groups ∧ t.blocks = s.blocks) ∧
      (ctxState s c ≠ .defined → same (.makeres wr c 0) 1 ∧ same (.release wr c 0) 1) ∧
      (ctxState s c ≠ .resident → same (.preempt wr c 0) 1) ∧ (ctxState s c = .undefined → same (.reset wr c 0) 1) ∧
      (∀ x, s.ctx? c = some x →
        let resident := (s.ctxs.filter fun y => y.st == .resident).length
        (x.st = .defined → s.power = .d3hot → same (.makeres wr c 0) 1) ∧
        (x.st = .defined → s.power ≠ .d3hot → 16 ≤ resident → same (.makeres wr c 0) 2) ∧
        (x.st = .defined → s.power ≠ .d3hot → resident < 16 → ∀ s1,
          (∀ code, checkImages s x = (s1, .bad code) → reports (.makeres wr c 0) s1 code) ∧
          ∀ rs, checkImages s x = (s1, .ok rs) → loadIslands s1 x = none → reports (.makeres wr c 0) s1 3) ∧
        (x.st = .defined → s.power ≠ .d3hot → resident < 16 → ∀ s1 rs s2 y, checkImages s x = (s1, .ok rs) → loadIslands s1 x = some s2 →
          s2.ctx? c = some y → ∃ t, exec (.makeres wr c 0) s = .next t ∧ result t 0 ∧ SameMem s2 t ∧
            t.ctx? c = some { y with st := .resident, restores := rs, residentAt := s2.cycle, preStart := none }) ∧
        (x.st = .resident → ctxBlocks s c = [] → x.saving = false →
          ∃ t, exec (.preempt wr c 0) s = .next t ∧ result t 0 ∧ ctxState t c = .defined ∧ SameMem s t) ∧
        (x.st = .resident → ctxBlocks s c ≠ [] → ∃ t y, exec (.preempt wr c 0) s = .next t ∧ t.regs.ctxBusy = true ∧
          t.regs.ctxBusyCtx = c ∧ t.ctx? c = some y ∧ y.st = .draining ∧ y.preStart = some s.cycle ∧ SameMem s t ∧
          t.groups = s.groups)) ∧
      (ctxState s c ≠ .undefined → ∃ t, exec (.reset wr c 0) s = .next t ∧ result t 0 ∧ ctxState t c = .defined ∧
        ∀ b ∈ t.blocks, b.ctx = c → b.test = true) ∧
      (ctxState s c = .defined → ∃ t, exec (.release wr c 0) s = .next t ∧ result t 0 ∧ t.ctx? c = none ∧
        (∀ e ∈ t.engines, e.ctx = c → e.stopped = true) ∧ ∀ g ∈ t.grids, g.ctx ≠ c))) ∧
  ∀ (s : State) (c : BitVec 8) (x : Ctx) (t0 : Nat), s.ctx? c = some x → x.preStart = some t0 →
    let first := t0 + x.desc.d1 * Config.cyclesPerUs
    let second := t0 + x.desc.d2 * Config.cyclesPerUs
    (x.st ≠ .draining → exec (.firstDeadline c) s = .next s ∧ exec (.secondDeadline c) s = .next s) ∧
    (x.st = .draining →
      (s.cycle < first ∨ savecap x.desc = false → exec (.firstDeadline c) s = .next s) ∧
      (first ≤ s.cycle → savecap x.desc = true → isProtected x.desc = false → x.saving = false → ctxBlocks s c ≠ [] →
        saveReady (beginSave s c) c = false → ∃ t y, exec (.firstDeadline c) s = .next t ∧ t.ctx? c = some y ∧ y.saving = true ∧
          y.counter = x.counter + 1 ∧ y.st = .draining) ∧
      (first ≤ s.cycle → savecap x.desc = true → x.saving = true → saveReady s c = true → (∀ b ∈ s.blocks, s.block? b.ref = some b) →
        ∃ t, exec (.firstDeadline c) s = .next t ∧ ctxState t c = .defined ∧ ∀ b ∈ t.blocks, b.ctx = c → b.test = true) ∧
      (s.cycle < second → exec (.secondDeadline c) s = .next s) ∧
      (second ≤ s.cycle → ∃ t, exec (.secondDeadline c) s = .next t ∧ ctxState t c = .defined ∧
        (∀ b ∈ t.blocks, b.ctx = c → b.test = true) ∧
        (s.regs.ctxBusy = true → s.regs.ctxBusyCtx = c → t.regs.ctxBusy = false ∧ t.regs.ctxResult = 7)))

/-- R325, R327-R330, R332, R345, R277, R268: writes from outside. A write to a register of system software by the host or any other agent
changes nothing but the error log. DOORBELL writes TAIL and exposes the new record; MSIGEN sends a message, or, where the vector is
masked, leaves its pending bit set; SYSDONE gives the waiting SYSCALL its results, none where the slot holds an uncorrectable error, and
its core acquires; a read of D2DSYNC returns once the host's earlier writes are performed; PWRPOOL is bounded; a register that only stores a
value reads back what it keeps. The model's own choices: a write that its writer may not make, or a doorbell that cannot be taken, is
logged as a drop (DEDUCED, assumption 41); the layout of the MSI-X table and its pending words (PRESUMED, assumption 90); a SYSDONE whose slot is
spoilt (DEDUCED, assumption 35); when a host write is pending (DEDUCED, assumption 57). -/
def Obligations.RegisterWrites : Prop :=
  (∀ (s : State) (wr : Writer) (c : BitVec 8) (g : GroupRef) (r48 : BitVec 48) (r32 : BitVec 32) (id : BitVec 16) (v64 : BitVec 64)
      (v32 : BitVec 32) (n : BitVec 4) (h : BitVec 2) (core : BitVec 6), wr = .host ∨ wr = .other → ∀ i off,
    (i, off) ∈ [(Instr.bind wr c r48, 0x2000), (.makeres wr c r48, 0x2000), (.preempt wr c r48, 0x2000), (.reset wr c r48, 0x2000),
      (.release wr c r48, 0x2000), (.faultRetry wr c r32 id, 0x2010), (.faultFatal wr c r32 id, 0x2010), (.stop wr c g, 0x2018),
      (.resume wr c g, 0x2018), (.stepL wr c g, 0x2018), (.stepS wr c g, 0x2018), (.tlbInvalidatePage wr c, 0x3008),
      (.tlbInvalidateContext wr c, 0x3008), (.tlbInvalidateAll wr c, 0x3008), (.scpartWrite wr n v32, 0x4000 + 4 * n.toNat),
      (.pwrpoolWrite wr v32, 0x1000), (.msigen wr v64, 0x5008), (.sysdone wr v64, 0x6800), (.enter wr core, 0x50000),
      (.start wr core, 0x50000), (.leave wr core, 0x50000), (.handover wr h, 0x20000 + 0x100 * h.toNat),
      (.headRelease wr h, 0x20000 + 0x100 * h.toNat), (.registerWrite wr 0x2008#26 v64, 0x2008), (.registerWrite wr 0x2020#26 v64, 0x2020)] →
        exec i s = .next (logDrop s off)) ∧
  (∀ (s : State), exec (.powerSave .other) s = .next (logDrop s 0x60000) ∧ exec (.powerOff .other) s = .next (logDrop s 0x60000) ∧
    exec (.powerReset .other) s = .next (logDrop s 0x60000) ∧
    ∃ t, exec .d2dsyncRead s = .next t ∧ t.hostPend = [] ∧
      (∀ a, (∀ w ∈ s.hostPend, a < w.1 ∨ w.1 + w.2.length ≤ a) → memByte t a = memByte s a) ∧
      ∀ (k : Nat) (w : Nat × List Byte), s.hostPend[k]? = some w → w.1 + w.2.length ≤ physTop →
        (∀ v ∈ s.hostPend.drop (k + 1), v.1 + v.2.length ≤ w.1 ∨ w.1 + w.2.length ≤ v.1) → memBytes t w.1 w.2.length = w.2) ∧
  (∀ (s : State) (wr : Writer) (v : BitVec 64), isSysWriter wr = true →
    (let n := v.toNat % 2048
     let masked := (s.regs.msixWord (2 * n + 1)).getLsbD 32
     (masked = false → exec (.msigen wr v) s = .next { s with msix := s.msix ++ [n] }) ∧
     (masked = true → ∃ t, exec (.msigen wr v) s = .next t ∧ t = { s with regs := t.regs } ∧
       ∀ k, k < 2048 → (t.regs.msixWord (4096 + k / 64)).getLsbD (k % 64) =
         (decide (k = n) || (s.regs.msixWord (4096 + k / 64)).getLsbD (k % 64)))) ∧
    (let ring := s.regs.rings.getD 1 Ring.reset
     let slot := v.toNat % 2 ^ 32
     let pa := ring.base.toNat + 64 * slot
     (∀ g k, s.groups.find? (Group.calls slot) = some g → s.group? g.ref = some g → g.waits.call = some ⟨k, none⟩ → k = slot →
       ∃ t h, exec (.sysdone wr v) s = .next t ∧ t.group? g.ref = some h ∧ SameRegs g h ∧
         (poisoned s (pa + 16) 16 = false → SameMem s t) ∧ (t.core g.ref.core.toNat).l1 = [] ∧ (t.core g.ref.core.toNat).cc = [] ∧ h.waits.call = some ⟨slot, some (
           if poisoned s (pa + 16) 16 then none else some (BitVec.ofNat 64 (memNat s (pa + 16) 8), BitVec.ofNat 64 (memNat s (pa + 24) 8)))⟩) ∧
     ((∀ g ∈ s.groups, g.calls slot = false) → (∀ x ∈ s.ctxs, x.saved = []) →
       exec (.sysdone wr v) s = .next (logDrop s 0x6800)))) ∧
  (∀ (s : State) (v : BitVec 32), ∃ t, exec (.pwrpoolWrite .governor v) s = .next t ∧
    t = { s with regs := { s.regs with pool := max 6 (min 384 (v.toNat % 512)) } }) ∧
  (∀ (s : State) (wr : Writer) (v : BitVec 64), isSysWriter wr = true → ∀ off val,
    (off, val) ∈ [(0x1008#26, 2 ^ 16 * max 1 (bits v.toNat 31 16)), (0x1010#26, v.toNat % 2 ^ 32), (0x1018#26, v.toNat % 2 ^ 32),
      (0x2040#26, bits v.toNat 46 16 * 2 ^ 16), (0x3000#26, bits v.toNat 51 12 * 2 ^ 12)] →
    ∃ t, exec (.registerWrite wr off v) s = .next t ∧ readReg t off.toNat = val ∧ t = { s with regs := t.regs }) ∧
  (∀ (s : State) (wr : Writer) (off : BitVec 26) (v : BitVec 64), off = 0 ∨ 0x79000 ≤ off.toNat →
    exec (.registerWrite wr off v) s = .next s) ∧
  ∀ (s s1 s2 : State) (wr : Writer) (v : BitVec 64) (x : Ctx) (bs : List Byte) (d : QDesc), isSysWriter wr = true ∨ wr = .host →
    let c := v.extractLsb' 56 8
    let q := bits v.toNat 53 48
    let p := bits v.toNat 42 40
    let tail := bits v.toNat 31 0
    let dva := queueVa s c q
    let dropped := fun (u : State) => exec (.doorbell wr v) s = .next (logDrop u 0x5000)
    let clean := bits v.toNat 55 54 = 0 ∧ bits v.toNat 47 43 = 0 ∧ bits v.toNat 39 32 = 0
    (¬ clean ∨ ctxState s c = .undefined → dropped s) ∧
    (clean → s.ctx? c = some x → x.st ≠ .undefined → unitRead s c 7 0 dva 128 = (s1, .ok bs) →
      (queueDesc bs = none → dropped s1) ∧
      (queueDesc bs = some d →
        let n := (tail + 2 ^ 32 - d.heads.getD p 0) % 2 ^ 32
        let old := d.tails.getD p 0
        (wr = .host ∧ d.hostdb = false ∨ 2 ^ d.cap < n ∨ n < d.count p → dropped s1) ∧
        ((wr = .host → d.hostdb = true) → n ≤ 2 ^ d.cap → d.count p ≤ n →
          unitWrite s1 c 7 0 (dva + BitVec.ofNat 64 (68 + 8 * p)) (bytesOf 4 tail) = (s2, .ok ()) →
          (n = d.count p → ∃ t, exec (.doorbell wr v) s = .next t ∧ SameMem s2 t ∧ t.groups = s2.groups) ∧
          (n = d.count p + 1 → (∀ k ∈ x.slots, ¬ (k.q = q ∧ k.prio = p)) → ∀ (s3 s4 : State) (va : W64) (rs : List Byte),
            let k : Slot := Slot.mk q p (old % 2 ^ 32) none false none false none none none none s2.cycle [] true
            let u := s2.modCtx c fun x => { x with slots := x.slots ++ [k] }
            slotAddr u c k = (s3, .ok va) → unitRead s3 c 7 0 va 64 = (s4, .ok rs) → recForm (slotOf rs) ≠ 1 →
            recJoin (slotOf rs) = 0 → ∃ t y j, exec (.doorbell wr v) s = .next t ∧ SameMem s4 t ∧ t.ctx? c = some y ∧ j ∈ y.slots ∧
              j.q = q ∧ j.prio = p ∧ j.slot = old % 2 ^ 32 ∧ j.read = some (slotOf rs) ∧ j.ready = some s.cycle))))

/-- R46, R57, R65, R71, R87: the events of translation, partitions, cores and waits. An invalidation drops the translations it names
from every TLB, the cores' and the chambers', and stays BUSY; TLB_INVALIDATION_DONE ends it once no core holds a write back, and every
load and transfer has its bytes; clearing EN drops a partition's lines. WRITE_ACKNOWLEDGE performs one pending write, behind no older
ordered write to the same bytes: one of an RC page, of a UO page that an ordering point of its issuer has followed, or of the same
lane word (R211). LNWAIT_TIMEOUT
marks a wait whose limit has passed. -/
def Obligations.UnitEvents : Prop :=
  (∀ (s : State) (wr : Writer) (c : BitVec 8), isSysWriter wr = true → ∀ i kind, (i, kind) ∈ [(Instr.tlbInvalidatePage wr c, 0#3),
      (.tlbInvalidateContext wr c, 1#3), (.tlbInvalidateAll wr c, 2#3)] →
    (s.regs.tlbBusy = true → exec i s = .next (logDrop s 0x3008)) ∧
    (s.regs.tlbBusy = false → ∃ t, exec i s = .next t ∧
      let page := bits s.regs.tlbVa.toNat 51 12 * 4096
      let kept := fun (l : List TlbEntry) =>
        l.filter fun e => !decide (kind = 2#3 ∨ e.ctx = c ∧ (kind = 1#3 ∨ e.base ≤ page ∧ page < e.base + e.size))
      t = { s with tlb := kept s.tlb, chamberTlb := s.chamberTlb.map kept, cores := s.cores.map fun k => { k with tlb := kept k.tlb }
                   regs := { s.regs with tlbBusy := true, tlbErr := false, tlbCtx := c, tlbKind := kind } })) ∧
  (∀ s : State,
    (s.regs.tlbBusy = false ∨ (∃ k ∈ s.cores, k.pend ≠ []) → exec .tlbInvalidationDone s = .next s) ∧
    (s.regs.tlbBusy = true → (∀ k ∈ s.cores, k.pend = []) → ∃ t, exec .tlbInvalidationDone s = .next t ∧ SameMem s t ∧
      t.regs = { s.regs with tlbBusy := false } ∧ t.tlb = s.tlb ∧
      (∀ g ∈ t.groups, ∀ l ∈ g.loads, ∀ p ∈ l.parts, p.val.isSome = true) ∧
      ∀ b ∈ t.blocks, ∀ m ∈ b.seq.mloads, m.scratch = false → m.data.isSome = true)) ∧
  (∀ (s : State) (wr : Writer) (n : BitVec 4) (v : BitVec 32), isSysWriter wr = true → n.toNat < s.regs.scpart.length →
    ∃ t, exec (.scpartWrite wr n v) s = .next t ∧ SameMem s t ∧
      (∀ k, k < 16 → t.regs.scpart.getD k 0 = if k = n.toNat then v &&& 0x8001FFFF#32 else s.regs.scpart.getD k 0) ∧
      t.lines = s.lines.filter fun l => v.getLsbD 31 || l.part ≠ n.toNat) ∧
  (∀ (s : State) (core : BitVec 6) (n : Nat),
    let ws := (s.core core.toNat).pend
    (ws[n]? = none → exec (.writeAcknowledge core n) s = .next s) ∧
    ∀ w, ws[n]? = some w →
      let oneWord := fun (v : PendWrite) => v.cycle = w.cycle ∧ ∃ g a b, v.who = .thread g a ∧ w.who = .thread g b
      let held := ∃ v ∈ ws.take n, (v.uo = false ∨ oneWord v) ∧ v.pa < w.pa + w.bytes.length ∧ w.pa < v.pa + v.bytes.length
      (held → exec (.writeAcknowledge core n) s = .next s) ∧
      (¬ held → ∃ t, exec (.writeAcknowledge core n) s = .next t ∧ (t.core core.toNat).pend = ws.eraseIdx n ∧
        (w.pa + w.bytes.length ≤ physTop → SameMemBut s t w.pa w.bytes.length ∧
          ∀ k, k < w.bytes.length → memByte t (w.pa + k) = w.bytes.getD k 0))) ∧
  ∀ (s : State) (g : Group) (l : LnWait), s.group? g.ref = some g → g.waits.ln = some l →
    let over' := l.limit ≠ 0 ∧ l.start + l.limit ≤ s.cycle
    ∃ t, exec (.lnwaitTimeout g.ref) s = .next t ∧
      (over' → GroupOnly s t g { g with waits := { g.waits with ln := some { l with timeout := true } } }) ∧
      (¬ over' → GroupOnly s t g g)

/-- A warm reset (R336, R343): everything on chip as after reset, GDDR7 and host memory, the verify table, the counter and the
always-on registers kept; a device whose firmware or channels fail is COLDFAIL and not up. -/
def Sys2Proof.Machine.WarmReset (s t : State) : Prop :=
  let up := Config.firmwareVerifies = true ∧ Config.channelsTrain = true
  t.mem = s.mem ∧ t.poison = s.poison ∧ t.groups = [] ∧ t.blocks = [] ∧ t.ctxs = [] ∧ t.engines = [] ∧ t.copies = [] ∧ t.tlb = [] ∧
  t.saveKeys = [] ∧ t.cores = State.reset.cores ∧ t.islands = State.reset.islands ∧ t.verify = s.verify ∧ t.rc = s.rc ∧
  t.regs.pimgaddr = s.regs.pimgaddr ∧ t.regs.pranges = s.regs.pranges ∧ t.power = .d0 ∧
  (up → t.booted = true ∧ t.regs.pwrstat = 0) ∧ (¬ up → t.booted = false ∧ t.regs.pwrstat = 6)

/-- R336-R338, R343: the power states. PWRCTL's SAVE writes the power image where no context is on compute and its ranges are
sound, and steps the counter; OFF reports success; RESET, PERST# and a function-level reset are warm resets; POWER_GOOD is a cold one
and then a resume where an image is found: a stale counter, a tag that does not verify or an uncorrectable error leaves nothing of it, and
else its ranges, save keys and contexts come back. D3hot wipes the compute die and keeps the contexts and the islands of the system die; its
changes of power state are messages of vector 6. The model's own choices: the layout of the image and what of it is kept beside it (DESIGN
CHOICE, assumption 26), the result of a SAVE or a resume that meets an uncorrectable error (DEDUCED, assumption 35), and what a warm reset
leaves of memory and of the fused tables (DEDUCED, assumption 60). -/
def Obligations.PowerEvents : Prop :=
  ∀ (s : State) (wr : Writer), wr ≠ .other →
    let stat := fun (u : State) (n : W64) => { u with regs := { u.regs with pwrstat := n } }
    let busy := s.ctxs.any fun x => onCompute s x.id
    (s.regs.pwrstat ≠ 6 →
      exec (.powerOff wr) s = .next (stat s 0) ∧
      (busy = true → exec (.powerSave wr) s = .next (stat s 1) ∧ (s.power = .d0 → exec .d3hotEntry s = .next (stat s 1))) ∧
      (busy = false →
        (∀ a, saveSpoiled s = some a → exec (.powerSave wr) s = .next (stat (logPoison s a) 7)) ∧
        (saveSpoiled s = none → powerRanges s = none → exec (.powerSave wr) s = .next (stat s 7)) ∧
        ∀ rs, saveSpoiled s = none → powerRanges s = some rs →
          let size := 64 + frontLength s + (rs.map (·.2)).foldl (· + ·) 0 + 16
          (2 ^ 29 < size → exec (.powerSave wr) s = .next (stat s 2)) ∧
          (size ≤ 2 ^ 29 → ∃ t p, exec (.powerSave wr) s = .next t ∧ t.regs.pwrstat = 0 ∧ t.rc = s.rc + 1 ∧ t.powerImage = some p ∧
            p.ranges = rs ∧ p.ctxs = s.ctxs ∧ p.front = frontLength s ∧ t.saveKeys = s.saveKeys ∧ t.ctxs = s.ctxs ∧ t.blocks = s.blocks ∧
            (s.regs.pimgaddr.toNat + 64 ≤ physTop →
              memNat t (s.regs.pimgaddr.toNat + Config.powerCounterAt.val) 8 = (s.rc + 1).toNat)))) ∧
    (∃ t, exec (.powerReset wr) s = .next t ∧ WarmReset s t) ∧
    (∀ i, i = .perst ∨ i = .functionLevelReset →
      (s.power = .d3cold → exec i s = .next s) ∧ (s.power ≠ .d3cold → ∃ t, exec i s = .next t ∧ WarmReset s t)) ∧
    (∀ on, exec (.powerRemoval on) s = .next { s with power := .d3cold, alwaysOn := s.alwaysOn && on, booted := false }) ∧
    exec .gddr7SelfRefresh s = .next { s with selfRefresh := true } ∧
    (s.power ≠ .d0 → exec .d3hotEntry s = .next s) ∧
    (s.power = .d0 → busy = false → exec .d3hotEntry s = .next (sendMsi { s with power := .d3hot, selfRefresh := true } 6)) ∧
    (s.power ≠ .d3hot → exec .d3hotExit s = .next s) ∧
    (s.power = .d3hot → ∃ t, exec .d3hotExit s = .next t ∧ t.power = .d0 ∧ t.selfRefresh = false ∧ t.groups = [] ∧ t.blocks = [] ∧
      t.tlb = [] ∧ t.mem = s.mem ∧ t.ctxs = s.ctxs ∧ t.regs = { s.regs with msixTable := t.regs.msixTable, stBusy := false, stInmode := false } ∧
      t.engines = s.engines.filter (fun e => 64 ≤ e.ref.engine.toNat) ∧
      t.lines = s.lines ∧ (∀ n, 24 ≤ n → 24 ≤ s.islands.length → t.island n = s.island n) ∧
      (s.regs.msixMasked 6 = false → t.msix = s.msix ++ [6]) ∧
      ∀ n, n < s.cores.length → (t.core n).inService = (s.core n).inService ∧ (t.core n).pend = [] ∧ (t.core n).l1 = []) ∧
    (Config.firmwareVerifies = true → Config.channelsTrain = true →
      let lost := s.alwaysOn = false ∨ s.regs.pimgaddr = 0
      let u := warmReset (dropGddr s)
      let head := memBytes u s.regs.pimgaddr.toNat 64
      let counter := fieldAt head Config.powerCounterAt.val 8
      (lost → ∃ t, exec .powerGood s = .next t ∧ t.regs.pwrstat = 5 ∧ t.booted = true ∧ t.groups = [] ∧ t.blocks = [] ∧ t.ctxs = [] ∧
        t.mem = s.mem.filter fun c => gddrTop ≤ c.1) ∧
      let len := (s.powerImage.map fun p => p.front + (p.ranges.map (·.2)).foldl (· + ·) 0).getD 0
      let spoilt := ∃ a ∈ u.poison, s.regs.pimgaddr.toNat ≤ a ∧ a < s.regs.pimgaddr.toNat + 80 + len
      (¬ lost → spoilt → ∃ t, exec .powerGood s = .next t ∧ t.regs.pwrstat = 4 ∧ t.ctxs = [] ∧ t.groups = []) ∧
      (¬ lost → ¬ spoilt → counter ≠ s.rc.toNat → ∃ t, exec .powerGood s = .next t ∧ t.regs.pwrstat = 3 ∧ t.ctxs = [] ∧ t.groups = []) ∧
      (¬ lost → ¬ spoilt → counter = s.rc.toNat →
        (s.powerImage = none → ∃ t, exec .powerGood s = .next t ∧ t.regs.pwrstat = 4 ∧ t.ctxs = [] ∧ t.groups = []) ∧
        ∀ p, s.powerImage = some p →
          let ct := natsOf (memBytes u (s.regs.pimgaddr.toNat + 64) len)
          let good := bytesOfNats (gcmTag powerKeyBytes (powerIv s.rc) (natsOf head) ct) = memBytes u (s.regs.pimgaddr.toNat + 64 + len) 16
          (¬ good → ∃ t, exec .powerGood s = .next t ∧ t.regs.pwrstat = 4 ∧ t.ctxs = [] ∧ t.groups = []) ∧
          (good → ∃ t, exec .powerGood s = .next t ∧ t.regs.pwrstat = 0 ∧ t.rc = s.rc + 1 ∧ t.powerImage = none ∧
            t.groups = [] ∧ t.blocks = [] ∧
            let body := bytesOfNats (gcmCrypt powerKeyBytes (powerIv s.rc) ct)
            let own := body.drop Config.imageOverhead
            t.saveKeys = keysFrom own ∧ t.ctxs = ctxsFrom p.ctxs (own.drop (2 + 33 * (keysFrom own).length)) ∧
            ∀ (before after : List (Nat × Nat)) (a n : Nat), p.ranges = before ++ (a, n) :: after → a + n ≤ physTop → body.length = len →
              (∀ r ∈ after, r.1 + r.2 ≤ a ∨ a + n ≤ r.1) →
              memBytes t a n = (body.drop (p.front + (before.map (·.2)).foldl (· + ·) 0)).take n)))

/-- R347, R348: self-test. A unit that is idle and has a detected error is tested: without an error in three runs it serves again, with
one it leaves service, and one without a substitute is fatal. ENTER, START and LEAVE, from the controller alone and while no test
runs, put a core that takes no work into loop-buffer mode, start the test block of four groups, and end the mode. The model's own choices: RESULT is 0 after an accepted ENTER or LEAVE, and 4
for a header with reserved bits or misaligned entries (DEDUCED, assumption 61) or one that an uncorrectable error has spoilt (DEDUCED,
assumption 35). -/
def Obligations.SelfTests : Prop :=
  (∀ (s : State) (u : UnitRef) (errs : BitVec 3),
    (unitIdle s u = false ∨ unitDetected s u = false → exec (.selfTest u errs) s = .next s) ∧
    (unitIdle s u = true → unitDetected s u = true → ∃ t, exec (.selfTest u errs) s = .next t ∧
      match u with
      | .core n => n.toNat < s.cores.length → (t.core n.toNat).detected = false ∧
          (t.core n.toNat).inService = if errs = 0 then (s.core n.toNat).inService else false
      | .island n => n.toNat < s.islands.length → (t.island n.toNat).detected = false ∧
          (t.island n.toNat).state = if errs = 0 then (s.island n.toNat).state else 3
      | .cacheSlice n => n.toNat ∉ t.sliceDetected ∧ t.slicesOut = if errs = 0 then s.slicesOut else n.toNat :: s.slicesOut
      | .bulk n => n.toNat ∉ t.bulkDetected ∧ t.bulkOut = if errs = 0 then s.bulkOut else n.toNat :: s.bulkOut
      | _ => errs ≠ 0 → t.regs.pwrstat = 6)) ∧
  ∀ (s : State) (core : BitVec 6), core.toNat < s.cores.length →
    let k := s.core core.toNat
    let result := fun (n : BitVec 8) => { s with regs := { s.regs with stResult := n } }
    let pa := s.regs.stprog.toNat
    let sp := memNat s pa 8
    let lb := memNat s (pa + 8) 8
    let mp := memNat s (pa + 16) 8
    let sound := memNat s (pa + 24) 40 = 0 ∧ sp % 4 = 0 ∧ lb % 4 = 0 ∧ mp % 4 = 0
    (s.regs.stBusy = true → ∀ i ∈ [Instr.enter .selfTest core, .start .selfTest core, .leave .selfTest core], exec i s = .next s) ∧
    (s.regs.stBusy = false →
      (s.blocksOn core.toNat ≠ [] ∨ coreTakes s core.toNat = true → exec (.enter .selfTest core) s = .next (result 2)) ∧
      (s.blocksOn core.toNat = [] → coreTakes s core.toNat = false → ∃ t, exec (.enter .selfTest core) s = .next t ∧
        (t.core core.toNat).loopMode = true ∧ (t.core core.toNat).l1 = [] ∧ (t.core core.toNat).tlb = [] ∧ (t.core core.toNat).array = none ∧
        t.regs = { s.regs with stInmode := true, stCore := core, stResult := 0 } ∧ t.mem = s.mem) ∧
      let bad := poisoned s pa 64
      (bad = true → exec (.start .selfTest core) s =
        .next (let u := logPoison s pa; { u with regs := { u.regs with stResult := 4 } })) ∧
      (bad = false → k.loopMode = false ∨ ¬ sound → exec (.start .selfTest core) s = .next (result 4)) ∧
      (bad = false → k.loopMode = true → sound → ∃ t b gs, exec (.start .selfTest core) s = .next t ∧ t.mem = s.mem ∧
        t.regs = { s.regs with stBusy := true } ∧ t.blocks = s.blocks ++ [b] ∧ t.groups = s.groups ++ gs ∧ b.test = true ∧
        b.ref = ⟨core, 0⟩ ∧ gs.length = 4 ∧ ∀ n g, gs[n]? = some g → g.ref = ⟨core, 0, BitVec.ofNat 5 n⟩ ∧ g.wide = true ∧ g.vcnt = 248 ∧
          g.lane = BitVec.ofNat 7 (32 * n) ∧ g.spc = BitVec.ofNat 52 sp ∧ g.exited = false) ∧
      (k.loopMode = false → exec (.leave .selfTest core) s = .next (result 4)) ∧
      (k.loopMode = true → ∃ t, exec (.leave .selfTest core) s = .next t ∧ (t.core core.toNat).loopMode = false ∧
        (t.core core.toNat).l1 = [] ∧ (t.core core.toNat).tlb = [] ∧ t.regs.stResult = 0 ∧ (s.regs.stCore = core → t.regs.stInmode = false) ∧ t.mem = s.mem))

/-- R339-R342: the display heads and the power budget. HANDOVER and HEAD_RELEASE ask an enabled head; at a frame start a flip takes
effect, and a handover is done where the head is locked, else aborted; a release gives the panel up. A follower's frame start counts where a
pulse of FSYNC_IN stands within one line before it or comes within one line after it: LOCKED holds once two in a row have counted, and falls
with one that has not; a leader drives FSYNC_OUT. A
GRANT sets the budget and DEMAND echoes its number; the pool follows the budget within its bounds; without a GRANT for three
milliseconds the budget is the safe one. The model's own choices: what one line before or after a frame start is, in cycles of an opaque
length, and that a leader drives FSYNC_OUT at each frame start (DESIGN CHOICE, assumption 91; DEDUCED, assumption 28). -/
def Obligations.HeadsAndBudget : Prop :=
  (∀ (s : State) (wr : Writer) (h : BitVec 2), s.heads.length = 4 →
    let d := s.head h.toNat
    let en := d.ctl.getLsbD 31
    (isSysWriter wr = true →
      (∃ t, exec (.handover wr h) s = .next t ∧ (en = false → t.head h.toNat = d) ∧
        (en = true → (t.head h.toNat).ctl = (d.ctl &&& ~~~0x01000000#32) ||| 0x08000000#32)) ∧
      ∃ t, exec (.headRelease wr h) s = .next t ∧ (en = false → t.head h.toNat = d) ∧
        (en = true → (t.head h.toNat).ctl = d.ctl ||| 0x04000000#32)) ∧
    (en = false → exec (.frameStart h) s = .next s) ∧
    (en = true →
      let follow := d.ctl.getLsbD 30 = true
      let before := ∃ t0, d.fsyncAt = some t0 ∧ s.cycle ≤ t0 + Config.lineCycles
      let frames := if d.awaits = none then d.lockedFrames else 0
      let locked := follow ∧ (before ∧ 1 ≤ frames ∨ ¬ before ∧ d.awaits = none ∧ d.ctl.getLsbD 28 = true)
      ∃ t e, exec (.frameStart h) s = .next t ∧ t.head h.toNat = e ∧ (s.regs.msixMasked (2 + h.toNat) = false → 2 + h.toNat ∈ t.msix) ∧
        e.pendingFlip = none ∧ e.surface = d.pendingFlip.getD d.surface ∧ (e.ctl.getLsbD 28 = true ↔ locked) ∧
        (follow → before → e.lockedFrames = min 2 (frames + 1) ∧ e.awaits = none ∧ e.fsyncOut = d.fsyncOut) ∧
        (follow → ¬ before → e.lockedFrames = frames ∧ e.awaits = some s.cycle ∧ e.fsyncOut = d.fsyncOut) ∧
        (¬ follow → e.lockedFrames = 0 ∧ e.awaits = none ∧ e.fsyncOut = d.fsyncOut + 1) ∧
        (d.ctl.getLsbD 27 = true → d.ctl.getLsbD 26 = false → d.releasing = false → e.ctl.getLsbD 27 = false ∧
          (locked → e.muxsel = true ∧ e.ctl.getLsbD 25 = true) ∧
          (¬ locked → e.muxsel = d.muxsel ∧ e.ctl.getLsbD 24 = true ∧ e.ctl.getLsbD 25 = d.ctl.getLsbD 25)) ∧
        (d.ctl.getLsbD 27 = false → d.ctl.getLsbD 26 = true → e.muxsel = false ∧ e.releasing = true ∧ e.ctl.getLsbD 26 = false) ∧
        (d.ctl.getLsbD 27 = false → d.ctl.getLsbD 26 = false → d.releasing = true → e.releasing = false ∧ e.ctl.getLsbD 25 = false))) ∧
  (∀ s : State, ∃ t, exec .fsyncInPulse s = .next t ∧ ∀ n, n < s.heads.length →
    let d := s.head n
    let e := t.head n
    let after := ∃ t0, d.awaits = some t0 ∧ s.cycle ≤ t0 + Config.lineCycles
    (d.ctl.getLsbD 30 = false → e = d) ∧
    (d.ctl.getLsbD 30 = true →
      (after → e.lockedFrames = min 2 (d.lockedFrames + 1) ∧ (e.ctl.getLsbD 28 = true ↔ 1 ≤ d.lockedFrames) ∧ e.awaits = none) ∧
      (¬ after → e.fsyncAt = some s.cycle ∧ e.awaits = none ∧
        (d.awaits = none → e = { d with fsyncAt := some s.cycle }) ∧
        (d.awaits ≠ none → e.lockedFrames = 0 ∧ e.ctl.getLsbD 28 = false)))) ∧
  (∀ (s : State) (f : BitVec 64), ∃ t v, exec (.budgetGrant f) s = .next t ∧ t.budget = bits f.toNat 27 8 ∧
    t.lastGrant = some s.cycle ∧ t.demand = s.demand ++ [v] ∧ v.extractLsb' 0 8 = f.extractLsb' 0 8 ∧ t.regs = s.regs) ∧
  (∀ (s : State) (pbase : BitVec 32), ∃ t, exec (.budgetTick pbase) s = .next t ∧ 6 ≤ t.regs.pool ∧ t.regs.pool ≤ 384 ∧
    (s.regs.tokmw ≠ 0 → t.regs.pool = min 384 (max 6 ((s.budget - pbase.toNat) / s.regs.tokmw.toNat)))) ∧
  ∀ (s : State) (t0 : Nat), s.lastGrant = some t0 →
    (t0 + 3 * Config.cyclesPerMs ≤ s.cycle → exec .grantTimeout s = .next { s with budget := s.regs.budgetsafe.toNat }) ∧
    (s.cycle < t0 + 3 * Config.cyclesPerMs → exec .grantTimeout s = .next s)

/-- R275, R277, R246, R243, R106, R252, R257-R260, R83: the array, the attempts of a pass, and the draft unit. A core's candidate is the tile
that keeps the array between its layers, else one already chosen, else the oldest request; it gets the array and its first gear's tokens
together, where they are free. A tile's later layer leaves a candidate already chosen in its place. An attempt that breaks its budget below the gear's ceiling is squashed and made again one gear up;
otherwise every output is added to the accumulators once, and the array and the tokens are returned. A row joins the open tile of its
context and network, at most 128 to a tile and none 512 cycles after its first row, else it opens one; each tile that has formed reads its network,
a layer that is not the last is followed by the next in the same array, and the last layer's outputs are its rows' results. The model's own
choices: a .QS request is ready once it lacks no row (DESIGN CHOICE, assumption 97), an attempt reads its bytes as they stand at its end
(DESIGN CHOICE, assumption 105), the descriptor of a tile and the row at cycle 512 (DESIGN CHOICE, assumption 103), and a read of a
network that fails or waits is the first to do so (DESIGN CHOICE, assumption 106). -/
def Obligations.ArrayAndDraft : Prop :=
  ∀ (s : State) (core : BitVec 6), core.toNat < s.cores.length →
    let c := core.toNat
    let k := s.core c
    (chosen s c = none → exec (.arrayGrant core) s = .next s) ∧
    (∀ r, chosen s c = some r →
      r ∈ candidates s c ∧ ((∃ q ∈ candidates s c, q.holds = true) → r.holds = true) ∧
      ((∀ q ∈ candidates s c, q.holds = false) → k.chosen = none → ∀ q ∈ candidates s c, r.stamp ≤ q.stamp) ∧
      ((∀ q ∈ candidates s c, q.holds = false) → ∀ p, k.chosen = some p → (∃ q ∈ candidates s c, (q.holder, q.stamp) = p) →
        (r.holder, r.stamp) = p) ∧
      (grantable s c r = false → exec (.arrayGrant core) s = .next s) ∧
      (grantable s c r = true → r.need ≤ tokensFree s ∧ r.ready = true ∧ (r.holds = true ∨ k.array = none) ∧
        ∃ t, exec (.arrayGrant core) s = .next t ∧ (t.core c).array = some r.holder ∧ (t.core c).tokens = r.need ∧ t.mem = s.mem ∧
          (t.core c).chosen = (if r.holds then k.chosen else none) ∧ t.groups = s.groups ∧ t.regs = s.regs ∧
          (r.holder < 8 → ∀ b p, s.block? ⟨core, BitVec.ofNat 3 r.holder⟩ = some b → b.seq.pass = some p →
            ∃ b', t.block? b.ref = some b' ∧ SameBlock b b' ∧
              b'.seq.pass = some { p with granted := true, tokens := r.need, start := s.cycle, attempts := 1 }) ∧
          (r.holder = 8 → ∀ (i : Nat) (d : DraftTile) (u : TileRun),
            (if r.holds then activeTile k else nextTile k) = some (i, d) → d.run = some u →
            ∃ d', (t.core c).tiles[i]? = some d' ∧ d'.run = some { u with granted := true, start := s.cycle, attempts := 1 }))) ∧
    (k.array = none → exec (.attemptEnd core) s = .next s) ∧
    (∀ n b p, k.array = some n → n < 8 → s.block? ⟨core, BitVec.ofNat 3 n⟩ = some b → b.seq.pass = some p →
      let m := mmaOf p.word
      let early := p.granted = false ∨ s.cycle < p.start + attemptCycles m.rows p.gear
      let a := attemptAt (passData b p) p.gear m.rows 128
      let again := a.passes p.budget = true ∧ p.gear < p.ceil
      (early → exec (.attemptEnd core) s = .next s) ∧
      (¬ early → again → ∃ t b', exec (.attemptEnd core) s = .next t ∧ (t.core c).tokens = gearTokens (p.gear + 1) ∧
        (t.core c).array = some n ∧ t.mem = s.mem ∧ t.block? b.ref = some b' ∧ SameBlock b b' ∧ b'.seq.mpc = b.seq.mpc ∧
        b'.seq.pass = some { p with gear := p.gear + 1, attempts := p.attempts + 1, tokens := gearTokens (p.gear + 1), start := s.cycle }) ∧
      (¬ early → ¬ again → ∃ t b', exec (.attemptEnd core) s = .next t ∧ (t.core c).tokens = 0 ∧ (t.core c).array = none ∧ t.mem = s.mem ∧
        t.groups = s.groups ∧ t.block? b.ref = some b' ∧ b'.seq.pass = none ∧ b'.lock = none ∧ b'.seq.mpc = (b.seq.redo.head?).getD (b.seq.mpc + 12) ∧
        SameBlock { b with acc := b'.acc } b' ∧
        (∀ i j, i < m.rows → j < 128 → b'.acc.get (128 * (m.arow + i) + j) =
          a96Add (if m.z then 0 else b.acc.get (128 * (m.arow + i) + j)) ((a.out.getD i []).getD j .zero)) ∧
        (∀ n, n < 128 * m.arow ∨ 128 * (m.arow + m.rows) ≤ n → b'.acc.get n = b.acc.get n) ∧
        b'.seq.last.toNat % 2 ^ 16 = a.can ∧ bits b'.seq.last.toNat 31 16 = a.und ∧ bits b'.seq.last.toNat 47 32 = a.sat)) ∧
    (∀ (i : Nat) (d : DraftTile) (u : TileRun), k.array = some 8 → activeTile k = some (i, d) → d.run = some u →
      let a := attemptAt (layerData u) u.gear u.x.length (u.now.outw + 1)
      let early := u.granted = false ∨ s.cycle < u.start + attemptCycles u.rows u.gear
      (early → exec (.attemptEnd core) s = .next s) ∧
      (¬ early → a.passes u.net.budget = true → u.gear ≠ bits u.net.gears.toNat 1 0 → ∃ t d', exec (.attemptEnd core) s = .next t ∧
        (t.core c).tokens = gearTokens (u.gear + 1) ∧ t.mem = s.mem ∧ t.groups = s.groups ∧ (t.core c).tiles[i]? = some d' ∧
        d'.run = some { u with gear := u.gear + 1, attempts := u.attempts + 1, start := s.cycle }) ∧
      (¬ early → ¬ (a.passes u.net.budget = true ∧ u.gear ≠ bits u.net.gears.toNat 1 0) → u.layer + 1 < u.net.layers.length →
        ∃ t d', exec (.attemptEnd core) s = .next t ∧ (t.core c).tokens = 0 ∧ (t.core c).array = some 8 ∧ t.mem = s.mem ∧
          t.groups = s.groups ∧ (t.core c).tiles[i]? = some d' ∧ d'.run = some { u with
            x := layerOut u.now u.x.length a.out, layer := u.layer + 1, gear := firstGear u.net.gears, attempts := 0, stamp := s.cycle, granted := false }) ∧
      (¬ early → ¬ (a.passes u.net.budget = true ∧ u.gear ≠ bits u.net.gears.toNat 1 0) → u.net.layers.length ≤ u.layer + 1 →
        ∀ (r : DraftRow) (n : NevalWord) (g : Group), d.rows = [r] → r.dropped = false → r.g.core = core → r.t < 32 → k.nevals = [n] →
          n.g = r.g → n.word = r.word → n.waiting = threadBit r.t → n.held = [] → n.failed = 0 → s.group? r.g = some g →
          ∃ t h, exec (.attemptEnd core) s = .next t ∧ (t.core c).array = none ∧ (t.core c).tokens = 0 ∧ t.mem = s.mem ∧
            (t.core c).tiles = k.tiles.eraseIdx i ∧ (t.core c).nevals = [] ∧ t.group? r.g = some h ∧ SameRegs { g with v := h.v } h ∧
            ∀ m, m ≤ bits r.word.toNat 35 32 → h.readV (bits r.word.toNat 67 60 + m) r.t =
              if m ≤ u.now.outw then ((layerOut u.now u.x.length a.out).getD 0 []).getD m 0 else 0)) ∧
    ((∀ r ∈ k.rowsWait, r.wait.isSome = true) → ∃ t, exec (.tileWindowClose core) s = .next t ∧ t = { s with cores := t.cores } ∧
      ∀ (j : Nat) (d : DraftTile), ((k.rowsIn.filter fun r => r.at' < s.cycle).foldl joinTile k).tiles[j]? = some d → (t.core c).tiles[j]? =
        some (if d.formed = none ∧ d.opened + 512 ≤ s.cycle then { d with formed := some (d.opened + 512) } else d)) ∧
    (∀ r : DraftRow,
      let open' := fun (d : DraftTile) => d.ctx = r.ctx ∧ d.handle = r.handle ∧ d.formed = none ∧ r.at' < d.opened + 512
      ((∀ d ∈ k.tiles, ¬ open' d) → (joinTile k r).tiles[k.tiles.length]? = some ⟨r.ctx, r.handle, r.desc, r.at', none, [r], none, [], false⟩) ∧
      ∀ (j : Nat) (d : DraftTile), k.tiles[j]? = some d → open' d →
        (joinTile k r).tiles[j]? = some { d with rows := d.rows ++ [r], formed := if 128 ≤ d.rows.length + 1 then some r.at' else none }) ∧
    let arrived := ∀ r ∈ k.rowsIn, s.cycle ≤ r.at'
    (arrived → exec (.draftTileRun core) s = .next ((unreadTiles k).foldl (fun u d => readTile u c d) s)) ∧
    (∀ (i : Nat) (d : DraftTile), k.tiles.findIdx? (· = d) = some i →
      let s' := keepPlace s c d
      s' = { s with cores := s'.cores } ∧
      (d.fatal = true → readTile s c d = failTile s' c i d 3) ∧
      (d.fatal = false → ∀ s1 : State,
        (∀ sub, readNet s' d.ctx c d.desc = (s1, .fail sub) → readTile s c d = failTile s1 c i d sub) ∧
        (∀ ids, readNet s' d.ctx c d.desc = (s1, .wait ids) → ∃ t, readTile s c d = t ∧ t = { s1 with cores := t.cores } ∧
          ∀ d', (s1.core c).tiles[i]? = some d' → (t.core c).tiles[i]? = some { d' with wait := ids }) ∧
        ∀ net : Net, readNet s' d.ctx c d.desc = (s1, .ok net) → ∃ t, readTile s c d = t ∧ t = { s1 with cores := t.cores } ∧
          ∀ d', (s1.core c).tiles[i]? = some d' → ∃ e u, (t.core c).tiles[i]? = some e ∧ e.run = some u ∧ u.net = net ∧ u.layer = 0 ∧ u.granted = false ∧
            u.gear = firstGear net.gears ∧ u.x = d.rows.map fun r => rowFeatures r net.nin))

/-- The kind of a command event (R216). -/
def Sys2Proof.Machine.cmdEvents (c : CmdRef) : List (Instr × Nat) := [(.nop c, 0), (.copy c, 1), (.fill c, 2), (.link c, 3), (.wait c, 4)]

/-- R216-R219: a command of a chain that its engine may perform: one that fails its checks has status 1; a NOP and a LINK succeed; a
WAIT succeeds once the timeline it names has reached its value, a copy engine's then acquiring at that timeline's scope; a COPY or a FILL has the status of its movement, or goes on
later with the accesses that remain. -/
def Sys2Proof.Machine.chainRule : Prop :=
  ∀ (s : State) (r : EngineRef) (n : Nat) (x : EngineCtx) (k : Cmd) (w : Slot64), s.engine? r = some x → x.stopped = false →
    x.halted = false → engineServes s r.engine.toNat = true → engineBegins s x n = true → n ≤ x.tail.toNat → x.cmd? n = some k →
    k.performed = false → k.park = none → k.entry = some w → ∀ i kind, (i, kind) ∈ cmdEvents (.chain r n) →
    let c := entryOf w
    let ends := fun (s1 : State) (st : Nat) => ∃ t, exec i s = .next t ∧ t = { s1 with engines := t.engines } ∧
      ∀ y, s1.engine? r = some y → ∃ z j, t.engine? r = some z ∧ z.cmd? n = some j ∧ j.performed = true ∧ j.status = st ∧
        j.entry = some w ∧ z.timeline = y.timeline
    (c.ok true [] = false → ends s 1) ∧
    (c.ok true [] = true →
      (c.kind ≠ kind → exec i s = .next s) ∧
      (c.kind = kind → (kind = 0 ∨ kind = 3) → ends s 0) ∧
      (c.kind = kind → kind = 4 →
        (handleCtx s x.ctx (BitVec.ofNat 64 c.src) = none → ends s 2) ∧
        ∀ y, handleCtx s x.ctx (BitVec.ofNat 64 c.src) = some y →
          (y.timeline.toNat < c.dst → exec i s = .next s) ∧
          (c.dst ≤ y.timeline.toNat → ∃ s1, ends s1 0 ∧ s1 = { s with cores := s1.cores } ∧
            ∀ m, engineCore r = some m → y.acts ≠ 0 → (s1.core m).l1 = [] ∧ (s1.core m).cc = [])) ∧
      (c.kind = kind → (kind = 1 ∨ kind = 2) →
        (∀ s1 st, move s x.ctx (engineCore r) none c k.moved = .done s1 st → ends s1 st) ∧
        (∀ s1 m, move s x.ctx (engineCore r) none c k.moved = .later s1 m → ∃ t, exec i s = .next t ∧ t = { s1 with engines := t.engines } ∧
          ∀ y, s1.engine? r = some y → ∃ z, t.engine? r = some z ∧ z.cmd? n = some { k with moved := m } ∧ z.timeline = y.timeline) ∧
        ∀ (s1 s2 : State) (pa pb : Nat) (sa sb : Bool), s2.choices = [] → k.moved = ⟨[], [], false⟩ → c.count = 1 → c.dkind = 0 →
          (kind = 1 → c.skind = 0 ∧ enginePlaces s (engineCore r) x.ctx .read c.elem [BitVec.ofNat 64 c.src] = (s1, .ok [.mem pa sa])) →
          (kind = 2 → s1 = s) → enginePlaces s1 (engineCore r) x.ctx .write c.elem [BitVec.ofNat 64 c.dst] = (s2, .ok [.mem pb sb]) →
          (kind = 1 ∧ sa = true ∨ sb = true → engineReady s2 (engineCore r) true = true) →
          (kind = 1 → poisoned s2 pa c.elem = false) → (∀ a, engineCore r = some a → pendOverlap s2 a pb c.elem = false) →
          pb + c.elem ≤ physTop →
          let bs := if kind = 1 then placeBytes s2 (engineCore r) c.elem (.mem pa sa) else bytesOf c.elem c.src
          ∃ t, exec i s = .next t ∧ SameMemBut s2 t pb c.elem ∧ ∀ j, j < c.elem → memByte t (pb + j) = bs.getD j 0))

/-- R215, R81: a group's copy is performed by its core's engine and then completes. -/
def Sys2Proof.Machine.groupCopyRule : Prop :=
  ∀ (s : State) (g : GroupRef) (n : Nat) (k : GCopy), s.copies.find? (fun k => k.g = g && k.n = n) = some k →
    let c := entryOf k.entry
    let now := fun (t : State) => t.copies.find? fun k => k.g = g && k.n = n
    (∃ t, exec (.commandComplete (.copy g n)) s = .next t ∧ t = { s with copies := t.copies } ∧
      now t = some (if k.performed then { k with done := true } else k)) ∧
    (k.performed = false → k.park = none → engineServes s g.core.toNat = true →
      (c.kind = 0 → ∃ t, exec (.nop (.copy g n)) s = .next t ∧ t = { s with copies := t.copies } ∧
        now t = some { k with status := 0, performed := true, park := none }) ∧
      ∀ i kind s1 st, (i, kind) ∈ [(Instr.copy (.copy g n), 1), (.fill (.copy g n), 2)] → c.kind = kind →
        (∀ m, move s k.ctx (some g.core.toNat) (s.block? (blockOf g)) c k.moved = .later s1 m →
          ∃ t, exec i s = .next t ∧ t = { s1 with copies := t.copies } ∧ ∀ k1, now s1 = some k1 → now t = some { k1 with moved := m }) ∧
        (move s k.ctx (some g.core.toNat) (s.block? (blockOf g)) c k.moved = .done s1 st →
        ∃ t, exec i s = .next t ∧ t = { s1 with copies := t.copies } ∧
          ∀ k1, now s1 = some k1 → now t = some { k1 with status := st, performed := true, park := none }))

/-- R80, R69, R71, R219, R314, R78: the completion of a chain's command, and its tail. The timeline steps in order, each step a release at its
scope: a copy engine's waits while its core has writes that are not acknowledged. -/
def Sys2Proof.Machine.chainEndRule : Prop :=
  (∀ (s : State) (r : EngineRef) (n : Nat) (x : EngineCtx) (k : Cmd), s.engine? r = some x → x.stopped = false →
    x.cmds.find? (·.n = n) = some k → (∀ c ∈ x.cmds, c.n < 2 ^ 64) →
    let released' := ∀ m, engineCore r = some m → x.acts = 0 ∨ (s.core m).pend = []
    let steps := ∃ t y, exec (.commandComplete (.chain r n)) s = .next t ∧ t = { s with engines := t.engines } ∧
      t.engine? r = some y ∧ x.timeline.toNat ≤ y.timeline.toNat ∧ (released' → n = x.timeline.toNat + 1 → n ≤ y.timeline.toNat) ∧
      (¬ released' → y.timeline = x.timeline)
    (k.completed = false → k.performed = false ∨ k.park.isSome = true → exec (.commandComplete (.chain r n)) s = .next s) ∧
    (k.completed = true → steps) ∧
    (k.performed = true → k.completed = false → k.park = none →
      (k.status = 0 → steps) ∧
      ∀ (c : Ctx) (id : Nat), k.status ≠ 0 → s.ctx? x.ctx = some c → freeId c = some id → ∃ t d y, exec (.commandComplete (.chain r n)) s = .next t ∧
        t.mem = s.mem ∧ t.ctx? x.ctx = some d ∧ d.pending = c.pending ++ [⟨id, 5, 0, k.va, some (r, k.n)⟩] ∧
        d.posts = c.posts ++ [⟨5, 0, id, (engineAgent r).1, (engineAgent r).2, 0, k.va, BitVec.ofNat 64 (k.n * 256 + k.status)⟩] ∧
        t.engine? r = some y ∧ y.timeline = x.timeline)) ∧
  ∀ (s : State) (r : EngineRef) (x : EngineCtx) (v : BitVec 64), s.engine? r = some x →
    ∃ t, exec (.engineTailWrite r v) s = .next t ∧ t = { s with engines := t.engines } ∧
      t.engine? r = some { x with tail := if x.tail.toNat < v.toNat then v else x.tail }

/-- R78, R80, R81, R215-R219: the commands of engines. -/
def Obligations.EngineCommands : Prop := chainRule ∧ groupCopyRule ∧ chainEndRule

/-- The values of the integer operators of R284 that touch no store, by code, for operands a, b and c. -/
def Sys2Proof.Machine.cellValues (a b c : W32) : List (Nat × W32) :=
  [(0x01, a), (0x02, a + b), (0x03, a - b), (0x04, a * b), (0x05, a &&& b), (0x06, a ||| b), (0x07, a ^^^ b),
   (0x08, a <<< (b.toNat % 32)), (0x09, a >>> (b.toNat % 32)), (0x0A, a.sshiftRight (b.toNat % 32)),
   (0x0B, if a.toInt < b.toInt then a else b), (0x0C, if a.toInt < b.toInt then b else a), (0x0D, if a.toInt < b.toInt then 1 else 0),
   (0x0E, if a = b then 1 else 0), (0x0F, if c ≠ 0 then a else b)]

/-- R294, R288, R127: an island accepts the record with the lowest tag among those whose context's share has room, and none while a record of
its array waits on a fault; the thread of an ISUB.ISL is then served, and a TRACE waits no longer for its ray record. -/
def Sys2Proof.Machine.acceptRule : Prop :=
  ∀ (s : State) (n : BitVec 5),
    let i := s.island n.toNat
    let room := fun (r : IslandRecord) => shareUsed s n.toNat (tagCtx r.tag) < 64
    let held := i.state ≠ 2 ∨ ∃ r ∈ i.flight, r.wait.isSome = true ∨ r.due.isSome = true
    (held ∨ (∀ r ∈ i.input, ¬ room r) → exec (.islandAccept n) s = .next s) ∧
    ∀ (j : Nat) (r : IslandRecord), ¬ held → i.input[j]? = some r → room r →
      (∀ (j' : Nat) (r' : IslandRecord), i.input[j']? = some r' → room r' → r.tag.toNat ≤ r'.tag.toNat ∧ (r'.tag = r.tag → j ≤ j')) →
      ∃ t, exec (.islandAccept n) s = .next t ∧ t.mem = s.mem ∧ t.blocks = s.blocks ∧
        (t.island n.toNat).input = i.input.eraseIdx j ∧ (t.island n.toNat).flight = i.flight ++ [{ r with order := i.order }] ∧
        ∀ g, s.group? (tagGroup r.tag) = some g → ∃ h, t.group? g.ref = some h ∧ SameRegs g h ∧
          (r.ray = none → h.served.getLsbD (r.tag.extractLsb' 5 5).toNat = true ∧ h.traces = g.traces) ∧
          ∀ id, r.ray = some id → h.served = g.served ∧ (∀ w ∈ h.traces, id ∉ w.rays) ∧
            ∀ w ∈ g.traces, w.rays ≠ [] → id ∉ w.rays → w ∈ h.traces

/-- R284-R288: a pass of the only record of an array; where it is the last, its output words are the selected results. A cell's operator
gives the value of R284. A pass that meets a translation fault keeps what it has fired, and the record waits; a FATAL verdict discards
it with sub-code 5, and a discard within the pass with its own. That a pass which a fault parks keeps what it has fired is the model's own
choice (DEDUCED, assumption 43). -/
def Sys2Proof.Machine.islandPassRule : Prop :=
  ∀ (s : State) (n : BitVec 5) (img : Image) (r : IslandRecord),
    let k := n.toNat
    let i := s.island k
    i.image = some img → i.state = 2 → i.flight = [r] → r.wait = none → r.due = none →
    (r.fatal = true → exec (.islandPass n) s = .next (discardRecord s k r 5)) ∧
    (r.fatal = false → r.res = [] →
    (∀ s1 res, firePass k img r (List.range 64) s [] = .ok s1 res →
      let src := fun (code : Nat) => islandSource (s1.island k) r res none code
      ∃ t, exec (.islandPass n) s = .next t ∧ t.mem = s1.mem ∧ t.groups = s1.groups ∧
        (src (img.field 16 1) = 0 ∨ r.pass + 1 = img.maxpass → (t.island k).out = (s1.island k).out ++
          [{ r with out := some ((List.range (img.outw + 1)).map fun w => src (img.field (64 + w) 1)), fatal := false }]) ∧
        (src (img.field 16 1) ≠ 0 → r.pass + 1 ≠ img.maxpass → (t.island k).out = (s1.island k).out ∧
          ∀ x ∈ (t.island k).flight, x.order = r.order → x.pass = r.pass + 1)) ∧
    (∀ s1 sub, firePass k img r (List.range 64) s [] = .discard s1 sub → exec (.islandPass n) s = .next (discardRecord s1 k r sub)) ∧
    (∀ s1 f res, firePass k img r (List.range 64) s [] = .park s1 f res → ∃ t, exec (.islandPass n) s = .next t ∧ SameMem s1 t ∧
      t.groups = s1.groups ∧ ∀ x ∈ (t.island k).flight, x.order = r.order → x.res = res ∧ (x.wait.isSome = true ∨ x.due.isSome = true)) ∧
    let a := r.words.getD 0 0
    let b := r.words.getD 1 0
    let c := r.words.getD 2 0
    ∀ v, (img.opc 0, v) ∈ cellValues a b c → img.mode 0 = 0 → img.sel 0 0 = 64 → img.sel 0 1 = 65 → img.sel 0 2 = 66 →
      (∀ m, 0 < m → m < 64 → img.opc m = 0) → img.outw = 0 → img.field 64 1 = 0 → img.field 16 1 = 83 →
      ∃ t, exec (.islandPass n) s = .next t ∧ SameMem s t ∧ t.groups = s.groups ∧ t.blocks = s.blocks ∧
        (t.island k).out = i.out ++ [{ r with out := some [v], fatal := false }] ∧ (t.island k).flight = [])

/-- R295, R296, R223: the first record of the output buffer goes to the queue of its block, or to its ray. -/
def Sys2Proof.Machine.deliverRule : Prop :=
  ∀ (s : State) (n : BitVec 5) (img : Image) (r : IslandRecord) (rest : List IslandRecord),
    let i := s.island n.toNat
    i.image = some img → i.out = r :: rest → r.wait = none → inOrder i r = true →
    let left := fun (t : State) => (t.island n.toNat).out = i.out.filter (fun x => x.order ≠ r.order) ∧ t.mem = s.mem ∧ t.groups = s.groups
    (∀ id, r.close = false → r.ray = some id → ∃ t, exec (.islandDeliver n) s = .next t ∧ left t ∧
      ∀ y, s.rays.find? (·.id = id) = some y → t.rays.find? (·.id = id) = some { y with out := r.out }) ∧
    (r.close = true ∨ r.ray = none ∧ img.outkind = 0 →
      let e := if r.close then none else some (r.out.getD [])
      ((s.block? r.b).bind (fun b => islandQueue b r.port) = none → ∃ t, exec (.islandDeliver n) s = .next t ∧ left t ∧ t.blocks = s.blocks) ∧
      ∀ b q, s.block? r.b = some b → islandQueue b r.port = some q →
        (q.entries.length < 32 → ∃ t c p, exec (.islandDeliver n) s = .next t ∧ left t ∧ t.block? r.b = some c ∧
          islandQueue c r.port = some p ∧ p.entries = q.entries ++ [e] ∧ SameBlock b c) ∧
        (32 ≤ q.entries.length → rest = [] → exec (.islandDeliver n) s = .next s)) ∧
    (r.close = false → r.ray = none → img.outkind = 2 → ∃ t, exec (.islandDeliver n) s = .next t ∧ left t ∧ t.blocks = s.blocks)

/-- R228, R299: the shader table gives a ray its status. -/
def Sys2Proof.Machine.shaderTableRule : Prop :=
  (∀ (s : State) (n : BitVec 5), (∀ y ∈ s.rays, y.island = n.toNat → y.out.isSome = true → y.wait.isSome = true) →
    exec (.shaderTableLookup n) s = .next s) ∧
  ∀ (s : State) (n : BitVec 5) (y : Ray) (out : List W32),
    s.rays.find? (fun y => y.island = n.toNat && y.out.isSome && y.wait.isNone) = some y → y.out = some out →
    let kind := (out.getD 0 0).toNat
    let index := ((y.ctl.extractLsb' 16 16).setWidth 32 + out.getD 1 0).toNat
    let status := fun (s1 : State) (v : W32) => ∃ t, exec (.shaderTableLookup n) s = .next t ∧ SameMem s1 t ∧
      (∀ z ∈ t.rays, z.id ≠ y.id) ∧ ∀ h, s1.group? y.g = some h → t.group? y.g = some (h.writeV y.d y.t v)
    (2 ≤ kind → status s 5) ∧
    (kind < 2 → (s.ctx? y.ctx).any (fun x => x.desc.flags.getLsbD 3) = false → ∀ s1 bs, readVirt s y.ctx false y.table 4 = (s1, .ok bs) →
      (leNat bs ≤ index → status s1 3) ∧
      (index < leNat bs → ∀ s2 es, readVirt s1 y.ctx false (y.table + BitVec.ofNat 64 (64 + 32 * index)) 32 = (s2, .ok es) →
        (bits (leNat es) 63 0 = 0 → status s2 4) ∧
        (bits (leNat es) 63 0 ≠ 0 →
          (∀ s3, unitEnqueue s2 y.ctx 7 0 (bits (leNat es) 69 64) (hitRecord (leNat es) out) = .accepted s3 →
            status s3 (if kind = 1 then 1 else 2)) ∧
          ∀ s3, unitEnqueue s2 y.ctx 7 0 (bits (leNat es) 69 64) (hitRecord (leNat es) out) = .closed s3 → status s3 6)))

/-- R228, R284-R287, R294-R299: the events of islands and of the shader-table unit. -/
def Obligations.IslandEvents : Prop := acceptRule ∧ islandPassRule ∧ deliverRule ∧ shaderTableRule

/-- The loader events: the KIND of a request that each serves, and how it is served. -/
def Sys2Proof.Machine.loaderEvents : List (Instr × Nat × (State → LoadReq → Served)) :=
  [(.loadobj, 1, onContext loadObject), (.bindisl, 2, onContext bindIsland), (.relport, 3, onContext releasePort),
   (.attest, 4, onContext attestTo), (.genkey, 5, generateKey), (.keyinstall, 6, installKey), (.keyrevoke, 7, revokeKey)]

/-- R333-R335, R344, R345: the loader's requests. The engine serves the request at the head of system ring 0, one at a time: its code, with
bit 63 set, goes to the completion word, vector 1 is sent and HEAD moves on. A request that is malformed or of no kind has code 0x20, one
that names no context 0x21, and one that may not read its object 0x23; a slot with an uncorrectable error is logged and passed over. GENKEY, KEYINSTALL and KEYREVOKE change the keys; ATTEST writes the report; LCCHANGE goes forward only, and
then wipes memory and the keys and resets the device. The model's own choices: code 0x20 for a PORT at or past 64 and for the entries that
KEYINSTALL and KEYREVOKE refuse (DEDUCED, assumption 58), and a spoilt slot passed over, a spoilt nonce or blob code 0x23 (DEDUCED,
assumption 35). -/
def Obligations.LoaderRequests : Prop :=
  (∀ s : State, s.loadWait.isSome = true ∨ headSlot? s = none → ∀ i kind f, (i, kind, f) ∈ loaderEvents → exec i s = .next s) ∧
  ∀ (s : State) (pa : Nat), s.loadWait = none → headSlot? s = some pa →
    (poisoned s pa 64 = true → ∀ i kind f, (i, kind, f) ∈ loaderEvents → exec i s = .next (passRequest (logPoison s pa))) ∧
    (poisoned s pa 64 = false →
    let r := requestOf (memBytes s pa 64)
    let known := 1 ≤ r.kind ∧ r.kind ≤ 8
    let next := fun (g : Ring) => { g with head := g.head + 1 }
    let ends := fun (i : Instr) (s1 : State) (code : Nat) => ∃ t, exec i s = .next t ∧
      (s1.regs.msixMasked 1 = false → t.msix = s1.msix ++ [1]) ∧
      t.regs = { s1.regs with rings := listSet s1.regs.rings 0 (next (s1.regs.rings.getD 0 Ring.reset)), msixTable := t.regs.msixTable } ∧
      t.loadDead = false ∧ t.ctxs = s1.ctxs ∧ t.saveKeys = s1.saveKeys ∧ t.verify = s1.verify ∧ t.islands = s1.islands ∧
      (r.comp + 8 ≤ physTop → code < 2 ^ 63 → memNat t r.comp 8 = 2 ^ 63 + code ∧ SameMemBut s1 t r.comp 8)
    let keyed := fun (k : BitVec 256) => { s with saveKeys := (r.port, k) :: s.saveKeys.filter (·.1 ≠ r.port), fresh := s.fresh + 1 }
    let b := memBytes s r.addr.toNat Config.blobBytes
    let e := Config.blobEntry b
    let bad := poisoned s r.addr.toNat Config.blobBytes = true
    let good := fun (signer : Nat → Bool) => ¬ bad ∧ blobGood s b signer = true
    let unsigned := fun (signer : Nat → Bool) => ¬ bad ∧ blobGood s b signer = false
    let live := r.bad = false ∧ s.loadDead = false
    let any' := fun (_ : Nat) => true
    (∀ i kind f, (i, kind, f) ∈ loaderEvents →
      (known → r.kind ≠ kind → exec i s = .next s) ∧
      (¬ known ∨ r.kind = kind ∧ r.bad = true → ends i s 0x20) ∧
      (r.kind = kind → r.bad = false → s.loadDead = true → ends i s 0x23) ∧
      (r.kind = kind → live →
        let s' := allocateIn s 0 false pa 64
        (∀ s1 code, f s' r = .done s1 code → ends i s1 code) ∧
        (∀ s1 id, f s' r = .wait s1 id → ∃ t, exec i s = .next t ∧ t.mem = s1.mem ∧ t.regs = s1.regs ∧ t.msix = s1.msix) ∧
        (kind ≤ 4 → s.ctx? r.ctx = none → ends i s 0x21))) ∧
    (r.kind = 3 → live → ∀ x, s.ctx? r.ctx = some x →
      (64 ≤ r.port → ends .relport s 0x20) ∧ (r.port < 64 → (∀ p ∈ x.ports, p.port ≠ r.port) → ends .relport s 0x22)) ∧
    (r.kind = 4 → live → poisoned s r.addr.toNat 64 = true → (∃ x, s.ctx? r.ctx = some x) → ends .attest (logPoison s r.addr.toNat) 0x23) ∧
    (r.kind = 4 → live → poisoned s r.addr.toNat 64 = false → ∀ x, s.ctx? r.ctx = some x →
      let head := x.att ++ memBytes s r.addr.toNat 64 ++ bytesOf 1 x.id.toNat ++ bytesOf 7 0 ++ bytesOf 8 x.attN ++ bytesOf 16 Config.deviceId.toNat
      let report := head ++ bytesOf 29792 (Config.deviceSign head).toNat
      r.out + report.length ≤ physTop → r.comp + 8 ≤ physTop → (r.out + report.length ≤ r.comp ∨ r.comp + 8 ≤ r.out) →
      ∃ t, exec .attest s = .next t ∧ memNat t r.comp 8 = 2 ^ 63 ∧ ∀ k, k < report.length → memByte t (r.out + k) = report.getD k 0) ∧
    (r.kind = 5 → live → ∃ k, ends .genkey (keyed k) 0) ∧
    (r.kind = 6 → live →
      (bad → ends .keyinstall (logPoison s r.addr.toNat) 0x23) ∧ (unsigned any' → ends .keyinstall s 5) ∧
      (good any' → e < 16 ∨ 64 ≤ e → ends .keyinstall s 0x20) ∧
      (good any' → 16 ≤ e → e < 64 →
        ends .keyinstall { s with verify := listSet s.verify e ⟨true, (s.verify[e]?).any (·.revoked), Config.blobKey b⟩ } 0)) ∧
    (r.kind = 7 → live →
      (bad → ends .keyrevoke (logPoison s r.addr.toNat) 0x23) ∧ (unsigned any' → ends .keyrevoke s 5) ∧
      (good any' → s.verify[e]? = none → ends .keyrevoke s 0x20) ∧
      ∀ v, good any' → s.verify[e]? = some v → ends .keyrevoke { s with verify := listSet s.verify e { v with revoked := true } } 0) ∧
    let zero := fun (k : Nat) => decide (k = 0)
    let dest := Config.blobState b
    (known → r.kind ≠ 8 → exec .lcchange s = .next s) ∧
    (¬ known ∨ r.kind = 8 ∧ r.bad = true → ends .lcchange s 0x20) ∧
    (r.kind = 8 → live →
      (bad → ends .lcchange (logPoison s r.addr.toNat) 0x23) ∧ (unsigned zero → ends .lcchange s 5) ∧
      (good zero → dest ≤ s.lifeCycle.toNat ∨ 2 < dest → ends .lcchange s 0x20) ∧
      (good zero → s.lifeCycle.toNat < dest → dest ≤ 2 → ∃ t, exec .lcchange s = .next t ∧ t.lifeCycle = BitVec.ofNat 2 dest ∧
        t.saveKeys = [] ∧ t.groups = [] ∧ t.blocks = [] ∧ t.ctxs = [] ∧ t.rc = 0 ∧ t.powerImage = none ∧
        (r.comp + 8 ≤ physTop → memNat t r.comp 8 = 2 ^ 63 ∧
          ∀ a, a < gddrTop → (a < r.comp ∨ r.comp + 8 ≤ a) → memByte t a = 0))))

/-- R18, R25, R27, R41, R168, R212, R267-R269: a dispatch. With no candidate nothing changes; an aged candidate goes first, and nothing else while
it fits no core; otherwise the priority cycle serves a candidate, which becomes a block of a core that holds it and finds no line of an
earlier block in that core's L1 or constant cache. -/
def Sys2Proof.Machine.dispatchRule : Prop :=
  ∀ s : State,
    (agedCands s = [] → exec .candidateAged s = .next s ∧ (s.ctxs.flatMap (candsOf s) = [] → exec .dispatch s = .next s) ∧
      ∀ a s1, s.ctxs.flatMap (candsOf s) = [a] → a.prio < 8 → popCand s a = .dispatched s1 →
        ∃ n, n < 255 ∧ slotPriority n = a.prio ∧ exec .dispatch s = .next { s1 with dispSlot := n }) ∧
    (∀ key a rest, agedCands s = (key, .cand a) :: rest → ∀ i, i = Instr.dispatch ∨ i = Instr.candidateAged →
      (popCand s a = .noFit → exec i s = .next s) ∧ (∀ s1, popCand s a = .dispatched s1 → exec i s = .next s1) ∧
      ∀ (x : Ctx) (m : Member) (k : Kernel) (v : Nat) (y : Variant) (c : Nat) (ps : List Placed), s.ctx? a.ctx = some x → a.members = [m] →
        (m.slot.isSome = true → recordBad x m.record m.prio = false) → kernelOf x m.record = some k →
        chooseVariant s k (recVset m.record) = some (v, c, ps) → k.variants[v]? = some y →
        ∃ t b, exec i s = .next t ∧ b ∈ t.blocks ∧ b.ref.core = BitVec.ofNat 6 c ∧ b.ctx = x.id ∧ b.kernel = k ∧ b.variant = v ∧
          b.record = m.record ∧ b.seq.mpc = y.mentry ∧ b.seq.idle = !y.msec ∧ b.k.get 0 = BitVec.ofNat 64 (recFrame m.record) ∧
          b.k.get 1 = BitVec.ofNat 64 (recBidx m.record) ∧ b.k.get 2 = m.extent ∧ b.k.get 3 = m.record.extractLsb' 320 64 ∧
          b.k.get 6 = m.record.extractLsb' 256 64 ∧ (t.core c).l1 = [] ∧ (t.core c).cc = [] ∧
          ∀ j, j < ps.length → j < 32 → ∃ g ∈ t.groups, g.ref = ⟨b.ref.core, b.ref.bslot, BitVec.ofNat 5 j⟩ ∧ g.spc = y.sentry ∧
            g.lpc = y.lbase + BitVec.ofNat 52 (12 * y.lentry) ∧ g.vcnt = y.vcnt ∧ g.readS 31 = BitVec.ofNat 64 (y.priv - 32) ∧ g.v = [] ∧
            g.p = [] ∧ g.stack = [⟨1, 0, 0, 0xFFFFFFFF⟩])

/-- R20, R22: the oldest launch that is ready and names no table becomes a grid whose blocks are candidates, or is rejected with the
lowest code that applies, at its done counter. -/
def Sys2Proof.Machine.launchRule : Prop :=
  ∀ s : State, (readyLaunches s = [] → exec .launchExpand s = .next s) ∧
    ∀ (key : List Nat) (x : Ctx) (k : Slot) (h e : Slot64) rest (s1 : State) (va : W64), readyLaunches s = (key, x, k, h, e) :: rest →
      rf e 63 0 = 0 → rf e 127 64 = 0 → slotAddr s x.id k = (s1, .ok va) →
      let errs := launchErrors x k h e ⟨[], [], true, []⟩
      (errs = [] → (∃ y, s1.ctx? x.id = some y) → ∃ t y f, exec .launchExpand s = .next t ∧
        t.grids = s1.grids ++ [Grid.mk s1.nextGrid x.id []] ∧ t.nextGrid = s1.nextGrid + 1 ∧ t.blocks = s1.blocks ∧ t.ctx? x.id = some y ∧
        f ∈ y.expansions ∧ f.grid = s1.nextGrid ∧ f.head = h ∧ f.ext = e ∧ f.va = va ∧ f.next = 0 ∧ f.gangs = [] ∧ f.map = []) ∧
      (∀ a as (s2 : State) (pa : Nat) (pas : List Nat), errs = a :: as → extDone e ≠ 0 → (extDone e).toNat % 4 = 0 →
        spanOf (popSlot s1 x.id k) x.id .write false (extDone e) 4 = (s2, .ok (pa :: pas)) → pa + 4 ≤ physTop →
        ∃ t code, exec .launchExpand s = .next t ∧ code ∈ errs ∧ (∀ b ∈ errs, code ≤ b) ∧ SameMemBut s2 t pa 4 ∧
          t.grids = s2.grids ∧ (code < 2 ^ 31 → memNat t pa 4 = 2 ^ 31 + code))

/-- R265: a record's join counter is read again 76,800 cycles after its last read, also while its page waits: one that reads 0 makes the record
ready for good, and another does not. -/
def Sys2Proof.Machine.joinRule : Prop :=
  (∀ s : State, (∀ x ∈ s.ctxs, x.dones = [] ∧ ∀ k ∈ x.slots, k.ready.isSome = true ∨ k.popped = true ∨
      k.wait.isSome = true ∧ (k.read = none ∨ s.cycle < k.lastJoin + 76800) ∨
      k.read.isSome = true ∧ k.joinPa.isSome = true ∧ s.cycle < k.lastJoin + 76800) → exec .joinCounterReread s = .next s) ∧
  ∀ (s : State) (x : Ctx) (k : Slot) (r : Slot64) (s1 : State) (bs : List Byte), s.ctxs = [x] → x.dones = [] → x.slots = [k] →
    k.ready = none → k.popped = false → k.read = some r → (k.wait = none ∧ k.joinPa = none ∨ k.lastJoin + 76800 ≤ s.cycle) →
    recJoin r ≠ 0 → unitRead s x.id 7 0 (recJoin r) 4 = (s1, .ok bs) →
    ∃ t y j, exec .joinCounterReread s = .next t ∧ SameMem s1 t ∧ t.ctx? x.id = some y ∧ y.slots = [j] ∧ j.lastJoin = s1.cycle ∧ j.wait = none ∧
      j.ready = (if leNat bs = 0 then some s1.cycle else none) ∧ j.read = some r

/-- R271: a mark is set only where the dispatcher chooses to, with nothing waiting to be dispatched, or where the first of what waits that
fits no core fits once the blocks of a core have moved down: those of the core that needs the fewest marks. That a saved block counts with
the variant it was saved as is the model's own choice (DESIGN CHOICE, assumption 109). -/
def Sys2Proof.Machine.moveRule : Prop :=
  ∀ s : State,
    let ws := waitingAll s
    let some' := fun (w : Waiting) => ws.find? (·.stuck s) = some w
    (ws = [] →
      (upMark s = none ∨ s.choices = [] → exec .moveMark s = .next s) ∧
      ∀ r v n rest, upMark s = some (r, v) → s.choices = n :: rest → ∃ t, exec .moveMark s = .next t ∧
        t = { s with choices := rest, blocks := t.blocks } ∧
        ∀ b, s.block? r = some b → t.block? r = some (if n = 0 then b else { b with mark := some v })) ∧
    (ws ≠ [] → s.markOut = true ∨ (∀ w ∈ ws, w.stuck s = false) ∨ (∃ w, some' w ∧ downMarks s w = none) →
      exec .moveMark s = .next s) ∧
    (∀ w ms, downMarks s w = some ms → w.wouldFit (asMoved s ms) = true ∧ (∃ c, c < 64 ∧ ms = movable s c) ∧
      ∀ c, c < 64 → movable s c ≠ [] → w.wouldFit (asMoved s (movable s c)) = true → ms.length ≤ (movable s c).length) ∧
    ∀ w ms, s.markOut = false → some' w → downMarks s w = some ms → ∃ t, exec .moveMark s = .next t ∧
        t = { s with blocks := t.blocks, markOut := true } ∧
        (∀ r, (∀ p ∈ ms, p.1 ≠ r) → t.block? r = s.block? r) ∧
        ∀ p ∈ ms, ∀ b, s.block? p.1 = some b → ∃ v, (p.1, v) ∈ ms ∧ t.block? p.1 = some { b with mark := some v }

/-- R32: a block retires once every group has exited and nothing of it is still under way: its slot is free at once, and its done counter
falls by one once the writes of its core are acknowledged. -/
def Sys2Proof.Machine.retireRule : Prop :=
  ∀ (s : State) (b : Block), s.block? b.ref = some b → b.test = false →
    (retires s b = false → exec (.blockRetire b.ref) s = .next s) ∧
    (retires s b = true → (∀ g ∈ s.groups, blockOf g.ref = b.ref → g.exited = true) ∧ (b.seq.idle = true ∨ b.seq.stopped = true) ∧
      ∃ t, exec (.blockRetire b.ref) s = .next t ∧ t.block? b.ref = none ∧ (∀ g ∈ t.groups, blockOf g.ref ≠ b.ref) ∧
        (∀ r, r ≠ b.ref → t.block? r = s.block? r) ∧
        ∀ va sc, b.done = some (va, sc) → (∀ a ∈ b.pels, a.owed = false) → va.toNat % 4 = 0 →
          let n := b.ref.core.toNat
          ((s.core n).pend = [] → ∀ s2 pa, unitAtomic (removeBlock (postFailures s b) b.ref) b.ctx 7 0 va = (s2, .ok pa) → pa + 4 ≤ physTop →
            memNat t pa 4 = (memNat s2 pa 4 + 2 ^ 32 - 1) % 2 ^ 32 ∧ SameMemBut s2 t pa 4) ∧
          ((s.core n).pend ≠ [] → (∃ x, s.ctx? b.ctx = some x) → ∃ y, t.ctx? b.ctx = some y ∧
            DoneWrite.mk va none 0 none (some n) false ∈ y.dones))

/-- R18-R32, R263-R271: the events of the dispatcher. -/
def Obligations.DispatcherEvents : Prop := dispatchRule ∧ launchRule ∧ joinRule ∧ moveRule ∧ retireRule

/-- Reset (R304, R328, R341, R343, R348): every store, cache and queue wiped, no context bound, memory listing nothing; the registers whose
Reset column gives a value read it. The values of other fields at reset are the model's choices (assumptions 1 to 6). -/
def Obligations.ResetState : Prop :=
  let s := State.reset
  s.Ok ∧ s.mem = [] ∧ s.groups = [] ∧ s.blocks = [] ∧ (∀ c, ctxState s c = .undefined) ∧ s.tlb = [] ∧ s.lines = [] ∧ s.saveKeys = [] ∧
  s.engines = [] ∧ s.copies = [] ∧ s.msix = [] ∧
  (∀ n, n < 64 → (s.core n).inService = true ∧ (s.core n).pend = [] ∧ (s.core n).l1 = [] ∧ (s.core n).cc = [] ∧ (s.core n).icache = [] ∧ (s.core n).tlb = [] ∧
    (s.core n).array = none ∧ (s.core n).tokens = 0) ∧
  (∀ n, n < 32 → (s.island n).state = 0 ∧ (s.island n).image = none ∧ (s.island n).cells = [] ∧ (s.island n).input = [] ∧ (s.island n).out = []) ∧
  (∀ n, n < 16 → ((s.verify[n]?).any (·.valid)) = true) ∧ (∀ n, 16 ≤ n → n < 64 → s.verify[n]? = some ⟨false, false, 0⟩) ∧
  (∀ h, h < 4 → readReg s (0x20000 + 0x100 * h) = 0 ∧ (s.head h).muxsel = false) ∧
  readReg s 0x1000 = 128 * 2 ^ 16 + 128 ∧ readReg s 0x1008 = 500 * 2 ^ 16 ∧ readReg s 0x3008 = 0 ∧ readReg s 0x4000 = 0x8000FFFF ∧
  (∀ n, 0 < n → n < 16 → readReg s (0x4000 + 4 * n) = 0) ∧ readReg s 0x50010 = 0 ∧ s.power = .d0

/-- The invariant of memory (the model's own canonical form) is kept by every step, from any state that has it. -/
def Obligations.StepKeepsOk : Prop :=
  ∀ s t : State, s.Ok → step s = .next t → t.Ok

/-- Every state steps: no word, operation or event ends in a fault or a refusal, whatever the state, on the streams it can be met on
(R13, R124: bits that name no instruction are a cause, taken as such). -/
def Obligations.StepAlwaysNext : Prop :=
  ∀ s : State, ∃ t, step s = .next t

/-- R108-R124: decoding what the encoder writes for a well-formed instruction gives that instruction, with every operand at every value
the encoding admits; every instruction of a stream has an encoding. What the decoder of a stream accepts is well-formed, belongs to that
stream, and is encoded by exactly the word it was read from: no bit of a word is dropped, but for the low half of a REPLAY, which is
checked where the word can have an effect, in loop-buffer mode (R324). -/
def Obligations.EncodeDecode : Prop :=
  (∀ i : Instr, (∀ n w, i.wf = true → encode i = some (n, w) → decodeTableWord n w = some i) ∧ (encode i = none ↔ streamOf i = none)) ∧
  ∀ (w : BitVec 32) (v : BitVec 96) (i : Instr),
    (decodeScalar w = .ok i → i.wf = true ∧ streamOf i = some .scalar ∧
      (encode i = some (32, w.toNat) ∨ replayLow w = false ∧ ∃ d a, i = .replay d a)) ∧
    (decodeLane v = .ok i → i.wf = true ∧ encode i = some (96, v.toNat) ∧ streamOf i = some .lane) ∧
    (decodeMatrix v = .ok i → i.wf = true ∧ encode i = some (96, v.toNat) ∧ streamOf i = some .matrix)

/-- R108-R113: words written out from the encodings of the manual, and the instructions they stand for. -/
def Obligations.DecodedWords : Prop :=
  decodeTableWord 32 0x08A40040 = some (.addImmediate 5 4 0x40) ∧ decodeTableWord 32 0x20A0FFFE = some (.movi 5 0xFFFE) ∧
  decodeTableWord 32 0x24A21234 = some (.movhi 5 2 0x1234) ∧ decodeTableWord 32 0x98800028 = some (.lrun 4 0x28) ∧
  decodeTableWord 32 0x70E40550 = some (.stOrdered 7 4 0 .n32 .rel 5) ∧ decodeTableWord 32 0xC5200050 = some (.cclose 9 5) ∧
  decodeTableWord 32 0xD4004050 = some (.fenceAr 5) ∧ decodeTableWord 32 0xF0003000 = some .exit ∧
  decodeTableWord 32 0xF0000021 = some (.syscall 0x21) ∧
  decodeTableWord 96 0x08E42410A03F905000000006 = some (.ffma ⟨0, true, 7, 0x41, 10, 3, 249, 5, 0, 6⟩) ∧
  decodeTableWord 96 0x0000100040102FE000000000 = some (.iadd ⟨0, false, 0, 0, 4, 1, 2, 254, 0, 0⟩) ∧
  decodeTableWord 96 0x30EC0200CF902FE000004004 = some (.laneLd ⟨3, false, 7, 0x20, 12, 249, 2, 254, 0, 0x4004⟩) ∧
  decodeTableWord 96 0x00058601408FEFE000000800 = some (.cvt ⟨0, false, 0, 0x60, 20, 8, 254, 254, 0, 0x800⟩) ∧
  decodeTableWord 96 0x000CC00FEF9FEFE000004006 = some (.cpy ⟨0, false, 0, 0, 254, 249, 254, 254, 0, 0x4006⟩) ∧
  decodeTableWord 96 0x001804004FC047F020000000 = some (.mma ⟨0, false, 0, 0x40, 4, 252, 4, 127, 0, 0x20000000⟩)

/-- A group's stream may execute its next word: the group is live and is held by no debugger, waits for no trap entry and re-injects nothing, and
its context is not being saved. -/
def Sys2Proof.Machine.StreamFree (s : State) (g : Group) (b : Block) : Prop :=
  s.group? g.ref = some g ∧ s.block? (blockOf g.ref) = some b ∧ g.exited = false ∧ g.hold = .run ∧ g.stopReq = false ∧ g.pend = none ∧
  g.replay = [] ∧ g.redirect = [] ∧ (b.test = true ∨ (s.ctx? g.ctx).any (·.saving) = false)

/-- R13, R108, R273, R274: a turn of a scalar unit tries the groups of its scheduler in the order of R274 (kept within R29's bound where the two rules part: DESIGN CHOICE, assumption 94), and of one
that may execute it runs the instruction that the bytes at SPC decode to; a word that issues is the only one of the turn, and a group that could issue none
loses its ready stamp. -/
def Sys2Proof.Machine.scalarTurnRule : Prop :=
  (∀ (s : State) (rest : List Turn) (c : BitVec 6) (d : BitVec 2), s.agenda = .scalar c d :: rest → s.power = .d0 → s.booted = true →
    let u := { s with agenda := rest, issued := false }
    step s = runScalar u false (scalarGroups u c.toNat d.toNat)) ∧
  (∀ (s : State) (done : Bool), runScalar s done [] = .next { s with issued := done }) ∧
  ∀ (s s1 t : State) (done : Bool) (after : List GroupRef) (g : Group) (b : Block) (bs : List Byte) (i : Instr),
    let u := clearLeft { s with issued := false } g.ref
    StreamFree u g b → g.parkS = none → (b.test = true ∨ g.trapm = true ∨ g.blockedS = true ∨ g.skipbp = some g.spc ∨ breakAt u g.ctx 1 g.spc = false) →
    fetchCode u b.test g.ctx g.ref.core.toNat (some (g.lane.toNat / 32)) g.spc 4 = (s1, .ok bs) → pairsWith s1 g (word32 bs) = true →
    decodeScalar (word32 bs) = .ok i →
    (∀ x y, i = .replay x y → b.test = false ∨ (s1.core g.ref.core.toNat).loopMode = false ∨ replayLow (word32 bs) = true) →
    exec i { s1.modGroup g.ref (fun g => g.setWord .scalar (word96 bs)) with cur := .scalar g.ref, selfRefresh := false } = .next t →
    let v := { t with cur := .none }
    (t.issued = true → runScalar s done (g.ref :: after) = runScalar (if done then s else v) true after) ∧
    (t.issued = false → runScalar s done (g.ref :: after) = runScalar (notReady v g.ref) done after)

/-- R13, R108, R205, R273, R324: a turn of a lane tries its groups from the lane's pointer upward until a word of one has issued; of one that may
execute it runs the instruction that the bytes at LPC of the run at the head of the queue decode to, or that a loop buffer holds there. -/
def Sys2Proof.Machine.laneTurnRule : Prop :=
  (∀ (s : State) (rest : List Turn) (c : BitVec 6) (l : BitVec 7), s.agenda = .lane c l :: rest → s.power = .d0 → s.booted = true →
    let u := { s with agenda := rest, issued := false }
    step s = runLane u (laneGroups u c.toNat l.toNat)) ∧
  (∀ s : State, runLane s [] = .next s) ∧
  ∀ (s s1 t : State) (after : List GroupRef) (g : Group) (b : Block) (bs : List Byte) (i : Instr),
    let h := g.startRun
    let s0 := clearLeft s g.ref
    let u := rescan (s0.modGroup g.ref fun _ => h) h
    StreamFree s0 g b → g.parkL = none → g.queue ≠ [] → (g.trapm = true ∨ g.held = none) →
    (b.test = true ∨ g.trapm = true ∨ h.blockedL = true ∨ h.fenced = true ∨ h.skipbpL = some h.lpc ∨ breakAt u g.ctx 2 h.lpc = false) →
    (match h.loopWord with
      | some w => (u, Except.ok (bytesOf 12 w.toNat))
      | none => fetchCode u b.test g.ctx g.ref.core.toNat (some (g.lane.toNat / 32)) h.lpc 12) = (s1, .ok bs) → decodeLane (word96 bs) = .ok i →
    exec i { s1.modGroup g.ref (fun g => g.setWord .lane (word96 bs)) with cur := .lane g.ref, selfRefresh := false } = .next t →
    let v := { t with cur := .none }
    (t.issued = true → runLane s (g.ref :: after) = .next v) ∧ (t.issued = false → runLane s (g.ref :: after) = runLane v after)

/-- R13, R108, R243: a turn of a sequencer runs the instruction that the bytes at MPC decode to, or the .QS pass that still takes its rows. -/
def Sys2Proof.Machine.matrixTurnRule : Prop :=
  ∀ (s t : State) (rest : List Turn) (b : Block) (i : Instr),
    let u := { s with agenda := rest, issued := false }
    s.agenda = .matrix b.ref :: rest → s.power = .d0 → s.booted = true → s.block? b.ref = some b →
    (b.test = true ∨ (s.ctx? b.ctx).any (·.saving) = false) → b.seq.idle = false → b.seq.halted = false → b.seq.stopped = false →
    b.seq.ready ≤ s.cycle → b.seq.park = none →
    let runs := fun (v : State) => exec i { v with cur := .matrix b.ref, selfRefresh := false } = .next t → step s = .next { t with cur := .none }
    (∀ s1 bs, b.seq.pass = none → (b.test = true ∨ b.seq.skipbp = true ∨ breakAt s b.ctx 3 b.seq.mpc = false) →
      fetchCode u b.test b.ctx b.ref.core.toNat none b.seq.mpc 12 = (s1, .ok bs) → decodeMatrix (word96 bs) = .ok i →
      runs (s1.modBlock b.ref fun b => { b with seq := { b.seq with word := word96 bs } })) ∧
    ∀ p, b.seq.pass = some p → (mmaOf p.word).src = 2 → decodeMatrix p.word = .ok i → runs u

/-- R13, R108: a step runs the instruction that the bytes at its stream's counter decode to; an event is run as it is. Nothing executes after
the word. -/
def Obligations.StepRunsDecoded : Prop :=
  scalarTurnRule ∧ laneTurnRule ∧ matrixTurnRule ∧
  ∀ (s t : State) (rest : List Turn) (i : Instr), s.agenda = .event i :: rest → s.power = .d0 → s.booted = true → isEvent i = true →
    exec i { s with agenda := rest, issued := false, cur := .none } = .next t → step s = .next { t with cur := .none }
end

