-- ==== Sys2Proof/Laws/Sparse.lean ====
section
/-! SUPPORT. Sparse stores: a read after a write, the canonical form kept by every operation, and the same of memory. -/

namespace Sys2Proof

namespace Sparse

variable {w : Nat}

theorem get_drop (m : Sparse w) (k j : Nat) : (m.drop k).get j = if j = k then 0 else m.get j := by
  induction m with
  | nil => simp [drop, get]
  | cons c r ih =>
    obtain ⟨a, x⟩ := c
    by_cases h : a = k
    · subst h
      by_cases hj : j = a
      · subst hj; simpa [drop] using ih
      · simp [drop, get, ih, hj, Ne.symm hj]
    · by_cases hj : j = k
      · subst hj; simp [drop, get, h, ih]
      · simp [drop, get, h, ih, hj]

theorem mem_drop {m : Sparse w} {k : Nat} {c : Nat × BitVec w} (h : c ∈ m.drop k) : c.1 ≠ k := by
  induction m with
  | nil => simp [drop] at h
  | cons d r ih =>
    obtain ⟨a, x⟩ := d
    by_cases ha : a = k
    · simp [drop, ha] at h; exact ih h
    · simp [drop, ha] at h
      rcases h with h | h
      · subst h; exact ha
      · exact ih h

theorem get_ins (m : Sparse w) (k j : Nat) (v : BitVec w) (h : ∀ c ∈ m, c.1 ≠ k) :
    (m.ins k v).get j = if j = k then v else m.get j := by
  induction m with
  | nil =>
    by_cases hj : j = k
    · subst hj; simp [ins, get]
    · simp [ins, get, hj, Ne.symm hj]
  | cons d r ih =>
    obtain ⟨a, x⟩ := d
    have ha : a ≠ k := h (a, x) (by simp)
    have ih := ih fun c hc => h c (by simp [hc])
    by_cases hlt : k < a
    · by_cases hj : j = k
      · subst hj; simp [ins, hlt, get]
      · simp [ins, hlt, get, hj, Ne.symm hj]
    · by_cases hj : j = k
      · subst hj; simp [ins, hlt, get, ha, ih]
      · simp [ins, hlt, get, ih, hj]

/-- A read after a write. -/
theorem get_set (m : Sparse w) (k j : Nat) (v : BitVec w) : (m.set k v).get j = if j = k then v else m.get j := by
  unfold set
  split
  · rename_i h; subst h; exact get_drop m k j
  · rw [get_ins _ _ _ _ fun c hc => mem_drop hc, get_drop]
    split <;> rfl

@[simp] theorem get_set_same (m : Sparse w) (k : Nat) (v : BitVec w) : (m.set k v).get k = v := by simp [get_set]
theorem get_set_ne (m : Sparse w) {k j : Nat} (v : BitVec w) (h : j ≠ k) : (m.set k v).get j = m.get j := by simp [get_set, h]

theorem wfFrom_mono {m : Sparse w} {lo lo' : Nat} (h : wfFrom lo m = true) (hl : lo' ≤ lo) : wfFrom lo' m = true := by
  cases m with
  | nil => rfl
  | cons c r =>
    simp only [wfFrom, Bool.and_eq_true, decide_eq_true_eq] at h ⊢
    exact ⟨⟨by omega, h.1.2⟩, h.2⟩

theorem wfFrom_drop {m : Sparse w} {lo : Nat} (k : Nat) (h : wfFrom lo m = true) : wfFrom lo (m.drop k) = true := by
  induction m generalizing lo with
  | nil => rfl
  | cons c r ih =>
    obtain ⟨a, x⟩ := c
    simp only [wfFrom, Bool.and_eq_true, decide_eq_true_eq] at h
    by_cases ha : a = k
    · simp only [drop, ha, if_true]; exact wfFrom_mono (ih h.2) (by omega)
    · simp only [drop, ha, if_false, wfFrom, Bool.and_eq_true, decide_eq_true_eq]; exact ⟨h.1, ih h.2⟩

theorem wfFrom_ins {m : Sparse w} {lo k : Nat} {v : BitVec w} (h : wfFrom lo m = true) (hk : lo ≤ k) (hv : v ≠ 0)
    (hn : ∀ c ∈ m, c.1 ≠ k) : wfFrom lo (m.ins k v) = true := by
  induction m generalizing lo with
  | nil => simp [ins, wfFrom, hk]; simpa using hv
  | cons c r ih =>
    obtain ⟨a, x⟩ := c
    have ha : a ≠ k := hn (a, x) (by simp)
    simp only [wfFrom, Bool.and_eq_true, decide_eq_true_eq] at h
    by_cases hlt : k < a
    · simp only [ins, hlt, if_true, wfFrom, Bool.and_eq_true, decide_eq_true_eq]
      exact ⟨⟨hk, by simpa using hv⟩, ⟨⟨by omega, h.1.2⟩, h.2⟩⟩
    · simp only [ins, hlt, if_false, wfFrom, Bool.and_eq_true, decide_eq_true_eq]
      exact ⟨h.1, ih h.2 (by omega) fun c hc => hn c (by simp [hc])⟩

theorem wf_set {m : Sparse w} (k : Nat) (v : BitVec w) (h : m.wf = true) : (m.set k v).wf = true := by
  unfold set wf
  split
  · exact wfFrom_drop k h
  · rename_i hv; exact wfFrom_ins (wfFrom_drop k h) (Nat.zero_le _) hv fun c hc => mem_drop hc

theorem wf_write {m : Sparse w} (a : Nat) (l : List (BitVec w)) (h : m.wf = true) : (m.write a l).wf = true := by
  induction l generalizing m a with
  | nil => exact h
  | cons v r ih => exact ih (a + 1) (wf_set a v h)

theorem wfFrom_filter {m : Sparse w} {lo : Nat} (p : Nat × BitVec w → Bool) (h : wfFrom lo m = true) :
    wfFrom lo (m.filter p) = true := by
  induction m generalizing lo with
  | nil => rfl
  | cons c r ih =>
    simp only [wfFrom, Bool.and_eq_true, decide_eq_true_eq] at h
    by_cases hp : p c = true
    · simp only [List.filter, hp, wfFrom, Bool.and_eq_true, decide_eq_true_eq]; exact ⟨h.1, ih h.2⟩
    · simp only [List.filter, hp]; exact wfFrom_mono (ih h.2) (by omega)

theorem wf_filter {m : Sparse w} (p : Nat × BitVec w → Bool) (h : m.wf = true) : wf (m.filter p) = true := wfFrom_filter p h
theorem wf_clear {m : Sparse w} (lo n : Nat) (h : m.wf = true) : (m.clear lo n).wf = true := wf_filter _ h

/-- A read after a write of several cells. -/
theorem get_write (m : Sparse w) (a j : Nat) (l : List (BitVec w)) :
    (m.write a l).get j = if a ≤ j ∧ j < a + l.length then l.getD (j - a) 0 else m.get j := by
  induction l generalizing m a with
  | nil => rw [if_neg]; · rfl
           · exact fun h => Nat.not_lt_of_le h.1 h.2
  | cons v r ih =>
    simp only [write, ih, get_set, List.length_cons]
    by_cases h1 : j = a
    · subst h1
      have : ¬ (j + 1 ≤ j ∧ j < j + 1 + r.length) := by omega
      simp [this]
    · by_cases h2 : a + 1 ≤ j ∧ j < a + 1 + r.length
      · have h3 : a ≤ j ∧ j < a + (r.length + 1) := by omega
        have h4 : j - a = (j - (a + 1)) + 1 := by omega
        rw [if_pos h2, if_pos h3, h4, List.getD_cons_succ]
      · have h3 : ¬ (a ≤ j ∧ j < a + (r.length + 1)) := by omega
        rw [if_neg h2, if_neg h3, if_neg h1]

theorem get_write_out (m : Sparse w) (a j : Nat) (l : List (BitVec w)) (h : j < a ∨ a + l.length ≤ j) :
    (m.write a l).get j = m.get j := by
  rw [get_write, if_neg (by omega)]

theorem read_eq (m : Sparse w) (a n : Nat) : m.read a n = (List.range n).map fun i => m.get (a + i) := by
  induction n generalizing a with
  | zero => rfl
  | succ n ih =>
    simp only [read, ih, List.range_succ_eq_map, List.map_cons, List.map_map, Nat.add_zero]
    congr 1
    apply List.map_congr_left
    intro i _
    simp [Function.comp, Nat.add_assoc, Nat.add_comm 1 i]

end Sparse

theorem bytesOf_length (n v : Nat) : (bytesOf n v).length = n := by
  induction n generalizing v with
  | zero => rfl
  | succ n ih => simp [bytesOf, ih]

/-- Little-endian bytes read back (R4). -/
theorem leNat_bytesOf (n v : Nat) : leNat (bytesOf n v) = v % 256 ^ n := by
  induction n generalizing v with
  | zero => simp [bytesOf, leNat, Nat.mod_one]
  | succ n ih =>
    simp only [bytesOf, leNat, ih, BitVec.toNat_ofNat]
    have h : (256 : Nat) ^ (n + 1) = 256 * 256 ^ n := by rw [Nat.pow_succ, Nat.mul_comm]
    rw [h, Nat.mod_mul]

end Sys2Proof

namespace Sys2Proof.Machine

open Sys2Proof

/-- The memory of a performed write. -/
theorem performWrite_mem (s : State) (pa : Nat) (bs : List Byte) :
    (performWrite s pa bs).mem = if bs.isEmpty || physTop ≤ pa then s.mem else s.mem.write pa bs := by
  unfold performWrite triggerMonitors; split <;> rfl

theorem performWrite_ok {s : State} (pa : Nat) (bs : List Byte) (h : Memory.wf s.mem = true) :
    Memory.wf (performWrite s pa bs).mem = true := by
  rw [performWrite_mem]; split
  · exact h
  · exact Sparse.wf_write pa bs h

/-- A byte after a performed write, below the scope table's page. -/
theorem memByte_performWrite (s : State) (pa a : Nat) (bs : List Byte) (ha : a < physTop) (hp : pa < physTop) :
    memByte (performWrite s pa bs) a = if pa ≤ a ∧ a < pa + bs.length then bs.getD (a - pa) 0 else memByte s a := by
  have h1 : ¬ physTop ≤ a := by omega
  have h2 : ¬ physTop ≤ pa := by omega
  simp only [memByte, h1, if_false, performWrite_mem, h2, decide_false, Bool.or_false]
  cases bs with
  | nil => rw [if_pos List.isEmpty_nil, if_neg]; exact fun h => Nat.not_lt_of_le h.1 h.2
  | cons b r => simp [Sparse.get_write]

theorem writeEach_ok {s : State} (as : List Nat) (bs : List Byte) (h : Memory.wf s.mem = true) :
    Memory.wf (writeEach s as bs).mem = true := by
  induction as generalizing s bs with
  | nil => simpa [writeEach] using h
  | cons a r ih =>
    cases bs with
    | nil => simpa [writeEach] using h
    | cons b bs => exact ih bs (performWrite_ok a [b] h)

theorem writePas_ok {s : State} (as : List Nat) (bs : List Byte) (h : Memory.wf s.mem = true) :
    Memory.wf (writePas s as bs).mem = true := by
  unfold writePas; split
  · exact performWrite_ok _ _ h
  · exact writeEach_ok _ _ h

end Sys2Proof.Machine
end

