-- ==== Sys2Proof/Laws/State.lean ====
section
/-! SUPPORT. One lemma per field per update: what each update of the state and of a group leaves, and what it sets. -/

namespace Sys2Proof.Machine

open Sys2Proof

@[simp] theorem State.modGroup_mem (s : State) (r : GroupRef) (f : Group → Group) : (s.modGroup r f).mem = s.mem := rfl
@[simp] theorem State.modGroup_poison (s : State) (r : GroupRef) (f : Group → Group) : (s.modGroup r f).poison = s.poison := rfl
@[simp] theorem State.modGroup_cycle (s : State) (r : GroupRef) (f : Group → Group) : (s.modGroup r f).cycle = s.cycle := rfl
@[simp] theorem State.modGroup_agenda (s : State) (r : GroupRef) (f : Group → Group) : (s.modGroup r f).agenda = s.agenda := rfl
@[simp] theorem State.modGroup_choices (s : State) (r : GroupRef) (f : Group → Group) : (s.modGroup r f).choices = s.choices := rfl
@[simp] theorem State.modGroup_fresh (s : State) (r : GroupRef) (f : Group → Group) : (s.modGroup r f).fresh = s.fresh := rfl
@[simp] theorem State.modGroup_hostPend (s : State) (r : GroupRef) (f : Group → Group) : (s.modGroup r f).hostPend = s.hostPend := rfl
@[simp] theorem State.modGroup_cur (s : State) (r : GroupRef) (f : Group → Group) : (s.modGroup r f).cur = s.cur := rfl
@[simp] theorem State.modGroup_issued (s : State) (r : GroupRef) (f : Group → Group) : (s.modGroup r f).issued = s.issued := rfl
@[simp] theorem State.modGroup_cores (s : State) (r : GroupRef) (f : Group → Group) : (s.modGroup r f).cores = s.cores := rfl
@[simp] theorem State.modGroup_groups (s : State) (r : GroupRef) (f : Group → Group) : (s.modGroup r f).groups = s.groups.map fun g => if g.ref = r then f g else g := rfl
@[simp] theorem State.modGroup_blocks (s : State) (r : GroupRef) (f : Group → Group) : (s.modGroup r f).blocks = s.blocks := rfl
@[simp] theorem State.modGroup_ctxs (s : State) (r : GroupRef) (f : Group → Group) : (s.modGroup r f).ctxs = s.ctxs := rfl
@[simp] theorem State.modGroup_islands (s : State) (r : GroupRef) (f : Group → Group) : (s.modGroup r f).islands = s.islands := rfl
@[simp] theorem State.modGroup_images (s : State) (r : GroupRef) (f : Group → Group) : (s.modGroup r f).images = s.images := rfl
@[simp] theorem State.modGroup_engines (s : State) (r : GroupRef) (f : Group → Group) : (s.modGroup r f).engines = s.engines := rfl
@[simp] theorem State.modGroup_generations (s : State) (r : GroupRef) (f : Group → Group) : (s.modGroup r f).generations = s.generations := rfl
@[simp] theorem State.modGroup_copies (s : State) (r : GroupRef) (f : Group → Group) : (s.modGroup r f).copies = s.copies := rfl
@[simp] theorem State.modGroup_batches (s : State) (r : GroupRef) (f : Group → Group) : (s.modGroup r f).batches = s.batches := rfl
@[simp] theorem State.modGroup_grids (s : State) (r : GroupRef) (f : Group → Group) : (s.modGroup r f).grids = s.grids := rfl
@[simp] theorem State.modGroup_nextGrid (s : State) (r : GroupRef) (f : Group → Group) : (s.modGroup r f).nextGrid = s.nextGrid := rfl
@[simp] theorem State.modGroup_rays (s : State) (r : GroupRef) (f : Group → Group) : (s.modGroup r f).rays = s.rays := rfl
@[simp] theorem State.modGroup_nextRay (s : State) (r : GroupRef) (f : Group → Group) : (s.modGroup r f).nextRay = s.nextRay := rfl
@[simp] theorem State.modGroup_tlb (s : State) (r : GroupRef) (f : Group → Group) : (s.modGroup r f).tlb = s.tlb := rfl
@[simp] theorem State.modGroup_chamberTlb (s : State) (r : GroupRef) (f : Group → Group) : (s.modGroup r f).chamberTlb = s.chamberTlb := rfl
@[simp] theorem State.modGroup_imid (s : State) (r : GroupRef) (f : Group → Group) : (s.modGroup r f).imid = s.imid := rfl
@[simp] theorem State.modGroup_lines (s : State) (r : GroupRef) (f : Group → Group) : (s.modGroup r f).lines = s.lines := rfl
@[simp] theorem State.modGroup_slicesOut (s : State) (r : GroupRef) (f : Group → Group) : (s.modGroup r f).slicesOut = s.slicesOut := rfl
@[simp] theorem State.modGroup_sliceDetected (s : State) (r : GroupRef) (f : Group → Group) : (s.modGroup r f).sliceDetected = s.sliceDetected := rfl
@[simp] theorem State.modGroup_bulkOut (s : State) (r : GroupRef) (f : Group → Group) : (s.modGroup r f).bulkOut = s.bulkOut := rfl
@[simp] theorem State.modGroup_bulkDetected (s : State) (r : GroupRef) (f : Group → Group) : (s.modGroup r f).bulkDetected = s.bulkDetected := rfl
@[simp] theorem State.modGroup_dispSlot (s : State) (r : GroupRef) (f : Group → Group) : (s.modGroup r f).dispSlot = s.dispSlot := rfl
@[simp] theorem State.modGroup_markOut (s : State) (r : GroupRef) (f : Group → Group) : (s.modGroup r f).markOut = s.markOut := rfl
@[simp] theorem State.modGroup_regs (s : State) (r : GroupRef) (f : Group → Group) : (s.modGroup r f).regs = s.regs := rfl
@[simp] theorem State.modGroup_verify (s : State) (r : GroupRef) (f : Group → Group) : (s.modGroup r f).verify = s.verify := rfl
@[simp] theorem State.modGroup_saveKeys (s : State) (r : GroupRef) (f : Group → Group) : (s.modGroup r f).saveKeys = s.saveKeys := rfl
@[simp] theorem State.modGroup_lifeCycle (s : State) (r : GroupRef) (f : Group → Group) : (s.modGroup r f).lifeCycle = s.lifeCycle := rfl
@[simp] theorem State.modGroup_msix (s : State) (r : GroupRef) (f : Group → Group) : (s.modGroup r f).msix = s.msix := rfl
@[simp] theorem State.modGroup_ioInts (s : State) (r : GroupRef) (f : Group → Group) : (s.modGroup r f).ioInts = s.ioInts := rfl
@[simp] theorem State.modGroup_heads (s : State) (r : GroupRef) (f : Group → Group) : (s.modGroup r f).heads = s.heads := rfl
@[simp] theorem State.modGroup_power (s : State) (r : GroupRef) (f : Group → Group) : (s.modGroup r f).power = s.power := rfl
@[simp] theorem State.modGroup_alwaysOn (s : State) (r : GroupRef) (f : Group → Group) : (s.modGroup r f).alwaysOn = s.alwaysOn := rfl
@[simp] theorem State.modGroup_rc (s : State) (r : GroupRef) (f : Group → Group) : (s.modGroup r f).rc = s.rc := rfl
@[simp] theorem State.modGroup_powerImage (s : State) (r : GroupRef) (f : Group → Group) : (s.modGroup r f).powerImage = s.powerImage := rfl
@[simp] theorem State.modGroup_budget (s : State) (r : GroupRef) (f : Group → Group) : (s.modGroup r f).budget = s.budget := rfl
@[simp] theorem State.modGroup_lastGrant (s : State) (r : GroupRef) (f : Group → Group) : (s.modGroup r f).lastGrant = s.lastGrant := rfl
@[simp] theorem State.modGroup_demand (s : State) (r : GroupRef) (f : Group → Group) : (s.modGroup r f).demand = s.demand := rfl
@[simp] theorem State.modGroup_selfRefresh (s : State) (r : GroupRef) (f : Group → Group) : (s.modGroup r f).selfRefresh = s.selfRefresh := rfl
@[simp] theorem State.modGroup_booted (s : State) (r : GroupRef) (f : Group → Group) : (s.modGroup r f).booted = s.booted := rfl
@[simp] theorem State.modGroup_heldWrites (s : State) (r : GroupRef) (f : Group → Group) : (s.modGroup r f).heldWrites = s.heldWrites := rfl
@[simp] theorem State.modGroup_loadWait (s : State) (r : GroupRef) (f : Group → Group) : (s.modGroup r f).loadWait = s.loadWait := rfl
@[simp] theorem State.modGroup_loadDead (s : State) (r : GroupRef) (f : Group → Group) : (s.modGroup r f).loadDead = s.loadDead := rfl
@[simp] theorem State.modBlock_mem (s : State) (r : BlockRef) (f : Block → Block) : (s.modBlock r f).mem = s.mem := rfl
@[simp] theorem State.modBlock_poison (s : State) (r : BlockRef) (f : Block → Block) : (s.modBlock r f).poison = s.poison := rfl
@[simp] theorem State.modBlock_cycle (s : State) (r : BlockRef) (f : Block → Block) : (s.modBlock r f).cycle = s.cycle := rfl
@[simp] theorem State.modBlock_agenda (s : State) (r : BlockRef) (f : Block → Block) : (s.modBlock r f).agenda = s.agenda := rfl
@[simp] theorem State.modBlock_choices (s : State) (r : BlockRef) (f : Block → Block) : (s.modBlock r f).choices = s.choices := rfl
@[simp] theorem State.modBlock_fresh (s : State) (r : BlockRef) (f : Block → Block) : (s.modBlock r f).fresh = s.fresh := rfl
@[simp] theorem State.modBlock_hostPend (s : State) (r : BlockRef) (f : Block → Block) : (s.modBlock r f).hostPend = s.hostPend := rfl
@[simp] theorem State.modBlock_cur (s : State) (r : BlockRef) (f : Block → Block) : (s.modBlock r f).cur = s.cur := rfl
@[simp] theorem State.modBlock_issued (s : State) (r : BlockRef) (f : Block → Block) : (s.modBlock r f).issued = s.issued := rfl
@[simp] theorem State.modBlock_cores (s : State) (r : BlockRef) (f : Block → Block) : (s.modBlock r f).cores = s.cores := rfl
@[simp] theorem State.modBlock_groups (s : State) (r : BlockRef) (f : Block → Block) : (s.modBlock r f).groups = s.groups := rfl
@[simp] theorem State.modBlock_blocks (s : State) (r : BlockRef) (f : Block → Block) : (s.modBlock r f).blocks = s.blocks.map fun b => if b.ref = r then f b else b := rfl
@[simp] theorem State.modBlock_ctxs (s : State) (r : BlockRef) (f : Block → Block) : (s.modBlock r f).ctxs = s.ctxs := rfl
@[simp] theorem State.modBlock_islands (s : State) (r : BlockRef) (f : Block → Block) : (s.modBlock r f).islands = s.islands := rfl
@[simp] theorem State.modBlock_images (s : State) (r : BlockRef) (f : Block → Block) : (s.modBlock r f).images = s.images := rfl
@[simp] theorem State.modBlock_engines (s : State) (r : BlockRef) (f : Block → Block) : (s.modBlock r f).engines = s.engines := rfl
@[simp] theorem State.modBlock_generations (s : State) (r : BlockRef) (f : Block → Block) : (s.modBlock r f).generations = s.generations := rfl
@[simp] theorem State.modBlock_copies (s : State) (r : BlockRef) (f : Block → Block) : (s.modBlock r f).copies = s.copies := rfl
@[simp] theorem State.modBlock_batches (s : State) (r : BlockRef) (f : Block → Block) : (s.modBlock r f).batches = s.batches := rfl
@[simp] theorem State.modBlock_grids (s : State) (r : BlockRef) (f : Block → Block) : (s.modBlock r f).grids = s.grids := rfl
@[simp] theorem State.modBlock_nextGrid (s : State) (r : BlockRef) (f : Block → Block) : (s.modBlock r f).nextGrid = s.nextGrid := rfl
@[simp] theorem State.modBlock_rays (s : State) (r : BlockRef) (f : Block → Block) : (s.modBlock r f).rays = s.rays := rfl
@[simp] theorem State.modBlock_nextRay (s : State) (r : BlockRef) (f : Block → Block) : (s.modBlock r f).nextRay = s.nextRay := rfl
@[simp] theorem State.modBlock_tlb (s : State) (r : BlockRef) (f : Block → Block) : (s.modBlock r f).tlb = s.tlb := rfl
@[simp] theorem State.modBlock_chamberTlb (s : State) (r : BlockRef) (f : Block → Block) : (s.modBlock r f).chamberTlb = s.chamberTlb := rfl
@[simp] theorem State.modBlock_imid (s : State) (r : BlockRef) (f : Block → Block) : (s.modBlock r f).imid = s.imid := rfl
@[simp] theorem State.modBlock_lines (s : State) (r : BlockRef) (f : Block → Block) : (s.modBlock r f).lines = s.lines := rfl
@[simp] theorem State.modBlock_slicesOut (s : State) (r : BlockRef) (f : Block → Block) : (s.modBlock r f).slicesOut = s.slicesOut := rfl
@[simp] theorem State.modBlock_sliceDetected (s : State) (r : BlockRef) (f : Block → Block) : (s.modBlock r f).sliceDetected = s.sliceDetected := rfl
@[simp] theorem State.modBlock_bulkOut (s : State) (r : BlockRef) (f : Block → Block) : (s.modBlock r f).bulkOut = s.bulkOut := rfl
@[simp] theorem State.modBlock_bulkDetected (s : State) (r : BlockRef) (f : Block → Block) : (s.modBlock r f).bulkDetected = s.bulkDetected := rfl
@[simp] theorem State.modBlock_dispSlot (s : State) (r : BlockRef) (f : Block → Block) : (s.modBlock r f).dispSlot = s.dispSlot := rfl
@[simp] theorem State.modBlock_markOut (s : State) (r : BlockRef) (f : Block → Block) : (s.modBlock r f).markOut = s.markOut := rfl
@[simp] theorem State.modBlock_regs (s : State) (r : BlockRef) (f : Block → Block) : (s.modBlock r f).regs = s.regs := rfl
@[simp] theorem State.modBlock_verify (s : State) (r : BlockRef) (f : Block → Block) : (s.modBlock r f).verify = s.verify := rfl
@[simp] theorem State.modBlock_saveKeys (s : State) (r : BlockRef) (f : Block → Block) : (s.modBlock r f).saveKeys = s.saveKeys := rfl
@[simp] theorem State.modBlock_lifeCycle (s : State) (r : BlockRef) (f : Block → Block) : (s.modBlock r f).lifeCycle = s.lifeCycle := rfl
@[simp] theorem State.modBlock_msix (s : State) (r : BlockRef) (f : Block → Block) : (s.modBlock r f).msix = s.msix := rfl
@[simp] theorem State.modBlock_ioInts (s : State) (r : BlockRef) (f : Block → Block) : (s.modBlock r f).ioInts = s.ioInts := rfl
@[simp] theorem State.modBlock_heads (s : State) (r : BlockRef) (f : Block → Block) : (s.modBlock r f).heads = s.heads := rfl
@[simp] theorem State.modBlock_power (s : State) (r : BlockRef) (f : Block → Block) : (s.modBlock r f).power = s.power := rfl
@[simp] theorem State.modBlock_alwaysOn (s : State) (r : BlockRef) (f : Block → Block) : (s.modBlock r f).alwaysOn = s.alwaysOn := rfl
@[simp] theorem State.modBlock_rc (s : State) (r : BlockRef) (f : Block → Block) : (s.modBlock r f).rc = s.rc := rfl
@[simp] theorem State.modBlock_powerImage (s : State) (r : BlockRef) (f : Block → Block) : (s.modBlock r f).powerImage = s.powerImage := rfl
@[simp] theorem State.modBlock_budget (s : State) (r : BlockRef) (f : Block → Block) : (s.modBlock r f).budget = s.budget := rfl
@[simp] theorem State.modBlock_lastGrant (s : State) (r : BlockRef) (f : Block → Block) : (s.modBlock r f).lastGrant = s.lastGrant := rfl
@[simp] theorem State.modBlock_demand (s : State) (r : BlockRef) (f : Block → Block) : (s.modBlock r f).demand = s.demand := rfl
@[simp] theorem State.modBlock_selfRefresh (s : State) (r : BlockRef) (f : Block → Block) : (s.modBlock r f).selfRefresh = s.selfRefresh := rfl
@[simp] theorem State.modBlock_booted (s : State) (r : BlockRef) (f : Block → Block) : (s.modBlock r f).booted = s.booted := rfl
@[simp] theorem State.modBlock_heldWrites (s : State) (r : BlockRef) (f : Block → Block) : (s.modBlock r f).heldWrites = s.heldWrites := rfl
@[simp] theorem State.modBlock_loadWait (s : State) (r : BlockRef) (f : Block → Block) : (s.modBlock r f).loadWait = s.loadWait := rfl
@[simp] theorem State.modBlock_loadDead (s : State) (r : BlockRef) (f : Block → Block) : (s.modBlock r f).loadDead = s.loadDead := rfl
@[simp] theorem State.modCtx_mem (s : State) (c : BitVec 8) (f : Ctx → Ctx) : (s.modCtx c f).mem = s.mem := rfl
@[simp] theorem State.modCtx_poison (s : State) (c : BitVec 8) (f : Ctx → Ctx) : (s.modCtx c f).poison = s.poison := rfl
@[simp] theorem State.modCtx_cycle (s : State) (c : BitVec 8) (f : Ctx → Ctx) : (s.modCtx c f).cycle = s.cycle := rfl
@[simp] theorem State.modCtx_agenda (s : State) (c : BitVec 8) (f : Ctx → Ctx) : (s.modCtx c f).agenda = s.agenda := rfl
@[simp] theorem State.modCtx_choices (s : State) (c : BitVec 8) (f : Ctx → Ctx) : (s.modCtx c f).choices = s.choices := rfl
@[simp] theorem State.modCtx_fresh (s : State) (c : BitVec 8) (f : Ctx → Ctx) : (s.modCtx c f).fresh = s.fresh := rfl
@[simp] theorem State.modCtx_hostPend (s : State) (c : BitVec 8) (f : Ctx → Ctx) : (s.modCtx c f).hostPend = s.hostPend := rfl
@[simp] theorem State.modCtx_cur (s : State) (c : BitVec 8) (f : Ctx → Ctx) : (s.modCtx c f).cur = s.cur := rfl
@[simp] theorem State.modCtx_issued (s : State) (c : BitVec 8) (f : Ctx → Ctx) : (s.modCtx c f).issued = s.issued := rfl
@[simp] theorem State.modCtx_cores (s : State) (c : BitVec 8) (f : Ctx → Ctx) : (s.modCtx c f).cores = s.cores := rfl
@[simp] theorem State.modCtx_groups (s : State) (c : BitVec 8) (f : Ctx → Ctx) : (s.modCtx c f).groups = s.groups := rfl
@[simp] theorem State.modCtx_blocks (s : State) (c : BitVec 8) (f : Ctx → Ctx) : (s.modCtx c f).blocks = s.blocks := rfl
@[simp] theorem State.modCtx_ctxs (s : State) (c : BitVec 8) (f : Ctx → Ctx) : (s.modCtx c f).ctxs = s.ctxs.map fun x => if x.id = c then f x else x := rfl
@[simp] theorem State.modCtx_islands (s : State) (c : BitVec 8) (f : Ctx → Ctx) : (s.modCtx c f).islands = s.islands := rfl
@[simp] theorem State.modCtx_images (s : State) (c : BitVec 8) (f : Ctx → Ctx) : (s.modCtx c f).images = s.images := rfl
@[simp] theorem State.modCtx_engines (s : State) (c : BitVec 8) (f : Ctx → Ctx) : (s.modCtx c f).engines = s.engines := rfl
@[simp] theorem State.modCtx_generations (s : State) (c : BitVec 8) (f : Ctx → Ctx) : (s.modCtx c f).generations = s.generations := rfl
@[simp] theorem State.modCtx_copies (s : State) (c : BitVec 8) (f : Ctx → Ctx) : (s.modCtx c f).copies = s.copies := rfl
@[simp] theorem State.modCtx_batches (s : State) (c : BitVec 8) (f : Ctx → Ctx) : (s.modCtx c f).batches = s.batches := rfl
@[simp] theorem State.modCtx_grids (s : State) (c : BitVec 8) (f : Ctx → Ctx) : (s.modCtx c f).grids = s.grids := rfl
@[simp] theorem State.modCtx_nextGrid (s : State) (c : BitVec 8) (f : Ctx → Ctx) : (s.modCtx c f).nextGrid = s.nextGrid := rfl
@[simp] theorem State.modCtx_rays (s : State) (c : BitVec 8) (f : Ctx → Ctx) : (s.modCtx c f).rays = s.rays := rfl
@[simp] theorem State.modCtx_nextRay (s : State) (c : BitVec 8) (f : Ctx → Ctx) : (s.modCtx c f).nextRay = s.nextRay := rfl
@[simp] theorem State.modCtx_tlb (s : State) (c : BitVec 8) (f : Ctx → Ctx) : (s.modCtx c f).tlb = s.tlb := rfl
@[simp] theorem State.modCtx_chamberTlb (s : State) (c : BitVec 8) (f : Ctx → Ctx) : (s.modCtx c f).chamberTlb = s.chamberTlb := rfl
@[simp] theorem State.modCtx_imid (s : State) (c : BitVec 8) (f : Ctx → Ctx) : (s.modCtx c f).imid = s.imid := rfl
@[simp] theorem State.modCtx_lines (s : State) (c : BitVec 8) (f : Ctx → Ctx) : (s.modCtx c f).lines = s.lines := rfl
@[simp] theorem State.modCtx_slicesOut (s : State) (c : BitVec 8) (f : Ctx → Ctx) : (s.modCtx c f).slicesOut = s.slicesOut := rfl
@[simp] theorem State.modCtx_sliceDetected (s : State) (c : BitVec 8) (f : Ctx → Ctx) : (s.modCtx c f).sliceDetected = s.sliceDetected := rfl
@[simp] theorem State.modCtx_bulkOut (s : State) (c : BitVec 8) (f : Ctx → Ctx) : (s.modCtx c f).bulkOut = s.bulkOut := rfl
@[simp] theorem State.modCtx_bulkDetected (s : State) (c : BitVec 8) (f : Ctx → Ctx) : (s.modCtx c f).bulkDetected = s.bulkDetected := rfl
@[simp] theorem State.modCtx_dispSlot (s : State) (c : BitVec 8) (f : Ctx → Ctx) : (s.modCtx c f).dispSlot = s.dispSlot := rfl
@[simp] theorem State.modCtx_markOut (s : State) (c : BitVec 8) (f : Ctx → Ctx) : (s.modCtx c f).markOut = s.markOut := rfl
@[simp] theorem State.modCtx_regs (s : State) (c : BitVec 8) (f : Ctx → Ctx) : (s.modCtx c f).regs = s.regs := rfl
@[simp] theorem State.modCtx_verify (s : State) (c : BitVec 8) (f : Ctx → Ctx) : (s.modCtx c f).verify = s.verify := rfl
@[simp] theorem State.modCtx_saveKeys (s : State) (c : BitVec 8) (f : Ctx → Ctx) : (s.modCtx c f).saveKeys = s.saveKeys := rfl
@[simp] theorem State.modCtx_lifeCycle (s : State) (c : BitVec 8) (f : Ctx → Ctx) : (s.modCtx c f).lifeCycle = s.lifeCycle := rfl
@[simp] theorem State.modCtx_msix (s : State) (c : BitVec 8) (f : Ctx → Ctx) : (s.modCtx c f).msix = s.msix := rfl
@[simp] theorem State.modCtx_ioInts (s : State) (c : BitVec 8) (f : Ctx → Ctx) : (s.modCtx c f).ioInts = s.ioInts := rfl
@[simp] theorem State.modCtx_heads (s : State) (c : BitVec 8) (f : Ctx → Ctx) : (s.modCtx c f).heads = s.heads := rfl
@[simp] theorem State.modCtx_power (s : State) (c : BitVec 8) (f : Ctx → Ctx) : (s.modCtx c f).power = s.power := rfl
@[simp] theorem State.modCtx_alwaysOn (s : State) (c : BitVec 8) (f : Ctx → Ctx) : (s.modCtx c f).alwaysOn = s.alwaysOn := rfl
@[simp] theorem State.modCtx_rc (s : State) (c : BitVec 8) (f : Ctx → Ctx) : (s.modCtx c f).rc = s.rc := rfl
@[simp] theorem State.modCtx_powerImage (s : State) (c : BitVec 8) (f : Ctx → Ctx) : (s.modCtx c f).powerImage = s.powerImage := rfl
@[simp] theorem State.modCtx_budget (s : State) (c : BitVec 8) (f : Ctx → Ctx) : (s.modCtx c f).budget = s.budget := rfl
@[simp] theorem State.modCtx_lastGrant (s : State) (c : BitVec 8) (f : Ctx → Ctx) : (s.modCtx c f).lastGrant = s.lastGrant := rfl
@[simp] theorem State.modCtx_demand (s : State) (c : BitVec 8) (f : Ctx → Ctx) : (s.modCtx c f).demand = s.demand := rfl
@[simp] theorem State.modCtx_selfRefresh (s : State) (c : BitVec 8) (f : Ctx → Ctx) : (s.modCtx c f).selfRefresh = s.selfRefresh := rfl
@[simp] theorem State.modCtx_booted (s : State) (c : BitVec 8) (f : Ctx → Ctx) : (s.modCtx c f).booted = s.booted := rfl
@[simp] theorem State.modCtx_heldWrites (s : State) (c : BitVec 8) (f : Ctx → Ctx) : (s.modCtx c f).heldWrites = s.heldWrites := rfl
@[simp] theorem State.modCtx_loadWait (s : State) (c : BitVec 8) (f : Ctx → Ctx) : (s.modCtx c f).loadWait = s.loadWait := rfl
@[simp] theorem State.modCtx_loadDead (s : State) (c : BitVec 8) (f : Ctx → Ctx) : (s.modCtx c f).loadDead = s.loadDead := rfl
@[simp] theorem State.modCore_mem (s : State) (n : Nat) (f : Core → Core) : (s.modCore n f).mem = s.mem := rfl
@[simp] theorem State.modCore_poison (s : State) (n : Nat) (f : Core → Core) : (s.modCore n f).poison = s.poison := rfl
@[simp] theorem State.modCore_cycle (s : State) (n : Nat) (f : Core → Core) : (s.modCore n f).cycle = s.cycle := rfl
@[simp] theorem State.modCore_agenda (s : State) (n : Nat) (f : Core → Core) : (s.modCore n f).agenda = s.agenda := rfl
@[simp] theorem State.modCore_choices (s : State) (n : Nat) (f : Core → Core) : (s.modCore n f).choices = s.choices := rfl
@[simp] theorem State.modCore_fresh (s : State) (n : Nat) (f : Core → Core) : (s.modCore n f).fresh = s.fresh := rfl
@[simp] theorem State.modCore_hostPend (s : State) (n : Nat) (f : Core → Core) : (s.modCore n f).hostPend = s.hostPend := rfl
@[simp] theorem State.modCore_cur (s : State) (n : Nat) (f : Core → Core) : (s.modCore n f).cur = s.cur := rfl
@[simp] theorem State.modCore_issued (s : State) (n : Nat) (f : Core → Core) : (s.modCore n f).issued = s.issued := rfl
@[simp] theorem State.modCore_cores (s : State) (n : Nat) (f : Core → Core) : (s.modCore n f).cores = listSet s.cores n (f (s.core n)) := rfl
@[simp] theorem State.modCore_groups (s : State) (n : Nat) (f : Core → Core) : (s.modCore n f).groups = s.groups := rfl
@[simp] theorem State.modCore_blocks (s : State) (n : Nat) (f : Core → Core) : (s.modCore n f).blocks = s.blocks := rfl
@[simp] theorem State.modCore_ctxs (s : State) (n : Nat) (f : Core → Core) : (s.modCore n f).ctxs = s.ctxs := rfl
@[simp] theorem State.modCore_islands (s : State) (n : Nat) (f : Core → Core) : (s.modCore n f).islands = s.islands := rfl
@[simp] theorem State.modCore_images (s : State) (n : Nat) (f : Core → Core) : (s.modCore n f).images = s.images := rfl
@[simp] theorem State.modCore_engines (s : State) (n : Nat) (f : Core → Core) : (s.modCore n f).engines = s.engines := rfl
@[simp] theorem State.modCore_generations (s : State) (n : Nat) (f : Core → Core) : (s.modCore n f).generations = s.generations := rfl
@[simp] theorem State.modCore_copies (s : State) (n : Nat) (f : Core → Core) : (s.modCore n f).copies = s.copies := rfl
@[simp] theorem State.modCore_batches (s : State) (n : Nat) (f : Core → Core) : (s.modCore n f).batches = s.batches := rfl
@[simp] theorem State.modCore_grids (s : State) (n : Nat) (f : Core → Core) : (s.modCore n f).grids = s.grids := rfl
@[simp] theorem State.modCore_nextGrid (s : State) (n : Nat) (f : Core → Core) : (s.modCore n f).nextGrid = s.nextGrid := rfl
@[simp] theorem State.modCore_rays (s : State) (n : Nat) (f : Core → Core) : (s.modCore n f).rays = s.rays := rfl
@[simp] theorem State.modCore_nextRay (s : State) (n : Nat) (f : Core → Core) : (s.modCore n f).nextRay = s.nextRay := rfl
@[simp] theorem State.modCore_tlb (s : State) (n : Nat) (f : Core → Core) : (s.modCore n f).tlb = s.tlb := rfl
@[simp] theorem State.modCore_chamberTlb (s : State) (n : Nat) (f : Core → Core) : (s.modCore n f).chamberTlb = s.chamberTlb := rfl
@[simp] theorem State.modCore_imid (s : State) (n : Nat) (f : Core → Core) : (s.modCore n f).imid = s.imid := rfl
@[simp] theorem State.modCore_lines (s : State) (n : Nat) (f : Core → Core) : (s.modCore n f).lines = s.lines := rfl
@[simp] theorem State.modCore_slicesOut (s : State) (n : Nat) (f : Core → Core) : (s.modCore n f).slicesOut = s.slicesOut := rfl
@[simp] theorem State.modCore_sliceDetected (s : State) (n : Nat) (f : Core → Core) : (s.modCore n f).sliceDetected = s.sliceDetected := rfl
@[simp] theorem State.modCore_bulkOut (s : State) (n : Nat) (f : Core → Core) : (s.modCore n f).bulkOut = s.bulkOut := rfl
@[simp] theorem State.modCore_bulkDetected (s : State) (n : Nat) (f : Core → Core) : (s.modCore n f).bulkDetected = s.bulkDetected := rfl
@[simp] theorem State.modCore_dispSlot (s : State) (n : Nat) (f : Core → Core) : (s.modCore n f).dispSlot = s.dispSlot := rfl
@[simp] theorem State.modCore_markOut (s : State) (n : Nat) (f : Core → Core) : (s.modCore n f).markOut = s.markOut := rfl
@[simp] theorem State.modCore_regs (s : State) (n : Nat) (f : Core → Core) : (s.modCore n f).regs = s.regs := rfl
@[simp] theorem State.modCore_verify (s : State) (n : Nat) (f : Core → Core) : (s.modCore n f).verify = s.verify := rfl
@[simp] theorem State.modCore_saveKeys (s : State) (n : Nat) (f : Core → Core) : (s.modCore n f).saveKeys = s.saveKeys := rfl
@[simp] theorem State.modCore_lifeCycle (s : State) (n : Nat) (f : Core → Core) : (s.modCore n f).lifeCycle = s.lifeCycle := rfl
@[simp] theorem State.modCore_msix (s : State) (n : Nat) (f : Core → Core) : (s.modCore n f).msix = s.msix := rfl
@[simp] theorem State.modCore_ioInts (s : State) (n : Nat) (f : Core → Core) : (s.modCore n f).ioInts = s.ioInts := rfl
@[simp] theorem State.modCore_heads (s : State) (n : Nat) (f : Core → Core) : (s.modCore n f).heads = s.heads := rfl
@[simp] theorem State.modCore_power (s : State) (n : Nat) (f : Core → Core) : (s.modCore n f).power = s.power := rfl
@[simp] theorem State.modCore_alwaysOn (s : State) (n : Nat) (f : Core → Core) : (s.modCore n f).alwaysOn = s.alwaysOn := rfl
@[simp] theorem State.modCore_rc (s : State) (n : Nat) (f : Core → Core) : (s.modCore n f).rc = s.rc := rfl
@[simp] theorem State.modCore_powerImage (s : State) (n : Nat) (f : Core → Core) : (s.modCore n f).powerImage = s.powerImage := rfl
@[simp] theorem State.modCore_budget (s : State) (n : Nat) (f : Core → Core) : (s.modCore n f).budget = s.budget := rfl
@[simp] theorem State.modCore_lastGrant (s : State) (n : Nat) (f : Core → Core) : (s.modCore n f).lastGrant = s.lastGrant := rfl
@[simp] theorem State.modCore_demand (s : State) (n : Nat) (f : Core → Core) : (s.modCore n f).demand = s.demand := rfl
@[simp] theorem State.modCore_selfRefresh (s : State) (n : Nat) (f : Core → Core) : (s.modCore n f).selfRefresh = s.selfRefresh := rfl
@[simp] theorem State.modCore_booted (s : State) (n : Nat) (f : Core → Core) : (s.modCore n f).booted = s.booted := rfl
@[simp] theorem State.modCore_heldWrites (s : State) (n : Nat) (f : Core → Core) : (s.modCore n f).heldWrites = s.heldWrites := rfl
@[simp] theorem State.modCore_loadWait (s : State) (n : Nat) (f : Core → Core) : (s.modCore n f).loadWait = s.loadWait := rfl
@[simp] theorem State.modCore_loadDead (s : State) (n : Nat) (f : Core → Core) : (s.modCore n f).loadDead = s.loadDead := rfl
@[simp] theorem State.modIsland_mem (s : State) (n : Nat) (f : Island → Island) : (s.modIsland n f).mem = s.mem := rfl
@[simp] theorem State.modIsland_poison (s : State) (n : Nat) (f : Island → Island) : (s.modIsland n f).poison = s.poison := rfl
@[simp] theorem State.modIsland_cycle (s : State) (n : Nat) (f : Island → Island) : (s.modIsland n f).cycle = s.cycle := rfl
@[simp] theorem State.modIsland_agenda (s : State) (n : Nat) (f : Island → Island) : (s.modIsland n f).agenda = s.agenda := rfl
@[simp] theorem State.modIsland_choices (s : State) (n : Nat) (f : Island → Island) : (s.modIsland n f).choices = s.choices := rfl
@[simp] theorem State.modIsland_fresh (s : State) (n : Nat) (f : Island → Island) : (s.modIsland n f).fresh = s.fresh := rfl
@[simp] theorem State.modIsland_hostPend (s : State) (n : Nat) (f : Island → Island) : (s.modIsland n f).hostPend = s.hostPend := rfl
@[simp] theorem State.modIsland_cur (s : State) (n : Nat) (f : Island → Island) : (s.modIsland n f).cur = s.cur := rfl
@[simp] theorem State.modIsland_issued (s : State) (n : Nat) (f : Island → Island) : (s.modIsland n f).issued = s.issued := rfl
@[simp] theorem State.modIsland_cores (s : State) (n : Nat) (f : Island → Island) : (s.modIsland n f).cores = s.cores := rfl
@[simp] theorem State.modIsland_groups (s : State) (n : Nat) (f : Island → Island) : (s.modIsland n f).groups = s.groups := rfl
@[simp] theorem State.modIsland_blocks (s : State) (n : Nat) (f : Island → Island) : (s.modIsland n f).blocks = s.blocks := rfl
@[simp] theorem State.modIsland_ctxs (s : State) (n : Nat) (f : Island → Island) : (s.modIsland n f).ctxs = s.ctxs := rfl
@[simp] theorem State.modIsland_islands (s : State) (n : Nat) (f : Island → Island) : (s.modIsland n f).islands = listSet s.islands n (f (s.island n)) := rfl
@[simp] theorem State.modIsland_images (s : State) (n : Nat) (f : Island → Island) : (s.modIsland n f).images = s.images := rfl
@[simp] theorem State.modIsland_engines (s : State) (n : Nat) (f : Island → Island) : (s.modIsland n f).engines = s.engines := rfl
@[simp] theorem State.modIsland_generations (s : State) (n : Nat) (f : Island → Island) : (s.modIsland n f).generations = s.generations := rfl
@[simp] theorem State.modIsland_copies (s : State) (n : Nat) (f : Island → Island) : (s.modIsland n f).copies = s.copies := rfl
@[simp] theorem State.modIsland_batches (s : State) (n : Nat) (f : Island → Island) : (s.modIsland n f).batches = s.batches := rfl
@[simp] theorem State.modIsland_grids (s : State) (n : Nat) (f : Island → Island) : (s.modIsland n f).grids = s.grids := rfl
@[simp] theorem State.modIsland_nextGrid (s : State) (n : Nat) (f : Island → Island) : (s.modIsland n f).nextGrid = s.nextGrid := rfl
@[simp] theorem State.modIsland_rays (s : State) (n : Nat) (f : Island → Island) : (s.modIsland n f).rays = s.rays := rfl
@[simp] theorem State.modIsland_nextRay (s : State) (n : Nat) (f : Island → Island) : (s.modIsland n f).nextRay = s.nextRay := rfl
@[simp] theorem State.modIsland_tlb (s : State) (n : Nat) (f : Island → Island) : (s.modIsland n f).tlb = s.tlb := rfl
@[simp] theorem State.modIsland_chamberTlb (s : State) (n : Nat) (f : Island → Island) : (s.modIsland n f).chamberTlb = s.chamberTlb := rfl
@[simp] theorem State.modIsland_imid (s : State) (n : Nat) (f : Island → Island) : (s.modIsland n f).imid = s.imid := rfl
@[simp] theorem State.modIsland_lines (s : State) (n : Nat) (f : Island → Island) : (s.modIsland n f).lines = s.lines := rfl
@[simp] theorem State.modIsland_slicesOut (s : State) (n : Nat) (f : Island → Island) : (s.modIsland n f).slicesOut = s.slicesOut := rfl
@[simp] theorem State.modIsland_sliceDetected (s : State) (n : Nat) (f : Island → Island) : (s.modIsland n f).sliceDetected = s.sliceDetected := rfl
@[simp] theorem State.modIsland_bulkOut (s : State) (n : Nat) (f : Island → Island) : (s.modIsland n f).bulkOut = s.bulkOut := rfl
@[simp] theorem State.modIsland_bulkDetected (s : State) (n : Nat) (f : Island → Island) : (s.modIsland n f).bulkDetected = s.bulkDetected := rfl
@[simp] theorem State.modIsland_dispSlot (s : State) (n : Nat) (f : Island → Island) : (s.modIsland n f).dispSlot = s.dispSlot := rfl
@[simp] theorem State.modIsland_markOut (s : State) (n : Nat) (f : Island → Island) : (s.modIsland n f).markOut = s.markOut := rfl
@[simp] theorem State.modIsland_regs (s : State) (n : Nat) (f : Island → Island) : (s.modIsland n f).regs = s.regs := rfl
@[simp] theorem State.modIsland_verify (s : State) (n : Nat) (f : Island → Island) : (s.modIsland n f).verify = s.verify := rfl
@[simp] theorem State.modIsland_saveKeys (s : State) (n : Nat) (f : Island → Island) : (s.modIsland n f).saveKeys = s.saveKeys := rfl
@[simp] theorem State.modIsland_lifeCycle (s : State) (n : Nat) (f : Island → Island) : (s.modIsland n f).lifeCycle = s.lifeCycle := rfl
@[simp] theorem State.modIsland_msix (s : State) (n : Nat) (f : Island → Island) : (s.modIsland n f).msix = s.msix := rfl
@[simp] theorem State.modIsland_ioInts (s : State) (n : Nat) (f : Island → Island) : (s.modIsland n f).ioInts = s.ioInts := rfl
@[simp] theorem State.modIsland_heads (s : State) (n : Nat) (f : Island → Island) : (s.modIsland n f).heads = s.heads := rfl
@[simp] theorem State.modIsland_power (s : State) (n : Nat) (f : Island → Island) : (s.modIsland n f).power = s.power := rfl
@[simp] theorem State.modIsland_alwaysOn (s : State) (n : Nat) (f : Island → Island) : (s.modIsland n f).alwaysOn = s.alwaysOn := rfl
@[simp] theorem State.modIsland_rc (s : State) (n : Nat) (f : Island → Island) : (s.modIsland n f).rc = s.rc := rfl
@[simp] theorem State.modIsland_powerImage (s : State) (n : Nat) (f : Island → Island) : (s.modIsland n f).powerImage = s.powerImage := rfl
@[simp] theorem State.modIsland_budget (s : State) (n : Nat) (f : Island → Island) : (s.modIsland n f).budget = s.budget := rfl
@[simp] theorem State.modIsland_lastGrant (s : State) (n : Nat) (f : Island → Island) : (s.modIsland n f).lastGrant = s.lastGrant := rfl
@[simp] theorem State.modIsland_demand (s : State) (n : Nat) (f : Island → Island) : (s.modIsland n f).demand = s.demand := rfl
@[simp] theorem State.modIsland_selfRefresh (s : State) (n : Nat) (f : Island → Island) : (s.modIsland n f).selfRefresh = s.selfRefresh := rfl
@[simp] theorem State.modIsland_booted (s : State) (n : Nat) (f : Island → Island) : (s.modIsland n f).booted = s.booted := rfl
@[simp] theorem State.modIsland_heldWrites (s : State) (n : Nat) (f : Island → Island) : (s.modIsland n f).heldWrites = s.heldWrites := rfl
@[simp] theorem State.modIsland_loadWait (s : State) (n : Nat) (f : Island → Island) : (s.modIsland n f).loadWait = s.loadWait := rfl
@[simp] theorem State.modIsland_loadDead (s : State) (n : Nat) (f : Island → Island) : (s.modIsland n f).loadDead = s.loadDead := rfl
@[simp] theorem State.modEngine_mem (s : State) (e : EngineRef) (f : EngineCtx → EngineCtx) : (s.modEngine e f).mem = s.mem := rfl
@[simp] theorem State.modEngine_poison (s : State) (e : EngineRef) (f : EngineCtx → EngineCtx) : (s.modEngine e f).poison = s.poison := rfl
@[simp] theorem State.modEngine_cycle (s : State) (e : EngineRef) (f : EngineCtx → EngineCtx) : (s.modEngine e f).cycle = s.cycle := rfl
@[simp] theorem State.modEngine_agenda (s : State) (e : EngineRef) (f : EngineCtx → EngineCtx) : (s.modEngine e f).agenda = s.agenda := rfl
@[simp] theorem State.modEngine_choices (s : State) (e : EngineRef) (f : EngineCtx → EngineCtx) : (s.modEngine e f).choices = s.choices := rfl
@[simp] theorem State.modEngine_fresh (s : State) (e : EngineRef) (f : EngineCtx → EngineCtx) : (s.modEngine e f).fresh = s.fresh := rfl
@[simp] theorem State.modEngine_hostPend (s : State) (e : EngineRef) (f : EngineCtx → EngineCtx) : (s.modEngine e f).hostPend = s.hostPend := rfl
@[simp] theorem State.modEngine_cur (s : State) (e : EngineRef) (f : EngineCtx → EngineCtx) : (s.modEngine e f).cur = s.cur := rfl
@[simp] theorem State.modEngine_issued (s : State) (e : EngineRef) (f : EngineCtx → EngineCtx) : (s.modEngine e f).issued = s.issued := rfl
@[simp] theorem State.modEngine_cores (s : State) (e : EngineRef) (f : EngineCtx → EngineCtx) : (s.modEngine e f).cores = s.cores := rfl
@[simp] theorem State.modEngine_groups (s : State) (e : EngineRef) (f : EngineCtx → EngineCtx) : (s.modEngine e f).groups = s.groups := rfl
@[simp] theorem State.modEngine_blocks (s : State) (e : EngineRef) (f : EngineCtx → EngineCtx) : (s.modEngine e f).blocks = s.blocks := rfl
@[simp] theorem State.modEngine_ctxs (s : State) (e : EngineRef) (f : EngineCtx → EngineCtx) : (s.modEngine e f).ctxs = s.ctxs := rfl
@[simp] theorem State.modEngine_islands (s : State) (e : EngineRef) (f : EngineCtx → EngineCtx) : (s.modEngine e f).islands = s.islands := rfl
@[simp] theorem State.modEngine_images (s : State) (e : EngineRef) (f : EngineCtx → EngineCtx) : (s.modEngine e f).images = s.images := rfl
@[simp] theorem State.modEngine_engines (s : State) (e : EngineRef) (f : EngineCtx → EngineCtx) : (s.modEngine e f).engines = s.engines.map fun x => if x.ref = e then f x else x := rfl
@[simp] theorem State.modEngine_generations (s : State) (e : EngineRef) (f : EngineCtx → EngineCtx) : (s.modEngine e f).generations = s.generations := rfl
@[simp] theorem State.modEngine_copies (s : State) (e : EngineRef) (f : EngineCtx → EngineCtx) : (s.modEngine e f).copies = s.copies := rfl
@[simp] theorem State.modEngine_batches (s : State) (e : EngineRef) (f : EngineCtx → EngineCtx) : (s.modEngine e f).batches = s.batches := rfl
@[simp] theorem State.modEngine_grids (s : State) (e : EngineRef) (f : EngineCtx → EngineCtx) : (s.modEngine e f).grids = s.grids := rfl
@[simp] theorem State.modEngine_nextGrid (s : State) (e : EngineRef) (f : EngineCtx → EngineCtx) : (s.modEngine e f).nextGrid = s.nextGrid := rfl
@[simp] theorem State.modEngine_rays (s : State) (e : EngineRef) (f : EngineCtx → EngineCtx) : (s.modEngine e f).rays = s.rays := rfl
@[simp] theorem State.modEngine_nextRay (s : State) (e : EngineRef) (f : EngineCtx → EngineCtx) : (s.modEngine e f).nextRay = s.nextRay := rfl
@[simp] theorem State.modEngine_tlb (s : State) (e : EngineRef) (f : EngineCtx → EngineCtx) : (s.modEngine e f).tlb = s.tlb := rfl
@[simp] theorem State.modEngine_chamberTlb (s : State) (e : EngineRef) (f : EngineCtx → EngineCtx) : (s.modEngine e f).chamberTlb = s.chamberTlb := rfl
@[simp] theorem State.modEngine_imid (s : State) (e : EngineRef) (f : EngineCtx → EngineCtx) : (s.modEngine e f).imid = s.imid := rfl
@[simp] theorem State.modEngine_lines (s : State) (e : EngineRef) (f : EngineCtx → EngineCtx) : (s.modEngine e f).lines = s.lines := rfl
@[simp] theorem State.modEngine_slicesOut (s : State) (e : EngineRef) (f : EngineCtx → EngineCtx) : (s.modEngine e f).slicesOut = s.slicesOut := rfl
@[simp] theorem State.modEngine_sliceDetected (s : State) (e : EngineRef) (f : EngineCtx → EngineCtx) : (s.modEngine e f).sliceDetected = s.sliceDetected := rfl
@[simp] theorem State.modEngine_bulkOut (s : State) (e : EngineRef) (f : EngineCtx → EngineCtx) : (s.modEngine e f).bulkOut = s.bulkOut := rfl
@[simp] theorem State.modEngine_bulkDetected (s : State) (e : EngineRef) (f : EngineCtx → EngineCtx) : (s.modEngine e f).bulkDetected = s.bulkDetected := rfl
@[simp] theorem State.modEngine_dispSlot (s : State) (e : EngineRef) (f : EngineCtx → EngineCtx) : (s.modEngine e f).dispSlot = s.dispSlot := rfl
@[simp] theorem State.modEngine_markOut (s : State) (e : EngineRef) (f : EngineCtx → EngineCtx) : (s.modEngine e f).markOut = s.markOut := rfl
@[simp] theorem State.modEngine_regs (s : State) (e : EngineRef) (f : EngineCtx → EngineCtx) : (s.modEngine e f).regs = s.regs := rfl
@[simp] theorem State.modEngine_verify (s : State) (e : EngineRef) (f : EngineCtx → EngineCtx) : (s.modEngine e f).verify = s.verify := rfl
@[simp] theorem State.modEngine_saveKeys (s : State) (e : EngineRef) (f : EngineCtx → EngineCtx) : (s.modEngine e f).saveKeys = s.saveKeys := rfl
@[simp] theorem State.modEngine_lifeCycle (s : State) (e : EngineRef) (f : EngineCtx → EngineCtx) : (s.modEngine e f).lifeCycle = s.lifeCycle := rfl
@[simp] theorem State.modEngine_msix (s : State) (e : EngineRef) (f : EngineCtx → EngineCtx) : (s.modEngine e f).msix = s.msix := rfl
@[simp] theorem State.modEngine_ioInts (s : State) (e : EngineRef) (f : EngineCtx → EngineCtx) : (s.modEngine e f).ioInts = s.ioInts := rfl
@[simp] theorem State.modEngine_heads (s : State) (e : EngineRef) (f : EngineCtx → EngineCtx) : (s.modEngine e f).heads = s.heads := rfl
@[simp] theorem State.modEngine_power (s : State) (e : EngineRef) (f : EngineCtx → EngineCtx) : (s.modEngine e f).power = s.power := rfl
@[simp] theorem State.modEngine_alwaysOn (s : State) (e : EngineRef) (f : EngineCtx → EngineCtx) : (s.modEngine e f).alwaysOn = s.alwaysOn := rfl
@[simp] theorem State.modEngine_rc (s : State) (e : EngineRef) (f : EngineCtx → EngineCtx) : (s.modEngine e f).rc = s.rc := rfl
@[simp] theorem State.modEngine_powerImage (s : State) (e : EngineRef) (f : EngineCtx → EngineCtx) : (s.modEngine e f).powerImage = s.powerImage := rfl
@[simp] theorem State.modEngine_budget (s : State) (e : EngineRef) (f : EngineCtx → EngineCtx) : (s.modEngine e f).budget = s.budget := rfl
@[simp] theorem State.modEngine_lastGrant (s : State) (e : EngineRef) (f : EngineCtx → EngineCtx) : (s.modEngine e f).lastGrant = s.lastGrant := rfl
@[simp] theorem State.modEngine_demand (s : State) (e : EngineRef) (f : EngineCtx → EngineCtx) : (s.modEngine e f).demand = s.demand := rfl
@[simp] theorem State.modEngine_selfRefresh (s : State) (e : EngineRef) (f : EngineCtx → EngineCtx) : (s.modEngine e f).selfRefresh = s.selfRefresh := rfl
@[simp] theorem State.modEngine_booted (s : State) (e : EngineRef) (f : EngineCtx → EngineCtx) : (s.modEngine e f).booted = s.booted := rfl
@[simp] theorem State.modEngine_heldWrites (s : State) (e : EngineRef) (f : EngineCtx → EngineCtx) : (s.modEngine e f).heldWrites = s.heldWrites := rfl
@[simp] theorem State.modEngine_loadWait (s : State) (e : EngineRef) (f : EngineCtx → EngineCtx) : (s.modEngine e f).loadWait = s.loadWait := rfl
@[simp] theorem State.modEngine_loadDead (s : State) (e : EngineRef) (f : EngineCtx → EngineCtx) : (s.modEngine e f).loadDead = s.loadDead := rfl
@[simp] theorem State.modRegs_mem (s : State) (f : Regs → Regs) : (s.modRegs f).mem = s.mem := rfl
@[simp] theorem State.modRegs_poison (s : State) (f : Regs → Regs) : (s.modRegs f).poison = s.poison := rfl
@[simp] theorem State.modRegs_cycle (s : State) (f : Regs → Regs) : (s.modRegs f).cycle = s.cycle := rfl
@[simp] theorem State.modRegs_agenda (s : State) (f : Regs → Regs) : (s.modRegs f).agenda = s.agenda := rfl
@[simp] theorem State.modRegs_choices (s : State) (f : Regs → Regs) : (s.modRegs f).choices = s.choices := rfl
@[simp] theorem State.modRegs_fresh (s : State) (f : Regs → Regs) : (s.modRegs f).fresh = s.fresh := rfl
@[simp] theorem State.modRegs_hostPend (s : State) (f : Regs → Regs) : (s.modRegs f).hostPend = s.hostPend := rfl
@[simp] theorem State.modRegs_cur (s : State) (f : Regs → Regs) : (s.modRegs f).cur = s.cur := rfl
@[simp] theorem State.modRegs_issued (s : State) (f : Regs → Regs) : (s.modRegs f).issued = s.issued := rfl
@[simp] theorem State.modRegs_cores (s : State) (f : Regs → Regs) : (s.modRegs f).cores = s.cores := rfl
@[simp] theorem State.modRegs_groups (s : State) (f : Regs → Regs) : (s.modRegs f).groups = s.groups := rfl
@[simp] theorem State.modRegs_blocks (s : State) (f : Regs → Regs) : (s.modRegs f).blocks = s.blocks := rfl
@[simp] theorem State.modRegs_ctxs (s : State) (f : Regs → Regs) : (s.modRegs f).ctxs = s.ctxs := rfl
@[simp] theorem State.modRegs_islands (s : State) (f : Regs → Regs) : (s.modRegs f).islands = s.islands := rfl
@[simp] theorem State.modRegs_images (s : State) (f : Regs → Regs) : (s.modRegs f).images = s.images := rfl
@[simp] theorem State.modRegs_engines (s : State) (f : Regs → Regs) : (s.modRegs f).engines = s.engines := rfl
@[simp] theorem State.modRegs_generations (s : State) (f : Regs → Regs) : (s.modRegs f).generations = s.generations := rfl
@[simp] theorem State.modRegs_copies (s : State) (f : Regs → Regs) : (s.modRegs f).copies = s.copies := rfl
@[simp] theorem State.modRegs_batches (s : State) (f : Regs → Regs) : (s.modRegs f).batches = s.batches := rfl
@[simp] theorem State.modRegs_grids (s : State) (f : Regs → Regs) : (s.modRegs f).grids = s.grids := rfl
@[simp] theorem State.modRegs_nextGrid (s : State) (f : Regs → Regs) : (s.modRegs f).nextGrid = s.nextGrid := rfl
@[simp] theorem State.modRegs_rays (s : State) (f : Regs → Regs) : (s.modRegs f).rays = s.rays := rfl
@[simp] theorem State.modRegs_nextRay (s : State) (f : Regs → Regs) : (s.modRegs f).nextRay = s.nextRay := rfl
@[simp] theorem State.modRegs_tlb (s : State) (f : Regs → Regs) : (s.modRegs f).tlb = s.tlb := rfl
@[simp] theorem State.modRegs_chamberTlb (s : State) (f : Regs → Regs) : (s.modRegs f).chamberTlb = s.chamberTlb := rfl
@[simp] theorem State.modRegs_imid (s : State) (f : Regs → Regs) : (s.modRegs f).imid = s.imid := rfl
@[simp] theorem State.modRegs_lines (s : State) (f : Regs → Regs) : (s.modRegs f).lines = s.lines := rfl
@[simp] theorem State.modRegs_slicesOut (s : State) (f : Regs → Regs) : (s.modRegs f).slicesOut = s.slicesOut := rfl
@[simp] theorem State.modRegs_sliceDetected (s : State) (f : Regs → Regs) : (s.modRegs f).sliceDetected = s.sliceDetected := rfl
@[simp] theorem State.modRegs_bulkOut (s : State) (f : Regs → Regs) : (s.modRegs f).bulkOut = s.bulkOut := rfl
@[simp] theorem State.modRegs_bulkDetected (s : State) (f : Regs → Regs) : (s.modRegs f).bulkDetected = s.bulkDetected := rfl
@[simp] theorem State.modRegs_dispSlot (s : State) (f : Regs → Regs) : (s.modRegs f).dispSlot = s.dispSlot := rfl
@[simp] theorem State.modRegs_markOut (s : State) (f : Regs → Regs) : (s.modRegs f).markOut = s.markOut := rfl
@[simp] theorem State.modRegs_regs (s : State) (f : Regs → Regs) : (s.modRegs f).regs = f s.regs := rfl
@[simp] theorem State.modRegs_verify (s : State) (f : Regs → Regs) : (s.modRegs f).verify = s.verify := rfl
@[simp] theorem State.modRegs_saveKeys (s : State) (f : Regs → Regs) : (s.modRegs f).saveKeys = s.saveKeys := rfl
@[simp] theorem State.modRegs_lifeCycle (s : State) (f : Regs → Regs) : (s.modRegs f).lifeCycle = s.lifeCycle := rfl
@[simp] theorem State.modRegs_msix (s : State) (f : Regs → Regs) : (s.modRegs f).msix = s.msix := rfl
@[simp] theorem State.modRegs_ioInts (s : State) (f : Regs → Regs) : (s.modRegs f).ioInts = s.ioInts := rfl
@[simp] theorem State.modRegs_heads (s : State) (f : Regs → Regs) : (s.modRegs f).heads = s.heads := rfl
@[simp] theorem State.modRegs_power (s : State) (f : Regs → Regs) : (s.modRegs f).power = s.power := rfl
@[simp] theorem State.modRegs_alwaysOn (s : State) (f : Regs → Regs) : (s.modRegs f).alwaysOn = s.alwaysOn := rfl
@[simp] theorem State.modRegs_rc (s : State) (f : Regs → Regs) : (s.modRegs f).rc = s.rc := rfl
@[simp] theorem State.modRegs_powerImage (s : State) (f : Regs → Regs) : (s.modRegs f).powerImage = s.powerImage := rfl
@[simp] theorem State.modRegs_budget (s : State) (f : Regs → Regs) : (s.modRegs f).budget = s.budget := rfl
@[simp] theorem State.modRegs_lastGrant (s : State) (f : Regs → Regs) : (s.modRegs f).lastGrant = s.lastGrant := rfl
@[simp] theorem State.modRegs_demand (s : State) (f : Regs → Regs) : (s.modRegs f).demand = s.demand := rfl
@[simp] theorem State.modRegs_selfRefresh (s : State) (f : Regs → Regs) : (s.modRegs f).selfRefresh = s.selfRefresh := rfl
@[simp] theorem State.modRegs_booted (s : State) (f : Regs → Regs) : (s.modRegs f).booted = s.booted := rfl
@[simp] theorem State.modRegs_heldWrites (s : State) (f : Regs → Regs) : (s.modRegs f).heldWrites = s.heldWrites := rfl
@[simp] theorem State.modRegs_loadWait (s : State) (f : Regs → Regs) : (s.modRegs f).loadWait = s.loadWait := rfl
@[simp] theorem State.modRegs_loadDead (s : State) (f : Regs → Regs) : (s.modRegs f).loadDead = s.loadDead := rfl
@[simp] theorem State.modHead_mem (s : State) (n : Nat) (f : Head → Head) : (s.modHead n f).mem = s.mem := rfl
@[simp] theorem State.modHead_poison (s : State) (n : Nat) (f : Head → Head) : (s.modHead n f).poison = s.poison := rfl
@[simp] theorem State.modHead_cycle (s : State) (n : Nat) (f : Head → Head) : (s.modHead n f).cycle = s.cycle := rfl
@[simp] theorem State.modHead_agenda (s : State) (n : Nat) (f : Head → Head) : (s.modHead n f).agenda = s.agenda := rfl
@[simp] theorem State.modHead_choices (s : State) (n : Nat) (f : Head → Head) : (s.modHead n f).choices = s.choices := rfl
@[simp] theorem State.modHead_fresh (s : State) (n : Nat) (f : Head → Head) : (s.modHead n f).fresh = s.fresh := rfl
@[simp] theorem State.modHead_hostPend (s : State) (n : Nat) (f : Head → Head) : (s.modHead n f).hostPend = s.hostPend := rfl
@[simp] theorem State.modHead_cur (s : State) (n : Nat) (f : Head → Head) : (s.modHead n f).cur = s.cur := rfl
@[simp] theorem State.modHead_issued (s : State) (n : Nat) (f : Head → Head) : (s.modHead n f).issued = s.issued := rfl
@[simp] theorem State.modHead_cores (s : State) (n : Nat) (f : Head → Head) : (s.modHead n f).cores = s.cores := rfl
@[simp] theorem State.modHead_groups (s : State) (n : Nat) (f : Head → Head) : (s.modHead n f).groups = s.groups := rfl
@[simp] theorem State.modHead_blocks (s : State) (n : Nat) (f : Head → Head) : (s.modHead n f).blocks = s.blocks := rfl
@[simp] theorem State.modHead_ctxs (s : State) (n : Nat) (f : Head → Head) : (s.modHead n f).ctxs = s.ctxs := rfl
@[simp] theorem State.modHead_islands (s : State) (n : Nat) (f : Head → Head) : (s.modHead n f).islands = s.islands := rfl
@[simp] theorem State.modHead_images (s : State) (n : Nat) (f : Head → Head) : (s.modHead n f).images = s.images := rfl
@[simp] theorem State.modHead_engines (s : State) (n : Nat) (f : Head → Head) : (s.modHead n f).engines = s.engines := rfl
@[simp] theorem State.modHead_generations (s : State) (n : Nat) (f : Head → Head) : (s.modHead n f).generations = s.generations := rfl
@[simp] theorem State.modHead_copies (s : State) (n : Nat) (f : Head → Head) : (s.modHead n f).copies = s.copies := rfl
@[simp] theorem State.modHead_batches (s : State) (n : Nat) (f : Head → Head) : (s.modHead n f).batches = s.batches := rfl
@[simp] theorem State.modHead_grids (s : State) (n : Nat) (f : Head → Head) : (s.modHead n f).grids = s.grids := rfl
@[simp] theorem State.modHead_nextGrid (s : State) (n : Nat) (f : Head → Head) : (s.modHead n f).nextGrid = s.nextGrid := rfl
@[simp] theorem State.modHead_rays (s : State) (n : Nat) (f : Head → Head) : (s.modHead n f).rays = s.rays := rfl
@[simp] theorem State.modHead_nextRay (s : State) (n : Nat) (f : Head → Head) : (s.modHead n f).nextRay = s.nextRay := rfl
@[simp] theorem State.modHead_tlb (s : State) (n : Nat) (f : Head → Head) : (s.modHead n f).tlb = s.tlb := rfl
@[simp] theorem State.modHead_chamberTlb (s : State) (n : Nat) (f : Head → Head) : (s.modHead n f).chamberTlb = s.chamberTlb := rfl
@[simp] theorem State.modHead_imid (s : State) (n : Nat) (f : Head → Head) : (s.modHead n f).imid = s.imid := rfl
@[simp] theorem State.modHead_lines (s : State) (n : Nat) (f : Head → Head) : (s.modHead n f).lines = s.lines := rfl
@[simp] theorem State.modHead_slicesOut (s : State) (n : Nat) (f : Head → Head) : (s.modHead n f).slicesOut = s.slicesOut := rfl
@[simp] theorem State.modHead_sliceDetected (s : State) (n : Nat) (f : Head → Head) : (s.modHead n f).sliceDetected = s.sliceDetected := rfl
@[simp] theorem State.modHead_bulkOut (s : State) (n : Nat) (f : Head → Head) : (s.modHead n f).bulkOut = s.bulkOut := rfl
@[simp] theorem State.modHead_bulkDetected (s : State) (n : Nat) (f : Head → Head) : (s.modHead n f).bulkDetected = s.bulkDetected := rfl
@[simp] theorem State.modHead_dispSlot (s : State) (n : Nat) (f : Head → Head) : (s.modHead n f).dispSlot = s.dispSlot := rfl
@[simp] theorem State.modHead_markOut (s : State) (n : Nat) (f : Head → Head) : (s.modHead n f).markOut = s.markOut := rfl
@[simp] theorem State.modHead_regs (s : State) (n : Nat) (f : Head → Head) : (s.modHead n f).regs = s.regs := rfl
@[simp] theorem State.modHead_verify (s : State) (n : Nat) (f : Head → Head) : (s.modHead n f).verify = s.verify := rfl
@[simp] theorem State.modHead_saveKeys (s : State) (n : Nat) (f : Head → Head) : (s.modHead n f).saveKeys = s.saveKeys := rfl
@[simp] theorem State.modHead_lifeCycle (s : State) (n : Nat) (f : Head → Head) : (s.modHead n f).lifeCycle = s.lifeCycle := rfl
@[simp] theorem State.modHead_msix (s : State) (n : Nat) (f : Head → Head) : (s.modHead n f).msix = s.msix := rfl
@[simp] theorem State.modHead_ioInts (s : State) (n : Nat) (f : Head → Head) : (s.modHead n f).ioInts = s.ioInts := rfl
@[simp] theorem State.modHead_heads (s : State) (n : Nat) (f : Head → Head) : (s.modHead n f).heads = listSet s.heads n (f (s.head n)) := rfl
@[simp] theorem State.modHead_power (s : State) (n : Nat) (f : Head → Head) : (s.modHead n f).power = s.power := rfl
@[simp] theorem State.modHead_alwaysOn (s : State) (n : Nat) (f : Head → Head) : (s.modHead n f).alwaysOn = s.alwaysOn := rfl
@[simp] theorem State.modHead_rc (s : State) (n : Nat) (f : Head → Head) : (s.modHead n f).rc = s.rc := rfl
@[simp] theorem State.modHead_powerImage (s : State) (n : Nat) (f : Head → Head) : (s.modHead n f).powerImage = s.powerImage := rfl
@[simp] theorem State.modHead_budget (s : State) (n : Nat) (f : Head → Head) : (s.modHead n f).budget = s.budget := rfl
@[simp] theorem State.modHead_lastGrant (s : State) (n : Nat) (f : Head → Head) : (s.modHead n f).lastGrant = s.lastGrant := rfl
@[simp] theorem State.modHead_demand (s : State) (n : Nat) (f : Head → Head) : (s.modHead n f).demand = s.demand := rfl
@[simp] theorem State.modHead_selfRefresh (s : State) (n : Nat) (f : Head → Head) : (s.modHead n f).selfRefresh = s.selfRefresh := rfl
@[simp] theorem State.modHead_booted (s : State) (n : Nat) (f : Head → Head) : (s.modHead n f).booted = s.booted := rfl
@[simp] theorem State.modHead_heldWrites (s : State) (n : Nat) (f : Head → Head) : (s.modHead n f).heldWrites = s.heldWrites := rfl
@[simp] theorem State.modHead_loadWait (s : State) (n : Nat) (f : Head → Head) : (s.modHead n f).loadWait = s.loadWait := rfl
@[simp] theorem State.modHead_loadDead (s : State) (n : Nat) (f : Head → Head) : (s.modHead n f).loadDead = s.loadDead := rfl
@[simp] theorem State.sendMsi_mem (s : State) (v : Nat) : (sendMsi s v).mem = s.mem := by unfold sendMsi; split <;> rfl
@[simp] theorem State.sendMsi_poison (s : State) (v : Nat) : (sendMsi s v).poison = s.poison := by unfold sendMsi; split <;> rfl
@[simp] theorem State.sendMsi_cycle (s : State) (v : Nat) : (sendMsi s v).cycle = s.cycle := by unfold sendMsi; split <;> rfl
@[simp] theorem State.sendMsi_agenda (s : State) (v : Nat) : (sendMsi s v).agenda = s.agenda := by unfold sendMsi; split <;> rfl
@[simp] theorem State.sendMsi_choices (s : State) (v : Nat) : (sendMsi s v).choices = s.choices := by unfold sendMsi; split <;> rfl
@[simp] theorem State.sendMsi_fresh (s : State) (v : Nat) : (sendMsi s v).fresh = s.fresh := by unfold sendMsi; split <;> rfl
@[simp] theorem State.sendMsi_hostPend (s : State) (v : Nat) : (sendMsi s v).hostPend = s.hostPend := by unfold sendMsi; split <;> rfl
@[simp] theorem State.sendMsi_cur (s : State) (v : Nat) : (sendMsi s v).cur = s.cur := by unfold sendMsi; split <;> rfl
@[simp] theorem State.sendMsi_issued (s : State) (v : Nat) : (sendMsi s v).issued = s.issued := by unfold sendMsi; split <;> rfl
@[simp] theorem State.sendMsi_cores (s : State) (v : Nat) : (sendMsi s v).cores = s.cores := by unfold sendMsi; split <;> rfl
@[simp] theorem State.sendMsi_groups (s : State) (v : Nat) : (sendMsi s v).groups = s.groups := by unfold sendMsi; split <;> rfl
@[simp] theorem State.sendMsi_blocks (s : State) (v : Nat) : (sendMsi s v).blocks = s.blocks := by unfold sendMsi; split <;> rfl
@[simp] theorem State.sendMsi_ctxs (s : State) (v : Nat) : (sendMsi s v).ctxs = s.ctxs := by unfold sendMsi; split <;> rfl
@[simp] theorem State.sendMsi_islands (s : State) (v : Nat) : (sendMsi s v).islands = s.islands := by unfold sendMsi; split <;> rfl
@[simp] theorem State.sendMsi_images (s : State) (v : Nat) : (sendMsi s v).images = s.images := by unfold sendMsi; split <;> rfl
@[simp] theorem State.sendMsi_engines (s : State) (v : Nat) : (sendMsi s v).engines = s.engines := by unfold sendMsi; split <;> rfl
@[simp] theorem State.sendMsi_generations (s : State) (v : Nat) : (sendMsi s v).generations = s.generations := by unfold sendMsi; split <;> rfl
@[simp] theorem State.sendMsi_copies (s : State) (v : Nat) : (sendMsi s v).copies = s.copies := by unfold sendMsi; split <;> rfl
@[simp] theorem State.sendMsi_batches (s : State) (v : Nat) : (sendMsi s v).batches = s.batches := by unfold sendMsi; split <;> rfl
@[simp] theorem State.sendMsi_grids (s : State) (v : Nat) : (sendMsi s v).grids = s.grids := by unfold sendMsi; split <;> rfl
@[simp] theorem State.sendMsi_nextGrid (s : State) (v : Nat) : (sendMsi s v).nextGrid = s.nextGrid := by unfold sendMsi; split <;> rfl
@[simp] theorem State.sendMsi_rays (s : State) (v : Nat) : (sendMsi s v).rays = s.rays := by unfold sendMsi; split <;> rfl
@[simp] theorem State.sendMsi_nextRay (s : State) (v : Nat) : (sendMsi s v).nextRay = s.nextRay := by unfold sendMsi; split <;> rfl
@[simp] theorem State.sendMsi_tlb (s : State) (v : Nat) : (sendMsi s v).tlb = s.tlb := by unfold sendMsi; split <;> rfl
@[simp] theorem State.sendMsi_chamberTlb (s : State) (v : Nat) : (sendMsi s v).chamberTlb = s.chamberTlb := by unfold sendMsi; split <;> rfl
@[simp] theorem State.sendMsi_imid (s : State) (v : Nat) : (sendMsi s v).imid = s.imid := by unfold sendMsi; split <;> rfl
@[simp] theorem State.sendMsi_lines (s : State) (v : Nat) : (sendMsi s v).lines = s.lines := by unfold sendMsi; split <;> rfl
@[simp] theorem State.sendMsi_slicesOut (s : State) (v : Nat) : (sendMsi s v).slicesOut = s.slicesOut := by unfold sendMsi; split <;> rfl
@[simp] theorem State.sendMsi_sliceDetected (s : State) (v : Nat) : (sendMsi s v).sliceDetected = s.sliceDetected := by unfold sendMsi; split <;> rfl
@[simp] theorem State.sendMsi_bulkOut (s : State) (v : Nat) : (sendMsi s v).bulkOut = s.bulkOut := by unfold sendMsi; split <;> rfl
@[simp] theorem State.sendMsi_bulkDetected (s : State) (v : Nat) : (sendMsi s v).bulkDetected = s.bulkDetected := by unfold sendMsi; split <;> rfl
@[simp] theorem State.sendMsi_dispSlot (s : State) (v : Nat) : (sendMsi s v).dispSlot = s.dispSlot := by unfold sendMsi; split <;> rfl
@[simp] theorem State.sendMsi_markOut (s : State) (v : Nat) : (sendMsi s v).markOut = s.markOut := by unfold sendMsi; split <;> rfl
@[simp] theorem State.sendMsi_verify (s : State) (v : Nat) : (sendMsi s v).verify = s.verify := by unfold sendMsi; split <;> rfl
@[simp] theorem State.sendMsi_saveKeys (s : State) (v : Nat) : (sendMsi s v).saveKeys = s.saveKeys := by unfold sendMsi; split <;> rfl
@[simp] theorem State.sendMsi_lifeCycle (s : State) (v : Nat) : (sendMsi s v).lifeCycle = s.lifeCycle := by unfold sendMsi; split <;> rfl
@[simp] theorem State.sendMsi_ioInts (s : State) (v : Nat) : (sendMsi s v).ioInts = s.ioInts := by unfold sendMsi; split <;> rfl
@[simp] theorem State.sendMsi_heads (s : State) (v : Nat) : (sendMsi s v).heads = s.heads := by unfold sendMsi; split <;> rfl
@[simp] theorem State.sendMsi_power (s : State) (v : Nat) : (sendMsi s v).power = s.power := by unfold sendMsi; split <;> rfl
@[simp] theorem State.sendMsi_alwaysOn (s : State) (v : Nat) : (sendMsi s v).alwaysOn = s.alwaysOn := by unfold sendMsi; split <;> rfl
@[simp] theorem State.sendMsi_rc (s : State) (v : Nat) : (sendMsi s v).rc = s.rc := by unfold sendMsi; split <;> rfl
@[simp] theorem State.sendMsi_powerImage (s : State) (v : Nat) : (sendMsi s v).powerImage = s.powerImage := by unfold sendMsi; split <;> rfl
@[simp] theorem State.sendMsi_budget (s : State) (v : Nat) : (sendMsi s v).budget = s.budget := by unfold sendMsi; split <;> rfl
@[simp] theorem State.sendMsi_lastGrant (s : State) (v : Nat) : (sendMsi s v).lastGrant = s.lastGrant := by unfold sendMsi; split <;> rfl
@[simp] theorem State.sendMsi_demand (s : State) (v : Nat) : (sendMsi s v).demand = s.demand := by unfold sendMsi; split <;> rfl
@[simp] theorem State.sendMsi_selfRefresh (s : State) (v : Nat) : (sendMsi s v).selfRefresh = s.selfRefresh := by unfold sendMsi; split <;> rfl
@[simp] theorem State.sendMsi_booted (s : State) (v : Nat) : (sendMsi s v).booted = s.booted := by unfold sendMsi; split <;> rfl
@[simp] theorem State.sendMsi_heldWrites (s : State) (v : Nat) : (sendMsi s v).heldWrites = s.heldWrites := by unfold sendMsi; split <;> rfl
@[simp] theorem State.sendMsi_loadWait (s : State) (v : Nat) : (sendMsi s v).loadWait = s.loadWait := by unfold sendMsi; split <;> rfl
@[simp] theorem State.sendMsi_loadDead (s : State) (v : Nat) : (sendMsi s v).loadDead = s.loadDead := by unfold sendMsi; split <;> rfl
@[simp] theorem State.performWrite_cycle (s : State) (pa : Nat) (bs : List Byte) : (performWrite s pa bs).cycle = s.cycle := by unfold performWrite; split <;> rfl
@[simp] theorem State.performWrite_agenda (s : State) (pa : Nat) (bs : List Byte) : (performWrite s pa bs).agenda = s.agenda := by unfold performWrite; split <;> rfl
@[simp] theorem State.performWrite_choices (s : State) (pa : Nat) (bs : List Byte) : (performWrite s pa bs).choices = s.choices := by unfold performWrite; split <;> rfl
@[simp] theorem State.performWrite_fresh (s : State) (pa : Nat) (bs : List Byte) : (performWrite s pa bs).fresh = s.fresh := by unfold performWrite; split <;> rfl
@[simp] theorem State.performWrite_hostPend (s : State) (pa : Nat) (bs : List Byte) : (performWrite s pa bs).hostPend = s.hostPend := by unfold performWrite; split <;> rfl
@[simp] theorem State.performWrite_cur (s : State) (pa : Nat) (bs : List Byte) : (performWrite s pa bs).cur = s.cur := by unfold performWrite; split <;> rfl
@[simp] theorem State.performWrite_issued (s : State) (pa : Nat) (bs : List Byte) : (performWrite s pa bs).issued = s.issued := by unfold performWrite; split <;> rfl
@[simp] theorem State.performWrite_cores (s : State) (pa : Nat) (bs : List Byte) : (performWrite s pa bs).cores = s.cores := by unfold performWrite; split <;> rfl
@[simp] theorem State.performWrite_blocks (s : State) (pa : Nat) (bs : List Byte) : (performWrite s pa bs).blocks = s.blocks := by unfold performWrite; split <;> rfl
@[simp] theorem State.performWrite_ctxs (s : State) (pa : Nat) (bs : List Byte) : (performWrite s pa bs).ctxs = s.ctxs := by unfold performWrite; split <;> rfl
@[simp] theorem State.performWrite_islands (s : State) (pa : Nat) (bs : List Byte) : (performWrite s pa bs).islands = s.islands := by unfold performWrite; split <;> rfl
@[simp] theorem State.performWrite_images (s : State) (pa : Nat) (bs : List Byte) : (performWrite s pa bs).images = s.images := by unfold performWrite; split <;> rfl
@[simp] theorem State.performWrite_engines (s : State) (pa : Nat) (bs : List Byte) : (performWrite s pa bs).engines = s.engines := by unfold performWrite; split <;> rfl
@[simp] theorem State.performWrite_generations (s : State) (pa : Nat) (bs : List Byte) : (performWrite s pa bs).generations = s.generations := by unfold performWrite; split <;> rfl
@[simp] theorem State.performWrite_copies (s : State) (pa : Nat) (bs : List Byte) : (performWrite s pa bs).copies = s.copies := by unfold performWrite; split <;> rfl
@[simp] theorem State.performWrite_batches (s : State) (pa : Nat) (bs : List Byte) : (performWrite s pa bs).batches = s.batches := by unfold performWrite; split <;> rfl
@[simp] theorem State.performWrite_grids (s : State) (pa : Nat) (bs : List Byte) : (performWrite s pa bs).grids = s.grids := by unfold performWrite; split <;> rfl
@[simp] theorem State.performWrite_nextGrid (s : State) (pa : Nat) (bs : List Byte) : (performWrite s pa bs).nextGrid = s.nextGrid := by unfold performWrite; split <;> rfl
@[simp] theorem State.performWrite_rays (s : State) (pa : Nat) (bs : List Byte) : (performWrite s pa bs).rays = s.rays := by unfold performWrite; split <;> rfl
@[simp] theorem State.performWrite_nextRay (s : State) (pa : Nat) (bs : List Byte) : (performWrite s pa bs).nextRay = s.nextRay := by unfold performWrite; split <;> rfl
@[simp] theorem State.performWrite_tlb (s : State) (pa : Nat) (bs : List Byte) : (performWrite s pa bs).tlb = s.tlb := by unfold performWrite; split <;> rfl
@[simp] theorem State.performWrite_chamberTlb (s : State) (pa : Nat) (bs : List Byte) : (performWrite s pa bs).chamberTlb = s.chamberTlb := by unfold performWrite; split <;> rfl
@[simp] theorem State.performWrite_imid (s : State) (pa : Nat) (bs : List Byte) : (performWrite s pa bs).imid = s.imid := by unfold performWrite; split <;> rfl
@[simp] theorem State.performWrite_lines (s : State) (pa : Nat) (bs : List Byte) : (performWrite s pa bs).lines = s.lines := by unfold performWrite; split <;> rfl
@[simp] theorem State.performWrite_slicesOut (s : State) (pa : Nat) (bs : List Byte) : (performWrite s pa bs).slicesOut = s.slicesOut := by unfold performWrite; split <;> rfl
@[simp] theorem State.performWrite_sliceDetected (s : State) (pa : Nat) (bs : List Byte) : (performWrite s pa bs).sliceDetected = s.sliceDetected := by unfold performWrite; split <;> rfl
@[simp] theorem State.performWrite_bulkOut (s : State) (pa : Nat) (bs : List Byte) : (performWrite s pa bs).bulkOut = s.bulkOut := by unfold performWrite; split <;> rfl
@[simp] theorem State.performWrite_bulkDetected (s : State) (pa : Nat) (bs : List Byte) : (performWrite s pa bs).bulkDetected = s.bulkDetected := by unfold performWrite; split <;> rfl
@[simp] theorem State.performWrite_dispSlot (s : State) (pa : Nat) (bs : List Byte) : (performWrite s pa bs).dispSlot = s.dispSlot := by unfold performWrite; split <;> rfl
@[simp] theorem State.performWrite_markOut (s : State) (pa : Nat) (bs : List Byte) : (performWrite s pa bs).markOut = s.markOut := by unfold performWrite; split <;> rfl
@[simp] theorem State.performWrite_regs (s : State) (pa : Nat) (bs : List Byte) : (performWrite s pa bs).regs = s.regs := by unfold performWrite; split <;> rfl
@[simp] theorem State.performWrite_verify (s : State) (pa : Nat) (bs : List Byte) : (performWrite s pa bs).verify = s.verify := by unfold performWrite; split <;> rfl
@[simp] theorem State.performWrite_saveKeys (s : State) (pa : Nat) (bs : List Byte) : (performWrite s pa bs).saveKeys = s.saveKeys := by unfold performWrite; split <;> rfl
@[simp] theorem State.performWrite_lifeCycle (s : State) (pa : Nat) (bs : List Byte) : (performWrite s pa bs).lifeCycle = s.lifeCycle := by unfold performWrite; split <;> rfl
@[simp] theorem State.performWrite_msix (s : State) (pa : Nat) (bs : List Byte) : (performWrite s pa bs).msix = s.msix := by unfold performWrite; split <;> rfl
@[simp] theorem State.performWrite_ioInts (s : State) (pa : Nat) (bs : List Byte) : (performWrite s pa bs).ioInts = s.ioInts := by unfold performWrite; split <;> rfl
@[simp] theorem State.performWrite_heads (s : State) (pa : Nat) (bs : List Byte) : (performWrite s pa bs).heads = s.heads := by unfold performWrite; split <;> rfl
@[simp] theorem State.performWrite_power (s : State) (pa : Nat) (bs : List Byte) : (performWrite s pa bs).power = s.power := by unfold performWrite; split <;> rfl
@[simp] theorem State.performWrite_alwaysOn (s : State) (pa : Nat) (bs : List Byte) : (performWrite s pa bs).alwaysOn = s.alwaysOn := by unfold performWrite; split <;> rfl
@[simp] theorem State.performWrite_rc (s : State) (pa : Nat) (bs : List Byte) : (performWrite s pa bs).rc = s.rc := by unfold performWrite; split <;> rfl
@[simp] theorem State.performWrite_powerImage (s : State) (pa : Nat) (bs : List Byte) : (performWrite s pa bs).powerImage = s.powerImage := by unfold performWrite; split <;> rfl
@[simp] theorem State.performWrite_budget (s : State) (pa : Nat) (bs : List Byte) : (performWrite s pa bs).budget = s.budget := by unfold performWrite; split <;> rfl
@[simp] theorem State.performWrite_lastGrant (s : State) (pa : Nat) (bs : List Byte) : (performWrite s pa bs).lastGrant = s.lastGrant := by unfold performWrite; split <;> rfl
@[simp] theorem State.performWrite_demand (s : State) (pa : Nat) (bs : List Byte) : (performWrite s pa bs).demand = s.demand := by unfold performWrite; split <;> rfl
@[simp] theorem State.performWrite_selfRefresh (s : State) (pa : Nat) (bs : List Byte) : (performWrite s pa bs).selfRefresh = s.selfRefresh := by unfold performWrite; split <;> rfl
@[simp] theorem State.performWrite_booted (s : State) (pa : Nat) (bs : List Byte) : (performWrite s pa bs).booted = s.booted := by unfold performWrite; split <;> rfl
@[simp] theorem State.performWrite_heldWrites (s : State) (pa : Nat) (bs : List Byte) : (performWrite s pa bs).heldWrites = s.heldWrites := by unfold performWrite; split <;> rfl
@[simp] theorem State.performWrite_loadWait (s : State) (pa : Nat) (bs : List Byte) : (performWrite s pa bs).loadWait = s.loadWait := by unfold performWrite; split <;> rfl
@[simp] theorem State.performWrite_loadDead (s : State) (pa : Nat) (bs : List Byte) : (performWrite s pa bs).loadDead = s.loadDead := by unfold performWrite; split <;> rfl
@[simp] theorem Group.writeS_ref (g : Group) (n : BitVec 5) (v : W64) : (g.writeS n v).ref = g.ref := by unfold Group.writeS; split <;> rfl
@[simp] theorem Group.writeS_ctx (g : Group) (n : BitVec 5) (v : W64) : (g.writeS n v).ctx = g.ctx := by unfold Group.writeS; split <;> rfl
@[simp] theorem Group.writeS_spc (g : Group) (n : BitVec 5) (v : W64) : (g.writeS n v).spc = g.spc := by unfold Group.writeS; split <;> rfl
@[simp] theorem Group.writeS_lpc (g : Group) (n : BitVec 5) (v : W64) : (g.writeS n v).lpc = g.lpc := by unfold Group.writeS; split <;> rfl
@[simp] theorem Group.writeS_v (g : Group) (n : BitVec 5) (v : W64) : (g.writeS n v).v = g.v := by unfold Group.writeS; split <;> rfl
@[simp] theorem Group.writeS_h (g : Group) (n : BitVec 5) (v : W64) : (g.writeS n v).h = g.h := by unfold Group.writeS; split <;> rfl
@[simp] theorem Group.writeS_p (g : Group) (n : BitVec 5) (v : W64) : (g.writeS n v).p = g.p := by unfold Group.writeS; split <;> rfl
@[simp] theorem Group.writeS_walkers (g : Group) (n : BitVec 5) (v : W64) : (g.writeS n v).walkers = g.walkers := by unfold Group.writeS; split <;> rfl
@[simp] theorem Group.writeS_e (g : Group) (n : BitVec 5) (v : W64) : (g.writeS n v).e = g.e := by unfold Group.writeS; split <;> rfl
@[simp] theorem Group.writeS_wlast (g : Group) (n : BitVec 5) (v : W64) : (g.writeS n v).wlast = g.wlast := by unfold Group.writeS; split <;> rfl
@[simp] theorem Group.writeS_trapm (g : Group) (n : BitVec 5) (v : W64) : (g.writeS n v).trapm = g.trapm := by unfold Group.writeS; split <;> rfl
@[simp] theorem Group.writeS_variant (g : Group) (n : BitVec 5) (v : W64) : (g.writeS n v).variant = g.variant := by unfold Group.writeS; split <;> rfl
@[simp] theorem Group.writeS_vcnt (g : Group) (n : BitVec 5) (v : W64) : (g.writeS n v).vcnt = g.vcnt := by unfold Group.writeS; split <;> rfl
@[simp] theorem Group.writeS_lane (g : Group) (n : BitVec 5) (v : W64) : (g.writeS n v).lane = g.lane := by unfold Group.writeS; split <;> rfl
@[simp] theorem Group.writeS_pos (g : Group) (n : BitVec 5) (v : W64) : (g.writeS n v).pos = g.pos := by unfold Group.writeS; split <;> rfl
@[simp] theorem Group.writeS_wide (g : Group) (n : BitVec 5) (v : W64) : (g.writeS n v).wide = g.wide := by unfold Group.writeS; split <;> rfl
@[simp] theorem Group.writeS_cause (g : Group) (n : BitVec 5) (v : W64) : (g.writeS n v).cause = g.cause := by unfold Group.writeS; split <;> rfl
@[simp] theorem Group.writeS_fsr (g : Group) (n : BitVec 5) (v : W64) : (g.writeS n v).fsr = g.fsr := by unfold Group.writeS; split <;> rfl
@[simp] theorem Group.writeS_sr (g : Group) (n : BitVec 5) (v : W64) : (g.writeS n v).sr = g.sr := by unfold Group.writeS; split <;> rfl
@[simp] theorem Group.writeS_priv (g : Group) (n : BitVec 5) (v : W64) : (g.writeS n v).priv = g.priv := by unfold Group.writeS; split <;> rfl
@[simp] theorem Group.writeS_badV (g : Group) (n : BitVec 5) (v : W64) : (g.writeS n v).badV = g.badV := by unfold Group.writeS; split <;> rfl
@[simp] theorem Group.writeS_badH (g : Group) (n : BitVec 5) (v : W64) : (g.writeS n v).badH = g.badH := by unfold Group.writeS; split <;> rfl
@[simp] theorem Group.writeS_badPriv (g : Group) (n : BitVec 5) (v : W64) : (g.writeS n v).badPriv = g.badPriv := by unfold Group.writeS; split <;> rfl
@[simp] theorem Group.writeS_runs (g : Group) (n : BitVec 5) (v : W64) : (g.writeS n v).runs = g.runs := by unfold Group.writeS; split <;> rfl
@[simp] theorem Group.writeS_trapRuns (g : Group) (n : BitVec 5) (v : W64) : (g.writeS n v).trapRuns = g.trapRuns := by unfold Group.writeS; split <;> rfl
@[simp] theorem Group.writeS_left (g : Group) (n : BitVec 5) (v : W64) : (g.writeS n v).left = g.left := by unfold Group.writeS; split <;> rfl
@[simp] theorem Group.writeS_stack (g : Group) (n : BitVec 5) (v : W64) : (g.writeS n v).stack = g.stack := by unfold Group.writeS; split <;> rfl
@[simp] theorem Group.writeS_ras (g : Group) (n : BitVec 5) (v : W64) : (g.writeS n v).ras = g.ras := by unfold Group.writeS; split <;> rfl
@[simp] theorem Group.writeS_rasHw (g : Group) (n : BitVec 5) (v : W64) : (g.writeS n v).rasHw = g.rasHw := by unfold Group.writeS; split <;> rfl
@[simp] theorem Group.writeS_loads (g : Group) (n : BitVec 5) (v : W64) : (g.writeS n v).loads = g.loads := by unfold Group.writeS; split <;> rfl
@[simp] theorem Group.writeS_traces (g : Group) (n : BitVec 5) (v : W64) : (g.writeS n v).traces = g.traces := by unfold Group.writeS; split <;> rfl
@[simp] theorem Group.writeS_replay (g : Group) (n : BitVec 5) (v : W64) : (g.writeS n v).replay = g.replay := by unfold Group.writeS; split <;> rfl
@[simp] theorem Group.writeS_kept (g : Group) (n : BitVec 5) (v : W64) : (g.writeS n v).kept = g.kept := by unfold Group.writeS; split <;> rfl
@[simp] theorem Group.writeS_mons (g : Group) (n : BitVec 5) (v : W64) : (g.writeS n v).mons = g.mons := by unfold Group.writeS; split <;> rfl
@[simp] theorem Group.writeS_lastBatch (g : Group) (n : BitVec 5) (v : W64) : (g.writeS n v).lastBatch = g.lastBatch := by unfold Group.writeS; split <;> rfl
@[simp] theorem Group.writeS_nextCopy (g : Group) (n : BitVec 5) (v : W64) : (g.writeS n v).nextCopy = g.nextCopy := by unfold Group.writeS; split <;> rfl
@[simp] theorem Group.writeS_parkS (g : Group) (n : BitVec 5) (v : W64) : (g.writeS n v).parkS = g.parkS := by unfold Group.writeS; split <;> rfl
@[simp] theorem Group.writeS_parkL (g : Group) (n : BitVec 5) (v : W64) : (g.writeS n v).parkL = g.parkL := by unfold Group.writeS; split <;> rfl
@[simp] theorem Group.writeS_waits (g : Group) (n : BitVec 5) (v : W64) : (g.writeS n v).waits = g.waits := by unfold Group.writeS; split <;> rfl
@[simp] theorem Group.writeS_frozen (g : Group) (n : BitVec 5) (v : W64) : (g.writeS n v).frozen = g.frozen := by unfold Group.writeS; split <;> rfl
@[simp] theorem Group.writeS_served (g : Group) (n : BitVec 5) (v : W64) : (g.writeS n v).served = g.served := by unfold Group.writeS; split <;> rfl
@[simp] theorem Group.writeS_held (g : Group) (n : BitVec 5) (v : W64) : (g.writeS n v).held = g.held := by unfold Group.writeS; split <;> rfl
@[simp] theorem Group.writeS_heldSeq (g : Group) (n : BitVec 5) (v : W64) : (g.writeS n v).heldSeq = g.heldSeq := by unfold Group.writeS; split <;> rfl
@[simp] theorem Group.writeS_pend (g : Group) (n : BitVec 5) (v : W64) : (g.writeS n v).pend = g.pend := by unfold Group.writeS; split <;> rfl
@[simp] theorem Group.writeS_hold (g : Group) (n : BitVec 5) (v : W64) : (g.writeS n v).hold = g.hold := by unfold Group.writeS; split <;> rfl
@[simp] theorem Group.writeS_skipbp (g : Group) (n : BitVec 5) (v : W64) : (g.writeS n v).skipbp = g.skipbp := by unfold Group.writeS; split <;> rfl
@[simp] theorem Group.writeS_skipbpL (g : Group) (n : BitVec 5) (v : W64) : (g.writeS n v).skipbpL = g.skipbpL := by unfold Group.writeS; split <;> rfl
@[simp] theorem Group.writeS_stopReq (g : Group) (n : BitVec 5) (v : W64) : (g.writeS n v).stopReq = g.stopReq := by unfold Group.writeS; split <;> rfl
@[simp] theorem Group.writeS_exited (g : Group) (n : BitVec 5) (v : W64) : (g.writeS n v).exited = g.exited := by unfold Group.writeS; split <;> rfl
@[simp] theorem Group.writeS_stamp (g : Group) (n : BitVec 5) (v : W64) : (g.writeS n v).stamp = g.stamp := by unfold Group.writeS; split <;> rfl
@[simp] theorem Group.writeS_blockedS (g : Group) (n : BitVec 5) (v : W64) : (g.writeS n v).blockedS = g.blockedS := by unfold Group.writeS; split <;> rfl
@[simp] theorem Group.writeS_blockedL (g : Group) (n : BitVec 5) (v : W64) : (g.writeS n v).blockedL = g.blockedL := by unfold Group.writeS; split <;> rfl
@[simp] theorem Group.writeS_fenced (g : Group) (n : BitVec 5) (v : W64) : (g.writeS n v).fenced = g.fenced := by unfold Group.writeS; split <;> rfl
@[simp] theorem Group.writeS_wordS (g : Group) (n : BitVec 5) (v : W64) : (g.writeS n v).wordS = g.wordS := by unfold Group.writeS; split <;> rfl
@[simp] theorem Group.writeS_wordL (g : Group) (n : BitVec 5) (v : W64) : (g.writeS n v).wordL = g.wordL := by unfold Group.writeS; split <;> rfl
@[simp] theorem Group.writeS_inject (g : Group) (n : BitVec 5) (v : W64) : (g.writeS n v).inject = g.inject := by unfold Group.writeS; split <;> rfl
@[simp] theorem Group.writeS_redirect (g : Group) (n : BitVec 5) (v : W64) : (g.writeS n v).redirect = g.redirect := by unfold Group.writeS; split <;> rfl
@[simp] theorem Group.writeS_loop (g : Group) (n : BitVec 5) (v : W64) : (g.writeS n v).loop = g.loop := by unfold Group.writeS; split <;> rfl
@[simp] theorem Group.writeS_laneUntil (g : Group) (n : BitVec 5) (v : W64) : (g.writeS n v).laneUntil = g.laneUntil := by unfold Group.writeS; split <;> rfl
@[simp] theorem Group.writeV_ref (g : Group) (n t : Nat) (v : W32) : (g.writeV n t v).ref = g.ref := rfl
@[simp] theorem Group.writeV_ctx (g : Group) (n t : Nat) (v : W32) : (g.writeV n t v).ctx = g.ctx := rfl
@[simp] theorem Group.writeV_spc (g : Group) (n t : Nat) (v : W32) : (g.writeV n t v).spc = g.spc := rfl
@[simp] theorem Group.writeV_lpc (g : Group) (n t : Nat) (v : W32) : (g.writeV n t v).lpc = g.lpc := rfl
@[simp] theorem Group.writeV_s (g : Group) (n t : Nat) (v : W32) : (g.writeV n t v).s = g.s := rfl
@[simp] theorem Group.writeV_h (g : Group) (n t : Nat) (v : W32) : (g.writeV n t v).h = g.h := rfl
@[simp] theorem Group.writeV_p (g : Group) (n t : Nat) (v : W32) : (g.writeV n t v).p = g.p := rfl
@[simp] theorem Group.writeV_walkers (g : Group) (n t : Nat) (v : W32) : (g.writeV n t v).walkers = g.walkers := rfl
@[simp] theorem Group.writeV_e (g : Group) (n t : Nat) (v : W32) : (g.writeV n t v).e = g.e := rfl
@[simp] theorem Group.writeV_wlast (g : Group) (n t : Nat) (v : W32) : (g.writeV n t v).wlast = g.wlast := rfl
@[simp] theorem Group.writeV_trapm (g : Group) (n t : Nat) (v : W32) : (g.writeV n t v).trapm = g.trapm := rfl
@[simp] theorem Group.writeV_variant (g : Group) (n t : Nat) (v : W32) : (g.writeV n t v).variant = g.variant := rfl
@[simp] theorem Group.writeV_vcnt (g : Group) (n t : Nat) (v : W32) : (g.writeV n t v).vcnt = g.vcnt := rfl
@[simp] theorem Group.writeV_lane (g : Group) (n t : Nat) (v : W32) : (g.writeV n t v).lane = g.lane := rfl
@[simp] theorem Group.writeV_pos (g : Group) (n t : Nat) (v : W32) : (g.writeV n t v).pos = g.pos := rfl
@[simp] theorem Group.writeV_wide (g : Group) (n t : Nat) (v : W32) : (g.writeV n t v).wide = g.wide := rfl
@[simp] theorem Group.writeV_cause (g : Group) (n t : Nat) (v : W32) : (g.writeV n t v).cause = g.cause := rfl
@[simp] theorem Group.writeV_fsr (g : Group) (n t : Nat) (v : W32) : (g.writeV n t v).fsr = g.fsr := rfl
@[simp] theorem Group.writeV_sr (g : Group) (n t : Nat) (v : W32) : (g.writeV n t v).sr = g.sr := rfl
@[simp] theorem Group.writeV_priv (g : Group) (n t : Nat) (v : W32) : (g.writeV n t v).priv = g.priv := rfl
@[simp] theorem Group.writeV_badH (g : Group) (n t : Nat) (v : W32) : (g.writeV n t v).badH = g.badH := rfl
@[simp] theorem Group.writeV_badPriv (g : Group) (n t : Nat) (v : W32) : (g.writeV n t v).badPriv = g.badPriv := rfl
@[simp] theorem Group.writeV_runs (g : Group) (n t : Nat) (v : W32) : (g.writeV n t v).runs = g.runs := rfl
@[simp] theorem Group.writeV_trapRuns (g : Group) (n t : Nat) (v : W32) : (g.writeV n t v).trapRuns = g.trapRuns := rfl
@[simp] theorem Group.writeV_left (g : Group) (n t : Nat) (v : W32) : (g.writeV n t v).left = g.left := rfl
@[simp] theorem Group.writeV_stack (g : Group) (n t : Nat) (v : W32) : (g.writeV n t v).stack = g.stack := rfl
@[simp] theorem Group.writeV_ras (g : Group) (n t : Nat) (v : W32) : (g.writeV n t v).ras = g.ras := rfl
@[simp] theorem Group.writeV_rasHw (g : Group) (n t : Nat) (v : W32) : (g.writeV n t v).rasHw = g.rasHw := rfl
@[simp] theorem Group.writeV_loads (g : Group) (n t : Nat) (v : W32) : (g.writeV n t v).loads = g.loads := rfl
@[simp] theorem Group.writeV_traces (g : Group) (n t : Nat) (v : W32) : (g.writeV n t v).traces = g.traces := rfl
@[simp] theorem Group.writeV_replay (g : Group) (n t : Nat) (v : W32) : (g.writeV n t v).replay = g.replay := rfl
@[simp] theorem Group.writeV_kept (g : Group) (n t : Nat) (v : W32) : (g.writeV n t v).kept = g.kept := rfl
@[simp] theorem Group.writeV_mons (g : Group) (n t : Nat) (v : W32) : (g.writeV n t v).mons = g.mons := rfl
@[simp] theorem Group.writeV_lastBatch (g : Group) (n t : Nat) (v : W32) : (g.writeV n t v).lastBatch = g.lastBatch := rfl
@[simp] theorem Group.writeV_nextCopy (g : Group) (n t : Nat) (v : W32) : (g.writeV n t v).nextCopy = g.nextCopy := rfl
@[simp] theorem Group.writeV_parkS (g : Group) (n t : Nat) (v : W32) : (g.writeV n t v).parkS = g.parkS := rfl
@[simp] theorem Group.writeV_parkL (g : Group) (n t : Nat) (v : W32) : (g.writeV n t v).parkL = g.parkL := rfl
@[simp] theorem Group.writeV_waits (g : Group) (n t : Nat) (v : W32) : (g.writeV n t v).waits = g.waits := rfl
@[simp] theorem Group.writeV_frozen (g : Group) (n t : Nat) (v : W32) : (g.writeV n t v).frozen = g.frozen := rfl
@[simp] theorem Group.writeV_served (g : Group) (n t : Nat) (v : W32) : (g.writeV n t v).served = g.served := rfl
@[simp] theorem Group.writeV_held (g : Group) (n t : Nat) (v : W32) : (g.writeV n t v).held = g.held := rfl
@[simp] theorem Group.writeV_heldSeq (g : Group) (n t : Nat) (v : W32) : (g.writeV n t v).heldSeq = g.heldSeq := rfl
@[simp] theorem Group.writeV_pend (g : Group) (n t : Nat) (v : W32) : (g.writeV n t v).pend = g.pend := rfl
@[simp] theorem Group.writeV_hold (g : Group) (n t : Nat) (v : W32) : (g.writeV n t v).hold = g.hold := rfl
@[simp] theorem Group.writeV_skipbp (g : Group) (n t : Nat) (v : W32) : (g.writeV n t v).skipbp = g.skipbp := rfl
@[simp] theorem Group.writeV_skipbpL (g : Group) (n t : Nat) (v : W32) : (g.writeV n t v).skipbpL = g.skipbpL := rfl
@[simp] theorem Group.writeV_stopReq (g : Group) (n t : Nat) (v : W32) : (g.writeV n t v).stopReq = g.stopReq := rfl
@[simp] theorem Group.writeV_exited (g : Group) (n t : Nat) (v : W32) : (g.writeV n t v).exited = g.exited := rfl
@[simp] theorem Group.writeV_stamp (g : Group) (n t : Nat) (v : W32) : (g.writeV n t v).stamp = g.stamp := rfl
@[simp] theorem Group.writeV_blockedS (g : Group) (n t : Nat) (v : W32) : (g.writeV n t v).blockedS = g.blockedS := rfl
@[simp] theorem Group.writeV_blockedL (g : Group) (n t : Nat) (v : W32) : (g.writeV n t v).blockedL = g.blockedL := rfl
@[simp] theorem Group.writeV_fenced (g : Group) (n t : Nat) (v : W32) : (g.writeV n t v).fenced = g.fenced := rfl
@[simp] theorem Group.writeV_wordS (g : Group) (n t : Nat) (v : W32) : (g.writeV n t v).wordS = g.wordS := rfl
@[simp] theorem Group.writeV_wordL (g : Group) (n t : Nat) (v : W32) : (g.writeV n t v).wordL = g.wordL := rfl
@[simp] theorem Group.writeV_inject (g : Group) (n t : Nat) (v : W32) : (g.writeV n t v).inject = g.inject := rfl
@[simp] theorem Group.writeV_redirect (g : Group) (n t : Nat) (v : W32) : (g.writeV n t v).redirect = g.redirect := rfl
@[simp] theorem Group.writeV_loop (g : Group) (n t : Nat) (v : W32) : (g.writeV n t v).loop = g.loop := rfl
@[simp] theorem Group.writeV_laneUntil (g : Group) (n t : Nat) (v : W32) : (g.writeV n t v).laneUntil = g.laneUntil := rfl
@[simp] theorem Group.writeH_ref (g : Group) (n t : Nat) (v : W32) : (g.writeH n t v).ref = g.ref := rfl
@[simp] theorem Group.writeH_ctx (g : Group) (n t : Nat) (v : W32) : (g.writeH n t v).ctx = g.ctx := rfl
@[simp] theorem Group.writeH_spc (g : Group) (n t : Nat) (v : W32) : (g.writeH n t v).spc = g.spc := rfl
@[simp] theorem Group.writeH_lpc (g : Group) (n t : Nat) (v : W32) : (g.writeH n t v).lpc = g.lpc := rfl
@[simp] theorem Group.writeH_s (g : Group) (n t : Nat) (v : W32) : (g.writeH n t v).s = g.s := rfl
@[simp] theorem Group.writeH_v (g : Group) (n t : Nat) (v : W32) : (g.writeH n t v).v = g.v := rfl
@[simp] theorem Group.writeH_p (g : Group) (n t : Nat) (v : W32) : (g.writeH n t v).p = g.p := rfl
@[simp] theorem Group.writeH_walkers (g : Group) (n t : Nat) (v : W32) : (g.writeH n t v).walkers = g.walkers := rfl
@[simp] theorem Group.writeH_e (g : Group) (n t : Nat) (v : W32) : (g.writeH n t v).e = g.e := rfl
@[simp] theorem Group.writeH_wlast (g : Group) (n t : Nat) (v : W32) : (g.writeH n t v).wlast = g.wlast := rfl
@[simp] theorem Group.writeH_trapm (g : Group) (n t : Nat) (v : W32) : (g.writeH n t v).trapm = g.trapm := rfl
@[simp] theorem Group.writeH_variant (g : Group) (n t : Nat) (v : W32) : (g.writeH n t v).variant = g.variant := rfl
@[simp] theorem Group.writeH_vcnt (g : Group) (n t : Nat) (v : W32) : (g.writeH n t v).vcnt = g.vcnt := rfl
@[simp] theorem Group.writeH_lane (g : Group) (n t : Nat) (v : W32) : (g.writeH n t v).lane = g.lane := rfl
@[simp] theorem Group.writeH_pos (g : Group) (n t : Nat) (v : W32) : (g.writeH n t v).pos = g.pos := rfl
@[simp] theorem Group.writeH_wide (g : Group) (n t : Nat) (v : W32) : (g.writeH n t v).wide = g.wide := rfl
@[simp] theorem Group.writeH_cause (g : Group) (n t : Nat) (v : W32) : (g.writeH n t v).cause = g.cause := rfl
@[simp] theorem Group.writeH_fsr (g : Group) (n t : Nat) (v : W32) : (g.writeH n t v).fsr = g.fsr := rfl
@[simp] theorem Group.writeH_sr (g : Group) (n t : Nat) (v : W32) : (g.writeH n t v).sr = g.sr := rfl
@[simp] theorem Group.writeH_priv (g : Group) (n t : Nat) (v : W32) : (g.writeH n t v).priv = g.priv := rfl
@[simp] theorem Group.writeH_badV (g : Group) (n t : Nat) (v : W32) : (g.writeH n t v).badV = g.badV := rfl
@[simp] theorem Group.writeH_badPriv (g : Group) (n t : Nat) (v : W32) : (g.writeH n t v).badPriv = g.badPriv := rfl
@[simp] theorem Group.writeH_runs (g : Group) (n t : Nat) (v : W32) : (g.writeH n t v).runs = g.runs := rfl
@[simp] theorem Group.writeH_trapRuns (g : Group) (n t : Nat) (v : W32) : (g.writeH n t v).trapRuns = g.trapRuns := rfl
@[simp] theorem Group.writeH_left (g : Group) (n t : Nat) (v : W32) : (g.writeH n t v).left = g.left := rfl
@[simp] theorem Group.writeH_stack (g : Group) (n t : Nat) (v : W32) : (g.writeH n t v).stack = g.stack := rfl
@[simp] theorem Group.writeH_ras (g : Group) (n t : Nat) (v : W32) : (g.writeH n t v).ras = g.ras := rfl
@[simp] theorem Group.writeH_rasHw (g : Group) (n t : Nat) (v : W32) : (g.writeH n t v).rasHw = g.rasHw := rfl
@[simp] theorem Group.writeH_loads (g : Group) (n t : Nat) (v : W32) : (g.writeH n t v).loads = g.loads := rfl
@[simp] theorem Group.writeH_traces (g : Group) (n t : Nat) (v : W32) : (g.writeH n t v).traces = g.traces := rfl
@[simp] theorem Group.writeH_replay (g : Group) (n t : Nat) (v : W32) : (g.writeH n t v).replay = g.replay := rfl
@[simp] theorem Group.writeH_kept (g : Group) (n t : Nat) (v : W32) : (g.writeH n t v).kept = g.kept := rfl
@[simp] theorem Group.writeH_mons (g : Group) (n t : Nat) (v : W32) : (g.writeH n t v).mons = g.mons := rfl
@[simp] theorem Group.writeH_lastBatch (g : Group) (n t : Nat) (v : W32) : (g.writeH n t v).lastBatch = g.lastBatch := rfl
@[simp] theorem Group.writeH_nextCopy (g : Group) (n t : Nat) (v : W32) : (g.writeH n t v).nextCopy = g.nextCopy := rfl
@[simp] theorem Group.writeH_parkS (g : Group) (n t : Nat) (v : W32) : (g.writeH n t v).parkS = g.parkS := rfl
@[simp] theorem Group.writeH_parkL (g : Group) (n t : Nat) (v : W32) : (g.writeH n t v).parkL = g.parkL := rfl
@[simp] theorem Group.writeH_waits (g : Group) (n t : Nat) (v : W32) : (g.writeH n t v).waits = g.waits := rfl
@[simp] theorem Group.writeH_frozen (g : Group) (n t : Nat) (v : W32) : (g.writeH n t v).frozen = g.frozen := rfl
@[simp] theorem Group.writeH_served (g : Group) (n t : Nat) (v : W32) : (g.writeH n t v).served = g.served := rfl
@[simp] theorem Group.writeH_held (g : Group) (n t : Nat) (v : W32) : (g.writeH n t v).held = g.held := rfl
@[simp] theorem Group.writeH_heldSeq (g : Group) (n t : Nat) (v : W32) : (g.writeH n t v).heldSeq = g.heldSeq := rfl
@[simp] theorem Group.writeH_pend (g : Group) (n t : Nat) (v : W32) : (g.writeH n t v).pend = g.pend := rfl
@[simp] theorem Group.writeH_hold (g : Group) (n t : Nat) (v : W32) : (g.writeH n t v).hold = g.hold := rfl
@[simp] theorem Group.writeH_skipbp (g : Group) (n t : Nat) (v : W32) : (g.writeH n t v).skipbp = g.skipbp := rfl
@[simp] theorem Group.writeH_skipbpL (g : Group) (n t : Nat) (v : W32) : (g.writeH n t v).skipbpL = g.skipbpL := rfl
@[simp] theorem Group.writeH_stopReq (g : Group) (n t : Nat) (v : W32) : (g.writeH n t v).stopReq = g.stopReq := rfl
@[simp] theorem Group.writeH_exited (g : Group) (n t : Nat) (v : W32) : (g.writeH n t v).exited = g.exited := rfl
@[simp] theorem Group.writeH_stamp (g : Group) (n t : Nat) (v : W32) : (g.writeH n t v).stamp = g.stamp := rfl
@[simp] theorem Group.writeH_blockedS (g : Group) (n t : Nat) (v : W32) : (g.writeH n t v).blockedS = g.blockedS := rfl
@[simp] theorem Group.writeH_blockedL (g : Group) (n t : Nat) (v : W32) : (g.writeH n t v).blockedL = g.blockedL := rfl
@[simp] theorem Group.writeH_fenced (g : Group) (n t : Nat) (v : W32) : (g.writeH n t v).fenced = g.fenced := rfl
@[simp] theorem Group.writeH_wordS (g : Group) (n t : Nat) (v : W32) : (g.writeH n t v).wordS = g.wordS := rfl
@[simp] theorem Group.writeH_wordL (g : Group) (n t : Nat) (v : W32) : (g.writeH n t v).wordL = g.wordL := rfl
@[simp] theorem Group.writeH_inject (g : Group) (n t : Nat) (v : W32) : (g.writeH n t v).inject = g.inject := rfl
@[simp] theorem Group.writeH_redirect (g : Group) (n t : Nat) (v : W32) : (g.writeH n t v).redirect = g.redirect := rfl
@[simp] theorem Group.writeH_loop (g : Group) (n t : Nat) (v : W32) : (g.writeH n t v).loop = g.loop := rfl
@[simp] theorem Group.writeH_laneUntil (g : Group) (n t : Nat) (v : W32) : (g.writeH n t v).laneUntil = g.laneUntil := rfl
@[simp] theorem Group.writeP_ref (g : Group) (n : Nat) (m : Mask) : (g.writeP n m).ref = g.ref := by unfold Group.writeP; split <;> rfl
@[simp] theorem Group.writeP_ctx (g : Group) (n : Nat) (m : Mask) : (g.writeP n m).ctx = g.ctx := by unfold Group.writeP; split <;> rfl
@[simp] theorem Group.writeP_spc (g : Group) (n : Nat) (m : Mask) : (g.writeP n m).spc = g.spc := by unfold Group.writeP; split <;> rfl
@[simp] theorem Group.writeP_lpc (g : Group) (n : Nat) (m : Mask) : (g.writeP n m).lpc = g.lpc := by unfold Group.writeP; split <;> rfl
@[simp] theorem Group.writeP_s (g : Group) (n : Nat) (m : Mask) : (g.writeP n m).s = g.s := by unfold Group.writeP; split <;> rfl
@[simp] theorem Group.writeP_v (g : Group) (n : Nat) (m : Mask) : (g.writeP n m).v = g.v := by unfold Group.writeP; split <;> rfl
@[simp] theorem Group.writeP_h (g : Group) (n : Nat) (m : Mask) : (g.writeP n m).h = g.h := by unfold Group.writeP; split <;> rfl
@[simp] theorem Group.writeP_walkers (g : Group) (n : Nat) (m : Mask) : (g.writeP n m).walkers = g.walkers := by unfold Group.writeP; split <;> rfl
@[simp] theorem Group.writeP_e (g : Group) (n : Nat) (m : Mask) : (g.writeP n m).e = g.e := by unfold Group.writeP; split <;> rfl
@[simp] theorem Group.writeP_wlast (g : Group) (n : Nat) (m : Mask) : (g.writeP n m).wlast = g.wlast := by unfold Group.writeP; split <;> rfl
@[simp] theorem Group.writeP_trapm (g : Group) (n : Nat) (m : Mask) : (g.writeP n m).trapm = g.trapm := by unfold Group.writeP; split <;> rfl
@[simp] theorem Group.writeP_variant (g : Group) (n : Nat) (m : Mask) : (g.writeP n m).variant = g.variant := by unfold Group.writeP; split <;> rfl
@[simp] theorem Group.writeP_vcnt (g : Group) (n : Nat) (m : Mask) : (g.writeP n m).vcnt = g.vcnt := by unfold Group.writeP; split <;> rfl
@[simp] theorem Group.writeP_lane (g : Group) (n : Nat) (m : Mask) : (g.writeP n m).lane = g.lane := by unfold Group.writeP; split <;> rfl
@[simp] theorem Group.writeP_pos (g : Group) (n : Nat) (m : Mask) : (g.writeP n m).pos = g.pos := by unfold Group.writeP; split <;> rfl
@[simp] theorem Group.writeP_wide (g : Group) (n : Nat) (m : Mask) : (g.writeP n m).wide = g.wide := by unfold Group.writeP; split <;> rfl
@[simp] theorem Group.writeP_cause (g : Group) (n : Nat) (m : Mask) : (g.writeP n m).cause = g.cause := by unfold Group.writeP; split <;> rfl
@[simp] theorem Group.writeP_fsr (g : Group) (n : Nat) (m : Mask) : (g.writeP n m).fsr = g.fsr := by unfold Group.writeP; split <;> rfl
@[simp] theorem Group.writeP_sr (g : Group) (n : Nat) (m : Mask) : (g.writeP n m).sr = g.sr := by unfold Group.writeP; split <;> rfl
@[simp] theorem Group.writeP_priv (g : Group) (n : Nat) (m : Mask) : (g.writeP n m).priv = g.priv := by unfold Group.writeP; split <;> rfl
@[simp] theorem Group.writeP_badV (g : Group) (n : Nat) (m : Mask) : (g.writeP n m).badV = g.badV := by unfold Group.writeP; split <;> rfl
@[simp] theorem Group.writeP_badH (g : Group) (n : Nat) (m : Mask) : (g.writeP n m).badH = g.badH := by unfold Group.writeP; split <;> rfl
@[simp] theorem Group.writeP_badPriv (g : Group) (n : Nat) (m : Mask) : (g.writeP n m).badPriv = g.badPriv := by unfold Group.writeP; split <;> rfl
@[simp] theorem Group.writeP_runs (g : Group) (n : Nat) (m : Mask) : (g.writeP n m).runs = g.runs := by unfold Group.writeP; split <;> rfl
@[simp] theorem Group.writeP_trapRuns (g : Group) (n : Nat) (m : Mask) : (g.writeP n m).trapRuns = g.trapRuns := by unfold Group.writeP; split <;> rfl
@[simp] theorem Group.writeP_left (g : Group) (n : Nat) (m : Mask) : (g.writeP n m).left = g.left := by unfold Group.writeP; split <;> rfl
@[simp] theorem Group.writeP_stack (g : Group) (n : Nat) (m : Mask) : (g.writeP n m).stack = g.stack := by unfold Group.writeP; split <;> rfl
@[simp] theorem Group.writeP_ras (g : Group) (n : Nat) (m : Mask) : (g.writeP n m).ras = g.ras := by unfold Group.writeP; split <;> rfl
@[simp] theorem Group.writeP_rasHw (g : Group) (n : Nat) (m : Mask) : (g.writeP n m).rasHw = g.rasHw := by unfold Group.writeP; split <;> rfl
@[simp] theorem Group.writeP_loads (g : Group) (n : Nat) (m : Mask) : (g.writeP n m).loads = g.loads := by unfold Group.writeP; split <;> rfl
@[simp] theorem Group.writeP_traces (g : Group) (n : Nat) (m : Mask) : (g.writeP n m).traces = g.traces := by unfold Group.writeP; split <;> rfl
@[simp] theorem Group.writeP_replay (g : Group) (n : Nat) (m : Mask) : (g.writeP n m).replay = g.replay := by unfold Group.writeP; split <;> rfl
@[simp] theorem Group.writeP_kept (g : Group) (n : Nat) (m : Mask) : (g.writeP n m).kept = g.kept := by unfold Group.writeP; split <;> rfl
@[simp] theorem Group.writeP_mons (g : Group) (n : Nat) (m : Mask) : (g.writeP n m).mons = g.mons := by unfold Group.writeP; split <;> rfl
@[simp] theorem Group.writeP_lastBatch (g : Group) (n : Nat) (m : Mask) : (g.writeP n m).lastBatch = g.lastBatch := by unfold Group.writeP; split <;> rfl
@[simp] theorem Group.writeP_nextCopy (g : Group) (n : Nat) (m : Mask) : (g.writeP n m).nextCopy = g.nextCopy := by unfold Group.writeP; split <;> rfl
@[simp] theorem Group.writeP_parkS (g : Group) (n : Nat) (m : Mask) : (g.writeP n m).parkS = g.parkS := by unfold Group.writeP; split <;> rfl
@[simp] theorem Group.writeP_parkL (g : Group) (n : Nat) (m : Mask) : (g.writeP n m).parkL = g.parkL := by unfold Group.writeP; split <;> rfl
@[simp] theorem Group.writeP_waits (g : Group) (n : Nat) (m : Mask) : (g.writeP n m).waits = g.waits := by unfold Group.writeP; split <;> rfl
@[simp] theorem Group.writeP_frozen (g : Group) (n : Nat) (m : Mask) : (g.writeP n m).frozen = g.frozen := by unfold Group.writeP; split <;> rfl
@[simp] theorem Group.writeP_served (g : Group) (n : Nat) (m : Mask) : (g.writeP n m).served = g.served := by unfold Group.writeP; split <;> rfl
@[simp] theorem Group.writeP_held (g : Group) (n : Nat) (m : Mask) : (g.writeP n m).held = g.held := by unfold Group.writeP; split <;> rfl
@[simp] theorem Group.writeP_heldSeq (g : Group) (n : Nat) (m : Mask) : (g.writeP n m).heldSeq = g.heldSeq := by unfold Group.writeP; split <;> rfl
@[simp] theorem Group.writeP_pend (g : Group) (n : Nat) (m : Mask) : (g.writeP n m).pend = g.pend := by unfold Group.writeP; split <;> rfl
@[simp] theorem Group.writeP_hold (g : Group) (n : Nat) (m : Mask) : (g.writeP n m).hold = g.hold := by unfold Group.writeP; split <;> rfl
@[simp] theorem Group.writeP_skipbp (g : Group) (n : Nat) (m : Mask) : (g.writeP n m).skipbp = g.skipbp := by unfold Group.writeP; split <;> rfl
@[simp] theorem Group.writeP_skipbpL (g : Group) (n : Nat) (m : Mask) : (g.writeP n m).skipbpL = g.skipbpL := by unfold Group.writeP; split <;> rfl
@[simp] theorem Group.writeP_stopReq (g : Group) (n : Nat) (m : Mask) : (g.writeP n m).stopReq = g.stopReq := by unfold Group.writeP; split <;> rfl
@[simp] theorem Group.writeP_exited (g : Group) (n : Nat) (m : Mask) : (g.writeP n m).exited = g.exited := by unfold Group.writeP; split <;> rfl
@[simp] theorem Group.writeP_stamp (g : Group) (n : Nat) (m : Mask) : (g.writeP n m).stamp = g.stamp := by unfold Group.writeP; split <;> rfl
@[simp] theorem Group.writeP_blockedS (g : Group) (n : Nat) (m : Mask) : (g.writeP n m).blockedS = g.blockedS := by unfold Group.writeP; split <;> rfl
@[simp] theorem Group.writeP_blockedL (g : Group) (n : Nat) (m : Mask) : (g.writeP n m).blockedL = g.blockedL := by unfold Group.writeP; split <;> rfl
@[simp] theorem Group.writeP_fenced (g : Group) (n : Nat) (m : Mask) : (g.writeP n m).fenced = g.fenced := by unfold Group.writeP; split <;> rfl
@[simp] theorem Group.writeP_wordS (g : Group) (n : Nat) (m : Mask) : (g.writeP n m).wordS = g.wordS := by unfold Group.writeP; split <;> rfl
@[simp] theorem Group.writeP_wordL (g : Group) (n : Nat) (m : Mask) : (g.writeP n m).wordL = g.wordL := by unfold Group.writeP; split <;> rfl
@[simp] theorem Group.writeP_inject (g : Group) (n : Nat) (m : Mask) : (g.writeP n m).inject = g.inject := by unfold Group.writeP; split <;> rfl
@[simp] theorem Group.writeP_redirect (g : Group) (n : Nat) (m : Mask) : (g.writeP n m).redirect = g.redirect := by unfold Group.writeP; split <;> rfl
@[simp] theorem Group.writeP_loop (g : Group) (n : Nat) (m : Mask) : (g.writeP n m).loop = g.loop := by unfold Group.writeP; split <;> rfl
@[simp] theorem Group.writeP_laneUntil (g : Group) (n : Nat) (m : Mask) : (g.writeP n m).laneUntil = g.laneUntil := by unfold Group.writeP; split <;> rfl
@[simp] theorem Group.setQueue_ref (g : Group) (q : List Run) : (g.setQueue q).ref = g.ref := by unfold Group.setQueue; split <;> rfl
@[simp] theorem Group.setQueue_ctx (g : Group) (q : List Run) : (g.setQueue q).ctx = g.ctx := by unfold Group.setQueue; split <;> rfl
@[simp] theorem Group.setQueue_spc (g : Group) (q : List Run) : (g.setQueue q).spc = g.spc := by unfold Group.setQueue; split <;> rfl
@[simp] theorem Group.setQueue_lpc (g : Group) (q : List Run) : (g.setQueue q).lpc = g.lpc := by unfold Group.setQueue; split <;> rfl
@[simp] theorem Group.setQueue_s (g : Group) (q : List Run) : (g.setQueue q).s = g.s := by unfold Group.setQueue; split <;> rfl
@[simp] theorem Group.setQueue_v (g : Group) (q : List Run) : (g.setQueue q).v = g.v := by unfold Group.setQueue; split <;> rfl
@[simp] theorem Group.setQueue_h (g : Group) (q : List Run) : (g.setQueue q).h = g.h := by unfold Group.setQueue; split <;> rfl
@[simp] theorem Group.setQueue_p (g : Group) (q : List Run) : (g.setQueue q).p = g.p := by unfold Group.setQueue; split <;> rfl
@[simp] theorem Group.setQueue_walkers (g : Group) (q : List Run) : (g.setQueue q).walkers = g.walkers := by unfold Group.setQueue; split <;> rfl
@[simp] theorem Group.setQueue_e (g : Group) (q : List Run) : (g.setQueue q).e = g.e := by unfold Group.setQueue; split <;> rfl
@[simp] theorem Group.setQueue_wlast (g : Group) (q : List Run) : (g.setQueue q).wlast = g.wlast := by unfold Group.setQueue; split <;> rfl
@[simp] theorem Group.setQueue_trapm (g : Group) (q : List Run) : (g.setQueue q).trapm = g.trapm := by unfold Group.setQueue; split <;> rfl
@[simp] theorem Group.setQueue_variant (g : Group) (q : List Run) : (g.setQueue q).variant = g.variant := by unfold Group.setQueue; split <;> rfl
@[simp] theorem Group.setQueue_vcnt (g : Group) (q : List Run) : (g.setQueue q).vcnt = g.vcnt := by unfold Group.setQueue; split <;> rfl
@[simp] theorem Group.setQueue_lane (g : Group) (q : List Run) : (g.setQueue q).lane = g.lane := by unfold Group.setQueue; split <;> rfl
@[simp] theorem Group.setQueue_pos (g : Group) (q : List Run) : (g.setQueue q).pos = g.pos := by unfold Group.setQueue; split <;> rfl
@[simp] theorem Group.setQueue_wide (g : Group) (q : List Run) : (g.setQueue q).wide = g.wide := by unfold Group.setQueue; split <;> rfl
@[simp] theorem Group.setQueue_cause (g : Group) (q : List Run) : (g.setQueue q).cause = g.cause := by unfold Group.setQueue; split <;> rfl
@[simp] theorem Group.setQueue_fsr (g : Group) (q : List Run) : (g.setQueue q).fsr = g.fsr := by unfold Group.setQueue; split <;> rfl
@[simp] theorem Group.setQueue_sr (g : Group) (q : List Run) : (g.setQueue q).sr = g.sr := by unfold Group.setQueue; split <;> rfl
@[simp] theorem Group.setQueue_priv (g : Group) (q : List Run) : (g.setQueue q).priv = g.priv := by unfold Group.setQueue; split <;> rfl
@[simp] theorem Group.setQueue_badV (g : Group) (q : List Run) : (g.setQueue q).badV = g.badV := by unfold Group.setQueue; split <;> rfl
@[simp] theorem Group.setQueue_badH (g : Group) (q : List Run) : (g.setQueue q).badH = g.badH := by unfold Group.setQueue; split <;> rfl
@[simp] theorem Group.setQueue_badPriv (g : Group) (q : List Run) : (g.setQueue q).badPriv = g.badPriv := by unfold Group.setQueue; split <;> rfl
@[simp] theorem Group.setQueue_left (g : Group) (q : List Run) : (g.setQueue q).left = g.left := by unfold Group.setQueue; split <;> rfl
@[simp] theorem Group.setQueue_stack (g : Group) (q : List Run) : (g.setQueue q).stack = g.stack := by unfold Group.setQueue; split <;> rfl
@[simp] theorem Group.setQueue_ras (g : Group) (q : List Run) : (g.setQueue q).ras = g.ras := by unfold Group.setQueue; split <;> rfl
@[simp] theorem Group.setQueue_rasHw (g : Group) (q : List Run) : (g.setQueue q).rasHw = g.rasHw := by unfold Group.setQueue; split <;> rfl
@[simp] theorem Group.setQueue_loads (g : Group) (q : List Run) : (g.setQueue q).loads = g.loads := by unfold Group.setQueue; split <;> rfl
@[simp] theorem Group.setQueue_traces (g : Group) (q : List Run) : (g.setQueue q).traces = g.traces := by unfold Group.setQueue; split <;> rfl
@[simp] theorem Group.setQueue_replay (g : Group) (q : List Run) : (g.setQueue q).replay = g.replay := by unfold Group.setQueue; split <;> rfl
@[simp] theorem Group.setQueue_kept (g : Group) (q : List Run) : (g.setQueue q).kept = g.kept := by unfold Group.setQueue; split <;> rfl
@[simp] theorem Group.setQueue_mons (g : Group) (q : List Run) : (g.setQueue q).mons = g.mons := by unfold Group.setQueue; split <;> rfl
@[simp] theorem Group.setQueue_lastBatch (g : Group) (q : List Run) : (g.setQueue q).lastBatch = g.lastBatch := by unfold Group.setQueue; split <;> rfl
@[simp] theorem Group.setQueue_nextCopy (g : Group) (q : List Run) : (g.setQueue q).nextCopy = g.nextCopy := by unfold Group.setQueue; split <;> rfl
@[simp] theorem Group.setQueue_parkS (g : Group) (q : List Run) : (g.setQueue q).parkS = g.parkS := by unfold Group.setQueue; split <;> rfl
@[simp] theorem Group.setQueue_parkL (g : Group) (q : List Run) : (g.setQueue q).parkL = g.parkL := by unfold Group.setQueue; split <;> rfl
@[simp] theorem Group.setQueue_waits (g : Group) (q : List Run) : (g.setQueue q).waits = g.waits := by unfold Group.setQueue; split <;> rfl
@[simp] theorem Group.setQueue_frozen (g : Group) (q : List Run) : (g.setQueue q).frozen = g.frozen := by unfold Group.setQueue; split <;> rfl
@[simp] theorem Group.setQueue_served (g : Group) (q : List Run) : (g.setQueue q).served = g.served := by unfold Group.setQueue; split <;> rfl
@[simp] theorem Group.setQueue_held (g : Group) (q : List Run) : (g.setQueue q).held = g.held := by unfold Group.setQueue; split <;> rfl
@[simp] theorem Group.setQueue_heldSeq (g : Group) (q : List Run) : (g.setQueue q).heldSeq = g.heldSeq := by unfold Group.setQueue; split <;> rfl
@[simp] theorem Group.setQueue_pend (g : Group) (q : List Run) : (g.setQueue q).pend = g.pend := by unfold Group.setQueue; split <;> rfl
@[simp] theorem Group.setQueue_hold (g : Group) (q : List Run) : (g.setQueue q).hold = g.hold := by unfold Group.setQueue; split <;> rfl
@[simp] theorem Group.setQueue_skipbp (g : Group) (q : List Run) : (g.setQueue q).skipbp = g.skipbp := by unfold Group.setQueue; split <;> rfl
@[simp] theorem Group.setQueue_skipbpL (g : Group) (q : List Run) : (g.setQueue q).skipbpL = g.skipbpL := by unfold Group.setQueue; split <;> rfl
@[simp] theorem Group.setQueue_stopReq (g : Group) (q : List Run) : (g.setQueue q).stopReq = g.stopReq := by unfold Group.setQueue; split <;> rfl
@[simp] theorem Group.setQueue_exited (g : Group) (q : List Run) : (g.setQueue q).exited = g.exited := by unfold Group.setQueue; split <;> rfl
@[simp] theorem Group.setQueue_stamp (g : Group) (q : List Run) : (g.setQueue q).stamp = g.stamp := by unfold Group.setQueue; split <;> rfl
@[simp] theorem Group.setQueue_blockedS (g : Group) (q : List Run) : (g.setQueue q).blockedS = g.blockedS := by unfold Group.setQueue; split <;> rfl
@[simp] theorem Group.setQueue_blockedL (g : Group) (q : List Run) : (g.setQueue q).blockedL = g.blockedL := by unfold Group.setQueue; split <;> rfl
@[simp] theorem Group.setQueue_fenced (g : Group) (q : List Run) : (g.setQueue q).fenced = g.fenced := by unfold Group.setQueue; split <;> rfl
@[simp] theorem Group.setQueue_wordS (g : Group) (q : List Run) : (g.setQueue q).wordS = g.wordS := by unfold Group.setQueue; split <;> rfl
@[simp] theorem Group.setQueue_wordL (g : Group) (q : List Run) : (g.setQueue q).wordL = g.wordL := by unfold Group.setQueue; split <;> rfl
@[simp] theorem Group.setQueue_inject (g : Group) (q : List Run) : (g.setQueue q).inject = g.inject := by unfold Group.setQueue; split <;> rfl
@[simp] theorem Group.setQueue_redirect (g : Group) (q : List Run) : (g.setQueue q).redirect = g.redirect := by unfold Group.setQueue; split <;> rfl
@[simp] theorem Group.setQueue_loop (g : Group) (q : List Run) : (g.setQueue q).loop = g.loop := by unfold Group.setQueue; split <;> rfl
@[simp] theorem Group.setQueue_laneUntil (g : Group) (q : List Run) : (g.setQueue q).laneUntil = g.laneUntil := by unfold Group.setQueue; split <;> rfl

end Sys2Proof.Machine
end

