-- ==== Sys2Proof/Laws/Words.lean ====
section
/-! SUPPORT. What the frames of scalar, lane and matrix words answer, and how a group, a block or a context is found again
after an update. -/

namespace Sys2Proof.Machine

open Sys2Proof

theorem State.group?_ref {s : State} {r : GroupRef} {g : Group} (h : s.group? r = some g) : g.ref = r := by
  simpa using List.find?_some h
theorem State.block?_ref {s : State} {r : BlockRef} {b : Block} (h : s.block? r = some b) : b.ref = r := by
  simpa using List.find?_some h
theorem State.ctx?_id {s : State} {c : BitVec 8} {x : Ctx} (h : s.ctx? c = some x) : x.id = c := by
  simpa using List.find?_some h

theorem find?_mapIf {α : Type} (l : List α) (p : α → Bool) (f : α → α) (hf : ∀ x, p x = true → p (f x) = true) :
    (l.map fun x => if p x then f x else x).find? p = (l.find? p).map f := by
  induction l with
  | nil => rfl
  | cons a r ih =>
    by_cases h : p a = true
    · simp [h, hf a h]
    · simp [h, ih]

theorem State.group?_modGroup {s : State} {r : GroupRef} {g : Group} (f : Group → Group) (h : s.group? r = some g)
    (hf : ∀ x : Group, x.ref = r → (f x).ref = r) : (s.modGroup r f).group? r = some (f g) := by
  have := find?_mapIf s.groups (fun g => decide (g.ref = r)) f (by simpa using hf)
  simp only [decide_eq_true_eq] at this
  simp [State.group?, State.modGroup, this]
  exact ⟨g, h, rfl⟩

theorem State.block?_modBlock {s : State} {r : BlockRef} {b : Block} (f : Block → Block) (h : s.block? r = some b)
    (hf : ∀ x : Block, x.ref = r → (f x).ref = r) : (s.modBlock r f).block? r = some (f b) := by
  have := find?_mapIf s.blocks (fun b => decide (b.ref = r)) f (by simpa using hf)
  simp only [decide_eq_true_eq] at this
  simp [State.block?, State.modBlock, this]
  exact ⟨b, h, rfl⟩

@[simp] theorem State.block?_modGroup (s : State) (r : GroupRef) (f : Group → Group) (q : BlockRef) :
    (s.modGroup r f).block? q = s.block? q := rfl
@[simp] theorem State.group?_modBlock (s : State) (r : BlockRef) (f : Block → Block) (q : GroupRef) :
    (s.modBlock r f).group? q = s.group? q := rfl
@[simp] theorem State.ctx?_modGroup (s : State) (r : GroupRef) (f : Group → Group) (c : BitVec 8) :
    (s.modGroup r f).ctx? c = s.ctx? c := rfl
@[simp] theorem State.ctx?_modBlock (s : State) (r : BlockRef) (f : Block → Block) (c : BitVec 8) :
    (s.modBlock r f).ctx? c = s.ctx? c := rfl

/-- Two updates of one group are one. -/
theorem State.modGroup_modGroup (s : State) (r : GroupRef) (f h : Group → Group)
    (hf : ∀ x : Group, x.ref = r → (f x).ref = r) : (s.modGroup r f).modGroup r h = s.modGroup r (fun x => h (f x)) := by
  simp only [State.modGroup, List.map_map]
  congr 1
  apply List.map_congr_left
  intro x _
  by_cases hx : x.ref = r
  · simp [hx, hf x hx]
  · simp [hx]

theorem State.modBlock_modBlock (s : State) (r : BlockRef) (f h : Block → Block)
    (hf : ∀ x : Block, x.ref = r → (f x).ref = r) : (s.modBlock r f).modBlock r h = s.modBlock r (fun x => h (f x)) := by
  simp only [State.modBlock, List.map_map]
  congr 1
  apply List.map_congr_left
  intro x _
  by_cases hx : x.ref = r
  · simp [hx, hf x hx]
  · simp [hx]

@[simp] theorem Group.issued_ref (g : Group) (st : Stream) : (g.issued st).ref = g.ref := rfl
@[simp] theorem Group.afterScalar_ref (g : Group) (p q : VAddr) (n : Nat) : (g.afterScalar p q n).ref = g.ref := rfl
@[simp] theorem Group.afterScalar_hold (g : Group) (p q : VAddr) (n : Nat) : (g.afterScalar p q n).hold = g.hold := rfl
@[simp] theorem Group.clearMarks_ref (g : Group) (pc : VAddr) : (g.clearMarks pc).ref = g.ref := by
  unfold Group.clearMarks; split <;> (try split) <;> simp
@[simp] theorem Group.clearMarks_hold (g : Group) (pc : VAddr) : (g.clearMarks pc).hold = g.hold := by
  unfold Group.clearMarks; split <;> (try split) <;> simp
@[simp] theorem Group.runOver_ref (g : Group) : g.runOver.ref = g.ref := by
  unfold Group.runOver; split <;> (try split) <;> dsimp only <;> (try split) <;> simp
@[simp] theorem Group.runOver_hold (g : Group) : g.runOver.hold = g.hold := by
  unfold Group.runOver; split <;> (try split) <;> dsimp only <;> (try split) <;> simp
@[simp] theorem Group.afterLane_ref (g : Group) (p q : VAddr) : (g.afterLane p q).ref = g.ref := by simp [Group.afterLane]
@[simp] theorem Group.afterLane_hold (g : Group) (p q : VAddr) : (g.afterLane p q).hold = g.hold := by
  simp [Group.afterLane, Group.issued]

/-- A word of the scalar stream that has issued outside a re-injection. -/
theorem Group.issuedAt_scalar (g : Group) (pc spc lpc : VAddr) (now : Nat) (h : g.inject = none) :
    g.issuedAt .scalar pc spc lpc now = g.afterScalar pc spc now := by
  simp [Group.issuedAt, Group.issued, Group.afterScalar, h]
theorem Group.issuedAt_lane (g : Group) (pc spc lpc : VAddr) (now : Nat) (h : g.inject = none) :
    g.issuedAt .lane pc spc lpc now = g.afterLane pc lpc := by
  simp [Group.issuedAt, Group.issued, Group.afterLane, h]
@[simp] theorem Group.issuedAt_ref (g : Group) (st : Stream) (pc spc lpc : VAddr) (now : Nat) :
    (g.issuedAt st pc spc lpc now).ref = g.ref := by
  simp only [Group.issuedAt]; split <;> (try split) <;> simp [Group.issued]

/-- What the issue of a scalar word leaves but for its scheduler's record. -/
@[simp] theorem issueWord_scalar_cycle (s : State) (g : Group) : (issueWord s g .scalar).cycle = s.cycle := by
  unfold issueWord; rw [if_pos rfl]; split <;> rfl
@[simp] theorem issueWord_scalar_mem (s : State) (g : Group) : (issueWord s g .scalar).mem = s.mem := by
  unfold issueWord; rw [if_pos rfl]; split <;> rfl
@[simp] theorem issueWord_scalar_blocks (s : State) (g : Group) : (issueWord s g .scalar).blocks = s.blocks := by
  unfold issueWord; rw [if_pos rfl]; split <;> rfl
@[simp] theorem issueWord_scalar_group? (s : State) (g : Group) (r : GroupRef) : (issueWord s g .scalar).group? r = s.group? r := by
  unfold issueWord; rw [if_pos rfl]; split <;> rfl
@[simp] theorem issueWord_scalar_block? (s : State) (g : Group) (r : BlockRef) : (issueWord s g .scalar).block? r = s.block? r := by
  unfold issueWord; rw [if_pos rfl]; split <;> rfl
theorem issueWord_scalar_modGroup (s : State) (g : Group) (r : GroupRef) (f : Group → Group) :
    issueWord (s.modGroup r f) g .scalar = (issueWord s g .scalar).modGroup r f := by
  unfold issueWord; rw [if_pos rfl, if_pos rfl]; split <;> rfl

/-- No step of a debugger ends at a word of a group that it does not hold (R323), and a word without a cause raises none. -/
theorem afterWord_run (s : State) (r : GroupRef) (pc : VAddr) (n : Nat) : afterWord s r false pc n none = s := by
  unfold afterWord; split <;> simp
theorem Group.steps_run {g : Group} (st : Stream) (h : g.hold = .run) : g.steps st = false := by simp [Group.steps, h]

theorem State.group?_modGroup_ne {s : State} {r q : GroupRef} (f : Group → Group) (h : q ≠ r)
    (hf : ∀ x : Group, (f x).ref = x.ref) : (s.modGroup r f).group? q = s.group? q := by
  simp only [State.group?, State.modGroup, List.find?_map]
  induction s.groups with
  | nil => rfl
  | cons a l ih =>
    by_cases ha : a.ref = r
    · have : ¬ r = q := fun e => h e.symm
      simp [List.find?, Function.comp, ha, hf, this]; simpa [Function.comp] using ih
    · by_cases hq : a.ref = q
      · simp [List.find?, Function.comp, hq, h]
      · simp [List.find?, Function.comp, ha, hq]; simpa [Function.comp] using ih

theorem State.groupOnly_modGroup {s : State} {g : Group} (f : Group → Group) (h : s.group? g.ref = some g)
    (hf : ∀ x : Group, (f x).ref = x.ref) : GroupOnly s (s.modGroup g.ref f) g (f g) :=
  ⟨rfl, State.group?_modGroup f h fun x hx => (hf x).trans hx, fun _ hr => State.group?_modGroup_ne f hr hf⟩

/-- What a scalar word that may issue answers. -/
theorem scalarWord_eq {s : State} {g : Group} {b : Block} {uses : List (BitVec 5)} {closes : Bool}
    {f : Group → Block → WordRes} (hs : ScalarAt s g b uses closes) :
    scalarWord s uses closes f = .next (finishWord s g .scalar 4 (f g b)) := by
  obtain ⟨⟨hc, hg, hbk⟩, hu, hw, -, -⟩ := hs
  simp [scalarWord, hc, hg, hbk, hu, hw]

/-- The common end of a scalar word that has changed only its group. -/
theorem scalar_end {s : State} {g : Group} {h : Group → Group} (spc lpc : Group → VAddr) (n : Nat) (hg : s.group? g.ref = some g)
    (hr : ∀ x : Group, (h x).ref = x.ref) (hi : (h g).inject = none) :
    ∃ t, afterWord ((issueWord (s.modGroup g.ref h) g .scalar).modGroup g.ref fun x =>
        x.issuedAt .scalar g.spc (spc x) (lpc x) s.cycle) g.ref false g.spc n none = t ∧
      GroupOnly (issueWord s g .scalar) t g ((h g).afterScalar g.spc (spc (h g)) s.cycle) := by
  have hx : ∀ x : Group, ((h x).issuedAt .scalar g.spc (spc (h x)) (lpc (h x)) s.cycle).ref = x.ref := fun x => by simp [hr]
  rw [issueWord_scalar_modGroup, State.modGroup_modGroup _ _ _ _ fun x e => (hr x).trans e]
  have hs : (issueWord s g .scalar).group? g.ref = some g := by rw [issueWord_scalar_group?, hg]
  refine ⟨_, rfl, ?_⟩
  rw [afterWord_run]
  have := State.groupOnly_modGroup (fun x => (h x).issuedAt .scalar g.spc (spc (h x)) (lpc (h x)) s.cycle) hs hx
  rwa [Group.issuedAt_scalar _ _ _ _ _ hi] at this

/-- A scalar word whose body has changed only its group. -/
theorem scalarWord_group {s : State} {g : Group} {b : Block} {uses : List (BitVec 5)} {closes : Bool}
    {f : Group → Block → WordRes} {h : Group → Group} (hs : ScalarAt s g b uses closes)
    (hb : f g b = .done (s.modGroup g.ref h)) (hr : ∀ x : Group, (h x).ref = x.ref)
    (hi : (h g).inject = none) :
    ∃ t, scalarWord s uses closes f = .next t ∧
      GroupOnly (issueWord s g .scalar) t g ((h g).afterScalar g.spc ((h g).spc + 4) s.cycle) := by
  rw [scalarWord_eq hs, hb]
  obtain ⟨⟨-, hg, -⟩, -, -, hh, -⟩ := hs
  obtain ⟨t, ht, ho⟩ := scalar_end (fun x => x.spc + 4) (fun x => x.lpc + 4) g.loads.length hg hr hi
  exact ⟨t, by rw [← ht, ← Group.steps_run .scalar hh]; rfl, ho⟩

/-- A scalar word that goes on elsewhere and has changed only its group. -/
theorem scalarWord_jump {s : State} {g : Group} {b : Block} {uses : List (BitVec 5)} {closes : Bool}
    {f : Group → Block → WordRes} {h : Group → Group} (hs : ScalarAt s g b uses closes)
    (hb : f g b = .jump (s.modGroup g.ref h)) (hr : ∀ x : Group, (h x).ref = x.ref)
    (hi : (h g).inject = none) :
    ∃ t, scalarWord s uses closes f = .next t ∧
      GroupOnly (issueWord s g .scalar) t g ((h g).afterScalar g.spc (h g).spc s.cycle) := by
  rw [scalarWord_eq hs, hb]
  obtain ⟨⟨-, hg, -⟩, -, -, hh, -⟩ := hs
  obtain ⟨t, ht, ho⟩ := scalar_end (fun x => x.spc) (fun x => x.lpc) g.loads.length hg hr hi
  exact ⟨t, by rw [← ht, ← Group.steps_run .scalar hh]; rfl, ho⟩

/-- A scalar word that raises a cause at its own word. -/
theorem scalarWord_cause {s : State} {g : Group} {b : Block} {uses : List (BitVec 5)} {closes : Bool}
    {f : Group → Block → WordRes} {code sub : Nat} {tm : Mask} {fa : W64} (hs : ScalarAt s g b uses closes)
    (hb : f g b = .cause code sub tm fa) :
    scalarWord s uses closes f = .next { raiseWord s g .scalar g.spc code sub 0 fa with issued := true } := by
  rw [scalarWord_eq hs, hb]; rfl

/-- Outside a re-injection a word acts for the threads that its guard selects. -/
theorem selectedOf_eq {g : Group} {w : LaneWord} (h : g.inject = none) : selectedOf g w = laneSelected g w := by
  simp [selectedOf, laneSelected, h]

/-- No thread reads a poisoned register where none of the word's is poisoned (R345). -/
theorem spoiledV_zero {g : Group} {vs rs : List Nat} (h : g.badV.all (fun c => !vs.contains (c / 32)) = true)
    (hr : ∀ n ∈ rs, n ∈ vs) (m : Mask) : spoiledV g rs m = 0 := by
  have keep : ∀ l : List Nat, (∀ t ∈ l, t < 32) →
      l.foldl (fun m t => if rs.any fun n => g.badV.contains (32 * n + t) then m ||| threadBit t else m) (0 : Mask) = 0 := by
    intro l
    induction l with
    | nil => exact fun _ => rfl
    | cons t l ih =>
      intro hl
      have ht := hl t (List.mem_cons_self ..)
      have h2 : ¬ (rs.any fun n => g.badV.contains (32 * n + t)) = true := by
        intro hx
        obtain ⟨n, hn, hc⟩ := List.any_eq_true.mp hx
        have hb := List.all_eq_true.mp h (32 * n + t) (by simpa using hc)
        have : (32 * n + t) / 32 = n := by omega
        simp [this, hr n hn] at hb
      rw [List.foldl_cons, if_neg h2]
      exact ih fun u hu => hl u (List.mem_cons_of_mem _ hu)
  unfold spoiledV
  split
  · rfl
  · exact keep _ fun t ht => by simpa using (List.mem_filter.mp ht).1

/-- No thread reads a poisoned H register where none is poisoned, or the word reads none (R345). -/
theorem spoiledH_zero {g : Group} {w : LaneWord} {cs src : List (BitVec 8)} (h : g.badH = [] ∨ cs.contains 253#8 = false)
    (hs : ∀ c ∈ src, c ∈ cs) (m : Mask) : spoiledH g w src m = 0 := by
  unfold spoiledH
  rw [if_pos]
  cases h with
  | inl h => simp [h]
  | inr h =>
    have : 253#8 ∉ src := fun hm => by simp [hs _ hm] at h
    simp [this]

/-- What a lane word that may issue answers. -/
theorem laneWord_eq {s : State} {g : Group} {b : Block} {w : LaneWord} {u : LaneUse} {f : Group → Block → Mask → WordRes}
    (hs : LaneAt s g b u.codes u.vs u.control) (hr : ∀ n ∈ u.rs, n ∈ u.vs) (hc : ∀ c ∈ u.src, c ∈ u.codes)
    (hn : ∀ n ∈ w.gp.toNat :: u.ps, n < 48) :
    laneWord s w u f = .next (finishWord s g .lane 12 (f g b (if u.control then g.active else laneSelected g w))) := by
  obtain ⟨⟨hcur, hg, hbk⟩, hw, hd, hp, hsp, hbh, -, hi, h253, hv⟩ := hs
  have hv' : (u.vs.any fun n => decide (g.vcnt ≤ n)) = false := by
    simp only [List.any_eq_false, decide_eq_true_eq, Nat.not_le]
    simpa only [List.all_eq_true, decide_eq_true_eq] using hv
  have h3 : (!g.trapm && u.codes.contains 253#8) = false := by
    cases h253 with
    | inl h => simp only [h, Bool.not_true, Bool.false_and]
    | inr h => simp only [h, Bool.and_false]
  have hd' : g.dependsLane u.vs (w.gp.toNat :: u.ps) = false := by
    unfold Group.dependsLane at hd ⊢
    rw [List.any_eq_false] at hd ⊢
    intro l hl hh
    refine hd l hl ?_
    simp only [Bool.and_eq_true, Bool.or_eq_true, decide_eq_true_eq, List.contains_eq_mem, List.mem_range] at hh ⊢
    exact ⟨hh.1, hh.2.imp id fun h => ⟨h.1, hn _ h.2⟩⟩
  have h0 := fun m => spoiledV_zero hsp hr m
  have h1 := fun m => spoiledH_zero (w := w) hbh hc m
  simp only [laneWord, hcur, hg, hbk, hw, hd', hp, h3, hv', h0, h1, selectedOf_eq hi, BitVec.or_self, Bool.not_true, Bool.or_self, Bool.false_eq_true, if_false,
    Bool.and_false, ne_eq, not_true_eq_false]

/-- What a matrix word answers where no transfer has to resolve first. -/
theorem matrixWord_eq {s : State} {b : Block} {closes : Bool} {clash : MLoad → Bool} {f : Block → MatRes} (hs : MatrixAt s b) :
    matrixWord s closes clash f = .next (match f b with
      | .done s => s.modBlock b.ref (seqNext s.cycle)
      | .jump s => s.modBlock b.ref (seqIssued s.cycle)
      | .wait s => s
      | .park s fs => parkSeq s b fs
      | .cause s code sub fa => raiseSeq s b code sub fa) := by
  obtain ⟨hc, hb, hm⟩ := hs
  simp only [matrixWord, hc, hb, hm, List.any_nil, Bool.false_eq_true, if_false]
  all_goals (cases f b <;> rfl)

/-- The list of a store of units after one is replaced. -/
theorem getD_listSet {α : Type} (l : List α) (n k : Nat) (v d : α) :
    (listSet l n v).getD k d = if k = n ∧ n < l.length then v else l.getD k d := by
  induction l generalizing n k with
  | nil => simp [listSet]
  | cons a r ih =>
    cases n with
    | zero => cases k <;> simp [listSet]
    | succ n =>
      cases k with
      | zero => simp [listSet]
      | succ k => simpa [listSet] using ih n k
theorem length_listSet {α : Type} (l : List α) (n : Nat) (v : α) : (listSet l n v).length = l.length := by
  induction l generalizing n with
  | nil => rfl
  | cons a r ih => cases n <;> simp [listSet, ih]

theorem State.core_modCore (s : State) (n k : Nat) (f : Core → Core) :
    (s.modCore n f).core k = if k = n ∧ n < s.cores.length then f (s.core n) else s.core k := getD_listSet ..
theorem State.island_modIsland (s : State) (n k : Nat) (f : Island → Island) :
    (s.modIsland n f).island k = if k = n ∧ n < s.islands.length then f (s.island n) else s.island k := getD_listSet ..

theorem State.ctx?_modCtx {s : State} {c : BitVec 8} {x : Ctx} (f : Ctx → Ctx) (h : s.ctx? c = some x)
    (hf : ∀ y : Ctx, y.id = c → (f y).id = c) : (s.modCtx c f).ctx? c = some (f x) := by
  have := find?_mapIf s.ctxs (fun y => decide (y.id = c)) f (by simpa using hf)
  simp only [decide_eq_true_eq] at this
  simp [State.ctx?, State.modCtx, this]
  exact ⟨x, h, rfl⟩
theorem State.engine?_modEngine {s : State} {r : EngineRef} {e : EngineCtx} (f : EngineCtx → EngineCtx) (h : s.engine? r = some e)
    (hf : ∀ y : EngineCtx, y.ref = r → (f y).ref = r) : (s.modEngine r f).engine? r = some (f e) := by
  have := find?_mapIf s.engines (fun y => decide (y.ref = r)) f (by simpa using hf)
  simp only [decide_eq_true_eq] at this
  simp [State.engine?, State.modEngine, this]
  exact ⟨e, h, rfl⟩

/-- A write at L2 leaves the bytes outside it. -/
theorem sameMemBut_performWrite (s : State) (pa : Nat) (bs : List Byte) : SameMemBut s (performWrite s pa bs) pa bs.length := by
  intro a ha
  have hc : (performWrite s pa bs).cores = s.cores := by unfold performWrite triggerMonitors; split <;> rfl
  unfold memByte
  split
  · unfold scopeByte inScope State.core; simp only [hc]
  · rw [performWrite_mem]
    split
    · rfl
    · exact Sparse.get_write_out _ _ _ _ ha

end Sys2Proof.Machine
end

