-- ==== Sys2Proof/Laws/PerInstr.lean ====
section
/-! SUPPORT. Facts of instructions as syntax, one lemma per constructor: the length of an encoding. -/

namespace Sys2Proof.Laws.Length

open Sys2Proof

/-- A word of a stream has an encoding of 32 or 96 bits and fits it; a device operation or event has none (R108, R109, R115). -/
def Statement (i : Instr) : Prop :=
  match encode i with
  | some (n, w) => w < 2 ^ n ∧ (n = 32 ∨ n = 96)
  | none => streamOf i = none

theorem of_wide {i : Instr} {p : Nat × LaneWord} (h : wideOf i = some p) : Statement i := by
  simp only [Statement, encode, h]
  exact ⟨(pack p.1 p.2).isLt, .inr trivial⟩
theorem of_scalar {i : Instr} {w : BitVec 32} (h : wideOf i = none) (hs : encodeScalar i = some w) : Statement i := by
  simp only [Statement, encode, h, hs, Option.map_some]
  exact ⟨w.isLt, .inl trivial⟩
theorem of_event {i : Instr} (h : wideOf i = none) (hs : encodeScalar i = none) : Statement i := by
  simp only [Statement, encode, streamOf, h, hs, Option.map_none]

theorem add : ∀ x0 x1 x2 x3, Statement (.add x0 x1 x2 x3) := fun _ _ _ _ => of_scalar rfl rfl
theorem sub : ∀ x0 x1 x2 x3, Statement (.sub x0 x1 x2 x3) := fun _ _ _ _ => of_scalar rfl rfl
theorem mul : ∀ x0 x1 x2 x3, Statement (.mul x0 x1 x2 x3) := fun _ _ _ _ => of_scalar rfl rfl
theorem mulh : ∀ x0 x1 x2 x3, Statement (.mulh x0 x1 x2 x3) := fun _ _ _ _ => of_scalar rfl rfl
theorem and : ∀ x0 x1 x2, Statement (.and x0 x1 x2) := fun _ _ _ => of_scalar rfl rfl
theorem or : ∀ x0 x1 x2, Statement (.or x0 x1 x2) := fun _ _ _ => of_scalar rfl rfl
theorem xor : ∀ x0 x1 x2, Statement (.xor x0 x1 x2) := fun _ _ _ => of_scalar rfl rfl
theorem shl : ∀ x0 x1 x2 x3, Statement (.shl x0 x1 x2 x3) := fun _ _ _ _ => of_scalar rfl rfl
theorem shr : ∀ x0 x1 x2 x3, Statement (.shr x0 x1 x2 x3) := fun _ _ _ _ => of_scalar rfl rfl
theorem sha : ∀ x0 x1 x2 x3, Statement (.sha x0 x1 x2 x3) := fun _ _ _ _ => of_scalar rfl rfl
theorem min : ∀ x0 x1 x2 x3, Statement (.min x0 x1 x2 x3) := fun _ _ _ _ => of_scalar rfl rfl
theorem max : ∀ x0 x1 x2 x3, Statement (.max x0 x1 x2 x3) := fun _ _ _ _ => of_scalar rfl rfl
theorem cmp : ∀ x0 x1 x2 x3 x4, Statement (.cmp x0 x1 x2 x3 x4) := fun _ _ _ _ _ => of_scalar rfl rfl
theorem sel : ∀ x0 x1 x2 x3, Statement (.sel x0 x1 x2 x3) := fun _ _ _ _ => of_scalar rfl rfl
theorem addImmediate : ∀ x0 x1 x2, Statement (.addImmediate x0 x1 x2) := fun _ _ _ => of_scalar rfl rfl
theorem andImmediate : ∀ x0 x1 x2, Statement (.andImmediate x0 x1 x2) := fun _ _ _ => of_scalar rfl rfl
theorem orImmediate : ∀ x0 x1 x2, Statement (.orImmediate x0 x1 x2) := fun _ _ _ => of_scalar rfl rfl
theorem xorImmediate : ∀ x0 x1 x2, Statement (.xorImmediate x0 x1 x2) := fun _ _ _ => of_scalar rfl rfl
theorem shlImmediate : ∀ x0 x1 x2 x3, Statement (.shlImmediate x0 x1 x2 x3) := fun _ _ _ _ => of_scalar rfl rfl
theorem shrImmediate : ∀ x0 x1 x2 x3, Statement (.shrImmediate x0 x1 x2 x3) := fun _ _ _ _ => of_scalar rfl rfl
theorem shaImmediate : ∀ x0 x1 x2 x3, Statement (.shaImmediate x0 x1 x2 x3) := fun _ _ _ _ => of_scalar rfl rfl
theorem cmpImmediate : ∀ x0 x1 x2 x3 x4, Statement (.cmpImmediate x0 x1 x2 x3 x4) := fun _ _ _ _ _ => of_scalar rfl rfl
theorem movi : ∀ x0 x1, Statement (.movi x0 x1) := fun _ _ => of_scalar rfl rfl
theorem movhi : ∀ x0 x1 x2, Statement (.movhi x0 x1 x2) := fun _ _ _ => of_scalar rfl rfl
theorem lea : ∀ x0 x1, Statement (.lea x0 x1) := fun _ _ => of_scalar rfl rfl
theorem ldN8 : ∀ x0 x1 x2 x3, Statement (.ldN8 x0 x1 x2 x3) := fun _ _ _ _ => of_scalar rfl rfl
theorem ldN16 : ∀ x0 x1 x2 x3, Statement (.ldN16 x0 x1 x2 x3) := fun _ _ _ _ => of_scalar rfl rfl
theorem ldN32 : ∀ x0 x1 x2 x3, Statement (.ldN32 x0 x1 x2 x3) := fun _ _ _ _ => of_scalar rfl rfl
theorem ldN64 : ∀ x0 x1 x2 x3, Statement (.ldN64 x0 x1 x2 x3) := fun _ _ _ _ => of_scalar rfl rfl
theorem ldI8 : ∀ x0 x1 x2 x3, Statement (.ldI8 x0 x1 x2 x3) := fun _ _ _ _ => of_scalar rfl rfl
theorem ldI16 : ∀ x0 x1 x2 x3, Statement (.ldI16 x0 x1 x2 x3) := fun _ _ _ _ => of_scalar rfl rfl
theorem ldI32 : ∀ x0 x1 x2 x3, Statement (.ldI32 x0 x1 x2 x3) := fun _ _ _ _ => of_scalar rfl rfl
theorem ldOrdered : ∀ x0 x1 x2 x3 x4 x5, Statement (.ldOrdered x0 x1 x2 x3 x4 x5) := fun _ _ _ _ _ _ => of_scalar rfl rfl
theorem stN8 : ∀ x0 x1 x2 x3, Statement (.stN8 x0 x1 x2 x3) := fun _ _ _ _ => of_scalar rfl rfl
theorem stN16 : ∀ x0 x1 x2 x3, Statement (.stN16 x0 x1 x2 x3) := fun _ _ _ _ => of_scalar rfl rfl
theorem stN32 : ∀ x0 x1 x2 x3, Statement (.stN32 x0 x1 x2 x3) := fun _ _ _ _ => of_scalar rfl rfl
theorem stN64 : ∀ x0 x1 x2 x3, Statement (.stN64 x0 x1 x2 x3) := fun _ _ _ _ => of_scalar rfl rfl
theorem stOrdered : ∀ x0 x1 x2 x3 x4 x5, Statement (.stOrdered x0 x1 x2 x3 x4 x5) := fun _ _ _ _ _ _ => of_scalar rfl rfl
theorem atom : ∀ x0 x1 x2 x3 x4 x5 x6, Statement (.atom x0 x1 x2 x3 x4 x5 x6) := fun _ _ _ _ _ _ _ => of_scalar rfl rfl
theorem lds : ∀ x0 x1 x2 x3, Statement (.lds x0 x1 x2 x3) := fun _ _ _ _ => of_scalar rfl rfl
theorem sts : ∀ x0 x1 x2 x3, Statement (.sts x0 x1 x2 x3) := fun _ _ _ _ => of_scalar rfl rfl
theorem br : ∀ x0, Statement (.br x0) := fun _ => of_scalar rfl rfl
theorem brc : ∀ x0 x1 x2, Statement (.brc x0 x1 x2) := fun _ _ _ => of_scalar rfl rfl
theorem call : ∀ x0, Statement (.call x0) := fun _ => of_scalar rfl rfl
theorem jmp : ∀ x0, Statement (.jmp x0) := fun _ => of_scalar rfl rfl
theorem calli : ∀ x0, Statement (.calli x0) := fun _ => of_scalar rfl rfl
theorem ret : Statement .ret := of_scalar rfl rfl
theorem lrun : ∀ x0 x1, Statement (.lrun x0 x1) := fun _ _ => of_scalar rfl rfl
theorem lwait : Statement .lwait := of_scalar rfl rfl
theorem wbind : ∀ x0 x1, Statement (.wbind x0 x1) := fun _ _ => of_scalar rfl rfl
theorem wread : ∀ x0 x1, Statement (.wread x0 x1) := fun _ _ => of_scalar rfl rfl
theorem rgrowB : ∀ x0, Statement (.rgrowB x0) := fun _ => of_scalar rfl rfl
theorem rgrowC : ∀ x0 x1, Statement (.rgrowC x0 x1) := fun _ _ => of_scalar rfl rfl
theorem rshrink : ∀ x0, Statement (.rshrink x0) := fun _ => of_scalar rfl rfl
theorem barArrive : ∀ x0 x1, Statement (.barArrive x0 x1) := fun _ _ => of_scalar rfl rfl
theorem barWait : ∀ x0, Statement (.barWait x0) := fun _ => of_scalar rfl rfl
theorem barParrive : ∀ x0 x1, Statement (.barParrive x0 x1) := fun _ _ => of_scalar rfl rfl
theorem barWaitPel : ∀ x0, Statement (.barWaitPel x0) := fun _ => of_scalar rfl rfl
theorem qpush : ∀ x0 x1, Statement (.qpush x0 x1) := fun _ _ => of_scalar rfl rfl
theorem qpop : ∀ x0 x1, Statement (.qpop x0 x1) := fun _ _ => of_scalar rfl rfl
theorem ctail : ∀ x0 x1, Statement (.ctail x0 x1) := fun _ _ => of_scalar rfl rfl
theorem cclose : ∀ x0 x1, Statement (.cclose x0 x1) := fun _ _ => of_scalar rfl rfl
theorem cwait : ∀ x0, Statement (.cwait x0) := fun _ => of_scalar rfl rfl
theorem tlwait : ∀ x0 x1, Statement (.tlwait x0 x1) := fun _ _ => of_scalar rfl rfl
theorem tlread : ∀ x0 x1, Statement (.tlread x0 x1) := fun _ _ => of_scalar rfl rfl
theorem fenceAcq : ∀ x0, Statement (.fenceAcq x0) := fun _ => of_scalar rfl rfl
theorem fenceRel : ∀ x0, Statement (.fenceRel x0) := fun _ => of_scalar rfl rfl
theorem fenceAr : ∀ x0, Statement (.fenceAr x0) := fun _ => of_scalar rfl rfl
theorem fenceI : ∀ x0, Statement (.fenceI x0) := fun _ => of_scalar rfl rfl
theorem lnarm : ∀ x0 x1, Statement (.lnarm x0 x1) := fun _ _ => of_scalar rfl rfl
theorem lnwait : ∀ x0 x1, Statement (.lnwait x0 x1) := fun _ _ => of_scalar rfl rfl
theorem spawn : ∀ x0 x1 x2, Statement (.spawn x0 x1 x2) := fun _ _ _ => of_scalar rfl rfl
theorem join : ∀ x0 x1, Statement (.join x0 x1) := fun _ _ => of_scalar rfl rfl
theorem amsend : ∀ x0 x1 x2, Statement (.amsend x0 x1 x2) := fun _ _ _ => of_scalar rfl rfl
theorem swpt : ∀ x0, Statement (.swpt x0) := fun _ => of_scalar rfl rfl
theorem syscall : ∀ x0, Statement (.syscall x0) := fun _ => of_scalar rfl rfl
theorem trap : ∀ x0, Statement (.trap x0) := fun _ => of_scalar rfl rfl
theorem yield : Statement .yield := of_scalar rfl rfl
theorem exit : Statement .exit := of_scalar rfl rfl
theorem causew : ∀ x0, Statement (.causew x0) := fun _ => of_scalar rfl rfl
theorem srseed : ∀ x0, Statement (.srseed x0) := fun _ => of_scalar rfl rfl
theorem sprd : ∀ x0 x1, Statement (.sprd x0 x1) := fun _ _ => of_scalar rfl rfl
theorem spwr : ∀ x0 x1, Statement (.spwr x0 x1) := fun _ _ => of_scalar rfl rfl
theorem replay : ∀ x0 x1, Statement (.replay x0 x1) := fun _ _ => of_scalar rfl rfl
theorem iadd : ∀ x0, Statement (.iadd x0) := fun _ => of_wide rfl
theorem isub : ∀ x0, Statement (.isub x0) := fun _ => of_wide rfl
theorem imul : ∀ x0, Statement (.imul x0) := fun _ => of_wide rfl
theorem imad : ∀ x0, Statement (.imad x0) := fun _ => of_wide rfl
theorem imulh : ∀ x0, Statement (.imulh x0) := fun _ => of_wide rfl
theorem idiv : ∀ x0, Statement (.idiv x0) := fun _ => of_wide rfl
theorem imin : ∀ x0, Statement (.imin x0) := fun _ => of_wide rfl
theorem imax : ∀ x0, Statement (.imax x0) := fun _ => of_wide rfl
theorem icmp : ∀ x0, Statement (.icmp x0) := fun _ => of_wide rfl
theorem laneShl : ∀ x0, Statement (.laneShl x0) := fun _ => of_wide rfl
theorem laneShr : ∀ x0, Statement (.laneShr x0) := fun _ => of_wide rfl
theorem laneSha : ∀ x0, Statement (.laneSha x0) := fun _ => of_wide rfl
theorem laneAnd : ∀ x0, Statement (.laneAnd x0) := fun _ => of_wide rfl
theorem laneOr : ∀ x0, Statement (.laneOr x0) := fun _ => of_wide rfl
theorem laneXor : ∀ x0, Statement (.laneXor x0) := fun _ => of_wide rfl
theorem not : ∀ x0, Statement (.not x0) := fun _ => of_wide rfl
theorem bfe : ∀ x0, Statement (.bfe x0) := fun _ => of_wide rfl
theorem bfi : ∀ x0, Statement (.bfi x0) := fun _ => of_wide rfl
theorem popc : ∀ x0, Statement (.popc x0) := fun _ => of_wide rfl
theorem clz : ∀ x0, Statement (.clz x0) := fun _ => of_wide rfl
theorem brev : ∀ x0, Statement (.brev x0) := fun _ => of_wide rfl
theorem bilv : ∀ x0, Statement (.bilv x0) := fun _ => of_wide rfl
theorem bdlv : ∀ x0, Statement (.bdlv x0) := fun _ => of_wide rfl
theorem fadd : ∀ x0, Statement (.fadd x0) := fun _ => of_wide rfl
theorem fmul : ∀ x0, Statement (.fmul x0) := fun _ => of_wide rfl
theorem ffma : ∀ x0, Statement (.ffma x0) := fun _ => of_wide rfl
theorem fmin : ∀ x0, Statement (.fmin x0) := fun _ => of_wide rfl
theorem fmax : ∀ x0, Statement (.fmax x0) := fun _ => of_wide rfl
theorem fcmp : ∀ x0, Statement (.fcmp x0) := fun _ => of_wide rfl
theorem frcp : ∀ x0, Statement (.frcp x0) := fun _ => of_wide rfl
theorem frsq : ∀ x0, Statement (.frsq x0) := fun _ => of_wide rfl
theorem fsqrt : ∀ x0, Statement (.fsqrt x0) := fun _ => of_wide rfl
theorem fexp2 : ∀ x0, Statement (.fexp2 x0) := fun _ => of_wide rfl
theorem flog2 : ∀ x0, Statement (.flog2 x0) := fun _ => of_wide rfl
theorem fsin : ∀ x0, Statement (.fsin x0) := fun _ => of_wide rfl
theorem fcos : ∀ x0, Statement (.fcos x0) := fun _ => of_wide rfl
theorem pkfma : ∀ x0, Statement (.pkfma x0) := fun _ => of_wide rfl
theorem pkadd : ∀ x0, Statement (.pkadd x0) := fun _ => of_wide rfl
theorem cvt : ∀ x0, Statement (.cvt x0) := fun _ => of_wide rfl
theorem vdot4 : ∀ x0, Statement (.vdot4 x0) := fun _ => of_wide rfl
theorem vdot8 : ∀ x0, Statement (.vdot8 x0) := fun _ => of_wide rfl
theorem pand : ∀ x0, Statement (.pand x0) := fun _ => of_wide rfl
theorem por : ∀ x0, Statement (.por x0) := fun _ => of_wide rfl
theorem pxor : ∀ x0, Statement (.pxor x0) := fun _ => of_wide rfl
theorem pnot : ∀ x0, Statement (.pnot x0) := fun _ => of_wide rfl
theorem laneSel : ∀ x0, Statement (.laneSel x0) := fun _ => of_wide rfl
theorem mov : ∀ x0, Statement (.mov x0) := fun _ => of_wide rfl
theorem shfl : ∀ x0, Statement (.shfl x0) := fun _ => of_wide rfl
theorem vote : ∀ x0, Statement (.vote x0) := fun _ => of_wide rfl
theorem ballot : ∀ x0, Statement (.ballot x0) := fun _ => of_wide rfl
theorem split : ∀ x0, Statement (.split x0) := fun _ => of_wide rfl
theorem joinL : ∀ x0, Statement (.joinL x0) := fun _ => of_wide rfl
theorem lcall : ∀ x0, Statement (.lcall x0) := fun _ => of_wide rfl
theorem lret : ∀ x0, Statement (.lret x0) := fun _ => of_wide rfl
theorem laneLd : ∀ x0, Statement (.laneLd x0) := fun _ => of_wide rfl
theorem laneSt : ∀ x0, Statement (.laneSt x0) := fun _ => of_wide rfl
theorem ldc : ∀ x0, Statement (.ldc x0) := fun _ => of_wide rfl
theorem laneLds : ∀ x0, Statement (.laneLds x0) := fun _ => of_wide rfl
theorem laneSts : ∀ x0, Statement (.laneSts x0) := fun _ => of_wide rfl
theorem ldp : ∀ x0, Statement (.ldp x0) := fun _ => of_wide rfl
theorem stp : ∀ x0, Statement (.stp x0) := fun _ => of_wide rfl
theorem laneAtom : ∀ x0, Statement (.laneAtom x0) := fun _ => of_wide rfl
theorem atoms : ∀ x0, Statement (.atoms x0) := fun _ => of_wide rfl
theorem red : ∀ x0, Statement (.red x0) := fun _ => of_wide rfl
theorem cpy : ∀ x0, Statement (.cpy x0) := fun _ => of_wide rfl
theorem fenceL : ∀ x0, Statement (.fenceL x0) := fun _ => of_wide rfl
theorem mbar : ∀ x0, Statement (.mbar x0) := fun _ => of_wide rfl
theorem isubIsl : ∀ x0, Statement (.isubIsl x0) := fun _ => of_wide rfl
theorem qread : ∀ x0, Statement (.qread x0) := fun _ => of_wide rfl
theorem qclose : ∀ x0, Statement (.qclose x0) := fun _ => of_wide rfl
theorem attr : ∀ x0, Statement (.attr x0) := fun _ => of_wide rfl
theorem trace : ∀ x0, Statement (.trace x0) := fun _ => of_wide rfl
theorem refill : ∀ x0, Statement (.refill x0) := fun _ => of_wide rfl
theorem neval : ∀ x0, Statement (.neval x0) := fun _ => of_wide rfl
theorem mma : ∀ x0, Statement (.mma x0) := fun _ => of_wide rfl
theorem mloadb : ∀ x0, Statement (.mloadb x0) := fun _ => of_wide rfl
theorem mscale : ∀ x0, Statement (.mscale x0) := fun _ => of_wide rfl
theorem aclr : ∀ x0, Statement (.aclr x0) := fun _ => of_wide rfl
theorem aout : ∀ x0, Statement (.aout x0) := fun _ => of_wide rfl
theorem amove : ∀ x0, Statement (.amove x0) := fun _ => of_wide rfl
theorem mgear : ∀ x0, Statement (.mgear x0) := fun _ => of_wide rfl
theorem mbudget : ∀ x0, Statement (.mbudget x0) := fun _ => of_wide rfl
theorem mstat : ∀ x0, Statement (.mstat x0) := fun _ => of_wide rfl
theorem mwaitq : ∀ x0, Statement (.mwaitq x0) := fun _ => of_wide rfl
theorem matrixBarArrive : ∀ x0, Statement (.matrixBarArrive x0) := fun _ => of_wide rfl
theorem matrixBarWait : ∀ x0, Statement (.matrixBarWait x0) := fun _ => of_wide rfl
theorem matrixQpop : ∀ x0, Statement (.matrixQpop x0) := fun _ => of_wide rfl
theorem matrixQpush : ∀ x0, Statement (.matrixQpush x0) := fun _ => of_wide rfl
theorem matrixTlwait : ∀ x0, Statement (.matrixTlwait x0) := fun _ => of_wide rfl
theorem mend : ∀ x0, Statement (.mend x0) := fun _ => of_wide rfl
theorem mendLoop : ∀ x0, Statement (.mendLoop x0) := fun _ => of_wide rfl
theorem doorbell : ∀ x0 x1, Statement (.doorbell x0 x1) := fun _ _ => of_event rfl rfl
theorem d2dsyncRead : Statement .d2dsyncRead := of_event rfl rfl
theorem msigen : ∀ x0 x1, Statement (.msigen x0 x1) := fun _ _ => of_event rfl rfl
theorem sysdone : ∀ x0 x1, Statement (.sysdone x0 x1) := fun _ _ => of_event rfl rfl
theorem faultRetry : ∀ x0 x1 x2 x3, Statement (.faultRetry x0 x1 x2 x3) := fun _ _ _ _ => of_event rfl rfl
theorem faultFatal : ∀ x0 x1 x2 x3, Statement (.faultFatal x0 x1 x2 x3) := fun _ _ _ _ => of_event rfl rfl
theorem faultPost : ∀ x0, Statement (.faultPost x0) := fun _ => of_event rfl rfl
theorem bind : ∀ x0 x1 x2, Statement (.bind x0 x1 x2) := fun _ _ _ => of_event rfl rfl
theorem makeres : ∀ x0 x1 x2, Statement (.makeres x0 x1 x2) := fun _ _ _ => of_event rfl rfl
theorem preempt : ∀ x0 x1 x2, Statement (.preempt x0 x1 x2) := fun _ _ _ => of_event rfl rfl
theorem reset : ∀ x0 x1 x2, Statement (.reset x0 x1 x2) := fun _ _ _ => of_event rfl rfl
theorem release : ∀ x0 x1 x2, Statement (.release x0 x1 x2) := fun _ _ _ => of_event rfl rfl
theorem firstDeadline : ∀ x0, Statement (.firstDeadline x0) := fun _ => of_event rfl rfl
theorem secondDeadline : ∀ x0, Statement (.secondDeadline x0) := fun _ => of_event rfl rfl
theorem stop : ∀ x0 x1 x2, Statement (.stop x0 x1 x2) := fun _ _ _ => of_event rfl rfl
theorem resume : ∀ x0 x1 x2, Statement (.resume x0 x1 x2) := fun _ _ _ => of_event rfl rfl
theorem stepL : ∀ x0 x1 x2, Statement (.stepL x0 x1 x2) := fun _ _ _ => of_event rfl rfl
theorem stepS : ∀ x0 x1 x2, Statement (.stepS x0 x1 x2) := fun _ _ _ => of_event rfl rfl
theorem tlbInvalidatePage : ∀ x0 x1, Statement (.tlbInvalidatePage x0 x1) := fun _ _ => of_event rfl rfl
theorem tlbInvalidateContext : ∀ x0 x1, Statement (.tlbInvalidateContext x0 x1) := fun _ _ => of_event rfl rfl
theorem tlbInvalidateAll : ∀ x0 x1, Statement (.tlbInvalidateAll x0 x1) := fun _ _ => of_event rfl rfl
theorem tlbInvalidationDone : Statement .tlbInvalidationDone := of_event rfl rfl
theorem scpartWrite : ∀ x0 x1 x2, Statement (.scpartWrite x0 x1 x2) := fun _ _ _ => of_event rfl rfl
theorem pwrpoolWrite : ∀ x0 x1, Statement (.pwrpoolWrite x0 x1) := fun _ _ => of_event rfl rfl
theorem registerWrite : ∀ x0 x1 x2, Statement (.registerWrite x0 x1 x2) := fun _ _ _ => of_event rfl rfl
theorem powerSave : ∀ x0, Statement (.powerSave x0) := fun _ => of_event rfl rfl
theorem powerOff : ∀ x0, Statement (.powerOff x0) := fun _ => of_event rfl rfl
theorem powerReset : ∀ x0, Statement (.powerReset x0) := fun _ => of_event rfl rfl
theorem powerGood : Statement .powerGood := of_event rfl rfl
theorem perst : Statement .perst := of_event rfl rfl
theorem functionLevelReset : Statement .functionLevelReset := of_event rfl rfl
theorem d3hotEntry : Statement .d3hotEntry := of_event rfl rfl
theorem d3hotExit : Statement .d3hotExit := of_event rfl rfl
theorem gddr7SelfRefresh : Statement .gddr7SelfRefresh := of_event rfl rfl
theorem enter : ∀ x0 x1, Statement (.enter x0 x1) := fun _ _ => of_event rfl rfl
theorem start : ∀ x0 x1, Statement (.start x0 x1) := fun _ _ => of_event rfl rfl
theorem leave : ∀ x0 x1, Statement (.leave x0 x1) := fun _ _ => of_event rfl rfl
theorem selfTest : ∀ x0 x1, Statement (.selfTest x0 x1) := fun _ _ => of_event rfl rfl
theorem handover : ∀ x0 x1, Statement (.handover x0 x1) := fun _ _ => of_event rfl rfl
theorem headRelease : ∀ x0 x1, Statement (.headRelease x0 x1) := fun _ _ => of_event rfl rfl
theorem frameStart : ∀ x0, Statement (.frameStart x0) := fun _ => of_event rfl rfl
theorem budgetGrant : ∀ x0, Statement (.budgetGrant x0) := fun _ => of_event rfl rfl
theorem budgetTick : ∀ x0, Statement (.budgetTick x0) := fun _ => of_event rfl rfl
theorem grantTimeout : Statement .grantTimeout := of_event rfl rfl
theorem blockRetire : ∀ x0, Statement (.blockRetire x0) := fun _ => of_event rfl rfl
theorem writeAcknowledge : ∀ x0 x1, Statement (.writeAcknowledge x0 x1) := fun _ _ => of_event rfl rfl
theorem lnwaitTimeout : ∀ x0, Statement (.lnwaitTimeout x0) := fun _ => of_event rfl rfl
theorem longLatencyResolve : ∀ x0 x1 x2, Statement (.longLatencyResolve x0 x1 x2) := fun _ _ _ => of_event rfl rfl
theorem nop : ∀ x0, Statement (.nop x0) := fun _ => of_event rfl rfl
theorem copy : ∀ x0, Statement (.copy x0) := fun _ => of_event rfl rfl
theorem fill : ∀ x0, Statement (.fill x0) := fun _ => of_event rfl rfl
theorem link : ∀ x0, Statement (.link x0) := fun _ => of_event rfl rfl
theorem wait : ∀ x0, Statement (.wait x0) := fun _ => of_event rfl rfl
theorem commandComplete : ∀ x0, Statement (.commandComplete x0) := fun _ => of_event rfl rfl
theorem islandAccept : ∀ x0, Statement (.islandAccept x0) := fun _ => of_event rfl rfl
theorem islandPass : ∀ x0, Statement (.islandPass x0) := fun _ => of_event rfl rfl
theorem islandDeliver : ∀ x0, Statement (.islandDeliver x0) := fun _ => of_event rfl rfl
theorem shaderTableLookup : ∀ x0, Statement (.shaderTableLookup x0) := fun _ => of_event rfl rfl
theorem tileWindowClose : ∀ x0, Statement (.tileWindowClose x0) := fun _ => of_event rfl rfl
theorem draftTileRun : ∀ x0, Statement (.draftTileRun x0) := fun _ => of_event rfl rfl
theorem arrayGrant : ∀ x0, Statement (.arrayGrant x0) := fun _ => of_event rfl rfl
theorem attemptEnd : ∀ x0, Statement (.attemptEnd x0) := fun _ => of_event rfl rfl
theorem trapEntry : ∀ x0, Statement (.trapEntry x0) := fun _ => of_event rfl rfl
theorem powerRemoval : ∀ x0, Statement (.powerRemoval x0) := fun _ => of_event rfl rfl
theorem fsyncInPulse : Statement .fsyncInPulse := of_event rfl rfl
theorem engineTailWrite : ∀ x0 x1, Statement (.engineTailWrite x0 x1) := fun _ _ => of_event rfl rfl
theorem illegalEncoding : ∀ x0, Statement (.illegalEncoding x0) := fun _ => of_event rfl rfl
theorem loadobj : Statement .loadobj := of_event rfl rfl
theorem bindisl : Statement .bindisl := of_event rfl rfl
theorem relport : Statement .relport := of_event rfl rfl
theorem attest : Statement .attest := of_event rfl rfl
theorem genkey : Statement .genkey := of_event rfl rfl
theorem keyinstall : Statement .keyinstall := of_event rfl rfl
theorem keyrevoke : Statement .keyrevoke := of_event rfl rfl
theorem lcchange : Statement .lcchange := of_event rfl rfl
theorem dispatch : Statement .dispatch := of_event rfl rfl
theorem launchExpand : Statement .launchExpand := of_event rfl rfl
theorem joinCounterReread : Statement .joinCounterReread := of_event rfl rfl
theorem candidateAged : Statement .candidateAged := of_event rfl rfl
theorem moveMark : Statement .moveMark := of_event rfl rfl

end Sys2Proof.Laws.Length
end

