-- ==== Sys2Proof/Laws/Reads.lean ====
section
/-! SUPPORT. What a core reads: with no open choice listed, the bytes of memory under its own pending writes. -/

namespace Sys2Proof.Machine

open Sys2Proof

/-- The open choices and what every core sees of L2 stand. -/
def SameView (s t : State) : Prop :=
  t.choices = s.choices ∧ (∀ a, memByte t a = memByte s a) ∧
  ∀ c a b, pendByte (t.core c).pend a b = pendByte (s.core c).pend a b

theorem SameView.refl (s : State) : SameView s s := ⟨rfl, fun _ => rfl, fun _ _ _ => rfl⟩
theorem SameView.trans {s t u : State} (h1 : SameView s t) (h2 : SameView t u) : SameView s u :=
  ⟨h2.1.trans h1.1, fun a => (h2.2.1 a).trans (h1.2.1 a), fun c a b => (h2.2.2 c a b).trans (h1.2.2 c a b)⟩
theorem SameView.freshRead {s t : State} (h : SameView s t) (c a m : Nat) : freshRead t c a m = freshRead s c a m :=
  List.map_congr_left fun i _ => by rw [h.2.1, h.2.2]

theorem scopeByte_congr {s t : State} (h : ∀ d, (s.core d).inService = (t.core d).inService) (o : Nat) :
    scopeByte s o = scopeByte t o := by
  have h1 : (fun d => (s.core d).inService) = fun d => (t.core d).inService := funext h
  have h2 : inScope s = inScope t := by funext c d n; unfold inScope; rw [h, h]
  unfold scopeByte; rw [h1, h2]

/-- An update of one core that keeps what its pending table shows and whether it is in service. -/
theorem SameView.modCore (s : State) (n : Nat) (f : Core → Core) (hs : ∀ c, (f c).inService = c.inService)
    (hp : ∀ c a b, pendByte (f c).pend a b = pendByte c.pend a b) : SameView s (s.modCore n f) := by
  refine ⟨rfl, fun a => ?_, fun c a b => ?_⟩
  · have hk : ∀ k, ((s.modCore n f).core k).inService = (s.core k).inService := fun k => by
      rw [State.core_modCore]; split
      · rename_i h; rw [hs, h.1]
      · rfl
    unfold memByte; rw [scopeByte_congr hk]; rfl
  · rw [State.core_modCore]; split
    · rename_i h; rw [hp, h.1]
    · rfl
theorem SameView.l1 (s : State) (n : Nat) (f : Core → List LineCopy) :
    SameView s (s.modCore n fun c => { c with l1 := f c }) := .modCore s n _ (fun _ => rfl) fun _ _ _ => rfl
theorem SameView.foldl {α : Type} (f : State → α → State) (h : ∀ s x, SameView s (f s x)) (l : List α) (s : State) :
    SameView s (l.foldl f s) := by
  induction l generalizing s with
  | nil => exact .refl s
  | cons x l ih => exact (h s x).trans (ih _)
theorem SameView.renewL1 (s : State) (c a n : Nat) : SameView s (renewL1 s c a n) := .l1 s c _
theorem SameView.fillL1 (s : State) (c a n : Nat) : SameView s (fillL1 s c a n) :=
  .foldl (fun s l => fillLine s c l) (fun s _ => .l1 s c _) _ _
theorem SameView.acquire (s : State) (c n : Nat) : SameView s (acquire s c n) := by
  unfold Machine.acquire; split
  · exact .refl s
  · exact .modCore s c _ (fun _ => rfl) fun _ _ _ => rfl
theorem pendByte_seal (f : Agent → Bool) (ws : List PendWrite) (a : Nat) (b : Byte) :
    pendByte (ws.map fun w => if f w.who then { w with uo := false } else w) a b = pendByte ws a b := by
  unfold pendByte
  rw [List.foldl_map]
  congr 1; funext b w; split <;> rfl
theorem SameView.sealWrites (s : State) (c : Nat) (f : Agent → Bool) : SameView s (sealWrites s c f) :=
  .modCore s c _ (fun _ => rfl) fun k a b => pendByte_seal f k.pend a b
theorem SameView.captureLoads (s : State) (r : GroupRef) (f : Load → LoadPart → Bool) :
    SameView s (captureLoads s r f) := by
  have h : SameView s (s.modGroup r fun g => { g with loads := g.loads.map fun l =>
    { l with parts := l.parts.map fun p => if f l p then performPart s l p else p } }) := .refl s
  unfold Machine.captureLoads
  dsimp only
  split
  · exact h
  · exact h.trans (.foldl _ (fun s l => .foldl _ (fun s _ => .renewL1 s ..) _ _) _ _)

/-- With no open choice listed a read sees every pending write of its core. -/
theorem pendSeen_spec {s : State} (core : Nat) (who : Agent) (p : Pte) (pa n : Nat) (h : s.choices = []) :
    pendSeen s core who p pa n = ((s.core core).pend, s) := by
  simp [pendSeen, State.choose, h]
theorem coreRead_spec {s : State} (core : Nat) (who : Agent) (p : Pte) (st : Bool) (pa n : Nat) (h : s.choices = []) :
    (coreRead s core who p st pa n).2 = freshRead s core pa n ∧ SameView s (coreRead s core who p st pa n).1 := by
  have hc : s.choose = (0, s) := by simp [State.choose, h]
  have hb : ∀ t : State, SameView s t → (List.range n).map (fun i => pendByte (t.core core).pend (pa + i) ((memBytes s pa n).getD i 0)) =
      freshRead s core pa n := fun t ht =>
    List.map_congr_left fun i hi => by simp [memBytes, List.mem_range.mp hi, ht.2.2]
  simp only [coreRead, pendSeen_spec core who p pa n h, hc, ite_self, ne_eq, not_true_eq_false, decide_false, Bool.and_false, Bool.false_eq_true, if_false]
  split
  · exact ⟨hb s (.refl s), .fillL1 ..⟩
  · exact ⟨hb s (.refl s), .renewL1 ..⟩
theorem readNow_bytes {s : State} (g : Group) (size : Nat) (xs : List (Nat × W64 × Xlat)) (h : s.choices = []) :
    (readNow s g size xs).2 = xs.flatMap fun x => freshRead s g.ref.core.toNat x.2.2.pa size := by
  have go : ∀ (k : Nat) (l : List (Nat × W64 × Xlat)) (u : State) (bs : List Byte), SameView s u →
      (l.foldl (fun (s, bs) (_, _, x) =>
        let (s, b) := coreRead s g.ref.core.toNat (.scalar g.ref) (asKind k x) (x.pte.cpol = 1) x.pa size
        (s, bs ++ b)) (u, bs)).2 = bs ++ l.flatMap fun x => freshRead s g.ref.core.toNat x.2.2.pa size := by
    intro k l; induction l with
    | nil => intro u bs _; simp
    | cons x l ih =>
      intro u bs hu
      obtain ⟨h1, h2⟩ := coreRead_spec g.ref.core.toNat (.scalar g.ref) (asKind k x.2.2) (x.2.2.pte.cpol = 1) x.2.2.pa size (hu.1.trans h)
      rw [List.foldl_cons, ih _ _ (hu.trans h2), List.flatMap_cons, ← List.append_assoc, h1, hu.freshRead]
  refine go _ xs _ [] ?_
  split
  · exact (SameView.captureLoads ..).trans (.sealWrites ..)
  · exact .foldl _ (fun s _ => .captureLoads s ..) _ _

end Sys2Proof.Machine
end

