-- ==== Sys2Proof/Tests/Slice0.lean ====
section
/-! SUPPORT. The model's own tests: words written out from the encodings of the manual, the checks of WellFormed, one step on
small states with results worked out by hand from the rules, and for each statement states that meet its hypotheses. -/

namespace Sys2Proof.Tests

open Sys2Proof Sys2Proof.Machine

set_option Elab.async false

/-- A lane word of three V registers: D = V4, A = V1, B = V2, no C (R115). -/
def lw : LaneWord := ⟨0, false, 0, 0, 4, 1, 2, 254, 0, 0⟩
/-- Every listed instruction is ill-formed. -/
def allBad (l : List Instr) : Bool := l.all fun i => !i.wf
def allGood (l : List Instr) : Bool := l.all Instr.wf

/-! ### Words written out bit by bit from R109-R115 -/

-- OP6 2, D 5, A 4, IMM16 0x0040 (R113: ADD immediate).
theorem test_decode_add_immediate : (decodeScalar 0x08A40040#32).toOption = some (.addImmediate 5 4 0x40) := by decide +kernel
-- OP6 8, D 5, IMM16 0xFFFE; OP6 9, D 5, H 2, IMM16 0x1234.
theorem test_decode_moves : (decodeScalar 0x20A0FFFE#32).toOption = some (.movi 5 0xFFFE) ∧
    (decodeScalar 0x24A21234#32).toOption = some (.movhi 5 2 0x1234) := by decide +kernel
theorem test_decode_lrun : (decodeScalar 0x98800028#32).toOption = some (.lrun 4 0x28) := by decide +kernel
theorem test_decode_st_release : (decodeScalar 0x70E40550#32).toOption = some (.stOrdered 7 4 0 .n32 .rel 5) := by decide +kernel
theorem test_decode_close_fence : (decodeScalar 0xC5200050#32).toOption = some (.cclose 9 5) ∧
    (decodeScalar 0xD4004050#32).toOption = some (.fenceAr 5) := by decide +kernel
theorem test_decode_exit_syscall_swpt : (decodeScalar 0xF0003000#32).toOption = some .exit ∧ (decodeScalar 0xF0000021#32).toOption = some (.syscall 0x21) ∧
    (decodeScalar 0xEC000000#32).toOption = some (.swpt 0) := by decide +kernel
theorem test_decode_ffma : (decodeLane 0x08E42410A03F905000000006#96).toOption =
    some (.ffma ⟨0, true, 7, 0x41, 10, 3, 249, 5, 0, 6⟩) := by decide +kernel
theorem test_decode_iadd : (decodeLane 0x0000100040102FE000000000#96).toOption = some (.iadd lw) := by decide +kernel
theorem test_decode_ld : (decodeLane 0x30EC0200CF902FE000004004#96).toOption =
    some (.laneLd ⟨3, false, 7, 0x20, 12, 249, 2, 254, 0, 0x4004⟩) := by decide +kernel
theorem test_decode_cvt : (decodeLane 0x00058601408FEFE000000800#96).toOption =
    some (.cvt ⟨0, false, 0, 0x60, 20, 8, 254, 254, 0, 0x800⟩) := by decide +kernel
theorem test_decode_cpy : (decodeLane 0x000CC00FEF9FEFE000004006#96).toOption =
    some (.cpy ⟨0, false, 0, 0, 254, 249, 254, 254, 0, 0x4006⟩) := by decide +kernel
theorem test_decode_mma : (decodeMatrix 0x001804004FC047F020000000#96).toOption =
    some (.mma ⟨0, false, 0, 0x40, 4, 252, 4, 127, 0, 0x20000000⟩) := by decide +kernel
-- Reserved encodings are refused: OP6 0, an unassigned lane OP, a matrix OP in a lane stream (R124).
theorem test_decode_reserved : (decodeScalar 0#32).toOption = none ∧ (decodeLane 0#96).toOption = none ∧
    (decodeLane 0x001804004FC047F020000000#96).toOption = none ∧ (decodeMatrix 0x0000100040102FE000000000#96).toOption = none := by
  decide +kernel
-- A field that a word leaves unused must hold 0 (R109): EXIT with its low bit set.
theorem test_decode_unused_field : (decodeScalar 0xF0003001#32).toOption = none := by decide +kernel

/-! ### WellFormed: an ill-formed term for each check -/

theorem test_wf_shift_amount : allBad [.shlImmediate 1 2 true 32, .shrImmediate 1 2 true 63, .shaImmediate 1 2 true 40] = true ∧
    allGood [.shlImmediate 1 2 true 31, .shrImmediate 1 2 false 63, .shaImmediate 1 2 false 32] = true := by decide
theorem test_wf_ordered : allBad [.ldOrdered 1 2 0 .n8 .rel 1, .ldOrdered 1 2 0 .n8 .relaxed 1, .ldOrdered 1 2 0 .n8 .acq 7,
    .stOrdered 1 2 0 .n8 .acq 1, .stOrdered 1 2 0 .i8 .rel 1, .stOrdered 1 2 0 .n8 .rel 7] = true ∧
    allGood [.ldOrdered 1 2 0 .i8 .acq 6, .stOrdered 1 2 0 .w64 .ar 0] = true := by decide
theorem test_wf_atom : allBad [.atom 1 2 0 .n8 .relaxed 0 .add, .atom 1 2 0 .n32 .relaxed 3 .add, .atom 1 2 0 .n32 .relaxed 0 .cas,
    .atom 0 2 0 .n32 .relaxed 0 .cas, .atom 2 2 0 .n32 .acq 7 .add] = true ∧
    allGood [.atom 2 2 0 .n32 .relaxed 0 .cas, .atom 1 2 0 .w64 .ar 6 .xchg] = true := by decide
theorem test_wf_scalar_fields : allBad [.sts 1 2 .i16 0, .brc (.e 6) 0 1, .brc (.ne 2) 1 1, .barArrive true 16, .barWait 16, .cclose 1 7,
    .fenceAcq 7, .fenceRel 7, .fenceAr 7, .join 1 7, .fenceI 6, .sprd 1 3, .spwr 1 2] = true ∧
    allGood [.sts 1 2 .n16 0, .brc (.e 5) 0 1, .brc .eqz 1 1, .barArrive true 15, .cclose 1 6, .fenceI 5, .sprd 1 2, .spwr 1 1] = true := by
  decide
theorem test_wf_integer : allBad [.iadd { lw with la := 1 }, .iadd { lw with gp := 48 }, .iadd { lw with md := 0x40 }, .iadd { lw with md := 2 },
    .iadd { lw with x := 1 }, .iadd { lw with a := 249, b := 250 }, .iadd { lw with a := 249, imm := 32 }, .iadd { lw with a := 250, imm := 16 },
    .iadd { lw with a := 253, imm := 8 }, .iadd { lw with d := 248 }, .iadd { lw with md := 0x30, a := 3 }, .iadd { lw with md := 0x30, d := 253 },
    .imad { lw with md := 0x30 }, .imulh { lw with md := 1 }, .imin { lw with md := 1 }] = true ∧
    allGood [.iadd lw, .iadd { lw with md := 1 }, .iadd { lw with md := 0x30, a := 6 }, .iadd { lw with gp := 47, a := 249, imm := 31 },
      .imad { lw with c := 7 }, .imulh { lw with md := 8 }] = true := by decide
theorem test_wf_idiv_icmp : allBad [.idiv { lw with md := 0x10 }, .idiv { lw with md := 1, x := 1 }, .idiv { lw with md := 9 }, .idiv { lw with x := 2 },
    .icmp { lw with x := 6 }, .icmp { lw with d := 48 }, .icmp { lw with md := 1 }, .icmp { lw with md := 0x40 }] = true ∧
    allGood [.idiv { lw with md := 1 }, .idiv { lw with x := 1 }, .icmp { lw with x := 5, d := 47 }] = true := by decide
theorem test_wf_bits : allBad [.laneShl { lw with md := 0x40 }, .laneShr { lw with x := 1 }, .laneSha { lw with md := 1 }, .laneAnd { lw with md := 1 },
    .laneOr { lw with x := 1 }, .laneXor { lw with d := 251 }, .not { lw with md := 8 }, .popc { lw with x := 1 }, .clz { lw with md := 1 },
    .brev { lw with d := 255 }, .bfe { lw with md := 0x10 }, .bfi { lw with md := 1 }, .bilv { lw with x := 2 }, .bdlv { lw with x := 2 },
    .bdlv { lw with x := 8 }] = true ∧ allGood [.laneShl lw, .popc lw, .bfe { lw with md := 8 }, .bilv { lw with x := 1, c := 7 },
      .bdlv { lw with x := 9 }] = true := by decide
theorem test_wf_float : allBad [.fadd lw, .fadd { lw with md := 0x44 }, .fadd { lw with md := 0x40, x := 4 }, .fmul { lw with md := 0x40, x := 2 },
    .ffma { lw with md := 0x48 }, .fmin { lw with md := 0x41 }, .fmax { lw with md := 0x40, x := 1 }, .fcmp { lw with md := 0x40, x := 8 },
    .frcp { lw with md := 0x40, x := 1 }, .frsq lw, .fsqrt lw, .fexp2 lw, .flog2 lw, .fsin { lw with md := 0x46 }, .fcos lw,
    .pkfma { lw with md := 0x40 }, .pkadd { lw with md := 0x48, x := 1 }] = true ∧
    allGood [.fadd { lw with md := 0x45, x := 3 }, .fmul { lw with md := 0x40, x := 1 }, .fmin { lw with md := 0x40 },
      .fcmp { lw with md := 0x40, x := 7 }, .pkadd { lw with md := 0x48 }, .pkfma { lw with md := 0x50, c := 7 }] = true := by decide
theorem test_wf_convert : allBad [.cvt { lw with md := 0x46, b := 254 }, .cvt { lw with md := 0x44, b := 254 }, .cvt { lw with md := 0x40, b := 254, x := 1 },
    .cvt { lw with md := 0x40, b := 2 }, .cvt { lw with md := 0x60, a := 9, d := 20, b := 254, imm := 0x800 },
    .cvt { lw with md := 0x30, d := 253, b := 254 }] = true ∧ allGood [.cvt { lw with md := 0x40, b := 254 },
      .cvt { lw with md := 0x60, a := 8, d := 20, b := 254, imm := 0x800 }] = true := by decide
theorem test_wf_dot : allBad [.vdot4 lw, .vdot4 { lw with md := 0x20, c := 249 }, .vdot4 { lw with md := 0x58, c := 7, imm := 1 },
    .vdot8 { lw with md := 0x60, c := 7 }, .vdot8 { lw with md := 0x68, c := 7, x := 3 }] = true ∧
    allGood [.vdot4 { lw with md := 0x20, c := 7 }, .vdot4 { lw with md := 0x58, c := 7, imm := 6 }, .vdot8 { lw with md := 0x68, c := 7 }] = true := by
  decide
theorem test_wf_predicates : allBad [.pand { lw with x := 4 }, .por { lw with md := 1 }, .pxor { lw with b := 48 }, .pnot { lw with x := 2 },
    .laneSel { lw with c := 48 }, .mov { lw with md := 0x10 }, .shfl { lw with x := 4 }, .shfl { lw with md := 1 }, .shfl { lw with a := 249 },
    .vote { lw with x := 8 }, .vote { lw with d := 50 }, .ballot { lw with x := 6 }] = true ∧
    allGood [.pand { lw with x := 3 }, .pnot { lw with x := 1 }, .laneSel { lw with c := 47 }, .mov lw, .shfl { lw with x := 2, c := 7 },
      .vote { lw with x := 7 }, .ballot { lw with x := 5 }] = true := by decide
theorem test_wf_lane_control : allBad [.split { lw with a := 48 }, .split { lw with gp := 1 }, .joinL { lw with gn := true }, .lret { lw with md := 1 },
    .lcall { lw with a := 251 }, .lcall { lw with x := 1 }] = true ∧ allGood [.split lw, .joinL lw, .lret lw, .lcall { lw with a := 248 }] = true := by
  decide
theorem test_wf_lane_memory : allBad [.laneLd { lw with md := 0x70, a := 2 }, .laneLd { lw with md := 0x28, a := 2 }, .laneLd { lw with md := 2, a := 2 },
    .laneLd { lw with x := 1, a := 2 }, .laneLd { lw with a := 1 }, .laneLd { lw with md := 0x30, d := 5, a := 2 }, .laneSt { lw with md := 0x40, a := 2 },
    .laneSt { lw with md := 4, a := 2 }, .laneSt { lw with md := 0x80, a := 2 }, .ldc { lw with md := 4, a := 2 }, .laneLds { lw with la := 1 },
    .laneSts { lw with md := 8 }, .ldp { lw with md := 0x80 }, .stp { lw with la := 1 }] = true ∧
    allGood [.laneLd { lw with a := 2 }, .laneSt { lw with a := 2, c := 7 }, .laneLds { lw with md := 0x80 }, .ldp lw] = true := by decide
theorem test_wf_lane_atomics : allBad [.laneAtom { lw with md := 0x80, a := 2, c := 7 }, .laneAtom { lw with md := 0x58, a := 2, c := 7 },
    .laneAtom { lw with md := 0x51, a := 2, c := 8 }, .laneAtom { lw with md := 0x48, a := 2, c := 7 }, .atoms { lw with la := 1, c := 7 },
    .atoms { lw with md := 2, c := 7 }, .red { lw with a := 2, c := 7 }, .red { lw with md := 0x40, d := 254, a := 2, c := 7 },
    .red { lw with md := 2, d := 254, a := 2, c := 7, x := 1 }] = true ∧
    allGood [.laneAtom { lw with a := 2, c := 7 }, .atoms { lw with c := 7 }, .red { lw with d := 254, a := 2, c := 7 }] = true := by decide
theorem test_wf_lane_units : allBad [.cpy lw, .cpy { lw with a := 249, x := 1 }, .fenceL { lw with md := 3 }, .fenceL { lw with x := 7 }, .mbar { lw with x := 1 },
    .isubIsl { lw with md := 16 }, .isubIsl { lw with a := 249 }, .qclose { lw with md := 1 }, .qread lw, .qread { lw with a := 252, c := 48 },
    .attr lw, .attr { lw with a := 3, c := 249 }, .trace { lw with md := 64, c := 249 }, .trace lw, .refill { lw with a := 249, x := 7, c := 1 },
    .refill { lw with a := 249, c := 48 }, .neval { lw with md := 96 }, .neval { lw with b := 254 }] = true ∧
    allGood [.cpy { lw with a := 249 }, .fenceL { lw with md := 2, x := 6 }, .mbar lw, .isubIsl { lw with md := 15 }, .qclose lw,
      .qread { lw with a := 252, c := 47 }, .attr { lw with a := 2, c := 249 }, .trace { lw with md := 63, c := 250 },
      .refill { lw with a := 249, c := 1 }, .neval { lw with md := 95 }] = true := by decide
theorem test_wf_matrix : allBad [.mma { lw with md := 0xC0, a := 250 }, .mma { lw with md := 8, a := 250 }, .mma { lw with d := 128, a := 250 },
    .mma { lw with b := 128, a := 250 }, .mma lw, .mma { lw with a := 250, x := 1 }, .mma { lw with md := 0x30, a := 250, b := 3 },
    .mma { lw with a := 250, gp := 1 }, .mloadb { lw with md := 1, a := 250 }, .mloadb { lw with md := 0x80, a := 250 }, .mloadb lw,
    .mscale { lw with md := 0x10, a := 250 }, .mscale { lw with a := 251 }, .aclr { lw with x := 1 }, .aclr { lw with gn := true }, .amove { lw with md := 2 },
    .aout { lw with md := 0x10, a := 250 }, .aout { lw with md := 8, a := 250 }, .aout { lw with a := 250, x := 2 }] = true ∧
    allGood [.mma { lw with a := 250 }, .mloadb { lw with a := 254, la := 15 }, .mscale { lw with a := 250 }, .aclr lw, .amove { lw with md := 1 },
      .aout { lw with md := 0xD0, a := 250, x := 1 }] = true := by decide
theorem test_wf_matrix_control : allBad [.mgear lw, .mgear { lw with a := 250, md := 1 }, .mbudget { lw with a := 249 }, .mstat { lw with d := 250, x := 6 },
    .mstat lw, .mwaitq { lw with b := 8 }, .mwaitq { lw with c := 17 }, .mwaitq { lw with c := 16, x := 2 }, .matrixBarArrive { lw with b := 16 },
    .matrixBarWait { lw with x := 1 }, .matrixQpop lw, .matrixQpop { lw with d := 250, b := 8 }, .matrixQpush { lw with a := 249 }, .matrixTlwait lw,
    .mend { lw with x := 1 }, .mendLoop { lw with a := 250 }, .mendLoop { lw with x := 1 }] = true ∧
    allGood [.mgear { lw with a := 248 }, .mstat { lw with d := 250, x := 7 }, .mwaitq { lw with b := 7, c := 16, x := 1 },
      .matrixBarArrive { lw with b := 15, x := 1 }, .matrixQpop { lw with d := 250 }, .matrixTlwait { lw with a := 250, x := 15 }, .mend lw,
      .mendLoop { lw with a := 250, x := 1 }] = true := by decide

/-! ### Small states -/

/-- The group of the tests, at 0x10000 of context 1. -/
def gref : GroupRef := wordGroupRef
/-- A group with some S registers set. -/
def sg (regs : List (Nat × W64)) : Group :=
  regs.foldl (fun g r => { g with s := g.s.set r.1 r.2 }) (wordGroup .scalar)
/-- Some V registers of threads 0 and 1, which alone are active, in a run of two words. -/
def vg (regs : List (Nat × (Nat → W32))) : Group :=
  { regs.foldl (fun g r => (g.writeV r.1 0 (r.2 0)).writeV r.1 1 (r.2 1)) (wordGroup .lane) with
    runs := [⟨BitVec.ofNat 52 wordAddr, 2, true, 1, [], [], [], [], []⟩], stack := [⟨1, 0, 0, 3⟩] }
/-- A machine with one group of one block of context 1, one of whose streams executes. -/
def mach (c : Cur) (g : Group) (b : Block) : State :=
  { State.reset with groups := [g], blocks := [b], ctxs := [wordCtx], cur := c }
def scal (g : Group) (b : Block := wordBlock) : State := mach (.scalar gref) g b
def lane (g : Group) (b : Block := wordBlock) : State := mach (.lane gref) g b
def matr (b : Block) (g : Group := wordGroup .scalar) : State := mach (.matrix wordBlockRef) g b
/-- A block whose addresses are physical (R348). -/
def phys : Block := { wordBlock with test := true }
/-- A state in which the group still waits for a TRACE result, so that a cause it raises stands pending. -/
def slow (s : State) : State :=
  { s with rays := [{ id := 9, g := gref, ctx := 1, t := 0, d := 999, table := 0, ctl := 0, pc := 0, out := none, wait := none,
                      fatal := false, island := 0 }] }
/-- Bytes placed in memory. -/
def put (pa n v : Nat) (s : State) : State := { s with mem := s.mem.write pa (bytesOf n v) }

/-- What holds after one instruction that goes on to a next state. -/
def after (i : Instr) (s : State) (f : State → Bool) : Bool :=
  match exec i s with
  | .next t => f t
  | _ => false
def grp (t : State) : Group := (t.group? gref).getD (wordGroup .scalar)
def blk (t : State) : Block := (t.block? wordBlockRef).getD wordBlock
/-- A scalar word writes v into S[d] and goes on with the next word. -/
def gives (i : Instr) (regs : List (Nat × W64)) (d : BitVec 5) (v : W64) : Bool :=
  after i (scal (sg regs)) fun t => (grp t).readS d == v && (grp t).spc == 0x10004#52
/-- A scalar word raises a cause. -/
def traps (i : Instr) (s : State) (code : BitVec 8) : Bool :=
  after i (slow s) fun t => ((grp t).pend.map (·.code)) == some code
/-- A scalar word leaves SPC at pc. -/
def jumps (i : Instr) (s : State) (pc : VAddr) : Bool := after i s fun t => (grp t).spc == pc
/-- A word has begun and its scalar stream is blocked. -/
def blocks (i : Instr) (s : State) : Bool := after i s fun t => (grp t).blockedS && (grp t).spc == 0x10000#52

/-! ### Scalar arithmetic (R142-R144) -/

theorem test_add_wraps : gives (.add 3 1 2 false) [(1, 0xFFFFFFFFFFFFFFFF), (2, 2)] 3 1 = true := by decide +kernel
theorem test_add_w_sign_extends : gives (.add 3 1 2 true) [(1, 0x7FFFFFFF), (2, 1)] 3 0xFFFFFFFF80000000 = true := by decide +kernel
theorem test_sub_borrows : gives (.sub 3 1 2 false) [(1, 0), (2, 1)] 3 0xFFFFFFFFFFFFFFFF = true := by decide +kernel
theorem test_sub_s0_stays_zero : gives (.sub 0 1 2 false) [(1, 5), (2, 1)] 0 0 = true := by decide +kernel
theorem test_mul_w : gives (.mul 3 1 2 true) [(1, 0x10000), (2, 0x8000)] 3 0xFFFFFFFF80000000 = true := by decide +kernel
theorem test_mulh_signed : gives (.mulh 3 1 2 false) [(1, 0xFFFFFFFFFFFFFFFF), (2, 2)] 3 0xFFFFFFFFFFFFFFFF = true := by decide +kernel
theorem test_mulh_unsigned : gives (.mulh 3 1 2 true) [(1, 0xFFFFFFFFFFFFFFFF), (2, 2)] 3 1 = true := by decide +kernel
theorem test_and : gives (.and 1 1 2) [(1, 0xF0F0), (2, 0xFF00)] 1 0xF000 = true := by decide +kernel
theorem test_or : gives (.or 3 1 2) [(1, 0xF0F0), (2, 0xFF00)] 3 0xFFF0 = true := by decide +kernel
theorem test_xor : gives (.xor 3 1 2) [(1, 0xF0F0), (2, 0xFF00)] 3 0x0FF0 = true := by decide +kernel
theorem test_shl_modulo_64 : gives (.shl 3 1 2 false) [(1, 1), (2, 65)] 3 2 = true := by decide +kernel
theorem test_shl_w : gives (.shl 3 1 2 true) [(1, 1), (2, 31)] 3 0xFFFFFFFF80000000 = true := by decide +kernel
theorem test_shr_w : gives (.shr 3 1 2 true) [(1, 0xFFFFFFFF80000000), (2, 4)] 3 0x08000000 = true := by decide +kernel
theorem test_sha : gives (.sha 3 1 2 false) [(1, 0x8000000000000000), (2, 63)] 3 0xFFFFFFFFFFFFFFFF = true := by decide +kernel
theorem test_min_signed : gives (.min 3 1 2 false) [(1, 0xFFFFFFFFFFFFFFFF), (2, 1)] 3 0xFFFFFFFFFFFFFFFF = true := by decide +kernel
theorem test_min_unsigned : gives (.min 3 1 2 true) [(1, 0xFFFFFFFFFFFFFFFF), (2, 1)] 3 1 = true := by decide +kernel
theorem test_max_unsigned : gives (.max 3 1 2 true) [(1, 0xFFFFFFFFFFFFFFFF), (2, 1)] 3 0xFFFFFFFFFFFFFFFF = true := by decide +kernel
theorem test_cmp_lt_signed : gives (.cmp 3 1 2 .lt false) [(1, 0xFFFFFFFFFFFFFFFF), (2, 1)] 3 1 = true := by decide +kernel
theorem test_cmp_gt_unsigned : gives (.cmp 3 1 2 .gt true) [(1, 0xFFFFFFFFFFFFFFFF), (2, 1)] 3 1 = true := by decide +kernel
theorem test_sel_zero_takes_b : gives (.sel 3 1 2 4) [(1, 7), (2, 9)] 3 9 = true := by decide +kernel
theorem test_add_immediate_sign : gives (.addImmediate 3 1 0xFFFF) [(1, 5)] 3 4 = true := by decide +kernel
theorem test_and_immediate_zero_extends : gives (.andImmediate 3 1 0xFFFF) [(1, 0xFFFFFFFFFFFFFFFF)] 3 0xFFFF = true := by decide +kernel
theorem test_or_immediate : gives (.orImmediate 3 1 0x8000) [(1, 1)] 3 0x8001 = true := by decide +kernel
theorem test_xor_immediate : gives (.xorImmediate 3 1 0xFFFF) [(1, 0x10001)] 3 0x1FFFE = true := by decide +kernel
theorem test_shl_immediate : gives (.shlImmediate 3 1 false 63) [(1, 3)] 3 0x8000000000000000 = true := by decide +kernel
theorem test_shr_immediate : gives (.shrImmediate 3 1 false 63) [(1, 0x8000000000000000)] 3 1 = true := by decide +kernel
theorem test_sha_immediate_w : gives (.shaImmediate 3 1 true 31) [(1, 0x80000000)] 3 0xFFFFFFFFFFFFFFFF = true := by decide +kernel
theorem test_cmp_immediate : gives (.cmpImmediate 3 1 .ge false 0xFFF) [(1, 0)] 3 1 = true := by decide +kernel
theorem test_movi : gives (.movi 3 0xFFFE) [] 3 0xFFFFFFFFFFFFFFFE = true := by decide +kernel
theorem test_movhi_keeps_others : gives (.movhi 3 2 0x1234) [(3, 0xAAAABBBBCCCCDDDD)] 3 0xAAAA1234CCCCDDDD = true := by decide +kernel
theorem test_lea_backwards : gives (.lea 3 0x1FFFFF) [] 3 0xFFFC = true := by decide +kernel
theorem test_w_read_pending_waits : after (.add 3 1 2 false)
    (scal { sg [(1, 1)] with runs := [⟨0, 1, false, 0, [], [(0, 1)], [], [], []⟩] }) (fun t => (grp t).spc == 0x10000#52) = true := by decide +kernel

/-! ### Scalar control flow and control words (R149-R175) -/

theorem test_br_back : jumps (.br 0x3FFFFFF) (scal (sg [])) 0xFFFC = true := by decide +kernel
theorem test_brc_ltz_taken : jumps (.brc .ltz 1 4) (scal (sg [(1, 0x8000000000000000)])) 0x10010 = true := by decide +kernel
theorem test_brc_walker_flag_falls : jumps (.brc (.e 2) 0 4) (scal (sg [])) 0x10004 = true := by decide +kernel
theorem test_call_pushes : after (.call 4) (scal (sg [])) (fun t => (grp t).ras == [0x10004#52] && (grp t).spc == 0x10010#52) = true := by
  decide +kernel
theorem test_call_at_40_traps : traps (.call 4) (scal { sg [] with ras := List.replicate 40 0 }) 0x0A = true := by decide +kernel
theorem test_jmp_checks : traps (.jmp 1) (scal (sg [(1, 6)])) 5 = true ∧ traps (.jmp 1) (scal (sg [(1, 0x10000000000000)])) 6 = true := by
  decide +kernel
theorem test_calli : jumps (.calli 1) (scal (sg [(1, 0x20000)])) 0x20000 = true := by decide +kernel
theorem test_ret_empty_traps : traps .ret (scal (sg [])) 0x0A = true := by decide +kernel
theorem test_ret_pops : jumps .ret (scal { sg [] with ras := [0x44, 0x88] }) 0x44 = true := by decide +kernel
theorem test_lrun_appends : after (.lrun 4 0x28) (scal (sg []) phys) (fun t =>
    (grp t).runs.map (fun r => (r.first, r.words)) == [(0x101E0#52, 5)]) = true := by decide +kernel
theorem test_lwait_blocks : blocks .lwait (scal { sg [] with runs := [⟨0, 1, false, 0, [], [], [], [], []⟩] }) = true := by decide +kernel
theorem test_yield : jumps .yield (scal (sg [])) 0x10004 = true := by decide +kernel
theorem test_exit : after .exit (scal (sg [])) (fun t => (grp t).exited) = true := by decide +kernel
theorem test_trap_resumes_after : after (.trap 0x123) (slow (scal (sg []))) (fun t => ((grp t).pend.map fun c => (c.code, c.aux, c.fpc, c.rspc)) ==
    some (0x40#8, 0x123#12, 0x10000#52, 0x10004#52)) = true := by decide +kernel
theorem test_causew_raises : traps (.causew 1) (scal (sg [(1, 0x128)])) 0x28 = true := by decide +kernel
theorem test_causew_unknown : traps (.causew 1) (scal (sg [(1, 0x7F)])) 2 = true := by decide +kernel
theorem test_srseed_zero_is_one : after (.srseed 1) (scal (sg [])) (fun t => (grp t).sr == 1#32) = true := by decide +kernel
theorem test_sprd_gsr : gives (.sprd 3 0) [] 3 0x0000010800000000 = true := by decide +kernel
theorem test_spwr_fsr_masks : after (.spwr 1 1) (scal (sg [(1, 0x1234)])) (fun t => (grp t).fsr == 0x1214#32) = true := by decide +kernel
theorem test_spwr_reserved_rounding : traps (.spwr 1 1) (scal (sg [(1, 0x8000)])) 2 = true := by decide +kernel
theorem test_replay_traps : traps (.replay 1 2) (scal (sg [])) 3 = true := by decide +kernel
theorem test_swpt_unknown : traps (.swpt 0) (scal (sg [])) 2 = true := by decide +kernel
/-- System ring 1 with room for 16 calls. -/
def callRing : List Ring := listSet State.reset.regs.rings 1 ⟨0x4000, 4, 0, 0⟩
/-- Every vector of the MSI-X table unmasked (R325). -/
def unmasked (s : State) : State := { s with regs := { s.regs with msixTable := (List.range 11).map fun v => (2 * v + 1, 0x100000000#64) } }
def callState (s : State) : State := { s with regs := { s.regs with rings := callRing } }
theorem test_syscall_posts : after (.syscall 5) (callState (scal (sg []))) (fun t => (grp t).blockedS && (t.regs.rings.map (·.tail)).getD 1 0 == 1#64) = true := by
  decide +kernel
theorem test_syscall_full_ring_waits : after (.syscall 5) (scal (sg [])) (fun t => (grp t).waits.call == none && (grp t).spc == 0x10000#52) = true := by
  decide +kernel

/-! ### Walkers, register count, barriers, queues -/

/-- A walker of two dimensions. -/
def twoWalk : Walker := ⟨0x1000, [2, 3], [8, 100], [1, 2]⟩
theorem test_wread_steps : after (.wread 3 0) (scal { sg [] with walkers := [twoWalk] }) (fun t => (grp t).readS 3 == 0x10D0#64 &&
    (grp t).e == 0x3F#6 && (grp t).walkers == [{ twoWalk with idx := [0, 0] }]) = true := by decide +kernel
theorem test_wread_unbound : after (.wread 3 7) (scal (sg [(3, 9)])) (fun t => (grp t).readS 3 == 0#64 && (grp t).e == 0x3F#6 &&
    (grp t).wlast == 7#3) = true := by decide +kernel
theorem test_wbind_zero_dimensions : after (.wbind 0 1) (scal (sg [(1, 0x1000)]) phys) (fun t => (blk t).testCause) = true := by decide +kernel
theorem test_rgrow_b : after (.rgrowB 1) (scal (sg [])) (fun t => (grp t).vcnt == 136 && (grp t).spc == 0x10004#52) = true := by decide +kernel
theorem test_rgrow_c_never : after (.rgrowC 3 16) (scal (sg [])) (fun t => (grp t).vcnt == 128 && (grp t).readS 3 == 2#64) = true := by decide +kernel
theorem test_rshrink_keeps_eight : traps (.rshrink 16) (scal (sg [])) 8 = true ∧
    after (.rshrink 15) (scal (sg [])) (fun t => (grp t).vcnt == 8) = true := by decide +kernel
theorem test_bar_arrive : after (.barArrive false 3) (scal (sg [])) (fun t => (blk t).bars[3]? == some ⟨2, false, 1, 0, [(0, false)]⟩) = true := by
  decide +kernel
theorem test_bar_wait_without_arrival : traps (.barWait 3) (scal (sg [])) 0x0B = true := by decide +kernel
theorem test_bar_wait_blocks : blocks (.barWait 3)
    (scal (sg []) { wordBlock with bars := List.replicate 16 ⟨2, false, 1, 0, [(0, false)]⟩ }) = true := by decide +kernel
theorem test_bar_parrive_no_peloton : traps (.barParrive false 0) (scal (sg [])) 0x0B = true := by decide +kernel
theorem test_bar_wait_pel_never : traps (.barWaitPel 0) (scal (sg [])) 0x0B = true := by decide +kernel
theorem test_qpush : after (.qpush 1 2) (scal (sg [(1, 0x500000007)])) (fun t => (blk t).queues.getD 2 [] == [7#32]) = true := by decide +kernel
theorem test_qpop : after (.qpop 1 2) (scal (sg []) { wordBlock with queues := [[], [], [5, 6]] })
    (fun t => (grp t).readS 1 == 5#64 && (blk t).queues.getD 2 [] == [6#32]) = true := by decide +kernel
theorem test_qpop_empty_blocks : blocks (.qpop 1 2) (scal (sg [])) = true := by decide +kernel

/-! ### Engines, fences, monitors -/

def eng : EngineCtx := { ref := ⟨2, 0⟩, ctx := 1, gen := 1, scope := 6, next := 0, nextN := 1, tail := 3, timeline := 3, stopped := false, cmds := [] }
def engState (regs : List (Nat × W64)) : State := { scal (sg regs) with engines := [eng] }
theorem test_ctail_raises_tail : after (.ctail 1 2) (engState [(1, 9), (2, 0x20000000001)]) (fun t => t.engines.map (·.tail) == [9#64]) = true := by
  decide +kernel
theorem test_ctail_bad_handle : traps (.ctail 1 2) (engState [(2, 0x1000020000000001)]) 0x0B = true ∧
    traps (.ctail 1 2) (engState [(2, 0x20000000002)]) 6 = true := by decide +kernel
theorem test_tlwait_blocks : blocks (.tlwait 1 2) (engState [(1, 4), (2, 0x20000000001)]) = true := by decide +kernel
theorem test_tlread : after (.tlread 1 2) (engState [(2, 0x20000000001)]) (fun t => (grp t).readS 1 == 3#64) = true := by decide +kernel
theorem test_cclose_numbers : gives (.cclose 3 6) [] 3 1 = true := by decide +kernel
theorem test_cwait_zero : jumps (.cwait 1) (scal (sg [])) 0x10004 = true := by decide +kernel
def pendCore : State := { scal (sg []) with cores := [{ Core.reset with pend := [⟨0x100, [1], false, .scalar gref, 0⟩], l1 := [⟨5, 0, [(0, 1)]⟩] }] }
theorem test_fence_rel_waits : after (.fenceRel 1) pendCore (fun t => (grp t).spc == 0x10000#52) = true ∧
    after (.fenceRel 0) pendCore (fun t => (grp t).spc == 0x10004#52) = true := by decide +kernel
theorem test_fence_acq_empties : after (.fenceAcq 1) pendCore (fun t => (t.core 0).l1 == []) = true := by decide +kernel
theorem test_fence_ar : after (.fenceAr 2) pendCore (fun t => (grp t).spc == 0x10000#52) = true := by decide +kernel
theorem test_fence_i : after (.fenceI 1) { scal (sg []) with cores := [{ Core.reset with icache := [⟨5, 0, [(0, 1)]⟩] }] }
    (fun t => (t.core 0).icache == []) = true := by decide +kernel
theorem test_lnarm : after (.lnarm 1 2) (scal (sg [(1, 0x1085)]) phys) (fun t => (grp t).mons[2]? == some ⟨.armed, 0x21, 1⟩) = true := by decide +kernel
theorem test_lnwait_none_armed : gives (.lnwait 3 1) [(3, 9)] 3 3 = true := by decide +kernel
theorem test_lnwait_fired : after (.lnwait 3 1) (scal { sg [] with mons := [⟨.unarmed, 0, 0⟩, ⟨.triggered, 4, 1⟩, ⟨.lost, 5, 2⟩, ⟨.armed, 6, 3⟩] })
    (fun t => (grp t).readS 3 == 0x4200#64 && (grp t).mons == List.replicate 4 ⟨.unarmed, 0, 0⟩) = true := by decide +kernel

/-! ### Scalar memory (R145-R148) -/

theorem test_ld_n16_outstanding : after (.ldN16 3 1 0 1) (put 0x1002 2 0x8001 (scal (sg [(1, 0x1000)]) phys)) (fun t =>
    (grp t).loads.map (fun l => (l.dst, l.size, l.parts.map (·.val))) == [(3, 2, [some 0x8001#128])]) = true := by decide +kernel
theorem test_ld_misaligned_ends_test_group : after (.ldN32 3 1 0 0) (scal (sg [(1, 0x1002)]) phys) (fun t => (grp t).exited) = true := by decide +kernel
theorem test_ld_i8_resolves : after (.longLatencyResolve gref 0 1) (scal { sg [] with loads :=
    [⟨.scalar, 0, 0, 1, true, 3, false, 0, 0, 0, [⟨0, 0x1000, 0x1000, some 0x80#128⟩], 1, none⟩] })
    (fun t => (grp t).readS 3 == 0xFFFFFFFFFFFFFF80#64 && (grp t).loads.isEmpty) = true := by decide +kernel
theorem test_ld_acquire : after (.ldOrdered 3 1 0 .w64 .acq 1) (scal (sg [(1, 0x1008)]) phys) (fun t => (grp t).loads.length == 1) = true := by decide +kernel
theorem test_st_n16_pends : after (.stN16 3 1 0 0xFFF) (scal (sg [(1, 0x1002), (3, 0x12345678)]) phys) (fun t =>
    (t.core 0).pend.map (fun w => (w.pa, w.bytes)) == [(0x1000, [0x78#8, 0x56#8])]) = true := by decide +kernel
theorem test_st_release_waits : after (.stOrdered 3 1 0 .n8 .rel 1) { scal (sg [(1, 0x1002)]) phys with
    cores := [{ Core.reset with pend := [⟨0x100, [1], false, .scalar gref, 0⟩] }] } (fun t => (grp t).spc == 0x10000#52) = true := by decide +kernel
theorem test_atom_min_signed : after (.atom 3 1 0 .n32 .relaxed 0 .min) (put 0x1000 4 0x80000000 (scal (sg [(1, 0x1000), (3, 1)]) phys)) (fun t =>
    (grp t).readS 3 == 0xFFFFFFFF80000000#64 && memNat t 0x1000 4 == 0x80000000) = true := by decide +kernel
theorem test_atom_cas : after (.atom 4 1 0 .w64 .relaxed 0 .cas) (put 0x1000 8 7 (scal (sg [(1, 0x1000), (4, 7), (5, 99)]) phys)) (fun t =>
    (grp t).readS 4 == 7#64 && memNat t 0x1000 8 == 99) = true := by decide +kernel
theorem test_lds_signed : after (.lds 3 1 .i16 1) (scal (sg [(1, 0x40)]) { wordBlock with scratch := [(0x42, 0x01), (0x43, 0x80)] })
    (fun t => (grp t).readS 3 == 0xFFFFFFFFFFFF8001#64) = true := by decide +kernel
theorem test_lds_past_end : traps (.lds 3 1 .n32 0) (scal (sg [(1, 0x10000)])) 6 = true ∧ traps (.lds 3 1 .n32 0) (scal (sg [(1, 0xFFFE)])) 5 = true := by
  decide +kernel
theorem test_sts_locked_waits : after (.sts 3 1 .n32 0) (scal (sg [(1, 0x40), (3, 5)]) { wordBlock with lock := some (0, 0x41) })
    (fun t => (blk t).scratch == []) = true := by decide +kernel
theorem test_sts : after (.sts 3 1 .n32 0) (scal (sg [(1, 0xFFFC), (3, 0x105)])) (fun t => (blk t).scratch == [(0xFFFC, 0x05#8), (0xFFFD, 0x01#8)]) = true := by
  decide +kernel
theorem test_join_zero_ends : after (.join 1 6) (scal (sg [(1, 0x1000)]) phys) (fun t => (blk t).testCause) = true := by decide +kernel
theorem test_join_decrements : after (.join 1 6) (put 0x1000 4 2 (scal (sg [(1, 0x1000)]) phys)) (fun t => memNat t 0x1000 4 == 1) = true := by decide +kernel
theorem test_spawn_wrong_form : after (.spawn 3 1 0) (put 0x1026 1 2 (scal (sg [(1, 0x1000)]) phys)) (fun t => (grp t).readS 3 == 3#64) = true := by decide +kernel
theorem test_amsend_wrong_form : after (.amsend 3 1 0) (scal (sg [(1, 0x1000)]) phys) (fun t => (grp t).readS 3 == 3#64) = true := by decide +kernel

/-! ### Lane words (R178-R231) -/

/-- Every thread holds the same value. -/
def allT (v : W32) : Nat → W32 := fun _ => v
/-- After a lane word, V n of thread t is v, and the stream stands at the next word. -/
def lgives (i : Instr) (regs : List (Nat × (Nat → W32))) (n t : Nat) (v : W32) : Bool :=
  after i (lane (vg regs)) fun u => (grp u).readV n t == v && (grp u).lpc == 0x1000C#52
/-- After a lane word, predicate n is m. -/
def lpred (i : Instr) (g : Group) (n : Nat) (m : Mask) : Bool := after i (lane g) fun u => (grp u).readP n == m
/-- A lane word leaves its group in these flags. -/
def lflags (i : Instr) (regs : List (Nat × (Nat → W32))) (f : W32) : Bool := after i (lane (vg regs)) fun u => (grp u).fsr == f
/-- The word D = V4, A = V1, B = V2, C = V3. -/
def lw3 : LaneWord := { lw with c := 3 }

theorem test_iadd_wraps : lgives (.iadd lw) [(1, allT 0xFFFFFFFF), (2, allT 2)] 4 1 1 = true := by decide +kernel
theorem test_iadd_saturates_i8 : lgives (.iadd { lw with md := 0x21 }) [(1, allT 0x7F), (2, allT 1)] 4 0 0x7F = true := by decide +kernel
theorem test_iadd_pair_carries : lgives (.iadd { lw with md := 0x38, a := 6 }) [(6, allT 0xFFFFFFFF), (2, allT 1)] 5 1 1 = true := by decide +kernel
theorem test_iadd_guarded : lgives (.iadd { lw with gp := 1 }) [(1, allT 5), (2, allT 2), (4, allT 9)] 4 0 9 = true := by decide +kernel
theorem test_isub : lgives (.isub lw) [(2, allT 1)] 4 0 0xFFFFFFFF = true := by decide +kernel
theorem test_imul_n16 : lgives (.imul { lw with md := 0x18 }) [(1, allT 0x10001), (2, allT 0xFFFF)] 4 0 0xFFFF = true := by decide +kernel
theorem test_imad : lgives (.imad lw3) [(1, allT 3), (2, allT 0xFFFFFFFF), (3, allT 5)] 4 0 2 = true := by decide +kernel
theorem test_imulh_signed : lgives (.imulh lw) [(1, allT 0x80000000), (2, allT 2)] 4 0 0xFFFFFFFF = true := by decide +kernel
theorem test_idiv_truncates : lgives (.idiv lw) [(1, allT 0xFFFFFFF9), (2, allT 2)] 4 0 0xFFFFFFFD = true := by decide +kernel
theorem test_idiv_remainder : lgives (.idiv { lw with x := 1 }) [(1, allT 0xFFFFFFF9), (2, allT 2)] 4 0 0xFFFFFFFF = true := by decide +kernel
theorem test_idiv_by_zero : traps (.idiv lw) (lane (vg [(1, allT 1)])) 0x28 = true := by decide +kernel
theorem test_imin_signed : lgives (.imin lw) [(1, allT 0xFFFFFFFF), (2, allT 1)] 4 0 0xFFFFFFFF = true := by decide +kernel
theorem test_imax_unsigned : lgives (.imax { lw with md := 8 }) [(1, allT 0xFFFFFFFF), (2, allT 1)] 4 0 0xFFFFFFFF = true := by decide +kernel
theorem test_icmp_lt : lpred (.icmp { lw with d := 5, x := 2 }) (vg [(1, fun t => BitVec.ofNat 32 t), (2, allT 1)]) 5 1 = true := by decide +kernel
theorem test_shl_lane : lgives (.laneShl lw) [(1, allT 1), (2, allT 33)] 4 0 2 = true := by decide +kernel
theorem test_shr_lane_i16 : lgives (.laneShr { lw with md := 0x10 }) [(1, allT 0xFFFF8000), (2, allT 4)] 4 0 0x0800 = true := by decide +kernel
theorem test_sha_lane_n8 : lgives (.laneSha { lw with md := 0x28 }) [(1, allT 0x80), (2, allT 1)] 4 0 0xC0 = true := by decide +kernel
theorem test_lane_logic : lgives (.laneAnd lw) [(1, allT 0xF0), (2, allT 0x3C)] 4 0 0x30 = true ∧
    lgives (.laneOr lw) [(1, allT 0xF0), (2, allT 0x3C)] 4 0 0xFC = true ∧
    lgives (.laneXor lw) [(1, allT 0xF0), (2, allT 0x3C)] 4 0 0xCC = true := by decide +kernel
theorem test_not : lgives (.not lw) [(1, allT 0xF0)] 4 0 0xFFFFFF0F = true := by decide +kernel
-- B holds position 8 and length 4 (R184); the field is sign-extended.
theorem test_bfe_signed : lgives (.bfe lw) [(1, allT 0x00000F00), (2, allT 0x0408)] 4 0 0xFFFFFFFF = true := by decide +kernel
theorem test_bfi : lgives (.bfi lw3) [(1, allT 0xFFFFFFFF), (2, allT 0x5), (3, allT 0x0408)] 4 0 0xFFFFF5FF = true := by decide +kernel
theorem test_counts : lgives (.popc lw) [(1, allT 0xF00F)] 4 0 8 = true ∧ lgives (.clz lw) [] 4 0 32 = true ∧
    lgives (.brev lw) [(1, allT 1)] 4 0 0x80000000 = true := by decide +kernel
theorem test_bilv : lgives (.bilv lw) [(1, allT 0xFFFF), (2, allT 0)] 4 0 0x55555555 = true := by decide +kernel
theorem test_bdlv : lgives (.bdlv { lw with x := 4 }) [(1, allT 0xAAAAAAAA)] 4 0 0xFFFF = true := by decide +kernel
-- 1.0 + 2^-24 is a tie and rounds to even, inexact (FSR bit 4).
theorem test_fadd_ties_to_even : lgives (.fadd { lw with md := 0x40 }) [(1, allT 0x3F800000), (2, allT 0x33800000)] 4 0 0x3F800000 = true := by
  decide +kernel
theorem test_fadd_negate : lgives (.fadd { lw with md := 0x40, x := 2 }) [(1, allT 0x40000000), (2, allT 0x3F800000)] 4 0 0x3F800000 = true := by
  decide +kernel
theorem test_fmul_infinity_by_zero : lgives (.fmul { lw with md := 0x40 }) [(1, allT 0x7F800000)] 4 0 0x7FC00000 = true := by decide +kernel
-- (1 + 2^-12)^2 - 1 = 2^-11 + 2^-24, exact only when fused.
theorem test_ffma_fused : lgives (.ffma { lw3 with md := 0x40 }) [(1, allT 0x3F800800), (2, allT 0x3F800800), (3, allT 0xBF800000)] 4 0 0x3A000400 = true := by
  decide +kernel
theorem test_fmin_zeros : lgives (.fmin { lw with md := 0x40 }) [(1, allT 0), (2, allT 0x80000000)] 4 0 0x80000000 = true := by decide +kernel
theorem test_fmax_nan : lgives (.fmax { lw with md := 0x40 }) [(1, allT 0x7FC00000), (2, allT 0x3F800000)] 4 0 0x3F800000 = true := by decide +kernel
theorem test_fcmp_unordered : lpred (.fcmp { lw with md := 0x40, d := 5, x := 1 }) (vg [(1, allT 0x7FC00000)]) 5 3 = true := by decide +kernel
theorem test_frcp : lgives (.frcp { lw with md := 0x40 }) [(1, allT 0x40800000)] 4 0 0x3E800000 = true := by decide +kernel
theorem test_frsq : lgives (.frsq { lw with md := 0x40 }) [(1, allT 0x40800000)] 4 0 0x3F000000 = true := by decide +kernel
theorem test_fsqrt : lgives (.fsqrt { lw with md := 0x40 }) [(1, allT 0x40800000)] 4 0 0x40000000 = true := by decide +kernel
theorem test_fexp2 : lgives (.fexp2 { lw with md := 0x40 }) [(1, allT 0x40400000)] 4 0 0x41000000 = true := by decide +kernel
theorem test_flog2 : lgives (.flog2 { lw with md := 0x40 }) [(1, allT 0x41000000)] 4 0 0x40400000 = true := by decide +kernel
theorem test_fsin_fcos_zero : lgives (.fsin { lw with md := 0x40 }) [(1, allT 0)] 4 0 0 = true ∧
    lgives (.fcos { lw with md := 0x40 }) [(1, allT 0)] 4 0 0x3F800000 = true := by decide +kernel
-- F16: 1.0 + 1.0 and 2.0 + 0.
theorem test_pkadd : lgives (.pkadd { lw with md := 0x48 }) [(1, allT 0x40003C00), (2, allT 0x00003C00)] 4 0 0x40004000 = true := by decide +kernel
theorem test_pkfma : lgives (.pkfma { lw3 with md := 0x48 }) [(1, allT 0x40003C00), (2, allT 0x40003C00), (3, allT 0x3C003C00)] 4 0 0x45004000 = true := by
  decide +kernel
-- F32 1.5 to I32, round to nearest even: 2.
theorem test_cvt_float_to_int : lgives (.cvt { lw with md := 0, b := 254, imm := 0x800 }) [(1, allT 0x3FC00000)] 4 0 2 = true := by decide +kernel
theorem test_cvt_int_to_float : lgives (.cvt { lw with md := 0x40, b := 254 }) [(1, allT 0xFFFFFFFF)] 4 0 0xBF800000 = true := by decide +kernel
-- Four signed byte products: 1*2 + (-1)*3 + 0 + 0, added to 10.
theorem test_vdot4_bytes : lgives (.vdot4 { lw3 with md := 0x20 }) [(1, allT 0x0000FF01), (2, allT 0x00000302), (3, allT 10)] 4 0 9 = true := by decide +kernel
-- E2M1 elements 1.0 (0x2) times 1.0, eight of them, with scales of 1.0 (E4M3 0x38): 8.0, added to 0.
theorem test_vdot8 : lgives (.vdot8 { lw3 with md := 0x68, imm := 6 }) [(1, allT 0x22222222), (2, allT 0x22222222), (6, allT 0x38383838), (7, allT 0x38383838)]
    4 0 0x41000000 = true := by decide +kernel
theorem test_pand_inverts : lpred (.pand { lw with d := 3, x := 1 }) ((vg []).writeP 1 1 |>.writeP 2 3) 3 2 = true := by decide +kernel
theorem test_por_pxor_pnot : lpred (.por { lw with d := 3 }) ((vg []).writeP 1 1 |>.writeP 2 2) 3 3 = true ∧
    lpred (.pxor { lw with d := 3 }) ((vg []).writeP 1 1 |>.writeP 2 3) 3 2 = true ∧
    lpred (.pnot { lw with d := 3 }) ((vg []).writeP 1 1) 3 2 = true := by decide +kernel
theorem test_p0_ignores_writes : lpred (.pnot { lw with d := 0 }) ((vg []).writeP 1 0xF0) 0 0xFFFFFFFF = true := by decide +kernel
theorem test_sel_lane : after (.laneSel lw3) (lane ((vg [(1, allT 7), (2, allT 9)]).writeP 3 2)) (fun u => (grp u).readV 4 1 == 7#32 && (grp u).readV 4 0 == 9#32)
    = true := by decide +kernel
theorem test_mov_index_to_s : after (.mov { lw with d := 249, a := 255, imm := 7, gp := 1 }) (lane ((vg []).writeP 1 2)) (fun u => (grp u).readS 7 == 1#64) = true := by
  decide +kernel
theorem test_shfl_up : lgives (.shfl { lw with x := 1 }) [(1, fun t => BitVec.ofNat 32 t), (2, allT 1)] 4 0 1 = true := by decide +kernel
theorem test_shfl_not_uniform : traps (.shfl { lw with x := 1 }) (lane (vg [(2, fun t => BitVec.ofNat 32 t)])) 4 = true := by decide +kernel
theorem test_vote_any : lpred (.vote { lw with d := 3, x := 1 }) ((vg []).writeP 1 2) 3 3 = true := by decide +kernel
theorem test_ballot_prefix : after (.ballot { lw with x := 4 }) (lane ((vg []).writeP 1 0x0F)) (fun u => (grp u).readV 4 0 == 0#32 && (grp u).readV 4 1 == 1#32) = true := by
  decide +kernel
-- SPLIT !P: the then path goes on, the else path is 4 words ahead, the join 8 words ahead.
theorem test_split : after (.split { lw with imm := 0x00080004 }) (lane ((vg []).writeP 1 0xFD)) (fun u => (grp u).active == 1#32 && (grp u).lpc == 0x1000C#52 &&
    (grp u).stack.map (fun e => (e.lpc, e.mask)) == [(0x1000C#52, 1#32), (0x10030#52, 2#32), (0x10060#52, 3#32)]) = true := by decide +kernel
theorem test_joinl_pops : after (.joinL lw) (lane { vg [] with stack := [⟨0, 5, 0, 1⟩, ⟨0, 0x2000, 0, 2⟩, ⟨1, 0, 0, 3⟩] })
    (fun u => (grp u).lpc == 0x2000#52 && (grp u).active == 2#32) = true := by decide +kernel
theorem test_joinl_at_base : traps (.joinL lw) (lane (vg [])) 0x0B = true := by decide +kernel
theorem test_lcall_orders_targets : after (.lcall lw) (lane (vg [(1, fun t => if t < 1 then 20 else 10)])) (fun u => (grp u).lpc == 0x10078#52 &&
    (grp u).active == 2#32 && (grp u).stack.length == 4) = true := by decide +kernel
theorem test_lret_past_return : after (.lret lw) (lane { vg [] with stack := [⟨0, 5, 0, 1⟩, ⟨3, 0x2000, 0, 2⟩, ⟨1, 0, 0, 3⟩] })
    (fun u => (grp u).lpc == 0x2000#52 && (grp u).stack.length == 1) = true := by decide +kernel
theorem test_code_253_outside_traps : traps (.iadd { lw with a := 253 }) (lane (vg [])) 3 = true := by decide +kernel
theorem test_register_past_vcnt : traps (.iadd { lw with d := 128 }) (lane (vg [])) 8 = true := by decide +kernel

/-! ### Lane memory and units -/

/-- An address operand in the pair V2, with no index: thread t at 0x1000 + 8t. -/
def lm : LaneWord := { lw with a := 2, b := 254, c := 6 }
def addrs : Nat × (Nat → W32) := (2, fun t => BitVec.ofNat 32 (0x1000 + 8 * t))
theorem test_lane_ld : after (.laneLd { lm with md := 0x50 }) (put 0x1008 2 0x8001 (lane (vg [addrs]) phys)) (fun u => (grp u).loads.map (fun l =>
    (l.size, l.signed, (l.parts.map (·.val)).getD 1 none)) == [(2, true, some 0x8001#128)]) = true := by decide +kernel
theorem test_lane_load_returns : after (.longLatencyResolve gref 0 2) (lane { vg [] with loads := [⟨.lane, 0, 0, 2, true, 4, false, 0, 0, 0,
    [⟨0, 0, 0, some 1#128⟩, ⟨1, 0, 0, some 0x8001#128⟩], 1, none⟩] }) (fun u => (grp u).readV 4 1 == 0xFFFF8001#32 && (grp u).readV 4 0 == 0#32 &&
    (grp u).loads.length == 1) = true := by decide +kernel
theorem test_lane_st : after (.laneSt { lm with md := 0x20, gp := 1 }) (lane ((vg [addrs, (6, allT 0x11223344)]).writeP 1 2) phys) (fun u =>
    (u.core 0).pend.map (fun p => (p.pa, p.bytes)) == [(0x1008, [0x44#8, 0x33#8, 0x22#8, 0x11#8])]) = true := by decide +kernel
theorem test_ldc : after (.ldc { lm with md := 0x20 }) (lane (vg [addrs]) phys) (fun u => (grp u).loads.length == 1) = true := by decide +kernel
theorem test_lds_lane : after (.laneLds { lm with md := 0x40 }) (lane (vg [(2, fun t => BitVec.ofNat 32 t)]) { wordBlock with scratch := [(1, 0x80)] })
    (fun u => (grp u).readV 4 1 == 0xFFFFFF80#32) = true := by decide +kernel
theorem test_sts_lane_misaligned : traps (.laneSts { lm with md := 0x20 }) (lane (vg [(2, allT 2)])) 5 = true := by decide +kernel
theorem test_sts_lane_ascending : after (.laneSts { lm with md := 0x20 }) (lane (vg [(2, allT 8), (6, fun t => BitVec.ofNat 32 t)]))
    (fun u => (blk u).scratch == [(8, 1#8)]) = true := by decide +kernel
theorem test_stp_stays_below_reserve : traps (.stp { lm with md := 0x20 }) (lane (vg [(2, allT 96)])) 6 = true ∧
    after (.stp { lm with md := 0x20, gp := 1 }) (lane ((vg [(2, allT 92), (6, allT 7)]).writeP 1 1)) (fun u => (grp u).priv == [(2944, 7#8)]) = true := by decide +kernel
theorem test_ldp : after (.ldp { lm with md := 0 }) (lane { vg [(2, allT 1)] with priv := [(5, 0x22)] }) (fun u => (grp u).readV 4 1 == 0x22#32 &&
    (grp u).readV 4 0 == 0#32) = true := by decide +kernel
-- Both threads add 1 at one address: one sum, results in thread order (R73).
theorem test_atom_same_address : after (.laneAtom { lm with md := 0 }) (put 0x1000 4 5 (lane (vg [(2, allT 0x1000), (6, allT 1)]) phys))
    (fun u => memNat u 0x1000 4 == 7 && (grp u).readV 4 1 == 6#32) = true := by decide +kernel
theorem test_red_max_unsigned : after (.red { lm with md := 0x20, d := 254 }) (put 0x1000 4 5 (lane (vg [(2, allT 0x1000), (6, fun t => BitVec.ofNat 32 (7 + t))]) phys))
    (fun u => memNat u 0x1000 4 == 8) = true := by decide +kernel
theorem test_atoms_exchange : after (.atoms { lm with md := 0x40, gp := 1 }) (lane ((vg [(2, allT 8), (6, allT 7)]).writeP 1 1) { wordBlock with scratch := [(8, 3)] })
    (fun u => (blk u).scratch == [(8, 7#8)] && (grp u).readV 4 0 == 3#32) = true := by decide +kernel
-- An entry of KIND 9 is malformed (R215).
theorem test_cpy_bad_entry : after (.cpy { lw with a := 249, imm := 5 }) (put 0x1000 1 9 (lane { vg [] with runs := [], s := [(5, 0x1000)] } phys))
    (fun u => (blk u).testCause) = true := by decide +kernel
theorem test_fence_l_waits : after (.fenceL { lw with x := 1, md := 2 }) { lane (vg []) with cores := [{ Core.reset with pend := [⟨0, [1], false, .scalar gref, 0⟩] }] }
    (fun u => (grp u).lpc == 0x10000#52) = true := by decide +kernel
theorem test_mbar : after (.mbar lw) (lane (vg [])) (fun u => (grp u).lpc == 0x1000C#52) = true := by decide +kernel
theorem test_isub_no_port : traps (.isubIsl lw) (lane (vg [])) 0x11 = true := by decide +kernel
theorem test_qclose_port_not_uniform : traps (.qclose lw) (lane (vg [(2, fun t => BitVec.ofNat 32 t)])) 4 = true := by decide +kernel
/-- A block whose Q0 is bound to its named queue 3. -/
def qBlock (es : List W32) : Block :=
  { wordBlock with kernel := { wordKernel with qbind := [0x43#8] }, queues := listSet (List.replicate 8 []) 3 es }
theorem test_qread_nb : after (.qread { lw with a := 252, c := 3, md := 0x10 }) (lane (vg []) (qBlock [5, 6])) (fun u => (grp u).readV 4 1 == 6#32 &&
    (grp u).readP 3 == 3#32) = true := by decide +kernel
theorem test_qread_waits : after (.qread { lw with a := 252, c := 3 }) (lane (vg []) (qBlock [5])) (fun u => (grp u).blockedL && (grp u).served == 1#32) = true := by
  decide +kernel
theorem test_attr_no_primitive : after (.attr { lw with a := 2, b := 6, c := 249, imm := 5 }) (lane { vg [(2, allT 0xFFF00000), (3, allT 0xFF), (4, allT 9)] with
    runs := [], s := [(5, 0x1000)] } phys) (fun u => (grp u).readV 4 0 == 0#32 && (grp u).readV 5 1 == 0#32) = true := by decide +kernel
theorem test_trace_no_port : traps (.trace { lw with c := 249 }) (lane (vg [])) 0x11 = true := by decide +kernel
theorem test_refill_misaligned : traps (.refill { lw with a := 249, c := 3, imm := 5 }) (lane { vg [] with runs := [], s := [(5, 0x1004)] }) 5 = true := by
  decide +kernel
theorem test_neval_outside_draft : traps (.neval lw) (lane (vg [])) 0x10 = true := by decide +kernel

/-! ### Matrix words (R239-R254) -/

/-- A matrix word with A as given and IMM. -/
def mw (a : BitVec 8) (imm : W32) : LaneWord := ⟨0, false, 0, 0, 254, a, 0, 0, 0, imm⟩
/-- After a matrix word, f holds of the block, and the sequencer stands at the next word. -/
def mat (i : Instr) (b : Block) (f : Block → Bool) : Bool := after i (matr b) fun t => f (blk t) && (blk t).seq.mpc == 0x1000C#52
/-- A matrix word has not completed. -/
def matStays (i : Instr) (b : Block) : Bool := after i (matr b) fun t => (blk t).seq.mpc == 0x10000#52 && !(blk t).seq.halted
/-- A matrix word halts its sequencer, and slot 0 carries the cause. -/
def matTraps (i : Instr) (b : Block) (code : BitVec 8) : Bool :=
  after i (slow (matr b)) fun t => (blk t).seq.halted && ((blk t).seq.carrier.map fun c => (c.1, c.2.code)) == some (0, code)
def kBlock (n : Nat) (v : W64) : Block := { wordBlock with k := wordBlock.k.set n v }
def accBlock : Block := { wordBlock with acc := [(130, 1), (389, 2)] }

-- Row 1 cleared: IMM[31:21] = 1, one row.
theorem test_aclr : mat (.aclr (mw 254 0x00200000)) accBlock (fun b => b.acc == [(389, 2)]) = true := by decide +kernel
theorem test_aclr_past_share : matTraps (.aclr (mw 254 0xFFE00400)) accBlock 8 = true := by decide +kernel
-- Row 3 copied onto row 1.
theorem test_amove : mat (.amove (mw 254 0x00200C00)) accBlock (fun b => b.acc == [(133, 2), (389, 2)]) = true := by decide +kernel
-- BF16 output of a zero row, to the scratchpad at K0, and .CLR of row 3.
theorem test_aout_clears : mat (.aout { mw 254 0x00600000 with md := 0x90, x := 1 }) { accBlock with scratch := [(7, 1)] }
    (fun b => b.acc == [(130, 1)] && b.scratch.get 7 == 0) = true := by decide +kernel
theorem test_aout_misaligned : matTraps (.aout { mw 254 0 with md := 0x90 }) (kBlock 0 0x20) 5 = true := by decide +kernel
theorem test_mloadb_past_slots : matTraps (.mloadb { mw 250 0 with md := 0x70, b := 127 }) wordBlock 8 = true := by decide +kernel
theorem test_mscale_from_scratch : mat (.mscale { mw 250 0x4000 with md := 0x40, b := 1 }) { wordBlock with scratch := [(0x41, 0x38)] }
    (fun b => b.scale == [(257, 0x38#8)]) = true := by decide +kernel
theorem test_mscale_misaligned : matTraps (.mscale { mw 250 0x100 with md := 0x40 }) wordBlock 5 = true := by decide +kernel
theorem test_mma_asks : after (.mma { mw 252 0 with md := 0, d := 4, c := 3, imm := 0 }) (matr { wordBlock with seq := { wordBlock.seq with mgear := 0xD } })
    (fun t => ((blk t).seq.pass.map fun p => (p.gear, p.ceil, p.granted)) == some (1, 1, false) && (blk t).lock.isSome &&
      (blk t).seq.mpc == 0x10000#52) = true := by decide +kernel
theorem test_mma_rows_past_share : matTraps (.mma { mw 252 0xFFE00000 with d := 4, c := 3 }) wordBlock 8 = true := by decide +kernel
theorem test_mgear : mat (.mgear (mw 248 0x1E)) wordBlock (fun b => b.seq.mgear == 0xE#4) = true := by decide +kernel
theorem test_mbudget_from_k : mat (.mbudget (mw 250 3)) (kBlock 3 0xFF123456) (fun b => b.seq.mbudget == 0x123456#24) = true := by decide +kernel
theorem test_mstat_count_clear : mat (.mstat { mw 254 2 with x := 5 }) { wordBlock with seq := { wordBlock.seq with count := 0x500000003 } }
    (fun b => b.readK 10 2 == 0x500000003#64 && b.seq.count == 0) = true := by decide +kernel
theorem test_mwaitq : matStays (.mwaitq { mw 254 0 with b := 2, c := 1 }) wordBlock = true ∧
    mat (.mwaitq { mw 254 0 with b := 2, x := 1 }) wordBlock (fun _ => true) = true := by decide +kernel
theorem test_matrix_bars : mat (.matrixBarArrive { mw 254 0 with b := 3, x := 1 }) wordBlock
      (fun b => b.bars[3]? == some ⟨2, false, 1, 0, [(32, true)]⟩) = true ∧
    matTraps (.matrixBarWait { mw 254 0 with b := 3 }) wordBlock 0x0B = true := by decide +kernel
theorem test_matrix_queues : mat (.matrixQpush { mw 248 0x99 with b := 2 }) wordBlock (fun b => b.queues.getD 2 [] == [0x99#32]) = true ∧
    matStays (.matrixQpop { mw 254 4 with b := 2 }) wordBlock = true := by decide +kernel
theorem test_matrix_tlwait_bad : matTraps (.matrixTlwait (mw 250 3)) (kBlock 3 0x1000020000000001) 0x0B ∧ matTraps (.matrixTlwait (mw 250 3)) wordBlock 6 = true := by decide +kernel
theorem test_mend : after (.mend (mw 254 0)) (matr wordBlock) (fun t => (blk t).seq.idle) = true := by decide +kernel
theorem test_mend_loop : after (.mendLoop (mw 250 0xFFFFFE02)) (matr (kBlock 2 5)) (fun t => (blk t).readK 10 2 == 4#64 && (blk t).seq.mpc == 0xFFE8#52) = true ∧
    mat (.mendLoop (mw 250 2)) (kBlock 2 1) (fun b => b.readK 10 2 == 0#64) = true := by decide +kernel

/-! ### Events and operations of the device -/

/-- The states of the events: one context, one block, one group, no word under way. -/
def base : State := mach .none (sg []) wordBlock
def cx (t : State) : Ctx := (t.ctx? 1).getD wordCtx
def withCtx (s : State) (f : Ctx → Ctx) : State := { s with ctxs := [f wordCtx] }

-- Two RC writes to one byte keep their order: entry 1 may not be acknowledged first.
theorem test_write_acknowledge : after (.writeAcknowledge 0 1) { base with cores := [{ Core.reset with pend := [⟨0x100, [1], false, .scalar gref, 0⟩, ⟨0x100, [2], false, .scalar gref, 0⟩] }] }
    (fun t => (t.core 0).pend.length == 2) = true ∧
    after (.writeAcknowledge 0 0) pendCore (fun t => (t.core 0).pend.isEmpty && memNat t 0x100 1 == 1) = true := by decide +kernel
theorem test_lnwait_timeout : after (.lnwaitTimeout gref) { mach .none { sg [] with waits := ⟨none, none, some ⟨0, 5, false⟩⟩ } wordBlock with cycle := 5 }
    (fun t => (grp t).waits.ln == some ⟨0, 5, true⟩) = true := by decide +kernel
theorem test_tlb_invalidate_page : after (.tlbInvalidatePage .sys 1) { base with
      tlb := [⟨1, 0x1000, 0x1000, 0⟩, ⟨2, 0x1000, 0x1000, 0⟩, ⟨1, 0x2000, 0x1000, 0⟩], regs := { State.reset.regs with tlbVa := 0x1FFF } }
    (fun t => t.tlb.map (fun e => (e.ctx, e.base)) == [(2#8, 0x1000), (1#8, 0x2000)] && readReg t 0x3008 == 2 ^ 63 + 0x100) = true := by decide +kernel
theorem test_tlb_invalidate_others : after (.tlbInvalidateContext .sys 1) { base with tlb := [⟨1, 0, 0x1000, 0⟩, ⟨2, 0, 0x1000, 0⟩] } (fun t => t.tlb.length == 1) = true ∧
    after (.tlbInvalidateAll .sys 1) { base with tlb := [⟨1, 0, 0x1000, 0⟩, ⟨2, 0, 0x1000, 0⟩] } (fun t => t.tlb.isEmpty) = true := by decide +kernel
theorem test_tlb_done_waits_for_writes : after .tlbInvalidationDone { pendCore with regs := { State.reset.regs with tlbBusy := true } } (fun t => t.regs.tlbBusy) = true ∧
    after .tlbInvalidationDone { base with regs := { State.reset.regs with tlbBusy := true } } (fun t => !t.regs.tlbBusy) = true := by decide +kernel
theorem test_scpart_write : after (.scpartWrite .sys 0 0xFFFFFFFF) base (fun t => readReg t 0x4000 == 0x8001FFFF) = true ∧
    after (.scpartWrite .sys 2 0) { base with lines := [⟨9, 0, 2, false⟩, ⟨9, 1, 3, true⟩] } (fun t => t.lines == [⟨9, 1, 3, true⟩]) = true := by decide +kernel
theorem test_pwrpool_bounds : after (.pwrpoolWrite .governor 500) base (fun t => readReg t 0x1000 % 2 ^ 16 == 384) = true ∧
    after (.pwrpoolWrite .sys 20) base (fun t => readReg t 0x1000 % 2 ^ 16 == 128) = true := by decide +kernel
theorem test_register_write_masks : after (.registerWrite .sys 0x2040 0xFFFFFFFFFFFFFFFF) base (fun t => readReg t 0x2040 == 0x7FFFFFFF0000) = true ∧
    after (.registerWrite .host 0x2040 0x10000) base (fun t => readReg t 0x2040 == 0) = true := by decide +kernel
theorem test_msigen : after (.msigen .sys 0x805) (unmasked base) (fun t => t.msix == [5]) = true := by decide +kernel
theorem test_d2dsync : after .d2dsyncRead base (fun t => t.msix == []) = true := by decide +kernel
theorem test_sysdone : after (.sysdone .sys 0) (put 0x4010 8 7 (put 0x4018 8 9 (callState (mach .none { sg [] with waits := ⟨some ⟨0, none⟩, none, none⟩ } wordBlock))))
    (fun t => (grp t).waits.call == some ⟨0, some (some (7, 9))⟩) = true := by decide +kernel
theorem test_doorbell_reserved_bit : after (.doorbell .sys 0x0100080000000001) base (fun t => (cx t).slots.isEmpty && t.regs.errCount == 1) = true := by
  decide +kernel

-- BIND reads 256 bytes at CTXBASE + 256c; an all-zero descriptor is malformed (PTROOT of 0, TFBASE... R305): STATE.
theorem test_bind_zero_descriptor : after (.bind .sys 1 0) { State.reset with choices := [] } (fun t => t.ctxs.isEmpty && readReg t 0x2008 == 1) = true := by decide +kernel
theorem test_makeres : after (.makeres .sys 1 0) (withCtx State.reset fun x => { x with st := .defined }) (fun t => (cx t).st == .resident && readReg t 0x2008 == 0) = true := by
  decide +kernel
theorem test_preempt_empty : after (.preempt .sys 1 0) (withCtx State.reset id) (fun t => (cx t).st == .defined) = true ∧
    after (.preempt .sys 1 0) base (fun t => (cx t).st == .draining && readReg t 0x2008 == 2 ^ 63) = true := by decide +kernel
theorem test_reset_context : after (.reset .sys 1 0) base (fun t => (cx t).st == .defined && t.blocks.isEmpty && t.groups.isEmpty) = true := by decide +kernel
theorem test_release : after (.release .sys 1 0) base (fun t => readReg t 0x2008 == 1) = true ∧
    after (.release .sys 1 0) (withCtx State.reset fun x => { x with st := .defined }) (fun t => t.ctxs.isEmpty) = true := by decide +kernel
theorem test_deadlines : after (.firstDeadline 1) (withCtx base fun x => { x with st := .draining, preStart := some 0 }) (fun t => (cx t).st == .draining) = true ∧
    after (.secondDeadline 1) { withCtx base (fun x => { x with st := .draining, preStart := some 0 }) with cycle := 2400 }
      (fun t => (cx t).st == .defined && t.blocks.isEmpty) = true := by decide +kernel
theorem test_fault_retry : after (.faultRetry .sys 1 0 4) (withCtx (mach .none { sg [] with parkS := some ⟨[4], false, [], [(4, 0x1000, 0)], 0, 0⟩ } wordBlock)
      fun x => { x with pending := [⟨4, 0, 0, 0x1000, none⟩] }) (fun t => (grp t).parkS == none && (cx t).pending.isEmpty) = true := by decide +kernel
theorem test_fault_fatal : after (.faultFatal .sys 1 0 4) (withCtx (mach .none { sg [] with parkS := some ⟨[4], false, [], [(4, 0x1000, 0)], 0, 0⟩ } wordBlock)
      fun x => { x with pending := [⟨4, 0, 0, 0x1000, none⟩] }) (fun t => ((grp t).parkS.map fun p => (p.ids, p.fatal, p.va)) == some ([], true, 0x1000#64)) = true := by
  decide +kernel
theorem test_stop_in_trap_mode : after (.stop .sys 1 gref) (mach .none { sg [] with trapm := true } wordBlock) (fun t => (grp t).stopReq && (grp t).hold == .run) = true := by
  decide +kernel
theorem test_resume_and_steps_need_a_stop : after (.resume .sys 1 gref) base (fun t => t.regs.errCount == 1) = true ∧
    after (.stepL .sys 1 gref) base (fun t => t.regs.errCount == 1) = true ∧ after (.stepS .sys 2 gref) base (fun t => t.regs.errCount == 1) = true := by decide +kernel

/-- An enabled head that follows and has asked for the panel. -/
def headState (ctl : W32) (n : Nat) : State := { unmasked State.reset with heads := listSet State.reset.heads 1 { Head.reset with ctl := ctl, lockedFrames := n, fsyncAt := some 0 } }
theorem test_handover : after (.handover .sys 1) (headState 0x81000000 0) (fun t => readReg t 0x20100 == 0x88000000) = true ∧
    after (.handover .sys 1) (headState 0x40000000 0) (fun t => readReg t 0x20100 == 0x40000000) = true := by decide +kernel
theorem test_head_release : after (.headRelease .sys 1) (headState 0x82000000 0) (fun t => readReg t 0x20100 == 0x86000000) = true := by decide +kernel
-- The second frame start in a row within a line of FSYNC_IN locks the head and takes the panel.
theorem test_frame_start_takes_panel : after (.frameStart 1) (headState 0xC8000000 1) (fun t => readReg t 0x20100 == 0xD2000000 && (t.head 1).muxsel && t.msix == [3, 3]) = true := by
  decide +kernel
theorem test_frame_start_aborts : after (.frameStart 1) (headState 0xC8000000 0) (fun t => readReg t 0x20100 == 0xC1000000 && !(t.head 1).muxsel) = true := by decide +kernel
theorem test_fsync_pulse : after .fsyncInPulse { State.reset with heads := [{ Head.reset with ctl := 0x40000000 }, Head.reset] }
    (fun t => t.heads.map (·.fsyncAt) == [some 0, none]) = true := by decide +kernel
theorem test_budget_grant : after (.budgetGrant 0x0000000001D4C005) base (fun t => t.budget == 0x1D4C0 && t.lastGrant == some 0 && t.demand.length == 1) = true := by decide +kernel
-- (120000 - 20000) / 293 = 341.
theorem test_budget_tick : after (.budgetTick 20000) { base with budget := 120000 } (fun t => t.regs.pool == 341) = true ∧
    after (.budgetTick 120000) { base with budget := 120000 } (fun t => t.regs.pool == 6) = true := by decide +kernel
theorem test_grant_timeout : after .grantTimeout { base with cycle := 3600000, lastGrant := some 0 } (fun t => t.budget == 120000) = true := by decide +kernel
theorem test_power_save_busy : after (.powerSave .sys) base (fun t => readReg t 0x60018 == 1) = true ∧ after .d3hotEntry base (fun t => t.power == .d0) = true := by decide +kernel
theorem test_power_off : after (.powerOff .host) base (fun t => readReg t 0x60018 == 0) = true ∧
    after (.powerRemoval false) base (fun t => t.power == .d3cold && !t.alwaysOn) = true := by decide +kernel
-- Bring-up reads free constants, so the wipe that every reset makes is tested by itself; without power no reset acts.
theorem test_resets_wipe : (wipe base).groups.isEmpty = true ∧ (wipe base).ctxs.isEmpty = true ∧ (wipe base).blocks.isEmpty = true ∧
    after .perst { base with power := .d3cold } (fun t => t.blocks.length == 1) = true ∧
    after .functionLevelReset { base with power := .d3cold } (fun t => t.blocks.length == 1) = true := by decide +kernel
theorem test_d3hot : after .d3hotEntry State.reset (fun t => t.power == .d3hot && t.selfRefresh) = true ∧
    after .d3hotExit { base with power := .d3hot } (fun t => t.power == .d0 && t.groups.isEmpty && t.ctxs.length == 1) = true ∧
    after .gddr7SelfRefresh base (fun t => t.selfRefresh) = true := by decide +kernel
theorem test_enter : after (.enter .selfTest 5) base (fun t => readReg t 0x50010 == 2) = true ∧
    after (.enter .selfTest 5) (markDetected State.reset (.core 5)) (fun t => readReg t 0x50010 == 2 ^ 62 && (t.core 5).loopMode) = true := by decide +kernel
theorem test_start : after (.start .selfTest 5) (put 0x200 8 0x4000 { State.reset with
      cores := listSet State.reset.cores 5 { Core.reset with loopMode := true }, regs := { State.reset.regs with stprog := 0x200 } })
    (fun t => t.groups.map (fun g => (g.spc, g.wide)) == List.replicate 4 (0x4000#52, true) && readReg t 0x50010 == 2 ^ 63) = true := by decide +kernel
theorem test_leave : after (.leave .selfTest 5) base (fun t => readReg t 0x50010 == 4) = true := by decide +kernel
theorem test_self_test_removes : after (.selfTest (.core 5) 2) (markDetected State.reset (.core 5)) (fun t => !(t.core 5).inService && !(t.core 5).detected) = true ∧
    after (.selfTest (.link 0) 1) State.reset (fun t => readReg t 0x60018 == 6) = true := by decide +kernel

/-- The copy engine of core 2 with one command of its chain read. -/
def cmdEngine (k : Cmd) : EngineCtx := { eng with timeline := 0, tail := 1, next := 0x1000, nextN := 1, cmds := [k] }
def cmdState (e : Nat) (f : Cmd → Cmd) : State :=
  { base with engines := [cmdEngine (f ⟨1, 0x1000, some (BitVec.ofNat 512 e), 0, false, false, none, ⟨[], [], false⟩⟩)] }
def cmd1 (t : State) : Option (Nat × Bool × Bool) := (t.engines.head?.bind fun e => e.cmds.head?).map fun k => (k.status, k.performed, k.completed)
theorem test_nop_command : after (.nop (.chain ⟨2, 0⟩ 1)) (cmdState 0 id) (fun t => cmd1 t == some (0, true, false)) = true ∧
    after (.nop (.chain ⟨2, 0⟩ 1)) (cmdState 9 id) (fun t => cmd1 t == some (1, true, false)) = true := by decide +kernel
theorem test_command_of_another_kind : after (.copy (.chain ⟨2, 0⟩ 1)) (cmdState 0 id) (fun t => cmd1 t == some (0, false, false)) = true ∧
    after (.fill (.chain ⟨2, 0⟩ 1)) (cmdState 0 id) (fun t => cmd1 t == some (0, false, false)) = true ∧
    after (.link (.chain ⟨2, 0⟩ 1)) (cmdState 0 id) (fun t => cmd1 t == some (0, false, false)) = true ∧
    after (.wait (.chain ⟨2, 0⟩ 1)) (cmdState 0 id) (fun t => cmd1 t == some (0, false, false)) = true := by decide +kernel
theorem test_command_complete : after (.commandComplete (.chain ⟨2, 0⟩ 1)) (cmdState 0 fun k => { k with performed := true })
    (fun t => t.engines.map (fun e => (e.timeline, e.next, e.nextN)) == [(1#64, 0x1040#64, 2)]) = true := by decide +kernel
theorem test_engine_tail : after (.engineTailWrite ⟨2, 0⟩ 9) (engState []) (fun t => t.engines.map (·.tail) == [9#64]) = true ∧
    after (.engineTailWrite ⟨2, 0⟩ 1) (engState []) (fun t => t.engines.map (·.tail) == [3#64]) = true := by decide +kernel

/-- An image whose cell 0 adds words 0 and 1 of its record, to the block queue. -/
def addImage : Image := ⟨((((List.replicate 1280 0#8).set 6 0).set 9 0 |>.set 11 1).set 16 83 |>.set 64 0).set 256 2 |>.set 1024 64 |>.set 1025 65 |>.set 1026 83, []⟩
def rec0 : IslandRecord := { tag := 0x01000020, port := 3, words := [5, 6], pass := 0, rwords := [], out := none, close := false, ray := none, wait := none
                             res := [], due := none, fatal := false, order := 0, b := wordBlockRef }
def islState (i : Island) : State := { base with islands := [{ i with state := 2, image := some addImage }], blocks := [{ wordBlock with islq := [⟨3, []⟩] }] }
theorem test_island_accept : after (.islandAccept 0) (islState { Island.reset with input := [{ rec0 with tag := 0x01000040 }, rec0] })
    (fun t => (t.island 0).flight.map (·.tag) == [0x01000020#32] && (grp t).served == 2) = true := by decide +kernel
theorem test_island_pass_adds : after (.islandPass 0) (islState { Island.reset with flight := [rec0] })
    (fun t => (t.island 0).out.map (·.out) == [some [11#32]] && (t.island 0).flight.isEmpty) = true := by decide +kernel
theorem test_island_deliver : after (.islandDeliver 0) (islState { Island.reset with out := [{ rec0 with out := some [11] }] })
    (fun t => (blk t).islq == [⟨3, [some [11]]⟩] && (t.island 0).out.isEmpty) = true := by decide +kernel
-- A traversal output of kind 2 or more: status 5 in V[d].
theorem test_shader_table_bad_kind : after (.shaderTableLookup 0) { base with rays := [⟨1, gref, 1, 2, 7, 0, 0, 0, some [2], none, false, 0⟩] }
    (fun t => (grp t).readV 7 2 == 5#32 && t.rays.isEmpty) = true := by decide +kernel
theorem test_tile_window : after (.tileWindowClose 0) { base with cycle := 600, cores := [{ Core.reset with tiles := [⟨1, 0, 0, 80, none, [], none, [], false⟩,
      ⟨1, 1, 0, 100, none, [], none, [], false⟩] }] } (fun t => (t.core 0).tiles.map (·.formed) == [some 592, none]) = true := by decide +kernel
theorem test_draft_tile_none : after (.draftTileRun 0) base (fun t => (t.core 0).tiles.isEmpty) = true := by decide +kernel
/-- A block whose one-row MMA stands as a request, and the same granted. -/
def passBlock (granted : Bool) : Block := { wordBlock with lock := some (0, 512), seq := { wordBlock.seq with
    pass := some ⟨pack 0x180 (mw 252 0), 0, 3, 3, 3, 0, 0, granted, if granted then 2 else 0, 1, 0⟩ } }
theorem test_array_grant : after (.arrayGrant 0) (matr (passBlock false)) (fun t => (t.core 0).array == some 0 && (t.core 0).tokens == 2 &&
    (blk t).seq.pass.any (·.granted)) = true := by decide +kernel
theorem test_attempt_end_early : after (.attemptEnd 0) { matr (passBlock true) with cores := [{ Core.reset with array := some 0, tokens := 2 }], cycle := 19 }
    (fun t => (blk t).seq.pass.isSome) = true := by decide +kernel
theorem test_block_retire : after (.blockRetire wordBlockRef) { mach .none { sg [] with exited := true } { wordBlock with seq := { wordBlock.seq with idle := true } } with choices := [] }
    (fun t => t.blocks.isEmpty && t.groups.isEmpty) = true ∧ after (.blockRetire wordBlockRef) base (fun t => t.blocks.length == 1) = true := by decide +kernel

/-- A task-queue record that is ready, and its context with the kernel it names. -/
def readyRecord : Slot64 := BitVec.ofNat 512 (0x11000 + 2 ^ 60)
def readySlot (r : Slot64) : Slot := Slot.mk 0 0 0 (some 0) false none false (some r) none none none 0 [] true
def taskState (r : Slot64) : State := withCtx State.reset fun x => { x with kernels := [wordKernel], slots := [readySlot r] }
-- VSET, bits 63:60, allows variant 0 (R18); slot 127 is the first that serves priority 0 (R267).
theorem test_dispatch : after .dispatch (taskState readyRecord) (fun t => t.blocks.length == 1 && t.groups.map (fun g => (g.spc, g.vcnt)) == [(0x10000#52, 128)] &&
    t.dispSlot == 127) = true := by decide +kernel
theorem test_dispatch_discards : after .dispatch (taskState 0x11000) (fun t => t.blocks.isEmpty && (cx t).slots.all (·.popped)) = true := by decide +kernel
theorem test_candidate_aged : after .candidateAged (taskState readyRecord) (fun t => t.blocks.isEmpty) = true ∧
    after .candidateAged { taskState readyRecord with cycle := 600000 } (fun t => t.blocks.length == 1) = true := by decide +kernel
theorem test_launch_and_marks_idle : after .launchExpand (taskState readyRecord) (fun t => t.grids.isEmpty) = true ∧
    after .moveMark base (fun t => !t.markOut) = true ∧ after .joinCounterReread (taskState readyRecord) (fun t => (cx t).slots.length == 1) = true := by decide +kernel
theorem test_fault_post_none : after (.faultPost 1) base (fun t => (cx t).seq == 0) = true := by decide +kernel

/-- System ring 0 with one request of a kind, at 0x4000. -/
def loadState (kind ctx : Nat) : State :=
  put 0x4018 8 0x6000 (put 0x4000 2 (kind + 256 * ctx) { base with lifeCycle := 0, regs := { (unmasked State.reset).regs with rings := listSet State.reset.regs.rings 0 ⟨0x4000, 4, 0, 1⟩ } })
/-- A request ends with a code. -/
def served (i : Instr) (s : State) (code : Nat) : Bool :=
  after i s fun t => memNat t 0x6000 8 == 2 ^ 63 + code && t.msix == [1] && (t.regs.rings.map (·.head)).getD 0 0 == 1
theorem test_loader_no_context : served .loadobj (loadState 1 9) 0x21 = true ∧ served .bindisl (loadState 2 9) 0x21 = true ∧ served .attest (loadState 4 9) 0x21 = true := by
  decide +kernel
theorem test_relport_unbound : served .relport (loadState 3 1) 0x22 = true := by decide +kernel
theorem test_genkey : served .genkey (loadState 5 0) 0 = true ∧ after .genkey (loadState 5 0) (fun t => t.saveKeys.map (·.1) == [0]) = true := by decide +kernel
theorem test_reserved_kind : served .keyinstall (loadState 9 0) 0x20 = true ∧ served .keyrevoke (loadState 0 0) 0x20 = true ∧ served .lcchange (loadState 9 0) 0x20 = true := by
  decide +kernel

/-! ### Taking an exception and returning from it -/

/-- The installed machine, whose page tables map the trap frames, with a cause pending. -/
def trapped : State := { installWord State.reset 32 0x08A40040 with agenda := [], groups := [{ sg [(1, 11), (5, 55)] with pend := some (causeAt (sg []) 2 0 0 0 0x10000 0 0x77) }] }
/-- TRAP_ENTRY: trap mode, the handler's address, S1 the frame, S2 the cause word, and the frame's S5 and FADDR in memory. -/
theorem test_trap_entry : after (.trapEntry gref) trapped (fun t => (grp t).trapm && (grp t).spc == 0x26000#52 && (grp t).readS 1 == 0x1000000#64 &&
    (grp t).cause == 2 && (grp t).readS 5 == 55#64) = true := by decide +kernel
-- The frame of R309: the code at 0, RSPC at 8, FPC at 24, FADDR at 40, S1 at 64.
theorem test_trap_frame : (let bs := frameBytes (sg [(1, 11)]) none (causeAt (sg []) 2 0 0 0 0x10000 0 0x77) false []
    [fieldAt bs 0 1, fieldAt bs 24 8, fieldAt bs 40 8, fieldAt bs 64 8] == [2, 0x10000, 0x77, 11]) = true := by decide +kernel
/-- A handler at its end: the return entry is next, and the frame holds RSPC and S1. -/
def handlerGroup : Group :=
  { sg [(1, 7)] with trapm := true, cause := 2, stack := [⟨0, 0, 0, 3⟩, ⟨2, 0, 0, 3⟩, ⟨1, 0, 0, 3⟩], trapRuns := (vg []).runs }
def handler : State :=
  put 0x1000008 8 0x30000 (put 0x1000040 8 11 { installWord State.reset 32 0 with agenda := [], cur := .lane gref, groups := [handlerGroup] })
theorem test_trap_return : after (.joinL lw) handler (fun u => !(grp u).trapm && (grp u).readS 1 == 11#64 && (grp u).cause == 0 && (grp u).spc == 0x30000#52 &&
    (grp u).stack.length == 1) = true := by decide +kernel
-- R311, R175: an LWAIT that a trap interrupted executes again, waits for the frozen runs, and the lane stream may go on.
def replayG : Group :=
  { sg [] with spc := 0x10004, runs := (vg []).runs, replay := [⟨0x9C000000, .scalar, false, true, 0x10000, 1, List.replicate 32 0⟩] }
theorem test_unfinished_word_waits : (match step { installWord State.reset 32 0x9C000000 with agenda := [.scalar 0 0], groups := [replayG] } with
    | .next t => (grp t).replay == [] && (grp t).blockedS && (grp t).inject == none && (grp t).spc == 0x10000#52 && resumePcs (grp t) == (0x10004#52, (grp t).lpc)
    | _ => false) = true := by decide +kernel

/-! ### Steps -/

/-- A step of a state with an installed word gives a state in which f holds. -/
def steps (nbits w : Nat) (f : State → Bool) : Bool :=
  match step (State.reset.withFetchWord nbits w) with
  | .next t => f t
  | _ => false
-- ADD immediate S5 = S4 + 0x40; IADD V4 = V1 + V2; the reserved encoding 0 is a cause.
theorem test_step_scalar : steps 32 0x08A40040 (fun t => (grp t).readS 5 == 0x40#64 && (grp t).spc == 0x10004#52) = true := by decide +kernel
theorem test_step_illegal : steps 32 0 (fun t => (grp t).pend.isSome || (grp t).trapm) = true := by decide +kernel
-- OP 0x186 (MGEAR), D FE, A F8 (IMM), B FE, C FE, IMM 0xE.
theorem test_step_matrix : steps 96 0x18600FEF8FEFE00000000E (fun t => (blk t).seq.mgear == 0xE#4 && (blk t).seq.mpc == 0x1000C#52) = true := by decide +kernel
-- OP 0x001 (IADD), MD 0, D V4, A V1, B V2, C FE.
theorem test_step_lane : steps 96 0x0000100040102FE000000000 (fun t => (grp t).lpc == 0x1000C#52 && (grp t).runs.isEmpty) = true := by decide +kernel
theorem test_step_empty_agenda : (match step State.reset with | .next t => t.agenda == [.tick] | _ => false) = true := by decide +kernel

/-! ### Witnesses: for each statement, states and operands that meet its hypotheses, clause by clause -/

theorem accesses_ok (s : State) (g : Group) (b : Block) (k : Access) (size : Nat) (vas : List (Nat × W64)) (xs : List (Nat × W64 × Xlat))
    (h : (access s (some g.ref.core.toNat) b.test g.ctx k size vas).2 = .ok xs) (hp : k = .write ∨ poisonedAt (access s (some g.ref.core.toNat) b.test g.ctx k size vas).1 size xs = [])
    (hw : if b.test then g.loop = none else watchHit (access s (some g.ref.core.toNat) b.test g.ctx k size vas).1 g.ctx k size vas = 0) : Accesses s (access s (some g.ref.core.toNat) b.test g.ctx k size vas).1 g b k size vas xs :=
  ⟨Prod.ext rfl h, hp, hw⟩
/-- The translations that an access gives. -/
def xlats (s : State) (g : Group) (b : Block) (k : Access) (size : Nat) (vas : List (Nat × W64)) : List (Nat × W64 × Xlat) :=
  match (access s (some g.ref.core.toNat) b.test g.ctx k size vas).2 with
  | .ok xs => xs
  | _ => []
def xlat (s : State) (g : Group) (b : Block) (k : Access) (size : Nat) (va : W64) : Xlat :=
  ((xlats s g b k size [(0, va)]).map fun x => x.2.2).headD ⟨0, pteOf 0⟩
theorem reads_ok (s : State) (g : Group) (b : Block) (size : Nat) (vas : List W64) (bs : List Byte) :
    let a := access s (some g.ref.core.toNat) b.test g.ctx .read size (vas.map fun va => (0, va))
    let xs := xlats s g b .read size (vas.map fun va => (0, va))
    a.2 = .ok xs → poisonedAt a.1 size xs = [] → (if b.test then g.loop = none else watchHit a.1 g.ctx .read size (vas.map fun va => (0, va)) = 0) →
    soReady (allocateAll a.1 size xs) g.ref.core.toNat xs = true → (readNow (allocateAll a.1 size xs) g size xs).2 = bs →
    ∃ u, Reads s u g b size vas bs :=
  fun h hp hw hs hb => ⟨_, _, _, accesses_ok s g b .read size _ _ h (.inr hp) hw, hs, Prod.ext rfl hb⟩

def g1 : Group := sg [(1, 0xFFFFFFFFFFFFFFFC), (2, 0x10000000000000), (3, 0xFFFFFFFFFFFFC), (4, 2), (5, 0x1008), (7, 0x1002)]
def real : State := { scal g1 with mem := (installWord State.reset 32 0).mem }

theorem witness_ScalarRegisterForms : ScalarAt (scal g1) g1 wordBlock [0, 1, 2, 31] false := by decide +kernel
theorem witness_ScalarImmediateForms : ScalarAt (scal g1) g1 wordBlock [31, 1] false ∧ (31#6).toNat < 32 ∧ windowOpen (scal g1) g1 .scalar true = true := by decide +kernel
theorem witness_ScalarFormsFrame : scalarForm (.lea 3 0) = some (3, [3], true) ∧ ScalarAt (scal g1) g1 wordBlock [3] true := by decide +kernel
theorem witness_RegisterReadAfterWrite : (31 : Nat) < 32 ∧ (0 : Nat) < 32 := by decide
-- S3 holds 2^52 - 4, S2 2^52, S4 2; return stacks of 39, 40, 1 and 0 entries.
theorem witness_ScalarControl : ScalarAt (scal g1) g1 wordBlock [3] true ∧ ((g1.readS 3).toNat % 4 = 0 ∧ (g1.readS 3).toNat < 2 ^ 52) ∧
    (g1.readS 4).toNat % 4 ≠ 0 ∧ (g1.readS 2).toNat % 4 = 0 ∧ 2 ^ 52 ≤ (g1.readS 2).toNat ∧ ScalarAt (scal g1) g1 wordBlock [2] true ∧ ScalarAt (scal g1) g1 wordBlock [4] true := by
  decide +kernel
def rasG (n : Nat) : Group := { g1 with ras := List.replicate n 4 }
theorem witness_ScalarControl_stack : (∀ n ∈ [0, 1, 39, 40], ScalarAt (scal (rasG n)) (rasG n) wordBlock [3] true ∧ (rasG n).ras.length = n) ∧
    (rasG 1).ras = [4] ∧ (rasG 0).ras = [] := by decide +kernel

theorem witness_ScalarLoads_issue : ∃ s1 x, ScalarAt (scal g1 phys) g1 phys [3, 7] false ∧ loadRoom (scal g1 phys) g1 = true ∧
    (Instr.ldN16 3 7 0 0, 2, false) ∈ dispLoads 3 7 0 0 ∧ 0x1002 = g1.readS 7 + (0 : BitVec 12).signExtend 64 * BitVec.ofNat 64 2 ∧
    Accesses (scal g1 phys) s1 g1 phys .read 2 [(0, 0x1002)] [(0, 0x1002, x)] ∧ soReady s1 0 [(0, 0x1002, x)] = true :=
  ⟨_, xlat (scal g1 phys) g1 phys .read 2 0x1002, by decide +kernel, by decide +kernel, by decide +kernel, by decide +kernel,
    accesses_ok _ _ _ _ _ _ _ (by decide +kernel) (by decide +kernel) (by decide +kernel), by decide +kernel⟩
-- The ordered form, on a page of the identity tables.
theorem witness_ScalarLoads_ordered : ∃ s1 x, ScalarAt real g1 wordBlock [3, 5] false ∧ loadRoom real g1 = true ∧
    (Instr.ldOrdered 3 5 0 .w64 .ar 6, 8, false) ∈ ordLoads 3 5 0 .ar 6 ∧ (Instr.ldOrdered 3 5 0 .w64 .ar 6).wf = true ∧ lanesDone real g1 = true ∧
    relReady s1 0 .ar 6 = true ∧ Accesses real s1 g1 wordBlock .read 8 [(0, 0x1008)] [(0, 0x1008, x)] ∧ soReady s1 0 [(0, 0x1008, x)] = true :=
  ⟨_, xlat real g1 wordBlock .read 8 0x1008, by decide +kernel, by decide +kernel, by decide +kernel, by decide +kernel, by decide +kernel,
    by decide +kernel, accesses_ok _ _ _ _ _ _ _ (by decide +kernel) (by decide +kernel) (by decide +kernel), by decide +kernel⟩
def outLoad : Load := ⟨.scalar, 0, 0, 8, true, 0, true, 0, 0, 0, [⟨0, 0x1000, 0x1000, none⟩], 0, none⟩
theorem witness_ScalarLoads_resolve : (scal { g1 with loads := [outLoad] }).group? gref = some { g1 with loads := [outLoad] } ∧ outLoad.stream = .scalar ∧
    (outLoad.parts = [⟨0, 0x1000, 0x1000, none⟩]) ∧ outLoad.pred = 0 ∧ outLoad.discard = decide (outLoad.dst = 0) ∧ outLoad.dst < 32 ∧ outLoad.size = 8 := by decide +kernel
-- The faults of an access: misaligned, past 52 bits, a page without W, not present, malformed, an error in a table or in the bytes.
def pteS (x : Nat × List Nat) : State := { put 0x30002000 8 x.1 real with poison := x.2 }
def fault? (s : State) (g : Group) (k : Access) (va : W64) : Option Deny :=
  match (translateWord s (some 0) false g.ctx k va).2 with
  | .error d => some d
  | _ => none
theorem witness_ScalarLoads_faults : scalarAccess g1 (.ldN32 3 7 0 0) = some ([3, 7], .read, 4, 0x1002, true, false) ∧
    scalarAccess g1 (.stN8 3 2 0 0) = some ([3, 2], .write, 1, 0x10000000000000, false, false) ∧
    scalarAccess g1 (.atom 6 5 0 .w64 .ar 6 .cas) = some ([6, 6 + 1, 5], .atomic, 8, 0x1008, false, true) ∧ loadRoom real g1 = true ∧ roomS real g1 ∧
    poisoned (pteS (0x1FB, [0x100F])) 0x1008 8 = true := ⟨rfl, rfl, rfl, by decide +kernel, .inr (by decide +kernel), by decide +kernel⟩
theorem witness_ScalarLoads_denied : ∀ x ∈ [((0x1EB, []), .protection), ((0, []), .notPresent), ((0x3FB, []), .malformed), ((0x1FB, [0x30000000]), .error)],
    ScalarAt (pteS x.1) g1 wordBlock [6, 7, 5] false ∧ lanesDone (pteS x.1) g1 = true ∧ fault? (pteS x.1) g1 .atomic 0x1008 = some x.2 := by decide +kernel
theorem witness_ScalarStores : ∃ s1 x, ScalarAt (scal g1 phys) g1 phys [3, 7] false ∧ (Instr.stOrdered 3 7 0 .n16 .ar 6).wf = true ∧ lanesDone (scal g1 phys) g1 = true ∧
    relReady s1 0 .ar 6 = true ∧ Accesses (scal g1 phys) s1 g1 phys .write 2 [(0, 0x1002)] [(0, 0x1002, x)] ∧ soReady s1 0 [(0, 0x1002, x)] = true :=
  ⟨_, xlat (scal g1 phys) g1 phys .write 2 0x1002, by decide +kernel, by decide +kernel, by decide +kernel, by decide +kernel,
    accesses_ok _ _ _ _ _ _ _ (by decide +kernel) (by decide +kernel) (by decide +kernel), by decide +kernel⟩
theorem witness_ScalarAtomics : ∃ s1 x, (Instr.atom 6 5 0 .w64 .ar 6 .cas).wf = true ∧ ScalarAt (scal g1 phys) g1 phys [6, 6 + 1, 5] false ∧ lanesDone (scal g1 phys) g1 = true ∧
    Accesses (scal g1 phys) s1 g1 phys .atomic 8 [(0, 0x1008)] [(0, 0x1008, x)] ∧ soReady s1 0 [(0, 0x1008, x)] = true ∧ relReady s1 0 .ar 6 = true ∧
    pendOverlap s1 0 x.pa 8 = false ∧ x.pa + 8 ≤ physTop :=
  ⟨_, xlat (scal g1 phys) g1 phys .atomic 8 0x1008, by decide +kernel, by decide +kernel, by decide +kernel,
    accesses_ok _ _ _ _ _ _ _ (by decide +kernel) (by decide +kernel) (by decide +kernel), by decide +kernel, by decide +kernel, by decide +kernel, by decide +kernel⟩
-- The last two bytes of the scratchpad, one past them, a misaligned address, a locked row.
def padG (a : W64) : Group := sg [(1, a)]
theorem witness_ScratchpadWords : ScalarAt (scal (padG 0xFFFE)) (padG 0xFFFE) wordBlock [3, 1] false ∧
    ScalarAt (scal (padG 0xFFFF)) (padG 0xFFFF) wordBlock [3, 1] false ∧ (wordBlock.variantAt wordBlock.variant).scratch = 0x10000 ∧
    lockedAt wordBlock 0xFFFE 2 = false ∧ lockedAt { wordBlock with lock := some (0xFF00, 0x100) } 0xFFFE 2 = true := by decide +kernel
-- A poisoned cell of the scratchpad.
theorem witness_ScratchpadWords_poison : ScalarAt (scal (padG 0xFFFE) { wordBlock with badPad := [0xFFFF] }) (padG 0xFFFE) { wordBlock with badPad := [0xFFFF] } [3, 1] false := by
  decide +kernel
def runsG (n : Nat) (t : Bool) : Group :=
  { sg [] with trapm := t, runs := List.replicate n ⟨0, 1, false, 0, [], [], [], [], []⟩, trapRuns := List.replicate n ⟨0, 1, false, 0, [], [], [], [], []⟩ }
theorem witness_LaneRunsAndWaits : (∀ n ∈ [0, 15, 16], ScalarAt (scal (runsG n false)) (runsG n false) wordBlock [] true ∧ (runsG n false).queue.length = n) ∧
    (∀ n ∈ [3, 4], ScalarAt (scal (runsG n true)) (runsG n true) wordBlock [] true ∧ (runsG n true).queue.length = n) ∧
    lanesDone (scal (runsG 0 false)) (runsG 0 false) = true ∧ lanesDone (scal (runsG 1 false)) (runsG 1 false) = false ∧
    lanesDone (scal { sg [] with laneUntil := 1 }) { sg [] with laneUntil := 1 } = false ∧ ScalarAt (scal { sg [] with laneUntil := 1 }) { sg [] with laneUntil := 1 } wordBlock [] true := by decide +kernel
-- An IADD whose A is S3 stands at the lane base; S3 with and without a write pending.
def capState (g : Group) : State := put 0x10000 12 (pack 1 { lw with a := 249, imm := 3 }).toNat (scal g phys)
def capG : Group := { sg [] with runs := [⟨0, 1, false, 0, [], [(0, 3)], [], [], []⟩] }
theorem witness_LaneRunsAndWaits_capture : ((scanWord (capState (sg [])) (sg []) true 0x10000).bind id).bind captureOf = some (249#8, 3) ∧
    (sg []).pendingS 3 = false ∧ capG.pendingS 3 = true ∧ ScalarAt (capState capG) capG phys [] true ∧ ScalarAt (capState (sg [])) (sg []) phys [] true := by decide +kernel
-- A run of one word that does not translate, with and without an S register that a queued run marks.
theorem witness_LaneRunsAndWaits_lost : (∀ g ∈ [sg [], capG], ScalarAt { scal g with ctxs := [] } g wordBlock [] true ∧ g.queue.length < 16 ∧
      scanWord { scal g with ctxs := [] } g false 0x10000 = none) ∧ (∀ n ∈ List.range 32, (sg []).pendingS (BitVec.ofNat 5 n) = false) := by decide +kernel

-- A descriptor of one dimension at 0x1000, and one of none.
def wbG : Group := { sg [(1, 0x1000)] with walkers := [⟨0x1000, [2, 3], [8, 100], [1, 2]⟩, ⟨0, [], [], []⟩] }
def wbState (nd : Nat) : State := put 0x1000 8 0x5000 (put 0x1008 8 nd (put 0x1010 8 (2 + 8 * 2 ^ 32) (scal wbG phys)))
def wbVas : List (Nat × W64) := (List.range 8).map fun n => (0, wbG.readS 1 + BitVec.ofNat 64 (8 * n))
def wbXs : List (Nat × W64 × Xlat) := xlats (wbState 1) wbG phys .read 8 wbVas
theorem witness_Walkers_bind : ∃ s1, ScalarAt (wbState 1) wbG phys [1] false ∧ lanesDone (wbState 1) wbG = true ∧ Accesses (wbState 1) s1 wbG phys .read 8 wbVas wbXs ∧
    soReady s1 0 wbXs = true ∧ s1.choices = [] ∧ (walkerOf (wbXs.flatMap fun x => freshRead s1 0 x.2.2.pa 8)) = some ⟨0x5000, [2], [8], [0]⟩ :=
  ⟨_, by decide +kernel, by decide +kernel, accesses_ok _ _ _ _ _ _ _ (by decide +kernel) (by decide +kernel) (by decide +kernel), by decide +kernel, by decide +kernel,
    by decide +kernel⟩
theorem witness_Walkers_bad : ∃ s1, Accesses (wbState 7) s1 wbG phys .read 8 wbVas wbXs ∧ (walkerOf (wbXs.flatMap fun x => freshRead s1 0 x.2.2.pa 8)) = none :=
  ⟨_, accesses_ok _ _ _ _ _ _ _ (by decide +kernel) (by decide +kernel) (by decide +kernel), by decide +kernel⟩
theorem witness_Walkers_read : ScalarAt (scal wbG) wbG wordBlock [3] false ∧ (wbG.walkers[0]?).any (fun w => !w.counts.isEmpty) = true ∧
    (wbG.walkers[1]?).any (fun w => w.counts.isEmpty) = true ∧ wbG.walkers[7]? = none := by decide +kernel

-- VCNT 128 and 128 bytes of private memory: 21 of 24 units; 3 more fit, 4 never do; a group of the lane that waits makes it wait.
def growState (waiting : Bool) : State :=
  { scal (sg []) with groups := [sg [], { sg [] with ref := ⟨0, 0, 1⟩, pos := 1, exited := true }]
                      cores := [{ Core.reset with growers := if waiting then [(⟨0, 0, 1⟩, 1)] else [] }] }
theorem witness_RegisterCount : (∀ w ∈ [false, true], ScalarAt (growState w) (sg []) wordBlock [3] false ∧ lanesDone (growState w) (sg []) = true) ∧
    growResult (growState false) (sg []) 128 3 (growFirst (growState false) (sg [])) = 0 ∧ growResult (growState true) (sg []) 128 3 (growFirst (growState true) (sg [])) = 1 ∧
    growResult (growState false) (sg []) 128 4 (growFirst (growState false) (sg [])) = 2 ∧ privOf wordBlock (sg []) = 128 ∧
    24 < 1 + ((sg []).vcnt + 8 * 4) / 8 + 128 / 32 ∧ (sg []).vcnt < 8 * 16 + 8 ∧ 8 * 15 + 8 ≤ (sg []).vcnt ∧
    (∀ w ∈ ((growState false).core 0).growers, w.1 ≠ gref) := by decide +kernel

def barB (x : Barrier) : Block := { wordBlock with bars := List.replicate 16 x }
theorem witness_BlockBarriers_use : (∀ x ∈ [(⟨2, false, 0, 0, []⟩ : Barrier), ⟨2, false, 1, 0, [(0, false)]⟩, ⟨2, false, 1, 0, [(0, true)]⟩], x.draining = false ∧ 0 < x.reload ∧ x.leaves = 0) ∧
    (0 + 1 < 2 ∧ 2 ≤ 1 + 1) ∧ (([(0, false)] ++ [(1, true)]).filter (·.2) : List (Nat × Bool)).length < 2 ∧
    2 ≤ (([(0, true)] ++ [(1, true)]).filter (·.2) : List (Nat × Bool)).length ∧ (⟨3, true, 3, 1, []⟩ : Barrier).draining = true ∧ 1 + 1 < 3 ∧ 3 ≤ 2 + 1 := by decide
theorem witness_BlockBarriers : (∀ x ∈ [(⟨0, false, 0, 0, []⟩ : Barrier), ⟨2, false, 0, 0, []⟩, ⟨2, false, 1, 0, [(0, false)]⟩, ⟨2, true, 2, 1, [(0, false)]⟩, ⟨2, true, 2, 1, [(1, false)]⟩],
      ScalarAt (scal (sg []) (barB x)) (sg []) (barB x) [] false ∧ lanesDone (scal (sg []) (barB x)) (sg []) = true ∧ (barB x).kPending 0 0 = false ∧ (barB x).barrier 3 = x) ∧
    lanesDone (scal (runsG 1 false)) (runsG 1 false) = false ∧ ScalarAt (scal (runsG 1 false)) (runsG 1 false) wordBlock [] false := by decide +kernel

-- Peloton 5 of grid 1, with a barrier word of reload 2 at 0x1000.
def pelB (arr : List PelArrival) : Block := { phys with member := true, record := BitVec.ofNat 512 (5 * 2 ^ 256 + 2 ^ 288), pels := arr }
def pel5 : Peloton := ⟨5, 0x1000, 2, true, false, 0⟩
def pelState (g : Group) (arr : List PelArrival) (v : Nat) : State := put 0x1000 8 v { scal g (pelB arr) with grids := [⟨1, 1, [pel5]⟩] }
def pelWaits : Group := { sg [] with waits := ⟨none, some 5, none⟩, blockedS := true }
theorem witness_PelotonBarriers_arrive : ∃ s1 x, ScalarAt (pelState (sg []) [] (2 ^ 41)) (sg []) (pelB []) [] false ∧ lanesDone (pelState (sg []) [] (2 ^ 41)) (sg []) = true ∧
    pelotonOf (pelState (sg []) [] (2 ^ 41)) (pelB []) 5 = some pel5 ∧ pel5.barrier = true ∧
    Accesses (pelState (sg []) [] (2 ^ 41)) s1 (sg []) (pelB []) .write 8 [(0, 0x1000)] [(0, 0x1000, x)] ∧ released s1 0 5 = true ∧
    barWordOf (memNat s1 x.pa 8) = some ⟨false, 2, 0, 0⟩ ∧ x.pa + 8 ≤ physTop ∧ (sg []).waits.pel ≠ some 5 ∧ (pelB []).kPending 0 0 = false :=
  ⟨_, xlat (pelState (sg []) [] (2 ^ 41)) (sg []) (pelB []) .write 8 0x1000, by decide +kernel, by decide +kernel, by decide +kernel, by decide +kernel,
    accesses_ok _ _ _ _ _ _ _ (by decide +kernel) (by decide +kernel) (by decide +kernel), by decide +kernel, by decide +kernel, by decide +kernel, by decide +kernel, by decide +kernel⟩
-- The use in which the block arrived has completed, and its leave is owed.
theorem witness_PelotonBarriers_leave : ScalarAt (pelState pelWaits [⟨5, 0, 0, true⟩] (2 ^ 62 + 2 ^ 41 + 2 ^ 25)) pelWaits (pelB [⟨5, 0, 0, true⟩]) [] false ∧ pelWaits.waits.pel = some 5 ∧
    barWordOf (2 ^ 62 + 2 ^ 41 + 2 ^ 25) = some ⟨true, 2, 2, 0⟩ ∧
    ((([] : List PelArrival).any fun a => a.peloton = 5 && a.slot = 0 && a.owed && pelUse (pelState pelWaits [] 0) (pelB []) 5 ≤ a.use) = false) := by decide +kernel
theorem witness_PelotonBarriers_wait : (∀ arr ∈ [[], [⟨5, 0, 0, false⟩]], ScalarAt (pelState (sg []) arr 0) (sg []) (pelB arr) [] false) ∧
    pelUse (pelState (sg []) [] 0) (pelB []) 5 = 0 ∧ pelUse { pelState (sg []) [] 0 with grids := [⟨1, 1, [{ pel5 with uses := 1 }]⟩] } (pelB []) 5 = 1 := by decide +kernel

def queB (depth : Nat) (n : Nat) : Block :=
  { wordBlock with kernel := { wordKernel with qdepth := List.replicate 8 depth }, queues := List.replicate 8 (List.replicate n 7) }
theorem witness_NamedQueues : (∀ d ∈ [(0, 0), (16, 0), (16, 15), (16, 16)], let b := queB d.1 d.2
    ScalarAt (scal (sg []) b) (sg []) b [3] false ∧ lanesDone (scal (sg []) b) (sg []) = true ∧ b.kPending 0 0 = false ∧ b.kernel.qdepth.getD 2 0 = d.1 ∧
    (b.queues.getD 2 []).length = d.2 ∧ b.claimed 2 0 = 0) := by decide +kernel
-- Pushes and pops of this cycle by slot 1, which is above slot 0.
def lateB : Block := { queB 16 1 with lastQueue := [(2, true, 0, 1), (2, false, 0, 1)] }
theorem witness_NamedQueues_late : ScalarAt (scal (sg []) lateB) (sg []) lateB [3] false ∧ lanesDone (scal (sg []) lateB) (sg []) = true ∧
    ((2, true, 0, 1) ∈ lateB.lastQueue ∧ (2, false, 0, 1) ∈ lateB.lastQueue) ∧ (sg []).ref.slot.toNat < 1 := by decide +kernel

def engG : Group := sg [(1, 3), (2, 0x20000000001), (3, 4), (4, 0x1000020000000001), (5, 0x20000000002)]
def engS : State := { scal engG with engines := [eng] }
theorem witness_EnginesAndBatches_handles : ScalarAt engS engG wordBlock [1, 2] false ∧ ScalarAt engS engG wordBlock [3, 4] false ∧ handleBad (engG.readS 4) = true ∧
    handleBad (engG.readS 5) = false ∧ handleCtx engS 1 (engG.readS 5) = none ∧ handleBad (engG.readS 2) = false ∧ handleCtx engS 1 (engG.readS 2) = some eng ∧
    lanesDone engS engG = true ∧ released engS 0 5 = true ∧ eng.timeline.toNat < (engG.readS 3).toNat ∧ (engG.readS 1).toNat ≤ eng.timeline.toNat := by decide +kernel
def cp (st : Nat) (done rep : Bool) : GCopy := ⟨gref, 1, 1, some 1, 0, 0, st, done, done, rep, none, ⟨[], [], false⟩⟩
def cpG (n : Nat) (b : W64) : Group := { sg [(1, b)] with lastBatch := n }
def cpS (n : Nat) (b : W64) (k : GCopy) : State := { scal (cpG n b) with copies := [k] }
-- Batch 0, a batch not closed, one with a copy out, one done, one with a failure not yet reported.
theorem witness_EnginesAndBatches_copies : (∀ x ∈ [(1, 0#64, cp 0 true false), (1, 2#64, cp 0 true false), (1, 1#64, cp 0 false false), (1, 1#64, cp 0 true false), (1, 1#64, cp 4 true false)],
      ScalarAt (cpS x.1 x.2.1 x.2.2) (cpG x.1 x.2.1) wordBlock [1] false ∧ lanesDone (cpS x.1 x.2.1 x.2.2) (cpG x.1 x.2.1) = true) ∧
    ((cpS 1 1 (cp 4 true false)).copies.filter fun c => c.g = gref && c.batch.any (· ≤ 1)).filter (fun c => c.status ≠ 0 && !c.reported) = [cp 4 true false] := by decide +kernel
-- The lanes are not done; an engine of another core, with a write of the core not yet performed; a batch of scope 1, released and not.
theorem witness_EnginesAndBatches_waits : ScalarAt (scal (runsG 1 false)) (runsG 1 false) wordBlock [1, 2] false ∧ lanesDone (scal (runsG 1 false)) (runsG 1 false) = false ∧
    ScalarAt { pendCore with engines := [eng] } (sg []) wordBlock [1, 2] false ∧ lanesDone { pendCore with engines := [eng] } (sg []) = true ∧ eng.ref.engine.toNat ≠ 0 ∧
    (pendCore.core 0).pend ≠ [] := by decide +kernel
def batS (s : State) : State := { cpS 1 1 (cp 0 true false) with cores := s.cores, batches := [⟨gref, 1, 1⟩] }
theorem witness_EnginesAndBatches_release : (∀ s ∈ [pendCore, scal (sg [])], ScalarAt (batS s) (cpG 1 1) wordBlock [1] false ∧
      (((batS s).batches.find? fun x => x.g = gref && x.n = 1).map (·.scope)).getD 0 = 1#3) ∧
    ((batS pendCore).core 0).pend ≠ [] ∧ ((batS (scal (sg []))).core 0).pend = [] := by decide +kernel
theorem witness_FencesAndMonitors_fences : ScalarAt pendCore (sg []) wordBlock [] false ∧ lanesDone pendCore (sg []) = true ∧ (pendCore.core 0).pend ≠ [] ∧
    ScalarAt (scal (sg [])) (sg []) wordBlock [] false ∧ ((scal (sg [])).core 0).pend = [] ∧ ((sg []).ref.core.toNat < Config.cores) ∧ lanesDone (scal (sg [])) (sg []) = true := by
  decide +kernel
-- FENCE.I: a store of the group itself, and one of another group, is not performed; the cores within a scope of 5, and one of no scope.
def otherCore (r : GroupRef) : State := { scal (sg []) with cores := listSet State.reset.cores 0 { Core.reset with pend := [⟨0x100, [1], false, .scalar r, 0⟩] } }
theorem witness_FencesAndMonitors_code : (∃ w ∈ ((otherCore gref).core 0).pend, w.who = .scalar (sg []).ref) ∧ ScalarAt (otherCore gref) (sg []) wordBlock [] false ∧
    ScalarAt (otherCore ⟨0, 0, 7⟩) (sg []) wordBlock [] false ∧ (∀ w ∈ ((otherCore ⟨0, 0, 7⟩).core 0).pend, w.who = .scalar ⟨0, 0, 7⟩) ∧ (⟨0, 0, 7⟩ : GroupRef) ≠ (sg []).ref ∧
    inScope (otherCore gref) 0 1 (max 1 (5#4).toNat) = true ∧ chamberOf 0 < (otherCore gref).imid.length := by decide +kernel
theorem witness_FencesAndMonitors_arm : ∃ s1 x, ScalarAt (scal g1 phys) g1 phys [7] false ∧ access (scal g1 phys) (some 0) phys.test g1.ctx .read 1 [(0, g1.readS 7)] = (s1, .ok [(0, g1.readS 7, x)]) ∧
    g1.mons.length = 4 ∧ s1.choices = [] ∧ x.pte.cpol ≠ 3 :=
  ⟨_, xlat (scal g1 phys) g1 phys .read 1 (g1.readS 7), by decide +kernel, Prod.ext rfl (by decide +kernel), by decide +kernel, by decide +kernel, by decide +kernel⟩
def monG (a b : MonState) (w : Option LnWait) : Group := { sg [(1, 0x10000000000)] with mons := [⟨a, 1, 1⟩, ⟨b, 2, 2⟩, ⟨.unarmed, 0, 0⟩, ⟨.unarmed, 0, 0⟩], waits := ⟨none, none, w⟩ }
theorem witness_FencesAndMonitors_wait : (∀ x ∈ [(MonState.triggered, MonState.lost), (.lost, .armed), (.unarmed, .unarmed), (.armed, .unarmed)],
      ScalarAt (scal (monG x.1 x.2 none)) (monG x.1 x.2 none) wordBlock [3, 1] false) ∧ monMask (monG .triggered .lost none) .triggered ≠ 0 ∧
    monMask (monG .lost .armed none) .triggered = 0 ∧ monMask (monG .lost .armed none) .lost ≠ 0 ∧ monMask (monG .unarmed .unarmed none) .armed = 0 ∧
    monMask (monG .armed .unarmed none) .armed ≠ 0 ∧ monMask (monG .armed .unarmed none) .lost = 0 ∧ 2 ^ 40 ≤ ((monG .armed .unarmed none).readS 1).toNat ∧
    ScalarAt (scal (monG .armed .unarmed (some ⟨0, 5, true⟩))) (monG .armed .unarmed (some ⟨0, 5, true⟩)) wordBlock [3, 1] false := by decide +kernel

/-- The bytes that the scalar stream reads, and the state after. -/
def rd (s : State) (g : Group) (b : Block) (size : Nat) (vas : List W64) : State × List Byte :=
  readNow (allocateAll (access s (some g.ref.core.toNat) b.test g.ctx .read size (vas.map fun va => (0, va))).1 size (xlats s g b .read size (vas.map fun va => (0, va)))) g size
    (xlats s g b .read size (vas.map fun va => (0, va)))
theorem reads_at (s : State) (g : Group) (b : Block) (size : Nat) (vas : List W64) :
    let a := access s (some g.ref.core.toNat) b.test g.ctx .read size (vas.map fun va => (0, va))
    let xs := xlats s g b .read size (vas.map fun va => (0, va))
    a.2 = .ok xs → poisonedAt a.1 size xs = [] → (if b.test then g.loop = none else watchHit a.1 g.ctx .read size (vas.map fun va => (0, va)) = 0) →
    soReady (allocateAll a.1 size xs) g.ref.core.toNat xs = true → Reads s (rd s g b size vas).1 g b size vas (rd s g b size vas).2 :=
  fun h hp hw hs => ⟨_, _, accesses_ok s g b .read size _ _ h (.inr hp) hw, hs, rfl⟩

-- A record at 0x1000 and an enabled task queue 0 at 0x20000, whose rings start at 0x40000.
def spG : Group := sg [(1, 0x1000)]
def spS (form flags : Nat) : State :=
  let m := (installWord State.reset 32 0).mem
  put 0x1026 1 form (put 0x20000 8 0x40000 (put 0x20008 2 (1 + 256 * flags) { scal spG with mem := m }))
theorem witness_TaskWords_spawn_forms : ScalarAt (spS 2 1) spG wordBlock [3, 1] false ∧ Reads (spS 2 1) (rd (spS 2 1) spG wordBlock 64 [0x1000]).1 spG wordBlock 64 [0x1000]
      (rd (spS 2 1) spG wordBlock 64 [0x1000]).2 ∧ 2 ≤ recForm (slotOf (rd (spS 2 1) spG wordBlock 64 [0x1000]).2) :=
  ⟨by decide +kernel, reads_at _ _ _ _ _ (by decide +kernel) (by decide +kernel) (by decide +kernel) (by decide +kernel), by decide +kernel⟩
def sp1 (flags : Nat) : State × List Byte := rd (spS 0 flags) spG wordBlock 64 [0x1000]
def sp2 (flags : Nat) : State × List Byte := rd (sp1 flags).1 spG wordBlock 64 [0x20000, 0x20040]
theorem witness_TaskWords_spawn_closed : Reads (spS 0 0) (sp1 0).1 spG wordBlock 64 [0x1000] (sp1 0).2 ∧ recForm (slotOf (sp1 0).2) = 0 ∧ queueVa (sp1 0).1 1 0 = 0x20000 ∧
    Reads (sp1 0).1 (sp2 0).1 spG wordBlock 64 [0x20000, 0x20040] (sp2 0).2 ∧ queueDesc (sp2 0).2 = none :=
  ⟨reads_at _ _ _ _ _ (by decide +kernel) (by decide +kernel) (by decide +kernel) (by decide +kernel), by decide +kernel, by decide +kernel,
    reads_at _ _ _ _ _ (by decide +kernel) (by decide +kernel) (by decide +kernel) (by decide +kernel), by decide +kernel⟩
-- Room for one record: the ring's capacity is 2. A ring with HEAD 0 and TAIL 2 is full.
def spQ (tail : Nat) : QDesc := ⟨0x40000, 1, false, List.replicate 8 0, tail :: List.replicate 7 0⟩
theorem witness_TaskWords_spawn_room : ∃ u3 u4 tx xs, Reads (spS 0 1) (sp1 1).1 spG wordBlock 64 [0x1000] (sp1 1).2 ∧
    Reads (sp1 1).1 (sp2 1).1 spG wordBlock 64 [0x20000, 0x20040] (sp2 1).2 ∧ queueDesc (sp2 1).2 = some (spQ 0) ∧ (spQ 0).full 0 1 = false ∧ (spQ 1).full 0 1 = false ∧ (spQ 2).full 0 1 = true ∧
    Accesses (sp2 1).1 u3 spG wordBlock .write 4 [(0, 0x20044)] [(0, 0x20044, tx)] ∧
    Accesses (allocateAll u3 4 [(0, 0x20044, tx)]) u4 spG wordBlock .write 64 [(0, (spQ 0).slotVa 0 0)] xs ∧ released u4 0 5 = true ∧ tx.pa + 4 ≤ physTop ∧ xs.length = 1 :=
  ⟨_, _, xlat (sp2 1).1 spG wordBlock .write 4 0x20044, xlats (allocateAll (access (sp2 1).1 (some 0) wordBlock.test spG.ctx .write 4 [(0, 0x20044)]).1 4
      [(0, 0x20044, xlat (sp2 1).1 spG wordBlock .write 4 0x20044)]) spG wordBlock .write 64 [(0, (spQ 0).slotVa 0 0)],
    reads_at _ _ _ _ _ (by decide +kernel) (by decide +kernel) (by decide +kernel) (by decide +kernel),
    reads_at _ _ _ _ _ (by decide +kernel) (by decide +kernel) (by decide +kernel) (by decide +kernel), by decide +kernel, by decide +kernel, by decide +kernel, by decide +kernel,
    accesses_ok _ _ _ _ _ _ _ (by decide +kernel) (by decide +kernel) (by decide +kernel), accesses_ok _ _ _ _ _ _ _ (by decide +kernel) (by decide +kernel) (by decide +kernel),
    by decide +kernel, by decide +kernel, by decide +kernel⟩
-- A launch: its extension is the next 64 bytes.
theorem witness_TaskWords_spawn_launch : Reads (spS 1 1) (rd (spS 1 1) spG wordBlock 64 [0x1000]).1 spG wordBlock 64 [0x1000] (rd (spS 1 1) spG wordBlock 64 [0x1000]).2 ∧
    recForm (slotOf (rd (spS 1 1) spG wordBlock 64 [0x1000]).2) = 1 ∧ Reads (rd (spS 1 1) spG wordBlock 64 [0x1000]).1
      (rd (rd (spS 1 1) spG wordBlock 64 [0x1000]).1 spG wordBlock 64 [0x1040]).1 spG wordBlock 64 [0x1040] (rd (rd (spS 1 1) spG wordBlock 64 [0x1000]).1 spG wordBlock 64 [0x1040]).2 :=
  ⟨reads_at _ _ _ _ _ (by decide +kernel) (by decide +kernel) (by decide +kernel) (by decide +kernel), by decide +kernel,
    reads_at _ _ _ _ _ (by decide +kernel) (by decide +kernel) (by decide +kernel) (by decide +kernel)⟩
def joS (v : Nat) : State := put 0x1000 4 v (scal spG phys)
theorem witness_TaskWords_join : ∀ v ∈ [0, 1], ∃ s1 x, ScalarAt (joS v) spG phys [1] false ∧ lanesDone (joS v) spG = true ∧
    Accesses (joS v) s1 spG phys .atomic 4 [(0, 0x1000)] [(0, 0x1000, x)] ∧ released s1 0 6 = true ∧ soReady s1 0 [(0, 0x1000, x)] = true ∧ pendOverlap s1 0 x.pa 4 = false ∧
    x.pa + 4 ≤ physTop ∧ memNat s1 x.pa 4 = v := by
  intro v hv
  have hv : v = 0 ∨ v = 1 := by simpa using hv
  rcases hv with rfl | rfl
  · exact ⟨_, xlat (joS 0) spG phys .atomic 4 0x1000, by decide +kernel, by decide +kernel,
      accesses_ok _ _ _ _ _ _ _ (by decide +kernel) (by decide +kernel) (by decide +kernel), by decide +kernel, by decide +kernel, by decide +kernel, by decide +kernel, by decide +kernel⟩
  · exact ⟨_, xlat (joS 1) spG phys .atomic 4 0x1000, by decide +kernel, by decide +kernel,
      accesses_ok _ _ _ _ _ _ _ (by decide +kernel) (by decide +kernel) (by decide +kernel), by decide +kernel, by decide +kernel, by decide +kernel, by decide +kernel, by decide +kernel⟩
-- A context with two message routes at 0x25000: system queue 15, and queue 3 of context 1 (R305).
def amCtx : Ctx := { wordCtx with desc := { wordDesc with mrcount := 2 } }
def amS (form : Nat) (r0 : Nat) : State := { put 0x25000 8 r0 (spS form 1) with ctxs := [amCtx] }
def am1 (r0 : Nat) : State × List Byte := rd (amS 2 r0) spG wordBlock 64 [0x1000]
def am2 (r0 : Nat) : State × List Byte := rd (am1 r0).1 spG wordBlock 8 [0x25000]
theorem witness_TaskWords_amsend : ScalarAt (amS 2 0) spG wordBlock [3, 1] false ∧ (∀ r ∈ [0, 2 ^ 63 + 2 ^ 62 + 15 * 2 ^ 32, 2 ^ 63 + 2 ^ 40], recForm (slotOf (am1 r).2) = 2 ∧
      (am1 r).1.ctx? 1 = some amCtx ∧ amCtx.desc.mrtab + BitVec.ofNat 64 (8 * 0) = 0x25000 ∧ (0#6).toNat < amCtx.desc.mrcount ∧ amCtx.desc.mrcount ≤ (2#6).toNat) ∧
    routeOf (leNat (am2 0).2) = none ∧ routeOf (leNat (am2 (2 ^ 63 + 2 ^ 62 + 15 * 2 ^ 32)).2) = some (true, 0, 15) ∧
    routeOf (leNat (am2 (2 ^ 63 + 2 ^ 40)).2) = some (false, 1, 0) ∧ recForm (slotOf (rd (amS 0 0) spG wordBlock 64 [0x1000]).2) ≠ 2 := by decide +kernel
theorem witness_TaskWords_amsend_reads : Reads (amS 2 (2 ^ 63 + 2 ^ 40)) (am1 (2 ^ 63 + 2 ^ 40)).1 spG wordBlock 64 [0x1000] (am1 (2 ^ 63 + 2 ^ 40)).2 ∧
    Reads (am1 (2 ^ 63 + 2 ^ 40)).1 (am2 (2 ^ 63 + 2 ^ 40)).1 spG wordBlock 8 [0x25000] (am2 (2 ^ 63 + 2 ^ 40)).2 :=
  ⟨reads_at _ _ _ _ _ (by decide +kernel) (by decide +kernel) (by decide +kernel) (by decide +kernel),
    reads_at _ _ _ _ _ (by decide +kernel) (by decide +kernel) (by decide +kernel) (by decide +kernel)⟩
def okBytes (r : State × Except (Deny × W64) (List Byte)) : List Byte := match r.2 with
  | .ok bs => bs
  | .error _ => []
-- The task queue of the route: its descriptor reads, and TAIL and the slot can be written.
def amq : State × Except (Deny × W64) (List Byte) := readVirt (am2 (2 ^ 63 + 2 ^ 40)).1 1 false 0x20000 128
def ams : State × Except (Deny × W64) (List Nat) := spanOf amq.1 1 .write false 0x20044 4
def amw : State × Except (Deny × W64) Unit := writeVirt ams.1 1 ((spQ 0).slotVa 0 0) (slotBytes (slotOf (am1 (2 ^ 63 + 2 ^ 40)).2))
theorem pair_ok {α ε β : Type} {p : α × Except ε β} {b : β} (h : p.2.toOption = some b) : p = (p.1, .ok b) := by
  rcases p with ⟨a, _ | x⟩
  · cases h
  · cases h; rfl
theorem witness_TaskWords_amsend_queue : amq = (amq.1, .ok (okBytes amq)) ∧ queueDesc (okBytes amq) = some (spQ 0) :=
  ⟨pair_ok (by decide +kernel), by decide +kernel⟩
theorem witness_TaskWords_amsend_tail : ams = (ams.1, .ok [0x20044, 0x20045, 0x20046, 0x20047]) := pair_ok (by decide +kernel)
theorem witness_TaskWords_amsend_slot : amw = (amw.1, .ok ()) := pair_ok (by decide +kernel)
-- A launch into an empty ring: two slots of 64 bytes, apart, and TAIL.
def la0 : State × List Byte := rd (spS 1 1) spG wordBlock 64 [0x1000]
def laX1 : State × List Byte := rd la0.1 spG wordBlock 64 [0x1040]
def laD : State × List Byte := rd laX1.1 spG wordBlock 64 [0x20000, 0x20040]
def laVas : List (Nat × W64) := (List.range 2).map fun k => (0, (spQ 0).slotVa 0 (0 + k))
def laA : State := allocateAll (access laD.1 (some 0) false 1 .write 4 [(0, 0x20044)]).1 4 [(0, 0x20044, xlat laD.1 spG wordBlock .write 4 0x20044)]
theorem witness_TaskWords_spawn_slots : Reads la0.1 laX1.1 spG wordBlock 64 [0x1040] laX1.2 ∧ Reads laX1.1 laD.1 spG wordBlock 64 [0x20000, 0x20040] laD.2 ∧
    queueDesc laD.2 = some (spQ 0) ∧ (spQ 0).full 0 2 = false ∧
    (∃ u, Accesses laA u spG wordBlock .write 64 laVas (xlats laA spG wordBlock .write 64 laVas) ∧ released u 0 5 = true) ∧
    (xlats laA spG wordBlock .write 64 laVas).map (fun x => x.2.2.pa) = [0x40000, 0x40040] :=
  ⟨reads_at _ _ _ _ _ (by decide +kernel) (by decide +kernel) (by decide +kernel) (by decide +kernel),
    reads_at _ _ _ _ _ (by decide +kernel) (by decide +kernel) (by decide +kernel) (by decide +kernel), by decide +kernel, by decide +kernel,
    ⟨_, accesses_ok _ _ _ _ _ _ _ (by decide +kernel) (by decide +kernel) (by decide +kernel), by decide +kernel⟩, by decide +kernel⟩
-- AMSEND to a task queue: the bytes of the slot, apart from those of TAIL; a queue whose pages do not translate; a system ring with room.
theorem witness_TaskWords_amsend_spans : (spanOf ams.1 1 .write false ((spQ 0).slotVa 0 0) 64).2 = .ok ((List.range 64).map (0x40000 + ·)) ∧
    (((List.range 64).map (0x40000 + ·)) ++ [0x20044, 0x20045, 0x20046, 0x20047]).Nodup ∧
    (readVirt (am2 (2 ^ 63 + 2 ^ 40)).1 9 false 0x20000 128).2.toOption = none ∧ (4 ≤ (⟨0x4000, 4, 0, 0⟩ : Ring).log2.toNat ∧ (⟨0x4000, 4, 0, 0⟩ : Ring).log2.toNat ≤ 16) := by
  refine ⟨?_, by decide +kernel, by decide +kernel, by decide⟩
  have h : (spanOf ams.1 1 .write false ((spQ 0).slotVa 0 0) 64).2.toOption = some ((List.range 64).map (0x40000 + ·)) := by decide +kernel
  exact congrArg Prod.snd (pair_ok h)

-- A kernel of two variants with one switch point; the block is marked for variant 1, or not.
def swK : Kernel := { wordKernel with variants := [wordVariant, { wordVariant with vcnt := 136 }, { wordVariant with vcnt := 160 }]
                                      swpts := [⟨1, [4, 8, 12], [0, 12, 24], [[0], [1], [2]]⟩] }
def swB (m : Option Nat) : Block := { wordBlock with kernel := swK, mark := m }
theorem witness_SwitchCallExit_swpt : (∀ m ∈ [none, some 0, some 1, some 2], ScalarAt (scal (sg []) (swB m)) (sg []) (swB m) [] false ∧ lanesDone (scal (sg []) (swB m)) (sg []) = true) ∧
    swK.swpts[1]? = none ∧ swK.swpts[0]? = some ⟨1, [4, 8, 12], [0, 12, 24], [[0], [1], [2]]⟩ ∧ (sg []).variant = 0 ∧
    freeUnits (placedOn (scal (sg []) (swB (some 1))) 0) (sg []).lane.toNat (sg []).wide = 3 ∧ ((swB none).variantAt 2).vcnt / 8 - (sg []).vcnt / 8 = 4 ∧
    (sg []).trapm = false ∧ ((scal (sg []) (swB (some 1))).copies = [] ∧ (scal (sg []) (swB (some 1))).rays = [] ∧ ((scal (sg []) (swB (some 1))).core 0).growers = []) := by decide +kernel
theorem witness_SwitchCallExit_exit : ScalarAt (scal (sg [])) (sg []) wordBlock [] false ∧ ScalarAt (scal (sg [])) (sg []) wordBlock [] true ∧ lanesDone (scal (sg [])) (sg []) = true ∧
    (sg []).loads = [] ∧ resultsOut (scal (sg [])) gref = false ∧ ((scal (sg [])).core 0).growers = [] ∧ wordBlock.seq.carrier = none := by decide +kernel
def callG (c : Option Call) : Group := { sg [] with waits := ⟨c, none, none⟩ }
theorem witness_SwitchCallExit_call : (∀ c ∈ [none, some ⟨0, none⟩, some ⟨0, some (some (7, 9))⟩], ScalarAt (callState (scal (callG c))) (callG c) wordBlock [1, 2, 3, 4, 5, 6] false ∧
      lanesDone (callState (scal (callG c))) (callG c) = true) ∧
    (let ring := (callState (scal (callG none))).regs.rings.getD 1 Ring.reset; 4 ≤ ring.log2.toNat ∧ ring.log2.toNat ≤ 16 ∧ (ring.tail - ring.head).toNat < 2 ^ ring.log2.toNat) ∧
    ¬ (4 ≤ ((scal (callG none)).regs.rings.getD 1 Ring.reset).log2.toNat) := by decide +kernel
-- One leave owed to peloton 5, whose barrier word translates, or does not.
def oweB : Block := pelB [⟨5, 0, 0, true⟩]
def oweS : State := pelState (sg []) [⟨5, 0, 0, true⟩] (2 ^ 62 + 2 ^ 41 + 2 ^ 25)
def lostB : Block := { oweB with test := false }
def lostS : State := { oweS with blocks := [lostB] }
theorem witness_SwitchCallExit_owed : ScalarAt oweS (sg []) oweB [] true ∧ lanesDone oweS (sg []) = true ∧ oweB.pels.filter (fun a => a.owed && a.slot = 0) = [⟨5, 0, 0, true⟩] ∧
    pelotonOf oweS oweB 5 = some pel5 ∧ pelotonOf lostS lostB 5 = some pel5 ∧ ScalarAt lostS (sg []) lostB [] true ∧ oweB.seq.carrier = none ∧
    (xlats oweS (sg []) oweB .write 8 [(0, 0x1000)]).length = 1 ∧ barWordOf (memNat (access oweS (some 0) true 1 .write 8 [(0, 0x1000)]).1 0x1000 8) = some ⟨true, 2, 2, 0⟩ ∧
    (match (access lostS (some 0) false 1 .write 8 [(0, 0x1000)]).2 with | .park _ => true | _ => false) = true := by decide +kernel
-- A service's answer that held an uncorrectable error.
theorem witness_SwitchCallExit_spoilt : ScalarAt (callState (scal (callG (some ⟨0, some none⟩)))) (callG (some ⟨0, some none⟩)) wordBlock [1, 2, 3, 4, 5, 6] false ∧
    roomS (callState (scal (callG none))) (callG none) := ⟨by decide +kernel, .inr (by decide +kernel)⟩
-- FSR values with RM 0-3 and 4, causes 0, 0x28 and an unknown one, in and out of trap mode.
def spcG (v : W64) (t : Bool) : Group := { sg [(1, v)] with trapm := t }
theorem witness_SpecialRegisters : (∀ x ∈ [(0, false), (0x6000, false), (0x8000, false), (0x28, false), (0x28, true), (0x7F, false)],
      ScalarAt (scal (spcG (BitVec.ofNat 64 x.1) x.2)) (spcG (BitVec.ofNat 64 x.1) x.2) wordBlock [1] false ∧ lanesDone (scal (spcG (BitVec.ofNat 64 x.1) x.2)) (spcG (BitVec.ofNat 64 x.1) x.2) = true) ∧ (0x6000#64).getLsbD 15 = false ∧ (0x8000#64).getLsbD 15 = true ∧ causeKnown 0x28 = true ∧ causeKnown 0x7F = false ∧
    causeKnown 0 = true ∧ 3 ≤ (3#8).toNat ∧ 2 ≤ (2#8).toNat := by decide +kernel
-- A loop descriptor at 0x1000 of one word, one iteration; a misaligned one; a loop that runs, and one that has ended.
def rpG (a : W64) (l : Option Loop) : Group := { sg [(1, a)] with loop := l }
def rpS (a : W64) (l : Option Loop) : State := put 0x1000 4 0x00010001 { scal (rpG a l) phys with cores := [{ Core.reset with loopMode := true }] }
def rpLoop (e : Bool) : Loop := ⟨[], 0, [], 1, 1, false, e⟩
theorem witness_ReplayWord : (∀ x ∈ [(0x1000#64, none), (0x1008#64, none), (0x1000#64, some (rpLoop false)), (0x1000#64, some (rpLoop true))],
      ScalarAt (rpS x.1 x.2) (rpG x.1 x.2) phys [3, 1] false ∧ ((rpS x.1 x.2).core 0).loopMode = true) ∧ ScalarAt (scal (rpG 0 none)) (rpG 0 none) wordBlock [3, 1] false ∧
    (0x1008#64).toNat % 16 ≠ 0 ∧ (0xF8000000#32).extractLsb' 26 6 = 0x3E := by decide +kernel
def rpVas : List W64 := (List.range 33).map fun k => 0x1000#64 + BitVec.ofNat 64 (16 * k)
theorem rp_bytes : (rd (rpS 0x1000 none) (rpG 0x1000 none) phys 16 rpVas).2 = [1, 0, 1, 0] ++ List.replicate 524 0 := by
  rw [rd, readNow_bytes _ _ _ (by decide +kernel)]; decide +kernel
theorem witness_ReplayWord_start : Reads (rpS 0x1000 none) (rd (rpS 0x1000 none) (rpG 0x1000 none) phys 16 rpVas).1 (rpG 0x1000 none) phys 16 rpVas (rd (rpS 0x1000 none) (rpG 0x1000 none) phys 16 rpVas).2 ∧
    (loopOf 0x1000 (rd (rpS 0x1000 none) (rpG 0x1000 none) phys 16 rpVas).2).isSome = true :=
  ⟨reads_at _ _ _ _ _ (by decide +kernel) (by decide +kernel) (by decide +kernel) (by decide +kernel), by rw [rp_bytes]; decide +kernel⟩

theorem no_selector (s : State) (g : Group) (b : Block) (w : LaneWord) (cs : List (BitVec 8))
    (h : cs.find? (fun c => 249 ≤ c.toNat && c.toNat ≤ 252) = none) : selector s g b w cs = .ok s 0 := by simp only [selector, h]
/-- Threads 0 and 1 with operands of each kind in V1-V3: 1 and 2; 3 and 3; 4 and 4. -/
def gi : Group := vg [(1, fun t => BitVec.ofNat 32 (t + 1)), (2, allT 3), (3, allT 4)]
theorem selects (w : LaneWord) (cs : List (BitVec 8)) (h : cs.find? (fun c => 249 ≤ c.toNat && c.toNat ≤ 252) = none) :
    selector (lane gi) gi wordBlock w cs = .ok (lane gi) 0 := no_selector _ _ _ _ _ h
theorem witness_LaneIntegerWords : laneSelected gi lw3 ≠ 0 ∧ laneSelected gi { lw3 with gp := 1 } = 0 ∧
    (∀ k ∈ threadsOf (passes lw3 (laneSelected gi lw3)), ib ⟨gi, lw3, 0⟩ k ≠ 0) ∧ (∀ x ∈ laneIntTable lw3, x.1.wf = true ∧
      LaneAt (lane gi) gi wordBlock (lw3.d :: x.2.1) x.2.2.1 false ∧ x.2.1.find? (fun c => 249 ≤ c.toNat && c.toNat ≤ 252) = none) := by decide +kernel
-- A register pair, saturation, an S source, and a divisor of 0.
theorem witness_LaneIntegerWords_forms : (Instr.iadd { lw3 with md := 0x39, d := 8, a := 4, b := 6 }).wf = true ∧
    LaneAt (lane gi) gi wordBlock [8, 4, 6] (vregs true [8, 4, 6]) false ∧ (∃ gv, selector (lane gi) gi wordBlock { lw3 with a := 249, imm := 5 } [249, 2] = .ok (lane gi) gv) :=
  ⟨by decide +kernel, by decide +kernel, _, rfl⟩
def gz : Group := vg [(1, allT 7), (2, fun t => BitVec.ofNat 32 t)]
theorem witness_LaneIntegerWords_zero : (Instr.idiv lw).wf = true ∧ LaneAt (lane gz) gz wordBlock [4, 1, 2] (vregs false [4, 1, 2]) false ∧ laneSelected gz lw ≠ 0 ∧
    (∃ k ∈ threadsOf (passes lw (laneSelected gz lw)), ib ⟨gz, lw, 0⟩ k = 0) ∧ [lw.a, lw.b].find? (fun c => 249 ≤ c.toNat && c.toNat ≤ 252) = none := by decide +kernel
theorem witness_CountWords : (∀ x ∈ countTable lw, x.2.1.wf = true ∧ (decodeLane (pack x.1 lw)).toOption = some x.2.1) ∧
    LaneAt (lane gi) gi wordBlock [4, 1] (vregs false [4, 1]) false ∧ laneSelected gi lw ≠ 0 ∧ [lw.a].find? (fun c => 249 ≤ c.toNat && c.toNat ≤ 252) = none := by decide +kernel
-- Floating-point words of F32, F16, E2M1 and bytes; 1.0 and 2^-24; every exception disabled and enabled.
def gf (fsr : W32) : Group := { vg [(1, allT 0x3F800000), (2, allT 0x33800000)] with fsr := fsr }
def floatWords : List (LaneWord × Nat × Nat) := [({ lw3 with md := 0x40 }, 0, 12), ({ lw3 with md := 0x48 }, 12, 14), ({ lw3 with md := 0x68, imm := 6 }, 15, 16), ({ lw3 with md := 0x20 }, 14, 15),
  ({ lw3 with md := 0x58, imm := 6 }, 14, 15)]
theorem witness_LaneFloatWords : laneSelected (gf 0) lw3 ≠ 0 ∧ (∀ w ∈ floatWords, ∀ x ∈ ((laneFloatTable w.1).drop w.2.1).take (w.2.2 - w.2.1), x.1.wf = true ∧
      LaneAt (lane (gf 0)) (gf 0) wordBlock (w.1.d :: x.2.1) x.2.2.1 false ∧ x.2.1.find? (fun c => 249 ≤ c.toNat && c.toNat ≤ 252) = none) := by decide +kernel
theorem witness_LaneFloatWords_exceptions : ((laneFloatTable { lw3 with md := 0x40 }).head?.map fun x =>
    (enabledCause 0 (wordExc lw3 (laneSelected (gf 0) lw3) fun k => (x.2.2.2 ⟨gf 0, { lw3 with md := 0x40 }, 0⟩ k).2),
     (enabledCause 0x1F00 (wordExc lw3 (laneSelected (gf 0x1F00) lw3) fun k => (x.2.2.2 ⟨gf 0x1F00, { lw3 with md := 0x40 }, 0⟩ k).2)).isSome)) = some (none, true) := by decide +kernel
-- Conversions: F32 to F16 with .SR, of four registers' width, into a V register and into S3; with and without a selected thread; enabled and not.
def cvtW (d : BitVec 8) (gp : BitVec 6) : LaneWord := { lw with d := d, a := 2, gp := gp, md := 0x4C, b := 254, imm := 0x803 }
def gc (fsr : W32) : Group := { vg [(2, allT 0x33800001), (3, allT 0x3F800000)] with fsr := fsr }
theorem witness_LaneFloatWords_cvt : (∀ x ∈ [(4, 0), (249, 1)], (Instr.cvt (cvtW (BitVec.ofNat 8 x.1) (BitVec.ofNat 6 x.2))).wf = true ∧ LaneAt (lane (gc 0)) (gc 0) wordBlock [(BitVec.ofNat 8 x.1), 2]
      (cvtRegs (BitVec.ofNat 8 x.1) (cvtCount 32 16) 16 ++ cvtRegs 2 (cvtCount 32 16) 32 ++ vregs false [254]) false) ∧ elemWidth (cvtW 4 0).stype = 32 ∧ elemWidth (cvtW 4 0).ty = 16 ∧ (cvtW 4 0).rm = 4 ∧
    laneSelected (gc 0) (cvtW 4 0) ≠ 0 ∧ laneSelected (gc 0) (cvtW 4 1) = 0 ∧ [(cvtW 4 0).a].find? (fun c => 249 ≤ c.toNat && c.toNat ≤ 252) = none := by decide +kernel
theorem witness_LaneFloatWords_cvt_exceptions : ([0x0#32, 0x1F00#32].map fun f => (enabledCause f (wordExc (cvtW 4 0) (laneSelected (gc f) (cvtW 4 0))
    fun k => (cvtAll ⟨{ gc f with sr := lfsrStep (gc f).sr }, cvtW 4 0, 0⟩ 32 16 2 k).2)).isSome) = [false, true] := by decide +kernel
-- Predicates: with each inversion, with and without a selected thread.
def pw : LaneWord := { lw with d := 5, x := 3 }
theorem witness_PredicateLogic : ([Instr.pand pw, .por pw, .pxor pw, .pnot { pw with x := 1 }].all Instr.wf) = true ∧ LaneAt (lane gi) gi wordBlock [] (vregs false []) false ∧
    laneSelected gi pw ≠ 0 ∧ laneSelected gi { pw with gp := 1 } = 0 ∧ enabledCause gi.fsr (wordExc pw (laneSelected gi pw) fun _ => Exc.none) = none ∧
    (decodeLane (pack 0x080 pw)).toOption = some (.pand pw) ∧ (decodeLane (pack 0x083 { pw with x := 1 })).toOption = some (.pnot { pw with x := 1 }) := by decide +kernel
theorem witness_PredicateWords : ([Instr.icmp { pw with x := 5 }, .fcmp { pw with md := 0x40, x := 5 }, .vote pw].all Instr.wf) = true ∧
    LaneAt (lane gi) gi wordBlock [1, 2] (vregs false [1, 2]) false ∧ LaneAt (lane gi) gi wordBlock [] [] false ∧ laneSelected gi pw ≠ 0 ∧
    [pw.a, pw.b].find? (fun c => 249 ≤ c.toNat && c.toNat ≤ 252) = none ∧ (enabledCause 0 (wordExc pw (laneSelected gi pw) fun k => (fcond 5 (valF32 (gi.readV 1 k)) (valF32 (gi.readV 2 k))).2)) = none ∧
    (enabledCause 0x100 (wordExc pw 3 fun _ => Exc.invalid)) = some 0x20 ∧ wordBlock.kernel.compat = false ∧ ({ wordBlock with kernel := { wordKernel with compat := true } } : Block).kernel.compat = true := by
  decide +kernel
def sh (x : BitVec 4) : LaneWord := { lw3 with x := x }
theorem witness_CrossThreadWords : ((∀ x ∈ [0#4, 1#4, 3#4], (Instr.shfl { sh x with c := 254 }).wf = true) ∧ (Instr.shfl (sh 2)).wf = true ∧ (∀ x ∈ [0#4, 3#4, 5#4], (Instr.ballot { sh x with c := 254 }).wf = true)) ∧
    LaneAt (lane gi) gi wordBlock [4, 1, 2, 3] (vregs false [4, 1, 2, 3]) false ∧ LaneAt (lane gi) gi wordBlock [4] (vregs false [4]) false ∧ laneSelected gi (sh 2) ≠ 0 ∧
    laneSelected gi { sh 2 with gp := 1 } = 0 ∧ ([1#8, 2#8, 3#8] : List (BitVec 8)).find? (fun c => 249 ≤ c.toNat && c.toNat ≤ 252) = none ∧
    (∀ j ∈ threadsOf 3#32, ∀ k ∈ threadsOf 3#32, gi.readV 2 j = gi.readV 2 k) ∧ shflB 2 (gi.readV 1 0) ≠ shflB 2 (gi.readV 1 1) := by decide +kernel

-- SPLIT: threads 0 and 1 active, P1 holds one, both or none; a stack of 62 and 63 countable entries; join, base and return entries below the top.
def stG (m : Mask) (st : List Entry) : Group := { (vg [(1, fun t => BitVec.ofNat 32 (9 - t))]).writeP 1 m with stack := st }
def stTop : Entry := ⟨1, 0, 0, 3⟩
def deep (n : Nat) : List Entry := stTop :: List.replicate n ⟨0, 0x2000, 0, 3⟩
def low (k : Nat) : List Entry := [stTop, ⟨BitVec.ofNat 4 k, 0x2000, 0, 3⟩, stTop]
theorem witness_LaneControl_split : (∀ m ∈ [0xFD, 3, 0], LaneAt (lane (stG (BitVec.ofNat 32 m) [stTop])) (stG (BitVec.ofNat 32 m) [stTop]) wordBlock [] [] true) ∧
    stTop.mask &&& (stG 0xFD [stTop]).readP (1#8).toNat ≠ 0 ∧ stTop.mask &&& (stG 0 [stTop]).readP (1#8).toNat = 0 ∧
    ({ stG 0xFD [stTop] with stack := [⟨0, 0x1000C, 0, 1⟩, ⟨0, 0x1000C, 0, 2⟩, stTop] } : Group).counted ≤ 64 ∧
    LaneAt (lane (stG 3 (deep 64))) (stG 3 (deep 64)) wordBlock [] [] true ∧ ¬ ({ stG 3 (deep 64) with stack := ⟨0, 0x1000C, 0, 3⟩ :: deep 64 } : Group).counted ≤ 64 := by decide +kernel
theorem witness_LaneControl_joins : (∀ k ∈ [0, 1, 2, 3], LaneAt (lane (stG 3 (low k))) (stG 3 (low k)) wordBlock [] [] true ∧
      (stG 3 (low k)).trapm = false) ∧ (stG 3 [stTop]).stack = stTop :: [] := by decide +kernel
theorem witness_LaneControl_lcall : (Instr.lcall lw).wf = true ∧ LaneAt (lane (stG 3 [stTop])) (stG 3 [stTop]) wordBlock [1] (vregs false [1]) true ∧
    [lw.a].find? (fun c => 249 ≤ c.toNat && c.toNat ≤ 252) = none ∧ [8, 9].Pairwise (· < ·) ∧
    (∀ a, a ∈ [8, 9] ↔ ∃ k, k < 32 ∧ stTop.mask.getLsbD k = true ∧ ((⟨stG 3 [stTop], lw, 0⟩ : Env).r32 lw.a k).toNat = a) ∧
    ({ stG 3 [stTop] with stack := [⟨0, 0, 0, 1⟩, ⟨0, 0, 0, 2⟩, ⟨3, 0, 0, 3⟩, stTop] } : Group).counted ≤ 64 ∧
    ¬ ({ stG 3 (deep 64) with stack := [⟨0, 0, 0, 1⟩, ⟨0, 0, 0, 2⟩, ⟨3, 0, 0, 3⟩] ++ deep 64 } : Group).counted ≤ 64 := by
  refine ⟨by decide +kernel, by decide +kernel, by decide +kernel, by decide, fun a => ⟨fun h => ?_, fun ⟨k, hk, hm, ha⟩ => ?_⟩, by decide +kernel, by decide +kernel⟩
  · rcases (by simpa using h : a = 8 ∨ a = 9) with rfl | rfl
    · exact ⟨1, by decide +kernel⟩
    · exact ⟨0, by decide +kernel⟩
  · have : ∀ k, k < 32 → stTop.mask.getLsbD k = true → ((⟨stG 3 [stTop], lw, 0⟩ : Env).r32 lw.a k).toNat ∈ [8, 9] := by decide +kernel
    exact ha ▸ this k hk hm
theorem witness_LaneOperandChecks : (∃ x ∈ laneIntTable { lw with a := 253 }, x.1 = .iadd { lw with a := 253 }) ∧ (Instr.iadd { lw with a := 253 }).wf = true ∧
    (([(4 : BitVec 8), 253, 2]).contains 253#8 = true) ∧ (Instr.iadd { lw with d := 128 }).wf = true ∧ (∃ n ∈ vregs false [128, 1, 2], gi.vcnt ≤ n) ∧ LaneCur (lane gi) gi wordBlock ∧
    windowOpen (lane gi) gi .lane false = true ∧ gi.dependsLane (vregs false [128, 1, 2]) (List.range 48) = false ∧ pendingV (lane gi) gi.ref (vregs false [128, 1, 2]) = false ∧ gi.inject = none ∧
    laneSelected gi { lw with d := 128 } ≠ 0 := ⟨⟨_, by simp only [laneIntTable]; exact List.mem_cons_self, rfl⟩, by decide +kernel⟩
-- V2 of thread 1 is poisoned.
def spoiltG : Group := { gi with badV := [32 * 2 + 1] }
theorem witness_LaneOperandChecks_poison : LaneCur (lane spoiltG) spoiltG wordBlock ∧ windowOpen (lane spoiltG) spoiltG .lane false = true ∧
    spoiltG.dependsLane (vregs false [4, 1, 2]) (List.range 48) = false ∧ pendingV (lane spoiltG) gref (vregs false [4, 1, 2]) = false ∧ (Instr.iadd lw).wf = true ∧
    isV (2 : BitVec 8) = true ∧ (passes lw (laneSelected spoiltG lw)).getLsbD 1 = true ∧ 32 * (2 : BitVec 8).toNat + 1 ∈ spoiltG.badV := by decide +kernel

-- The H register that code 253 reads is poisoned for thread 1, in trap mode.
def spoiltH' : Group := { gi with badH := [1], trapm := true, trapRuns := gi.runs }
theorem witness_LaneOperandChecks_h : LaneCur (lane spoiltH') spoiltH' wordBlock ∧ windowOpen (lane spoiltH') spoiltH' .lane false = true ∧ (∃ x ∈ laneIntTable { lw with a := 253 }, x.1 = .iadd { lw with a := 253 }) ∧
    (Instr.iadd { lw with a := 253 }).wf = true ∧ 32 * (({ lw with a := 253 } : LaneWord).ix % 8) + 1 ∈ spoiltH'.badH ∧ (passes lw (laneSelected spoiltH' { lw with a := 253 })).getLsbD 1 = true :=
  ⟨by decide +kernel, by decide +kernel, ⟨_, by simp only [laneIntTable]; exact List.mem_cons_self, rfl⟩, by decide +kernel, by decide +kernel, by decide +kernel⟩

def lg : Group := vg [addrs, (6, allT 7)]
def lvas (n : Nat) : List (Nat × W64) := (List.range n).map fun k => (k, 0x1000#64 + BitVec.ofNat 64 (8 * k))
theorem witness_LaneLoads : ∃ s1 xs, (Instr.laneLd { lm with md := 0x50 }).wf = true ∧ LaneAt (lane lg phys) lg phys [2] (dataRegs 2 4 ++ addrRegs { lm with md := 0x50 } true) false ∧
    laneSize ({ lm with md := 0x50 } : LaneWord).mwidth = 2 ∧ laneSelected lg lm ≠ 0 ∧ [lm.a].find? (fun c => 249 ≤ c.toNat && c.toNat ≤ 252) = none ∧ loadRoom (lane lg phys) lg = true ∧
    ((threadsOf (passes lm (laneSelected lg lm))).map fun k => (k, addrOf ⟨lg, { lm with md := 0x50 }, 0⟩ true k)) = lvas 2 ∧
    Accesses (lane lg phys) s1 lg phys .read 2 (lvas 2) xs ∧ soReady s1 0 xs = true ∧ relReady s1 0 (laneOrd 0) 0 = true :=
  ⟨_, xlats (lane lg phys) lg phys .read 2 (lvas 2), by decide +kernel, by decide +kernel, by decide +kernel, by decide +kernel, by decide +kernel, by decide +kernel, by decide +kernel,
    accesses_ok _ _ _ _ _ _ _ (by decide +kernel) (by decide +kernel) (by decide +kernel), by decide +kernel, by decide +kernel⟩
-- LDC with .U, one part.
theorem witness_LaneLoads_constant : ∃ s1 xs, (Instr.ldc { lm with md := 0xA0 }).wf = true ∧ ((threadsOf (passes { lm with md := 0xA0 } 3)).map fun k => (k, addrOf ⟨lg, { lm with md := 0xA0 }, 0⟩ true k)) = lvas 1 ∧
    Accesses (lane lg phys) s1 lg phys .read 4 (lvas 1) xs :=
  ⟨_, xlats (lane lg phys) lg phys .read 4 (lvas 1), by decide +kernel, by decide +kernel, accesses_ok _ _ _ _ _ _ _ (by decide +kernel) (by decide +kernel) (by decide +kernel)⟩
-- Loads of 16 bytes and of one signed byte by threads 0 and 1, one with .U, and REFILL's; thread 0 alone resolves.
def laneL (size : Nat) (spread : Mask) (pred : Nat) : Load :=
  ⟨.lane, 0, 0, size, true, 4, false, spread, pred, 0, if spread = 0 then [⟨0, 0x1000, 0x1000, none⟩, ⟨1, 0x1010, 0x1010, some 0xFF⟩] else [⟨0, 0x1000, 0x1000, none⟩], 0, none⟩
theorem witness_LaneLoads_resolve : ∀ l ∈ [laneL 16 0 0, laneL 1 0 0, laneL 4 3 0, laneL 4 0 3], (lane { gi with loads := [l] }).group? gref = some { gi with loads := [l] } ∧
    l.stream = .lane ∧ l.watch = none ∧ (∀ p ∈ l.parts, p.t < 32) ∧ l.parts.Pairwise (fun p q => p.t ≠ q.t) ∧ (l.spread ≠ 0 → l.parts.length = 1) := by decide +kernel
-- Stores: on plain pages, where the two elements do not meet (R348: a physical address is cached), and below the end of memory.
theorem witness_LaneStores : ∃ s1 xs, (Instr.laneSt { lm with md := 0x20 }).wf = true ∧ LaneAt (lane lg phys) lg phys [2, 6] (dataRegs 4 6 ++ addrRegs lm true) false ∧
    laneSelected lg lm ≠ 0 ∧ [lm.a, lm.c].find? (fun c => 249 ≤ c.toNat && c.toNat ≤ 252) = none ∧ Accesses (lane lg phys) s1 lg phys .write 4 (lvas 2) xs ∧ soReady s1 0 xs = true ∧
    relReady s1 0 (laneOrd 0) 0 = true ∧ xs.map (·.2.2.pa) = [0x1000, 0x1008] ∧ strongest xs ≠ 0 ∧ 0 < s1.cores.length :=
  ⟨_, xlats (lane lg phys) lg phys .write 4 (lvas 2), by decide +kernel, by decide +kernel, by decide +kernel, by decide +kernel,
    accesses_ok _ _ _ _ _ _ _ (by decide +kernel) (by decide +kernel) (by decide +kernel), by decide +kernel, by decide +kernel, by decide +kernel, by decide +kernel, by decide +kernel⟩
-- A strongly ordered page.
def soS (g : Group) : State := { put 0x30002000 8 0xFB real with groups := [g], cur := .lane gref }
theorem witness_LaneStores_strong : ∃ s1 xs, LaneAt (soS lg) lg wordBlock [2, 6] (dataRegs 4 6 ++ addrRegs lm true) false ∧ Accesses (soS lg) s1 lg wordBlock .write 4 (lvas 2) xs ∧
    soReady s1 0 xs = true ∧ strongest xs = 0 :=
  ⟨_, xlats (soS lg) lg wordBlock .write 4 (lvas 2), by decide +kernel, accesses_ok _ _ _ _ _ _ _ (by decide +kernel) (by decide +kernel) (by decide +kernel), by decide +kernel, by decide +kernel⟩
-- The faults of a store: thread 1 misaligned, thread 1 past 52 bits; pages that deny it, are not present or notify; errors in a table and in the bytes of a load.
def lfG (a : W64) : Group := vg [(2, fun t => if t = 0 then 0x1000 else a.setWidth 32), (3, fun t => if t = 0 then 0 else (a >>> 32).setWidth 32), (6, allT 7)]
def lfS (g : Group) (x : Nat × List Nat) : State := { pteS x with groups := [g], cur := .lane gref }
def st4 : LaneWord := { lm with md := 0x20 }
theorem witness_LaneStores_faults : (Instr.laneSt st4).wf = true ∧ laneSize st4.mwidth = 4 ∧ [st4.a, st4.c].find? (fun c => 249 ≤ c.toNat && c.toNat ≤ 252) = none ∧
    poisoned (lfS (lfG 0x1008) (0x1FB, [0x1009])) 0x1008 4 = true ∧
    ∀ a ∈ [0x1002, 0x10000000000000, 0x1008], let g := lfG (BitVec.ofNat 64 a)
      laneSelected g st4 = 3 ∧ LaneAt (lfS g (0x1FB, [])) g wordBlock [2, 6] (dataRegs 4 6 ++ addrRegs st4 true) false ∧ (addrOf ⟨g, st4, 0⟩ true 1).toNat = a := by decide +kernel
def denials (x : Nat × List Nat) : List (Nat × Option Deny) :=
  (translateEach (lfS (lfG 0x1008) x) (some 0) false 1 .write (lvas 2)).2.map fun y => (y.1, match y.2.2 with | .error d => some d | _ => none)
theorem witness_LaneStores_denied : ∀ x ∈ [((0x1EB, []), .protection), ((0, []), .notPresent), ((0x3FB, []), .malformed), ((0x1FB, [0x30000000]), .error)],
    denials x.1 = [(0, some x.2), (1, some x.2)] := by decide +kernel

-- Local memory: the last four bytes of the scratchpad and of private memory below its reserve; one past each; a misaligned address; a locked row.
def pg (a : W32) : Group := vg [(2, fun t => if t = 0 then a else 0), (6, allT 7)]
def lp : LaneWord := { lm with md := 0x20 }
theorem witness_LaneLocalMemory : ([Instr.laneLds lp, .laneSts lp, .ldp lp, .stp lp].all Instr.wf) = true ∧ laneSize lp.mwidth = 4 ∧ [lp.a, lp.c].find? (fun c => 249 ≤ c.toNat && c.toNat ≤ 252) = none ∧
    (∀ a ∈ [0xFFFC, 0x10000, 2, 92, 96], laneSelected (pg (BitVec.ofNat 32 a)) lp ≠ 0 ∧ LaneAt (lane (pg (BitVec.ofNat 32 a))) (pg (BitVec.ofNat 32 a)) wordBlock [2] (dataRegs 4 4 ++ addrRegs lp false) false ∧
      LaneAt (lane (pg (BitVec.ofNat 32 a))) (pg (BitVec.ofNat 32 a)) wordBlock [2, 6] (dataRegs 4 6 ++ addrRegs lp false) false ∧ (addrOf ⟨pg (BitVec.ofNat 32 a), lp, 0⟩ false 0).toNat = a) ∧
    (∀ k ∈ threadsOf (passes lp 3), (addrOf ⟨pg 0xFFFC, lp, 0⟩ false k).toNat % 4 = 0 ∧ (addrOf ⟨pg 0xFFFC, lp, 0⟩ false k).toNat + 4 ≤ (wordBlock.variantAt wordBlock.variant).scratch ∧
      lockedAt wordBlock (addrOf ⟨pg 0xFFFC, lp, 0⟩ false k).toNat 4 = false) ∧ (wordBlock.variantAt 0).priv = 92 + 4 + 32 := by decide +kernel
-- The last bytes of the scratchpad with a poisoned cell, and locked; of private memory with a poisoned cell.
def lpG : Group := { pg 92 with badPriv := [privAt 0 92] }
theorem witness_LaneLocalMemory_poison : LaneAt (lane (pg 0xFFFC) { wordBlock with badPad := [0xFFFF] }) (pg 0xFFFC) { wordBlock with badPad := [0xFFFF] } [2] (dataRegs 4 4 ++ addrRegs lp false) false ∧
    LaneAt (lane lpG) lpG wordBlock [2] (dataRegs 4 4 ++ addrRegs lp false) false ∧ (addrOf ⟨lpG, lp, 0⟩ false 0).toNat = 92 ∧
    lockedAt { wordBlock with lock := some (0xFF00, 0x100) } 0xFFFC 4 = true := by decide +kernel
-- Atomics of thread 1 alone, at 0x1008.
def ag : Group := (vg [addrs, (6, allT 7)]).writeP 1 2
def aw (md : BitVec 8) : LaneWord := { lm with md := md, gp := 1 }
theorem witness_LaneAtomics : ∃ s1 x, (Instr.laneAtom (aw 0)).wf = true ∧ laneSelected ag (aw 0) = threadBit 1 ∧ [(aw 0).a, (aw 0).c].find? (fun c => 249 ≤ c.toNat && c.toNat ≤ 252) = none ∧
    LaneAt (lane ag phys) ag phys [2, 6] (vregs false [4] ++ (atomRegs (aw 0) ++ addrRegs (aw 0) true)) false ∧ addrOf ⟨ag, aw 0, 0⟩ true 1 = 0x1008 ∧ (aw 0).aw64 = false ∧
    Accesses (lane ag phys) s1 ag phys .atomic 4 [(1, 0x1008)] [(1, 0x1008, x)] ∧ soReady s1 0 [(1, 0x1008, x)] = true ∧ relReady s1 0 (laneOrd (aw 0).aord) (aw 0).x.toNat = true ∧
    pendOverlap s1 0 x.pa 4 = false ∧ x.pa + 4 ≤ physTop :=
  ⟨_, ((xlats (lane ag phys) ag phys .atomic 4 [(1, 0x1008)]).map fun x => x.2.2).headD ⟨0, pteOf 0⟩, by decide +kernel, by decide +kernel, by decide +kernel, by decide +kernel, by decide +kernel, by decide +kernel,
    accesses_ok _ _ _ _ _ _ _ (by decide +kernel) (by decide +kernel) (by decide +kernel), by decide +kernel, by decide +kernel, by decide +kernel, by decide +kernel⟩
def agp (a : W32) : Group := (vg [(2, allT a), (6, allT 7)]).writeP 1 2
theorem witness_LaneAtomics_scratch : (Instr.red { aw 0x20 with d := 254 }).wf = true ∧ (Instr.atoms (aw 0x40)).wf = true ∧ ∀ a ∈ [0xFFFC, 2],
    laneSelected (agp (BitVec.ofNat 32 a)) (aw 0x40) = threadBit 1 ∧ LaneAt (lane (agp (BitVec.ofNat 32 a))) (agp (BitVec.ofNat 32 a)) wordBlock [2, 6] (atomRegs (aw 0x40) ++ addrRegs (aw 0x40) false) false ∧
    (addrOf ⟨agp (BitVec.ofNat 32 a), aw 0x40, 0⟩ false 1).toNat = a ∧ lockedAt wordBlock a 4 = false ∧ 0xFFFC + 4 ≤ (wordBlock.variantAt wordBlock.variant).scratch := by decide +kernel
-- Threads 0 and 1 name two addresses, and, on the scratchpad, two that lie apart.
def agm : Group := vg [addrs, (6, allT 7)]
theorem witness_LaneAtomics_several : ∃ s1 xs, laneSelected agm { aw 0 with gp := 0 } = 3 ∧ LaneAt (lane agm phys) agm phys [2, 6] (vregs false [4] ++ (atomRegs (aw 0) ++ addrRegs (aw 0) true)) false ∧
    Accesses (lane agm phys) s1 agm phys .atomic 4 (lvas 2) xs ∧ ((threadsOf 3).map fun k => (k, addrOf ⟨agm, { aw 0 with gp := 0 }, 0⟩ true k)) = lvas 2 ∧ soReady s1 0 xs = true ∧
    relReady s1 0 (laneOrd (aw 0).aord) (aw 0).x.toNat = true ∧ (∀ x ∈ xs, x.2.2.pa = 0x1000 + 8 * x.1 ∧ pendOverlap s1 0 x.2.2.pa 4 = false ∧ x.2.2.pa + 4 ≤ physTop) ∧
    (∀ j ∈ [0, 1], ∀ k ∈ [0, 1], if (lvas 2).lookup j = (lvas 2).lookup k then 0x1000 + 8 * j = 0x1000 + 8 * k else 0x1000 + 8 * j + 4 ≤ 0x1000 + 8 * k ∨ 0x1000 + 8 * k + 4 ≤ 0x1000 + 8 * j) :=
  ⟨_, xlats (lane agm phys) agm phys .atomic 4 (lvas 2), by decide +kernel, by decide +kernel,
    accesses_ok _ _ _ _ _ _ _ (by decide +kernel) (by decide +kernel) (by decide +kernel), by decide +kernel, by decide +kernel, by decide +kernel, by decide +kernel, by decide +kernel⟩
-- Threads 0 and 1 name one address; a scratchpad address past the end, a locked one, a poisoned one.
def ag2 : Group := vg [(2, allT 0x1008), (6, fun t => if t = 0 then 3 else 5)]
theorem witness_LaneAtomics_shared : ∃ s1 xs, laneSelected ag2 (aw 0) = 0 ∧ laneSelected ag2 { aw 0 with gp := 0 } = 3 ∧ (Instr.laneAtom { aw 0 with gp := 0 }).wf = true ∧
    (∀ k ∈ threadsOf 3, addrOf ⟨ag2, { aw 0 with gp := 0 }, 0⟩ true k = 0x1008) ∧ LaneAt (lane ag2 phys) ag2 phys [2, 6] (vregs false [4] ++ (atomRegs (aw 0) ++ addrRegs (aw 0) true)) false ∧
    Accesses (lane ag2 phys) s1 ag2 phys .atomic 4 [(0, 0x1008), (1, 0x1008)] xs ∧ xs.map (·.2.2.pa) = [0x1008, 0x1008] ∧ soReady s1 0 xs = true ∧ pendOverlap s1 0 0x1008 4 = false :=
  ⟨_, xlats (lane ag2 phys) ag2 phys .atomic 4 [(0, 0x1008), (1, 0x1008)], by decide +kernel, by decide +kernel, by decide +kernel, by decide +kernel, by decide +kernel,
    accesses_ok _ _ _ _ _ _ _ (by decide +kernel) (by decide +kernel) (by decide +kernel), by decide +kernel, by decide +kernel, by decide +kernel⟩
theorem witness_LaneAtomics_stops : (∀ b ∈ [wordBlock, { wordBlock with lock := some (0xFF00, 0x100) }, { wordBlock with badPad := [0xFFFD] }], ∀ a ∈ [0xFFFC, 0x10000],
      LaneAt (lane (agp (BitVec.ofNat 32 a)) b) (agp (BitVec.ofNat 32 a)) b [2, 6] (vregs false [4] ++ (atomRegs (aw 0x40) ++ addrRegs (aw 0x40) false)) false) ∧
    lockedAt { wordBlock with lock := some (0xFF00, 0x100) } 0xFFFC 4 = true ∧ ¬ 0x10000 + 4 ≤ (wordBlock.variantAt wordBlock.variant).scratch := by decide +kernel
-- CPY of a sound entry and of one of KIND 9, whose address is S5; fences with and without pending writes.
def cw : LaneWord := { lw with a := 249, b := 0, imm := 5 }
def cyG : Group := { vg [] with runs := [], s := [(5, 0x1000)] }
def cyS (kind : Nat) : State := put 0x1000 1 kind (lane cyG phys)
theorem witness_LaneOrderingWords_cpy : ∀ k ∈ [0, 9], ∃ s1 x gv, (Instr.cpy cw).wf = true ∧ LaneAt (cyS k) cyG phys [249] [] false ∧ laneSelected cyG cw ≠ 0 ∧ selector (cyS k) cyG phys cw [249] = .ok (cyS k) gv ∧
    gv + BitVec.ofInt 64 (disp24 cw) = 0x1000 ∧ lowest (laneSelected cyG cw) = 0 ∧
    Accesses (captureThreads (cyS k) gref 0xFFFFFFFF#32) s1 cyG phys .read 64 [(0, 0x1000)] [(0, 0x1000, x)] ∧ soReady s1 0 [(0, 0x1000, x)] = true ∧ s1.choices = [] ∧
    (entryOf (BitVec.ofNat 512 (leNat (freshRead s1 0 x.pa 64)))).kind = k ∧ (entryOf (BitVec.ofNat 512 (leNat (freshRead s1 0 x.pa 64)))).ok false phys.pelotons = decide (k = 0) := by
  intro k hk
  rcases (by simpa using hk : k = 0 ∨ k = 9) with rfl | rfl
  · exact ⟨_, xlat (captureThreads (cyS 0) gref 0xFFFFFFFF#32) cyG phys .read 64 0x1000, 0x1000, by decide +kernel, by decide +kernel, by decide +kernel, rfl, by decide +kernel, by decide +kernel,
      accesses_ok _ _ _ _ _ _ _ (by decide +kernel) (by decide +kernel) (by decide +kernel), by decide +kernel, by decide +kernel, by decide +kernel, by decide +kernel⟩
  · exact ⟨_, xlat (captureThreads (cyS 9) gref 0xFFFFFFFF#32) cyG phys .read 64 0x1000, 0x1000, by decide +kernel, by decide +kernel, by decide +kernel, rfl, by decide +kernel, by decide +kernel,
      accesses_ok _ _ _ _ _ _ _ (by decide +kernel) (by decide +kernel) (by decide +kernel), by decide +kernel, by decide +kernel, by decide +kernel, by decide +kernel⟩
def feS (ws : List PendWrite) : State := { lane gi with cores := [{ Core.reset with pend := ws }] }
theorem witness_LaneOrderingWords_fence : (∀ x ∈ [(0, 0), (1, 1), (2, 2)], (Instr.fenceL { lw with x := BitVec.ofNat 4 x.1, md := BitVec.ofNat 8 x.2, d := 254, a := 0, b := 0 }).wf = true) ∧ (Instr.mbar { lw with d := 254, a := 0, b := 0 }).wf = true ∧
    LaneAt (feS []) gi wordBlock [] [] false ∧ LaneAt (feS [⟨0, [1], false, .scalar gref, 0⟩]) gi wordBlock [] [] false ∧ laneSelected gi lw ≠ 0 ∧ laneSelected gi { lw with gp := 1 } = 0 := by decide +kernel
-- A UO write of thread 1, which MBAR and a fence order, and an outstanding load of thread 0 that has taken no value.
def mbG : Group := { gi with loads := [{ laneL 4 0 0 with window := 4 }] }
def mbS : State := { lane mbG with cores := [{ Core.reset with pend := [⟨0x100, [1], true, .thread gref 1, 0⟩] }] }
theorem witness_LaneOrderingWords_captures : LaneAt mbS mbG wordBlock [] [] false ∧ laneSelected mbG lw = 3 ∧ (mbS.core 0).pend ≠ [] ∧ 0 < mbS.cores.length := by decide +kernel

-- Port 3 of the context, bound to island 0 of role 1 or to a traversal island, whose input record is one word.
def ptS (role : Nat) (g : Group) (b : Block := wordBlock) : State := { lane g b with ctxs := [{ wordCtx with ports := [⟨3, 0, role, 0⟩] }], images := [addImage], islands := [{ Island.reset with state := 2 }] }
def ptG (served : Mask) : Group := { vg [(1, allT 5), (2, allT 3)] with served := served }
def pt : Port := ⟨3, 0, 1, 0⟩
theorem witness_LaneIslandWords : (Instr.isubIsl lw).wf = true ∧ (Instr.isubIsl { lw with md := 1 }).wf = true ∧ (Instr.qclose { lw with a := 0 }).wf = true ∧ (∀ m ∈ [0, 3], laneSelected (ptG (BitVec.ofNat 32 m)) lw ≠ 0 ∧
      LaneAt (ptS 1 (ptG (BitVec.ofNat 32 m))) (ptG (BitVec.ofNat 32 m)) wordBlock [2] ((List.range 2).map (1 + ·) ++ vregs false [2]) false ∧
      portCheck (ptS 1 (ptG (BitVec.ofNat 32 m))) wordBlock [3, 3] false = .ok pt) ∧ [lw.b].find? (fun c => 249 ≤ c.toNat && c.toNat ≤ 252) = none ∧ portIn (ptS 1 (ptG 0)) pt = 1 ∧
    (laneSelected (ptG 0) lw &&& ~~~(ptG 0).served ≠ 0 ∧ laneSelected (ptG 3) lw &&& ~~~(ptG 3).served = 0) ∧ ((ptS 1 (ptG 0)).island 0).input = [] ∧ 0 < (ptS 1 (ptG 0)).islands.length := by decide +kernel
def qrW (md : BitVec 8) : LaneWord := { lw with a := 252, b := 0, c := 3, md := md }
theorem witness_LaneIslandWords_qread : (∀ md ∈ [0, 0x10], (Instr.qread (qrW (BitVec.ofNat 8 md))).wf = true) ∧ (Instr.qread { qrW 0 with c := 0 }).wf = true ∧ LaneAt (lane (vg []) (qBlock [5, 6])) (vg []) (qBlock [5, 6]) [252] [4] false ∧
    (readQueue (lane (vg []) (qBlock [5, 6])) (qBlock [5, 6]) 0 1).toOption = some (3, [some [5], some [6]]) ∧ (qBlock [5, 6]).claimed 3 0 = 0 ∧ (vg []).served = 0 ∧ laneSelected (vg []) (qrW 0) = 3 := by decide +kernel
-- One entry for two threads, and a pop of this cycle by the same slot.
def qrS : Block := { qBlock [5] with lastQueue := [(3, false, 0, 0)] }
theorem witness_LaneIslandWords_few : LaneAt (lane (vg []) qrS) (vg []) qrS [252] [4] false ∧ (readQueue (lane (vg []) qrS) qrS 0 1).toOption = some (3, [some [5]]) ∧ inFlight (lane (vg []) qrS) (vg []) < 12 ∧
    ∀ x ∈ qrS.lastQueue, x.2.2.2 ≤ (vg []).ref.slot.toNat := by decide +kernel
-- ATTR of one attribute: thread 0 sees nothing, thread 1 primitive 0 of instance 0, whose table entry is at 0x1000.
def atW : LaneWord := { lw with d := 8, a := 2, b := 6, c := 249, md := 1, imm := 5 }
def atG (a : W64) : Group := { vg [(2, fun t => if t = 0 then 0xFFF00000 else 0), (3, fun t => if t = 0 then 0xFF else 0)] with runs := [], s := [(5, a)] }
def atS (a : W64) : State := put 0x1000 32 (0x2000 + 2 ^ 64 * 0x3000 + 2 ^ 128 * 0x4000 + 2 ^ 192 * 4 + 2 ^ 224 * 16 + 2 ^ 240 * 16) (lane (atG a) phys)
def lrd (s : State) (g : Group) (kind size : Nat) (vas : List (Nat × W64)) : State × List Nat :=
  laneNow (allocateAll (access s (some g.ref.core.toNat) phys.test g.ctx .read size vas).1 size (xlats s g phys .read size vas)) g (min kind (strongest (xlats s g phys .read size vas))) size (xlats s g phys .read size vas)
theorem lreads_at (s : State) (g : Group) (kind size : Nat) (vas : List (Nat × W64)) (h : (access s (some g.ref.core.toNat) phys.test g.ctx .read size vas).2 = .ok (xlats s g phys .read size vas))
    (hp : poisonedAt (access s (some g.ref.core.toNat) phys.test g.ctx .read size vas).1 size (xlats s g phys .read size vas) = [])
    (hr : kindReady (allocateAll (access s (some g.ref.core.toNat) phys.test g.ctx .read size vas).1 size (xlats s g phys .read size vas)) g.ref.core.toNat (min kind (strongest (xlats s g phys .read size vas))) = true)
    (hl : g.loop = none) (hv : vas ≠ []) : LaneReads s (lrd s g kind size vas).1 g phys kind size vas (lrd s g kind size vas).2 :=
  .inr ⟨hv, _, _, accesses_ok s g phys .read size _ _ h (.inr hp) hl, hr, rfl⟩
/-- The kind of the pages that the ATTR will touch. -/
def atK : Nat := attrKind (atS 0x1000) phys ⟨atG 0x1000, atW, 0x1000⟩ (laneSelected (atG 0x1000) atW)
def at1 : State × List Nat := lrd (atS 0x1000) (atG 0x1000) atK 64 [(1, 0x1000)]
def at2 : State × List Nat := lrd at1.1 (atG 0x1000) atK 4 [(1, 0x2000), (1, 0x2004), (1, 0x2008)]
theorem witness_AttrAndTrace_attr : (Instr.attr atW).wf = true ∧ (∀ x ∈ [(0x1000#64, false), (0x1004#64, true)],
      LaneAt (atS x.1) (atG x.1) phys [249] ((List.range 3).map (8 + ·) ++ [2, 3, 6]) false ∧ laneSelected (atG x.1) atW ≠ 0 ∧ (∃ gv, selector (atS x.1) (atG x.1) phys atW [249] = .ok (atS x.1) gv ∧ gv = x.1)) := by
  refine ⟨by decide +kernel, fun x hx => ?_⟩
  rcases (by simpa using hx : x = (0x1000#64, false) ∨ x = (0x1004#64, true)) with rfl | rfl
  · exact ⟨by decide +kernel, by decide +kernel, _, rfl, by decide +kernel⟩
  · exact ⟨by decide +kernel, by decide +kernel, _, rfl, by decide +kernel⟩
theorem witness_AttrAndTrace_reads : LaneReads (atS 0x1000) at1.1 (atG 0x1000) phys atK 64 [(1, 0x1000)] at1.2 ∧ LaneReads at1.1 at2.1 (atG 0x1000) phys atK 4 [(1, 0x2000), (1, 0x2004), (1, 0x2008)] at2.2 ∧
    ((Pixel.mk 1 0 0 0 (at1.2.headD 0)).bad = false ∧ at2.2 = [0, 0, 0] ∧ (Pixel.mk 1 0 0 0 0).bad = true) :=
  ⟨lreads_at _ _ _ _ _ (by decide +kernel) (by decide +kernel) (by decide +kernel) rfl (by decide), lreads_at _ _ _ _ _ (by decide +kernel) (by decide +kernel) (by decide +kernel) rfl (by decide), by decide +kernel⟩
def posVas : List (Nat × W64) := (List.range 12).map fun k => (1, 0x3000#64 + BitVec.ofNat 64 (4 * (k % 4)))
def at3 : State × List Nat := lrd at2.1 (atG 0x1000) atK 4 posVas
theorem witness_AttrAndTrace_more_reads : LaneReads at2.1 at3.1 (atG 0x1000) phys atK 4 posVas at3.2 ∧ LaneReads at3.1 (lrd at3.1 (atG 0x1000) atK 4 [(1, 0x4000), (1, 0x4000), (1, 0x4000)]).1 (atG 0x1000) phys atK 4
      [(1, 0x4000), (1, 0x4000), (1, 0x4000)] (lrd at3.1 (atG 0x1000) atK 4 [(1, 0x4000), (1, 0x4000), (1, 0x4000)]).2 :=
  ⟨lreads_at _ _ _ _ _ (by decide +kernel) (by decide +kernel) (by decide +kernel) rfl (by decide), lreads_at _ _ _ _ _ (by decide +kernel) (by decide +kernel) (by decide +kernel) rfl (by decide)⟩

def trW : LaneWord := { lw with d := 16, a := 8, b := 30, c := 249, md := 3, imm := 5 }
def trG (a : W64) : Group := { vg [] with runs := [], s := [(5, a)] }
theorem witness_AttrAndTrace_trace : (Instr.trace trW).wf = true ∧ (∀ x ∈ [(0x1000, false), (0x1004, true)], laneSelected (trG (BitVec.ofNat 64 x.1)) trW ≠ 0 ∧
      LaneAt (ptS 2 (trG (BitVec.ofNat 64 x.1))) (trG (BitVec.ofNat 64 x.1)) wordBlock [30, 249] ((List.range 8).map (8 + ·) ++ [16] ++ vregs false [30]) false ∧ decide (x.1 % 64 ≠ 0) = x.2 ∧
      portCheck (ptS 2 (trG (BitVec.ofNat 64 x.1))) wordBlock [BitVec.ofNat 32 (3 % 64)] true = .ok ⟨3, 0, 2, 0⟩) ∧ ∃ gv, selector (ptS 2 (trG 0x1000)) (trG 0x1000) wordBlock trW [30, 249] = .ok (ptS 2 (trG 0x1000)) gv :=
  ⟨by decide +kernel, by decide +kernel, _, rfl⟩
-- A REFILL whose ring, at 0x1000, holds no items, and five.
def rfW : LaneWord := { lw with a := 249, c := 3, imm := 5 }
def rfS (tail : Nat) : State := put 0x1000 8 (tail * 2 ^ 32) (lane (trG 0x1000) phys)
def rf1 (tail : Nat) : State × List Nat := lrd (rfS tail) (trG 0x1000) 2 64 [(0, 0x1000)]
theorem witness_RefillAndNeval_refill : (Instr.refill rfW).wf = true ∧ (∀ t ∈ [0, 5], laneSelected (trG 0x1000) rfW ≠ 0 ∧ LaneAt (rfS t) (trG 0x1000) phys [249] [4] false ∧ loadRoom (rfS t) (trG 0x1000) = true ∧
      (rf1 t).2 = [t * 2 ^ 32] ∧ bits (t * 2 ^ 32) 135 128 ≤ 24 ∧ t * 2 ^ 32 / 2 ^ 136 = 0 ∧ bits (t * 2 ^ 32) 127 64 % 4 = 0 ∧ (trG 0x1000).trapm = false ∧ lowest (laneSelected (trG 0x1000) rfW) = 0) ∧
    LaneAt (lane (trG 0x1004) phys) (trG 0x1004) phys [249] [4] false ∧ ∃ gv, selector (rfS 5) (trG 0x1000) phys rfW [249] = .ok (rfS 5) gv := ⟨by decide +kernel, by decide +kernel, by decide +kernel, _, rfl⟩
theorem witness_RefillAndNeval_items : LaneReads (rfS 5) (rf1 5).1 (trG 0x1000) phys 2 64 [(0, 0x1000)] (rf1 5).2 ∧ ∃ s2 x, Accesses (rf1 5).1 s2 (trG 0x1000) phys .atomic 8 [(0, 0x1000)] [(0, 0x1000, x)] ∧
    kindReady (allocateAll s2 8 [(0, 0x1000, x)]) 0 (min (strongest [(0, 0x1000, x)]) (peekReads (allocateAll s2 8 [(0, 0x1000, x)]) (trG 0x1000) phys 4 [(0, 0), (1, 4)]).1) = true ∧
    released s2 0 0 = true ∧ pendOverlap s2 0 x.pa 8 = false ∧ x.pa + 8 ≤ physTop :=
  ⟨lreads_at _ _ _ _ _ (by decide +kernel) (by decide +kernel) (by decide +kernel) rfl (by decide), _, xlat (rf1 5).1 (trG 0x1000) phys .atomic 8 0x1000,
    accesses_ok _ _ _ _ _ _ _ (by decide +kernel) (by decide +kernel) (by decide +kernel), by decide +kernel, by decide +kernel, by decide +kernel, by decide +kernel⟩
-- Items that meet a watch point.
def wtS : State := { real with ctxs := [{ wordCtx with desc := { wordDesc with wps := [(2 ^ 62 + 0x1000, 2)] } }] }
theorem witness_RefillAndNeval_watched : wordBlock.test = false ∧ (trG 0x1000).trapm = false ∧ watchHit wtS 1 .read 4 [(0, 0x1000), (1, 0x1004)] = threadBit 0 ∧
    (xlats wtS (trG 0x1000) wordBlock .read 4 [(0, 0x1000), (1, 0x1004)]).length = 2 := by decide +kernel
def nvB (d : Bool) : Block := { wordBlock with kernel := { wordKernel with draft := d } }
theorem witness_RefillAndNeval_neval : (Instr.neval lw).wf = true ∧ laneSelected gi lw ≠ 0 ∧ ([false, true].all fun d => decide (LaneAt (lane gi (nvB d)) gi (nvB d) [2]
      ((List.range 1).map (1 + ·) ++ (List.range 1).map (4 + ·) ++ vregs false [2]) false)) = true ∧ [lw.b].find? (fun c => 249 ≤ c.toNat && c.toNat ≤ 252) = none := by decide +kernel
-- The five items of the ring that a REFILL of two threads takes: theirs are at physical addresses; in trap mode; and one that does not translate.
theorem witness_RefillAndNeval_hold : refillHold (allocateAll (rf1 5).1 8 []) { trG 0x1000 with trapm := true } phys [(0, 0), (1, 4)] = none ∧
    (match (access (rf1 5).1 (some 0) true 1 .read 4 [(0, 0), (1, 4)]).2 with | .ok ys => decide (ys.length = 2) | _ => false) = true ∧
    (match (access (rf1 5).1 (some 0) true 1 .read 4 [(0, 0x10000000000000), (1, 4)]).2 with | .ok _ => false | _ => true) = true := by decide +kernel
-- A network of the context, whose table entry, at the start of the network table, is readable.
def nvS : State := { put 0x30000 8 0x40000 { real with groups := [gi], cur := .lane gref, blocks := [nvB true] } with
                     ctxs := [{ wordCtx with desc := { wordDesc with netcount := 8, nettab := 0x30000 } }] }
def nvRow (t : Nat) : DraftRow := ⟨gref, 1, t, 0, 0, [], 0, 0, none, false, false⟩
def nvR (s : State) : State × TileRead (List Byte) := tileRead s 1 0 0x30000 8
def nvS1 : State := arriveRow (nvR nvS).1 (nvRow 0) 0x40000
theorem tread_ok {α β : Type} [DecidableEq β] {p : α × TileRead β} {b : β} (h : (match p.2 with | .ok v => decide (v = b) | _ => false) = true) : p = (p.1, .ok b) := by
  rcases p with ⟨a, v | i | n⟩
  · exact congrArg _ (congrArg _ (of_decide_eq_true h))
  · cases h
  · cases h
theorem witness_RefillAndNeval_admitted : LaneAt nvS gi (nvB true) [2] [] false ∧ 0 < nvS.cores.length ∧ ∃ t, Admitted 0x30000 nvS [nvRow 0, nvRow 1] [0x40000, 0x40000] t :=
  ⟨by decide +kernel, by decide +kernel, arriveRow (nvR nvS1).1 (nvRow 1) 0x40000, (nvR nvS).1, bytesOf 8 0x40000, [0x40000], tread_ok (p := nvR nvS) (by decide +kernel), by decide +kernel,
    by decide +kernel, (nvR nvS1).1, bytesOf 8 0x40000, [], tread_ok (p := nvR nvS1) (by decide +kernel), by decide +kernel, by decide +kernel, rfl, rfl⟩

-- A FENCE.L that has taken its 4 cycles and one that has not, with a write of the core not performed.
def flW : LaneWord := { lw with x := 1, md := 1, d := 254, a := 0, b := 0 }
def flG (held : Bool) : Group := { gi with fenced := held, wordL := pack 0x0D0 flW }
def flS (held : Bool) : State := { lane (flG held) with cores := [{ Core.reset with pend := [⟨0, [1], false, .scalar gref, 0⟩] }] }
theorem witness_LaneOrderingWords_held : (Instr.fenceL flW).wf = true ∧ (∀ h ∈ [false, true], LaneAt (flS h) (flG h) wordBlock [] [] false ∧ (flG h).fenced = h ∧ ((flS h).core 0).pend ≠ []) ∧
    (flG false).wordL = pack 0x0D0 flW ∧ laneSelected (flG false) flW ≠ 0 ∧ flW.md ≠ 0 ∧ flW.x ≠ 0 := by decide +kernel

/-! Matrix words -/

def ms (b : Block) : State := matr b
-- The last rows of a share of 2048 rows, and one past it.
theorem witness_MatrixDataWords_rows : MatrixAt (ms accBlock) accBlock ∧ accBlock.accRows = 2048 ∧ ([Instr.aclr (mw 254 0xFFE00000), .aclr (mw 254 0xFFE00400)].all Instr.wf) = true ∧
    bits 0xFFE00000 31 21 + (bits 0xFFE00000 20 10 + 1) = 2048 ∧ bits 0xFFE00400 31 21 + (bits 0xFFE00400 20 10 + 1) = 2049 ∧
    ([Instr.amove { mw 254 0xFFE00000 with md := 1 }, .amove { mw 254 0xFFE00000 with c := 1 }].all Instr.wf) = true := by decide +kernel

-- AOUT of BF16 rows to the scratchpad at K0: aligned, misaligned, at its last bytes, past it, and where a row is locked; and to memory.
def aoW (md : BitVec 8) : LaneWord := { mw 250 0 with md := md, x := 1 }
def aoB (k : W64) (lock : Option (Nat × Nat)) : Block := { kBlock 0 k with lock := lock }
theorem witness_MatrixDataWords_aout : (Instr.aout (aoW 0x90)).wf = true ∧ (∀ x ∈ [(0#64, none), (0x20#64, none), (0xFF00#64, none), (0xFF40#64, none), (0xFF00#64, some (0xFF00, 0x100))], MatrixAt (matr (aoB x.1 x.2)) (aoB x.1 x.2)) ∧
    (0x20#64).toNat % 64 ≠ 0 ∧ (aoW 0x90).md.getLsbD 0 = false ∧ 1 * (16 * elemWidth 9) = 256 ∧ (aoB 0 none).scratchSize = 0xFF00 + 256 ∧ (aoB 0 none).readK 0 0 = 0 ∧
    lockedAt (aoB 0xFF00 none) 0xFF00 256 = false ∧ lockedAt (aoB 0xFF00 (some (0xFF00, 0x100))) 0xFF00 256 = true := by decide +kernel
def kvas (size n : Nat) : List (Nat × W64) := (List.range n).map fun k => (0, 0x1000#64 + BitVec.ofNat 64 (size * k))
theorem witness_MatrixDataWords_aout_memory : ∃ s1 xs, (Instr.aout (aoW 0x91)).wf = true ∧ MatrixAt (matr { aoB 0x1000 none with test := true }) { aoB 0x1000 none with test := true } ∧
    access (matr { aoB 0x1000 none with test := true }) (some 0) true 1 .write 64 (kvas 64 4) = (s1, .ok xs) ∧ soReady s1 0 xs = true ∧ strongest xs ≠ 0 ∧ 0 < s1.cores.length :=
  ⟨_, xlats (matr { aoB 0x1000 none with test := true }) (sg []) phys .write 64 (kvas 64 4), by decide +kernel, by decide +kernel, Prod.ext rfl (by decide +kernel), by decide +kernel, by decide +kernel, by decide +kernel⟩
-- MLOADB into the last slot and one past it, MSCALE into the last 64 bytes and past them; from the scratchpad at its end and past it, misaligned, and from memory.
theorem witness_MatrixDataWords_loads : ([Instr.mloadb { mw 250 0 with md := 0x50, b := 127 }, .mloadb { mw 250 0 with md := 0x10, b := 127 }, .mloadb { mw 250 0 with md := 0x70, b := 126 },
      .mscale { mw 250 0 with md := 0x40, b := 255 }, .mscale { mw 250 0 with md := 0, b := 255 }].all Instr.wf) = true ∧ 126 + 2 ≤ wordBlock.slots ∧ ¬ 127 + 2 ≤ wordBlock.slots ∧
    256 * 255 + 64 * 4 = wordBlock.scaleSize ∧ wordBlock.scratchSize = 0xE000 + 128 * 64 ∧ (∀ x ∈ [(0, true), (0xE000, true), (0xE040, true), (0xFFC0, true), (0x20, false)],
      MatrixAt (matr (kBlock 0 (BitVec.ofNat 64 x.1))) (kBlock 0 (BitVec.ofNat 64 x.1)) ∧ decide (x.1 % 64 = 0) = x.2) := by decide +kernel
theorem witness_MatrixDataWords_loads_memory : ∃ s1 xs, MatrixAt (matr { aoB 0x1000 none with test := true }) { aoB 0x1000 none with test := true } ∧
    access (matr { aoB 0x1000 none with test := true }) (some 0) true 1 .read 64 (kvas 64 128) = (s1, .ok xs) ∧ poisonedAt s1 64 xs = [] ∧ soReady s1 0 xs = true ∧ s1.choices = [] :=
  ⟨_, xlats (matr { aoB 0x1000 none with test := true }) (sg []) phys .read 64 (kvas 64 128), by decide +kernel, Prod.ext rfl (by decide +kernel), by decide +kernel, by decide +kernel, by decide +kernel⟩
-- Poisoned rows; poisoned bytes of the scratchpad; a misaligned base and rows past the share together; memory addresses that do not exist.
def poB : Block := { accBlock with badAcc := [128 * 2047], badPad := [0xFFC0] }
theorem witness_MatrixDataWords_poison : MatrixAt (ms poB) poB ∧ spoiled poB.badAcc (128 * 2047) 128 = true ∧ spoiled poB.badAcc 0 128 = false ∧ spoiled poB.badPad 0xFFC0 64 = true ∧
    poB.accRows < bits 0xFFE00000 31 21 + 2 := by decide +kernel
theorem witness_MatrixDataWords_lowest : (∀ va ∈ [0x20, 0x10000000000000], (match (access (ms accBlock) (some 0) true 1 .write 64 [(0, BitVec.ofNat 64 va)]).2 with
    | .cause c _ _ => some c | _ => none) = some (if va = 0x20 then 5 else 6)) ∧ (match (access (ms accBlock) (some 0) true 1 .read 64 [(0, 0x1000)]).2 with | .ok _ => true | _ => false) = true := by
  decide +kernel

-- MMA of one row: ready, with a pass under way, past the rows, past the scales, at a misaligned base, and past the scratchpad.
def mmW (imm : W32) : LaneWord := { mw 250 imm with d := 0, b := 0 }
def mmS (k : W64) : Block := kBlock 0 k
theorem witness_MatrixMultiplies : ([Instr.mma (mmW 0), .mma (mmW 0xFFE00000), .mma { mmW 0xFFE00000 with c := 1 }, .mma { mmW 0 with d := 127, c := 255 }].all Instr.wf) = true ∧
    (∀ x ∈ [0, 0x20, 0xFE00, 0xFF00], MatrixAt (matr (mmS (BitVec.ofNat 64 x))) (mmS (BitVec.ofNat 64 x)) ∧ (mmS (BitVec.ofNat 64 x)).seq.pass = none) ∧
    (let m := mmaOf (pack 0x180 (mmW 0)); m.arow + m.rows ≤ wordBlock.accRows ∧ m.slot + tileSlots m.bfmt ≤ wordBlock.slots ∧ m.as + 4 * m.rows ≤ wordBlock.scaleSize ∧ m.bs + 512 ≤ wordBlock.scaleSize ∧ m.src = 0 ∧
      m.rows * m.rowBytes = 0x200) ∧ (let m := mmaOf (pack 0x180 { mmW 0xFFE00000 with c := 1 }); ¬ m.arow + m.rows ≤ wordBlock.accRows) ∧
    MatrixAt (matr (passBlock false)) (passBlock false) ∧ (passBlock false).seq.pass.isSome = true := by decide +kernel
theorem witness_MatrixMultiplies_source : ∃ base, mmaSource (matr (mmS 0xFE00)) (mmS 0xFE00) (mmaOf (pack 0x180 (mmW 0))) = .ok (matr (mmS 0xFE00)) base ∧ base = 0xFE00 := ⟨_, rfl, by decide +kernel⟩
-- .QS: one entry of 16 words stands in the island queue of port 3; none; a handle queue that is empty or not bound.
def qsW (md : BitVec 8) : LaneWord := { mmW 0 with a := 252, md := md }
def qsB (es : List (Option (List W32))) : Block := { mmS 0 with kernel := { wordKernel with qbind := [0x83#8, 0x43#8] }, islq := [⟨3, es⟩] }
def qsS (es : List (Option (List W32))) : State := { matr (qsB es) with ctxs := [{ wordCtx with ports := [⟨3, 0, 1, 0⟩] }], images := [{ addImage with bytes := addImage.bytes.set 9 15 }] }
def qsRow : Option (List W32) := some (List.replicate 16 7)
theorem witness_MatrixMultiplies_stream : (Instr.mma (qsW 0x80)).wf = true ∧ (∀ es ∈ [[], [qsRow]], MatrixAt (qsS es) (qsB es) ∧ (qsB es).seq.pass = none ∧ (streamQueue (qsS es) (qsB es) 0).toOption = some (11, es) ∧
      (qsB es).lacking (mmaOf (pack 0x180 (qsW 0x80))) ≠ 0 ∧ (qsB es).claimed 11 32 = 0) ∧ (∃ base, mmaSource (qsS [qsRow]) (qsB [qsRow]) (mmaOf (pack 0x180 (qsW 0x80))) = .ok (qsS [qsRow]) base ∧ base = 0) ∧
    (mmaOf (pack 0x180 (qsW 0x80))).src = 2 ∧ (∀ e ∈ [qsRow], e.isSome = true) := ⟨by decide +kernel, by decide +kernel, ⟨_, rfl, by decide +kernel⟩, by decide +kernel, by decide⟩
theorem witness_MatrixMultiplies_handles : (mmaSource (qsS []) (qsB []) (mmaOf (pack 0x180 { qsW 0x40 with imm := 1 })) = .empty) ∧
    (mmaSource (matr wordBlock) wordBlock (mmaOf (pack 0x180 (qsW 0x40))) = .cause 0x0B 0 0) ∧ (Instr.mma (qsW 0x40)).wf = true := ⟨rfl, rfl, by decide +kernel⟩
-- A poisoned byte of the rows; the END entry in a .QS queue.
def mpB : Block := { mmS 0xFE00 with badPad := [0xFE00] }
theorem witness_MatrixMultiplies_poison : MatrixAt (matr mpB) mpB ∧ passSpoiled mpB (mmaOf (pack 0x180 (mmW 0))) 0xFE00 = true ∧ passSpoiled (mmS 0xFE00) (mmaOf (pack 0x180 (mmW 0))) 0xFE00 = false ∧
    MatrixAt (qsS [none]) (qsB [none]) ∧ (streamQueue (qsS [none]) (qsB [none]) 0).toOption = some (11, [none]) ∧
    ((([none] : List (Option (List W32))).drop 0).take ((qsB [none]).lacking (mmaOf (pack 0x180 (qsW 0x80))))).findIdx? (·.isNone) = some 0 := by decide +kernel

-- The sequencer's words: every status, a queue of depth 16 that is empty, holds one value or is full, and one that does not exist; K pending; barriers.
def scB (es : List W32) : Block := { kBlock 2 1 with queues := listSet (List.replicate 8 []) 2 es }
theorem witness_MatrixControlWords : ([Instr.mgear (mw 248 0xE), .mbudget (mw 250 3), .mstat { mw 254 2 with d := 250, a := 0, x := 7 }, .mwaitq { mw 254 0 with b := 2, c := 16 }, .matrixQpop { mw 254 4 with d := 250, b := 2 },
      .matrixQpush { mw 248 9 with b := 2 }, .matrixBarArrive { mw 254 0 with b := 15, x := 1 }, .matrixBarWait { mw 254 0 with b := 15 }, .matrixTlwait { mw 250 3 with x := 4 }, .mend (mw 254 0), .mendLoop { mw 250 2 with x := 1 }].map Instr.wf)
      = List.replicate 11 true ∧ (∀ es ∈ [[], [9], List.replicate 16 9], MatrixAt (matr (scB es)) (scB es) ∧ (scB es).queues.getD 2 [] = es) ∧ (scB []).kernel.qdepth.getD 2 0 = 16 ∧
    ({ wordKernel with qdepth := [16, 16] } : Kernel).qdepth.getD 2 0 = 0 ∧ (scB [9]).claimed 2 32 = 0 ∧ (scB []).kPending 0 32 = false ∧ { scB [] with kpend := [⟨2, 0, 1, 32⟩] }.kPending 0 32 = true := by decide +kernel
def mbB (n : Nat) (ps : List (Nat × Bool)) (d : Bool) : Block := { kBlock 4 4 with bars := List.replicate 16 ⟨n, d, ps.length, 0, ps⟩ }
theorem witness_MatrixControlWords_bars : (∀ x ∈ [(0, [], false), (2, [], false), (2, [], true), (2, [(32, true)], false), (2, [(32, false)], false), (2, [(32, false)], true)],
      MatrixAt (matr (mbB x.1 x.2.1 x.2.2)) (mbB x.1 x.2.1 x.2.2) ∧ ((mbB x.1 x.2.1 x.2.2).barrier 15).reload = x.1 ∧ ((mbB x.1 x.2.1 x.2.2).barrier 15).draining = x.2.2) := by decide +kernel
def tlB (h : W64) : Block := { wordBlock with k := [(3, h), (4, 4)] }
def tlS (h : W64) : State := { matr (tlB h) with engines := [eng] }
theorem witness_MatrixControlWords_tlwait : (∀ h ∈ [0x1000020000000001, 0x20000000002, 0x20000000001], MatrixAt (tlS (BitVec.ofNat 64 h)) (tlB (BitVec.ofNat 64 h))) ∧ handleBad 0x1000020000000001 = true ∧ handleBad 0x20000000002 = false ∧
    handleCtx (tlS 0) 1 0x20000000002 = none ∧ handleCtx (tlS 0) 1 0x20000000001 = some eng ∧ eng.timeline.toNat < ((tlB 0).readK 0 4).toNat ∧ ((tlB 0).readK 0 0).toNat ≤ eng.timeline.toNat := by decide +kernel
theorem witness_MatrixControlWords_loop : ∀ n ∈ [0, 1, 2], MatrixAt (matr (kBlock 2 (BitVec.ofNat 64 n))) (kBlock 2 (BitVec.ofNat 64 n)) ∧ ((kBlock 2 (BitVec.ofNat 64 n)).readK 0 2).toNat = n := by decide +kernel

/-! Traps, debugging and contexts -/

theorem some_ok {α ε β : Type} {p : α × Except ε β} (h : p.2.toOption.isSome = true) : ∃ b, p = (p.1, .ok b) := by
  rcases p with ⟨a, _ | x⟩
  · cases h
  · exact ⟨x, rfl⟩
theorem is_error {α ε β : Type} {p : α × Except ε β} (h : p.2.toOption.isSome = false) : ∃ d, p = (p.1, .error d) := by
  rcases p with ⟨a, d | x⟩
  · exact ⟨d, rfl⟩
  · cases h
def teC : Cause := causeAt (sg []) 2 0 0 0 0x10000 0 0x77
def teG : Group := { sg [(1, 11), (5, 55)] with pend := some teC }
/-- A frame address that the tables map, or not. -/
def teS (tf : W64) : State := { trapped with ctxs := [{ wordCtx with desc := { wordDesc with tfbase := tf } }] }
def teW (tf : W64) : State × Except (Deny × W64) Unit :=
  writeVirt (teS tf) 1 tf (frameBytes teG ((teS tf).block? (blockOf gref)) teC false (stopEntries teG))
theorem witness_TrapsAndReturns_entry : (teS 0x1000000).group? teG.ref = some teG ∧ teG.pend = some teC ∧ ((teS 0x1000000).ctx? 1).isSome = true ∧ frameIndex gref = 0 ∧
    resultsOut (teS 0x1000000) gref = false ∧ resultsOut (slow (teS 0x1000000)) gref = true ∧ teG.trapm = false ∧ teG.hold ≠ .stopped ∧ stopsFor (teS 0x1000000) teG teC = false ∧ teG.stopReq = false := by decide +kernel
theorem witness_TrapsAndReturns_frames : (∃ b, teW 0x1000000 = ((teW 0x1000000).1, .ok b)) ∧ ∃ d, teW 0x80000000 = ((teW 0x80000000).1, .error d) :=
  ⟨some_ok (by decide +kernel), is_error (by decide +kernel)⟩
theorem witness_TrapsAndReturns_double : (scal { sg [] with trapm := true }).block? (blockOf gref) = some wordBlock ∧ wordBlock.test = false ∧ ((scal (sg [])).ctx? (sg []).ctx).isSome = true ∧
    (causeAt (sg []) 2 0 0 0 0 0 0).src = 0 := by decide +kernel
def hrS (fsr : Nat) : State := put 0x1000038 4 fsr handler
theorem witness_TrapsAndReturns_return : (Instr.joinL lw).wf = true ∧ (∀ f ∈ [0, 0x8000], LaneAt (hrS f) handlerGroup wordBlock [] [] true ∧ ((hrS f).ctx? 1).isSome = true ∧
      bit (fieldAt (freshRead (hrS f) 0 0x1000000 64) 56 4) 15 = decide (f = 0x8000)) ∧ handlerGroup.stack = ⟨0, 0, 0, 3⟩ :: ⟨2, 0, 0, 3⟩ :: [⟨1, 0, 0, 3⟩] ∧ handlerGroup.trapm = true ∧ handlerGroup.loads = [] ∧
    resultsOut (hrS 0) gref = false ∧ handlerGroup.held = none ∧ handlerGroup.heldSeq = none := by decide +kernel
theorem witness_TrapsAndReturns_frame_read : (xlats (hrS 0) handlerGroup wordBlock .read 8 [(0, 0x1000000)]).map (fun x => (x.1, x.2.1, x.2.2.pa)) = [(0, 0x1000000, 0x1000000)] := by decide +kernel
theorem witness_TrapsAndReturns_illegal : ScalarCur (scal gi) gi wordBlock ∧ LaneCur (lane gi) gi wordBlock ∧ (matr wordBlock).cur = .matrix wordBlock.ref ∧ (matr wordBlock).block? wordBlock.ref = some wordBlock := by decide +kernel
-- The frame holds an uncorrectable error.
def hpS : State := { hrS 0 with poison := [0x1000FFF] }
theorem witness_TrapsAndReturns_spoilt_frame : poisoned hpS 0x1000000 4096 = true ∧ poisoned (hrS 0) 0x1000000 4096 = false ∧ LaneAt hpS handlerGroup wordBlock [] [] true := by decide +kernel
-- The debugger's group: running, in trap mode, stopped, ended, or of another context.
def dbG (h : DebugHold) (t e : Bool) : Group := { sg [(1, 5)] with hold := h, trapm := t, exited := e }
def dbS (g : Group) : State := { installWord State.reset 32 0 with agenda := [], groups := [g] }
theorem witness_DebugCommands : isSysWriter .sys = true ∧ (∀ x ∈ [(DebugHold.run, false, false), (.run, true, false), (.stopped, false, false), (.stepLane, false, false), (.run, false, true)],
      (dbS (dbG x.1 x.2.1 x.2.2)).group? gref = some (dbG x.1 x.2.1 x.2.2) ∧ ((dbS (dbG x.1 x.2.1 x.2.2)).ctx? 1).isSome = true ∧ ((dbS (dbG x.1 x.2.1 x.2.2)).block? wordBlockRef).any (·.test) = false ∧
      resultsOut (dbS (dbG x.1 x.2.1 x.2.2)) gref = false) ∧ (dbG .run false false).pend = none ∧ (dbG .stopped false false).held = none ∧ (dbG .stopped false false).heldSeq = none ∧ (dbG .run false false).ctx ≠ 2 := by decide +kernel
theorem witness_DebugCommands_frame : ∃ bs, readVirt (dbS (dbG .stopped false false)) 1 false 0x1000000 4096 = ((readVirt (dbS (dbG .stopped false false)) 1 false 0x1000000 4096).1, .ok bs) :=
  some_ok (by decide +kernel)
-- STOP's frame can be written, or not.
def dbF (tf : W64) : State × Except (Deny × W64) Unit :=
  writeVirt { dbS (dbG .run false false) with ctxs := [{ wordCtx with desc := { wordDesc with tfbase := tf } }] } 1 tf (List.replicate 4096 0)
theorem witness_DebugCommands_stop : (∃ b, dbF 0x1000000 = ((dbF 0x1000000).1, .ok b)) ∧ ∃ d, dbF 0x80000000 = ((dbF 0x80000000).1, .error d) :=
  ⟨some_ok (by decide +kernel), is_error (by decide +kernel)⟩

-- Fault entries: 7 is pending and holds the group's lane stream and nothing else; the queue's ring is empty or full.
def fqPend : Pending := ⟨7, 1, 0, 0x1000, none⟩
def fqPark : Park := ⟨[7], false, [], [], 0x1000, 3⟩
def fqEnt : FqEntry := ⟨1, 0, 7, 1, 0, 0, 0x1000, 0⟩
def fqS (tail : Nat) (posts : List FqEntry) : State :=
  put 0x28004 4 tail { installWord State.reset 32 0 with agenda := [], groups := [{ sg [] with parkL := some fqPark }], ctxs := [{ wordCtx with pending := [fqPend], posts := posts }] }
theorem witness_FaultQueues : isSysWriter .sys = true ∧ ((fqS 0 []).ctxs.map fun x => (x.pending.find? (fun q => q.id = (7#16).toNat), x.slots.length + x.dones.length + x.bells.length, x.posts)) = [(some fqPend, 0, [])] ∧
    (∀ p ∈ [fqPend], p.id ≠ (8#16).toNat) ∧ fqPend.chain = none ∧ (fqS 0 []).group? gref = some { sg [] with parkL := some fqPark } ∧ fqPark.ids = [(7#16).toNat] ∧ fqPark.fatal = false ∧
    ((fqS 0 []).ctx? 1).isSome = true := by decide +kernel
theorem fqS_ctx (tail : Nat) (posts : List FqEntry) : (fqS tail posts).ctx? 1 = some { wordCtx with pending := [fqPend], posts := posts } := rfl
def fqRead (tail : Nat) : State × Except (Deny × W64) (List Byte) := readVirt (fqS tail [fqEnt]) 1 false 0x28000 8
def fqWrite : State × Except (Deny × W64) Unit := writeVirt (fqRead 0).1 1 (0x28000 + BitVec.ofNat 64 (64 + 32 * (0 % 64))) (fqBytes 1 1 fqEnt)
theorem witness_FaultQueues_post : (∃ bs, fqRead 0 = ((fqRead 0).1, .ok bs)) ∧ (∃ b, fqWrite = (fqWrite.1, .ok b)) ∧ (∃ b, writeVirt fqWrite.1 1 (0x28000 + 4) (bytesOf 4 1) = ((writeVirt fqWrite.1 1 (0x28000 + 4) (bytesOf 4 1)).1, .ok b)) ∧
    ([0, 64].map fun t => (fqRead t).2.toOption.map fun bs => decide (2 ^ 6 ≤ (fieldAt bs 4 4 + 2 ^ 32 - fieldAt bs 0 4) % 2 ^ 32)) = [some false, some true] :=
  ⟨some_ok (by decide +kernel), some_ok (by decide +kernel), some_ok (by decide +kernel), by decide +kernel⟩
-- No fault waits for an ID to free.
theorem witness_FaultQueues_posted : fqPark.unposted = [] ∧ (∀ g ∈ (fqS 0 []).groups, g.parkS.isNone = true ∧ g.parkL = some fqPark) ∧ (∀ b ∈ (fqS 0 []).blocks, b.seq.park = none) ∧
    (fqS 0 []).copies = [] ∧ (fqS 0 []).engines = [] := by decide +kernel
-- Contexts undefined, defined, resident and draining; a sound descriptor and none; 16 residents; CTXCMD busy.
def ctS (st : CtxState) : State := { base with ctxs := [{ wordCtx with st := st }] }
def ctFree (st : CtxState) : State := { ctS st with blocks := [], groups := [] }
def descS : State := put 0x1058 1 6 (put 0x100A 4 0x20001 { State.reset with regs := { State.reset.regs with ctxbase := 0xF00 } })
theorem witness_ContextCommands : (ctS .defined).regs.ctxBusy = false ∧ ctxState State.reset 1 = .undefined ∧ (∀ st ∈ [CtxState.defined, .resident, .draining], ctxState (ctS st) 1 = st) ∧
    descS.regs.ctxbase.toNat + 256 * (1#8).toNat = 0x1000 ∧ (descOf (fun k => (saveKey descS k).isSome) (memBytes descS 0x1000 256)).isSome = true ∧ poisoned descS 0x1000 256 = false ∧ ctxState descS 1 = .undefined ∧
    descOf (fun _ => false) (memBytes State.reset 0 256) = none ∧ ctxBlocks (ctFree .resident) 1 = [] ∧ ctxBlocks (ctS .resident) 1 ≠ [] ∧
    ((ctFree .resident).ctxs.all fun x => x.restores.isEmpty && !x.saving) = true ∧ ((List.replicate 16 ({ wordCtx with st := .resident } : Ctx)).filter fun y => y.st == .resident).length = 16 := by decide +kernel
theorem witness_ContextCommands_makeres : checkImages (ctS .defined) { wordCtx with st := .defined } = (ctS .defined, .ok []) ∧ ∃ s2, loadIslands (ctS .defined) { wordCtx with st := .defined } = some s2 ∧
    s2.ctx? 1 = some { wordCtx with st := .defined } := by
  refine ⟨by simp only [checkImages]; rfl, ?_⟩
  have h : loadIslands (ctS .defined) { wordCtx with st := .defined } = some (ctS .defined) := by rfl
  exact ⟨_, h, rfl⟩
-- A descriptor with an uncorrectable error; MAKERES in D3hot, with an image table that is malformed, and with an island under suspicion.
def hotS : State := { ctS .defined with power := .d3hot }
def susCtx : Ctx := { wordCtx with st := .defined, ports := [⟨3, 0, 1, 0⟩] }
def susS : State := { ctS .defined with ctxs := [susCtx], images := [addImage], islands := [{ Island.reset with detected := true }] }
theorem witness_ContextCommands_refused : poisoned { descS with poison := [0x10FF] } 0x1000 256 = true ∧ hotS.power = .d3hot ∧ (ctS .defined).power ≠ .d3hot ∧ loadIslands susS susCtx = none ∧
    checkImages susS susCtx = (susS, .ok []) :=
  ⟨by decide +kernel, by decide +kernel, by decide +kernel, by decide +kernel, by simp only [checkImages]; rfl⟩
-- Deadlines of 1 and 2 microseconds from cycle 0; a save that begins, one that is ready, and the second deadline.
def dlX (saving : Bool) (flags : BitVec 8) : Ctx := { wordCtx with st := .draining, preStart := some 0, saving := saving, desc := { wordDesc with flags := flags } }
def dlS (cycle : Nat) (saving : Bool) (flags : BitVec 8) : State := { base with ctxs := [dlX saving flags], cycle := cycle }
theorem witness_ContextCommands_deadlines : wordDesc.d1 * Config.cyclesPerUs = 1200 ∧ wordDesc.d2 * Config.cyclesPerUs = 2400 ∧ savecap (dlX false 1).desc = true ∧ savecap (dlX false 0).desc = false ∧
    isProtected (dlX false 1).desc = false ∧ (∀ n ∈ [1199, 1200, 2399, 2400], (dlS n false 1).cycle = n ∧ (dlS n false 1).ctx? 1 = some (dlX false 1)) ∧ ctxBlocks (dlS 1200 false 1) 1 ≠ [] ∧
    saveReady (beginSave (slow (dlS 1200 false 1)) 1) 1 = false ∧ saveReady (dlS 1200 true 1) 1 = true ∧ (∀ b ∈ (dlS 1200 true 1).blocks, (dlS 1200 true 1).block? b.ref = some b) := by decide +kernel
theorem witness_RegisterWrites : isSysWriter .sys = true ∧ isSysWriter .host = false ∧ (scal (callG (some ⟨0, none⟩))).groups.find? (Group.calls 0) = some (callG (some ⟨0, none⟩)) ∧
    (scal (callG (some ⟨0, none⟩))).group? gref = some (callG (some ⟨0, none⟩)) ∧ (∀ g ∈ (scal (sg [])).groups, g.calls 0 = false) ∧ (∀ x ∈ (scal (sg [])).ctxs, x.saved = []) ∧ 0x79000 ≤ (0x79000#26).toNat := by decide +kernel
-- DOORBELL for queue 0 of context 1: TAIL 0 and 1 where HEAD and TAIL are 0, TAIL 3 of a ring of two, a closed queue, a clean and an unclean value.
def dbV (tail : Nat) : W64 := BitVec.ofNat 64 (2 ^ 56 + tail)
def ubS (flags : Nat) : State := { spS 0 flags with agenda := [] }
def ubRead (flags : Nat) : State × Except Hold (List Byte) := unitRead (ubS flags) 1 7 0 0x20000 128
def ubDesc (flags : Nat) : Option QDesc := (ubRead flags).2.toOption.bind queueDesc
theorem witness_RegisterWrites_doorbell : (∃ bs, ubRead 3 = ((ubRead 3).1, .ok bs)) ∧ ubDesc 0 = none ∧ ubDesc 1 = some ⟨0x40000, 1, false, List.replicate 8 0, List.replicate 8 0⟩ ∧
    ubDesc 3 = some ⟨0x40000, 1, true, List.replicate 8 0, List.replicate 8 0⟩ ∧ (dbV 1).extractLsb' 56 8 = 1 ∧ bits (dbV 3).toNat 31 0 = 3 ∧ bits (dbV 1).toNat 55 54 = 0 ∧ bits (dbV 1).toNat 47 43 = 0 ∧ bits (dbV 1).toNat 39 32 = 0 ∧
    ctxState (ubS 1) 1 = .resident ∧ queueVa (ubS 1) 1 0 = 0x20000 ∧ ((ubS 1).ctx? 1).all (fun x => x.slots.isEmpty) = true ∧ ¬ bits (2 ^ 63 : Nat) 63 54 = 0 := ⟨some_ok (by decide +kernel), by decide +kernel⟩
def ubTail : State × Except Hold Unit := unitWrite (ubRead 3).1 1 7 0 (0x20000 + BitVec.ofNat 64 68) (bytesOf 4 1)
def ubSlot : Slot := Slot.mk 0 0 0 none false none false none none none none ubTail.1.cycle [] true
def ubAddr : State × Except Hold W64 := slotAddr (ubTail.1.modCtx 1 fun x => { x with slots := x.slots ++ [ubSlot] }) 1 ubSlot
def ubRec : State × Except Hold (List Byte) := unitRead ubAddr.1 1 7 0 0x40000 64
theorem witness_RegisterWrites_slot : (∃ b, ubTail = (ubTail.1, .ok b)) ∧ ubAddr.2.toOption = some 0x40000 ∧ ubRec.2.toOption = some (List.replicate 64 0) ∧ recForm (slotOf (List.replicate 64 0)) ≠ 1 ∧
    recJoin (slotOf (List.replicate 64 0)) = 0 := ⟨some_ok (by decide +kernel), by decide +kernel, by decide +kernel, by decide +kernel, by decide +kernel⟩
-- Two writes of the host still to perform; a masked vector and one that is not; an answer with an uncorrectable error.
def hostS : State := { State.reset with hostPend := [(0x100, [1, 2]), (0x200, [3])], poison := [0x10] }
theorem witness_RegisterWrites_pending : hostS.hostPend[1]? = some (0x200, [3]) ∧ 0x200 + [3].length ≤ physTop ∧ (State.reset.regs.msixWord (2 * 5 + 1)).getLsbD 32 = true ∧
    ((unmasked State.reset).regs.msixWord (2 * 5 + 1)).getLsbD 32 = false ∧ poisoned hostS (0 + 16) 16 = true := by decide +kernel

/-! The device -/

def tlbS (busy : Bool) (ws : List PendWrite) : State := { base with regs := { State.reset.regs with tlbBusy := busy }, cores := [{ Core.reset with pend := ws }], groups := [{ sg [] with loads := [outLoad] }] }
def ackWs : List PendWrite := [⟨0x100, [1, 2], false, .scalar gref, 0⟩, ⟨0x101, [3], false, .scalar gref, 0⟩, ⟨0x200, [4], true, .scalar gref, 0⟩]
def lnG (limit : Nat) : Group := { sg [] with waits := ⟨none, none, some ⟨0, limit, false⟩⟩ }
theorem witness_UnitEvents : ((tlbS false []).regs.tlbBusy = false ∧ (tlbS true []).regs.tlbBusy = true) ∧ (∃ k ∈ (tlbS true ackWs).cores, k.pend ≠ []) ∧ (∀ k ∈ (tlbS true []).cores, k.pend = []) ∧
    (15#4).toNat < (tlbS true []).regs.scpart.length ∧ ((tlbS true ackWs).core (0#6).toNat).pend = ackWs ∧ ackWs[3]? = none ∧ ackWs[1]? = some ⟨0x101, [3], false, .scalar gref, 0⟩ ∧ ackWs[2]? = some ⟨0x200, [4], true, .scalar gref, 0⟩ ∧
    (∃ v ∈ ackWs.take 1, v.uo = false ∧ v.pa < 0x101 + 1 ∧ 0x101 < v.pa + v.bytes.length) ∧ 0x200 + 1 ≤ physTop ∧
    (∀ n ∈ [0, 1], (scal (lnG n)).group? gref = some (lnG n)) ∧ ¬ (0 + 1 ≤ (scal (lnG 1)).cycle) ∧ 0 + 1 ≤ ({ scal (lnG 1) with cycle := 1 } : State).cycle := by decide +kernel
-- Two UO writes of threads 1 and 2 by one lane word.
def wordWs : List PendWrite := [⟨0x100, [1], true, .thread gref 1, 7⟩, ⟨0x100, [2], true, .thread gref 2, 7⟩]
theorem witness_UnitEvents_word : ((tlbS true wordWs).core (0#6).toNat).pend = wordWs ∧ ∀ v ∈ wordWs.take 1, v.cycle = 7 ∧ v.who = .thread gref 1 ∧ v.uo = true ∧ v.pa < 0x100 + 1 ∧ 0x100 < v.pa + v.bytes.length := by
  decide +kernel
-- Power: busy and idle, COLDFAIL, bad ranges, every power state. Two clauses, and the resume, also ask for free constants of Config.
def pwS (p : Power) (pr : W64) : State := { State.reset with power := p, regs := { State.reset.regs with pranges := pr } }
theorem witness_PowerEvents : Writer.host ≠ .other ∧ (pwS .d0 0).regs.pwrstat ≠ 6 ∧ ((base.ctxs.any fun x => onCompute base x.id) = true ∧ base.power = .d0 ∧ base.regs.pwrstat ≠ 6) ∧
    ((pwS .d0 0).ctxs.any fun x => onCompute (pwS .d0 0) x.id) = false ∧ powerRanges (pwS .d0 0x1004) = none ∧ powerRanges (pwS .d0 0) = some [] ∧ (pwS .d0 0).regs.pimgaddr.toNat + 64 ≤ physTop ∧
    (∀ p ∈ [Power.d0, .d3hot, .d3cold], (pwS p 0).power = p) ∧ (pwS .d3cold 0).regs.pimgaddr = 0 ∧ (pwS .d3cold 0).alwaysOn = true := by
  refine ⟨by decide, by decide +kernel, by decide +kernel, by decide +kernel, by decide +kernel, by rfl, by decide +kernel, by decide +kernel, by decide +kernel, by decide +kernel⟩
-- A power image's counter is wherever the free constant of Config puts it: memory that lists nothing holds 0 there.
def rsS (rc : W64) : State := { State.reset with power := .d3cold, rc := rc, regs := { State.reset.regs with pimgaddr := 0x1000 } }
theorem zero_field : ∀ k : Fin 57, fieldAt (List.replicate 64 0) k.val 8 = 0 := by decide +kernel
theorem witness_PowerEvents_resume : (∀ rc : W64, memBytes (warmReset (dropGddr (rsS rc))) 0x1000 64 = List.replicate 64 0) ∧ fieldAt (List.replicate 64 0) Config.powerCounterAt.val 8 = (rsS 0).rc.toNat ∧
    fieldAt (List.replicate 64 0) Config.powerCounterAt.val 8 ≠ (rsS 5).rc.toNat ∧ (rsS 0).powerImage = none := by
  refine ⟨fun rc => ?_, zero_field _, by rw [zero_field]; decide +kernel, rfl⟩
  have h : (warmReset (dropGddr (rsS rc))).mem = [] := by
    unfold warmReset bringUp; cases Config.firmwareVerifies <;> cases Config.channelsTrain <;> rfl
  simp only [memBytes, memByte, h]; rfl
-- A range with an uncorrectable error; a power image in host memory, whose header has one.
def psS : State := { rsS 0 with regs := { (rsS 0).regs with pimgaddr := 0x200000000000 }, poison := [0x20000000003F] }
theorem gddr_small : gddrTop ≤ 48 * 2 ^ 30 := Nat.mul_le_mul_right _ (Nat.le_of_lt_succ Config.gddrGiB.isLt)
theorem witness_PowerEvents_spoilt : saveSpoiled { pwS .d0 0x1001 with poison := [0x1008] } = some 0x1008 ∧ saveSpoiled (pwS .d0 0) = none ∧ (warmReset (dropGddr psS)).poison = [0x20000000003F] := by
  refine ⟨by decide +kernel, by decide +kernel, ?_⟩
  have h : (dropGddr psS).poison = [0x20000000003F] := by
    have := gddr_small
    simp [dropGddr, psS]; omega
  have k : ∀ s : State, (warmReset s).poison = s.poison := by
    intro s; unfold warmReset bringUp; cases Config.firmwareVerifies <;> cases Config.channelsTrain <;> rfl
  rw [k, h]
def stSt (loop : Bool) (prog : Nat) (busy : Bool) : State := put 0x200 8 prog (markDetected { State.reset with cores := listSet State.reset.cores 5 { Core.reset with loopMode := loop }, regs := { State.reset.regs with stprog := 0x200, stBusy := busy } } (.core 5))
theorem witness_SelfTests : unitIdle (stSt false 0 false) (.core 5) = true ∧ unitDetected (stSt false 0 false) (.core 5) = true ∧ unitDetected (stSt false 0 false) (.core 6) = false ∧ (5#6).toNat < (stSt false 0 false).cores.length ∧
    (stSt false 0 true).regs.stBusy = true ∧ (stSt false 0 false).blocksOn 5 = [] ∧ coreTakes (stSt false 0 false) 5 = false ∧ coreTakes State.reset 5 = true ∧ ((stSt true 0x4000 false).core 5).loopMode = true ∧
    memNat (stSt true 0x4000 false) 0x200 8 = 0x4000 ∧ memNat (stSt true 0x4000 false) 0x208 8 = 0 ∧ memNat (stSt true 0x4000 false) 0x210 8 = 0 ∧ memNat (stSt true 0x4000 false) 0x218 40 = 0 ∧
    memNat (stSt true 0x4002 false) 0x200 8 % 4 ≠ 0 ∧ (stSt true 0x4000 false).regs.stCore = 0 := by decide +kernel
theorem witness_SelfTests_units : ∀ u ∈ [UnitRef.island 0, .cacheSlice 0, .bulk 0], unitIdle (markDetected State.reset u) u = true ∧ unitDetected (markDetected State.reset u) u = true := by decide +kernel
-- The program header holds an uncorrectable error.
theorem witness_SelfTests_header : poisoned { stSt true 0x4000 false with poison := [0x23F] } 0x200 64 = true := by decide +kernel
theorem witness_HeadsAndBudget : State.reset.heads.length = 4 ∧ (∀ x ∈ [(0x80000000#32, 0), (0xC8000000#32, 0), (0xC8000000#32, 1), (0x84000000#32, 0), (0x40000000#32, 0)], (headState x.1 x.2).heads.length = 4 ∧ ((headState x.1 x.2).head 1).lockedFrames = x.2) ∧
    ((headState 0xC8000000 1).head 1).ctl.getLsbD 27 = true ∧ ((headState 0xC8000000 1).head 1).fsyncAt = some 0 ∧ ((headState 0xC8000000 1).head 1).releasing = false ∧ State.reset.regs.tokmw ≠ 0 ∧
    3 * Config.cyclesPerMs = 3600000 ∧ ({ State.reset with lastGrant := some 0 } : State).lastGrant = some 0 := by decide +kernel
-- A follower that waits for its pulse, within its line and past it; a pulse before the frame start; a leader.
def fhS (awaits : Option Nat) (cycle : Nat) : State :=
  { State.reset with heads := listSet State.reset.heads 1 { Head.reset with ctl := 0xC0000000, lockedFrames := 1, awaits := awaits, fsyncAt := some 0 }, cycle := cycle }
theorem witness_HeadsAndBudget_pulses : (∀ n ∈ [0, Config.lineCycles, Config.lineCycles + 1], ((fhS (some 0) n).head 1).awaits = some 0 ∧ ((fhS none n).head 1).fsyncAt = some 0 ∧ (fhS none n).cycle = n) ∧
    ((fhS none 0).head 1).ctl.getLsbD 30 = true ∧ ((headState 0x80000000 0).head 1).ctl.getLsbD 30 = false := ⟨fun _ _ => ⟨rfl, rfl, rfl⟩, by decide +kernel, by decide +kernel⟩

-- The array: no request, one that fits and one that lacks tokens; a pass at gear 1 with an infinite A element and no budget, below its ceiling and at it; early and due.
def arP (granted : Bool) (ceil : Nat) : Block := { wordBlock with scratch := [(2, 0x80), (3, 0x7F)], lock := some (0, 512), seq := { wordBlock.seq with
    pass := some ⟨pack 0x180 (mmW 0), 0, 1, 1, ceil, 0, 0, granted, if granted then 4 else 0, 1, 0⟩ } }
def arS (granted : Bool) (ceil pool cycle : Nat) : State :=
  { matr (arP granted ceil) with cores := [{ Core.reset with array := if granted then some 0 else none, tokens := if granted then 4 else 0 }], cycle := cycle, regs := { State.reset.regs with pool := pool } }
theorem witness_ArrayAndDraft : (0#6).toNat < (arS false 3 128 0).cores.length ∧ chosen base 0 = none ∧ chosen (arS false 3 128 0) 0 = some ⟨0, 0, 4, false, true⟩ ∧
    grantable (arS false 3 128 0) 0 ⟨0, 0, 4, false, true⟩ = true ∧ grantable (arS false 3 3 0) 0 ⟨0, 0, 4, false, true⟩ = false ∧ ((arS false 3 128 0).core 0).array = none ∧
    ((arS true 3 128 0).core 0).array = some 0 ∧ (arS true 3 128 0).block? ⟨0, 0⟩ = some (arP true 3) ∧ attemptCycles (mmaOf (pack 0x180 (mmW 0))).rows 1 = 13 ∧ (∀ c ∈ [12, 13], (arS true 3 128 c).cycle = c) ∧ 1 < 3 := by decide +kernel
theorem witness_ArrayAndDraft_again : (attemptAt (passData (arP true 3) ⟨pack 0x180 (mmW 0), 0, 1, 1, 3, 0, 0, true, 4, 1, 0⟩) 1 1 128).passes 0 = true := by decide +kernel
-- The draft unit: a tile that forms at 512 cycles, one whose network reads, one with a FATAL verdict, and one at an attempt.
def drRow : DraftRow := ⟨gref, 1, 0, 0, 9, [0x7F800000], 0, 0x2A000, none, false, false⟩
def drT (run : Option TileRun) (fatal : Bool) : DraftTile := ⟨1, 9, 0x2A000, 0, some 512, [drRow], run, [], fatal⟩
def drS (t : DraftTile) (cycle : Nat) : State :=
  put 0x2A000 3 0xF0001 (put 0x2A040 24 (2 ^ 64 * 0x2B000 + 2 ^ 128 * 0x2C000) { installWord State.reset 32 0 with agenda := [], cycle := cycle, cores := [{ Core.reset with array := some 8, tokens := 4, tiles := [t] }] })
def drNet : Net := ⟨0xC, 0, 1, [⟨0, 0, 0, 0, [], [], []⟩]⟩
def drRun (granted : Bool) : TileRun := ⟨drNet, [rowFeatures { drRow with word := 0 } 1], 0, 1, 1, 0, granted, 0⟩
theorem witness_ArrayAndDraft_tiles : unreadTiles ((drS (drT none false) 600).core 0) = [drT none false] ∧ unreadTiles ((drS (drT none true) 600).core 0) = [drT none true] ∧
    ((drS (drT none false) 600).core 0).tiles.findIdx? (· = drT none false) = some 0 ∧ unreadTiles ((base).core 0) = [] ∧
    activeTile ((drS (drT (some (drRun true)) false) 600).core 0) = some (0, drT (some (drRun true)) false) ∧
    nextTile ((drS (drT (some { drRun false with attempts := 0 }) false) 600).core 0) = some (0, drT (some { drRun false with attempts := 0 }) false) ∧ (∀ r ∈ ((drS (drT none false) 600).core 0).rowsWait, r.wait.isSome = true) ∧
    attemptCycles (drRun true).rows 1 = 28 ∧ (drRun true).gear ≠ bits drNet.gears.toNat 1 0 := by decide +kernel
theorem witness_ArrayAndDraft_tile_again : (attemptAt (layerData (drRun true)) 1 1 1).passes drNet.budget = true := by decide +kernel
-- A network of two layers, at its first.
def drTwo : TileRun := { drRun true with net := { drNet with layers := [⟨0, 0, 0, 0, [], [], []⟩, ⟨0, 0, 0, 0, [], [], []⟩] } }
theorem witness_ArrayAndDraft_next_layer : drTwo.layer + 1 < drTwo.net.layers.length ∧ activeTile ((drS (drT (some drTwo) false) 600).core 0) = some (0, drT (some drTwo) false) := by decide +kernel
theorem tile_ok {α β : Type} {p : α × TileRead β} (h : (match p.2 with | .ok _ => true | _ => false) = true) : ∃ b, p = (p.1, .ok b) := by
  rcases p with ⟨a, b | i | n⟩
  · exact ⟨b, rfl⟩
  · cases h
  · cases h
theorem witness_ArrayAndDraft_network : ∃ net, readNet (drS (drT none false) 600) 1 0 0x2A000 = ((readNet (drS (drT none false) 600) 1 0 0x2A000).1, .ok net) := tile_ok (by decide +kernel)
-- A tile that keeps the array asks again beside an older pass; the last layer of the row of one NEVAL; a row that joins a tile and one that comes too late.
def arK : State := { arS false 3 128 700 with cores := [{ Core.reset with array := some 8, tiles := [drT (some { drTwo with granted := false, layer := 1, stamp := 600 }) false] }] }
theorem witness_ArrayAndDraft_holds : (candidates arK 0).map (·.holds) = [true, false] ∧ (chosen arK 0).map (·.holder) = some 8 := by decide +kernel
-- A younger request, chosen before the older one came back.
def arC : State := { arS false 3 128 700 with cores := [{ Core.reset with chosen := some (8, 600), tiles := [drT (some { drRun false with attempts := 0, stamp := 600 }) false] }] }
theorem witness_ArrayAndDraft_kept : (∀ q ∈ candidates arC 0, q.holds = false) ∧ (∃ q ∈ candidates arC 0, (q.holder, q.stamp) = (8, 600)) ∧ (∃ q ∈ candidates arC 0, q.stamp < 600) ∧
    (chosen arC 0).map (·.holder) = some 8 := by decide +kernel
def drN : NevalWord := ⟨gref, 0, 0, 1, 0, 0, [], 0, []⟩
def drRw : DraftRow := { drRow with word := 0 }
theorem witness_ArrayAndDraft_last : drN.g = drRw.g ∧ drN.word = drRw.word ∧ drN.waiting = threadBit drRw.t ∧ drRw.dropped = false ∧ drRw.t < 32 ∧ (drRun true).net.layers.length ≤ (drRun true).layer + 1 := by
  decide +kernel
def opT : DraftTile := { drT none false with formed := none }
theorem witness_ArrayAndDraft_joins : opT.ctx = drRow.ctx ∧ opT.handle = drRow.handle ∧ opT.formed = none ∧ { drRow with at' := 511 }.at' < opT.opened + 512 ∧ ¬ ({ drRow with at' := 512 } : DraftRow).at' < opT.opened + 512 := by
  decide +kernel

-- Engines: a command of each kind of the chain of the engine of core 2, sound and not; a WAIT on a timeline that has come and one that has not.
def chC : Cmd := ⟨1, 0x1000, some 0, 0, false, false, none, ⟨[], [], false⟩⟩
def chS (e : Nat) : State := cmdState e id
theorem witness_EngineCommands : ((∀ k ∈ [0, 1, 2, 3, 4, 9], ((chS k).engine? ⟨2, 0⟩).map (fun x => (x.stopped, x.halted, x.tail, (x.cmd? 1).map (·.n))) = some (false, false, 1, some 1) ∧
      ((chS k).engine? ⟨2, 0⟩).any (fun x => engineBegins (chS k) x 1) = true ∧ (entryOf (BitVec.ofNat 512 k)).kind = k) ∧ engineServes (chS 0) 2 = true) ∧ (entryOf 9).ok true [] = false ∧
    (∀ k ∈ [0, 3], (entryOf (BitVec.ofNat 512 k)).ok true [] = true) := by decide +kernel
-- One byte copied from 0x5000 to 0x6000, and one filled there.
def mvE (kind : Nat) : Slot64 := BitVec.ofNat 512 (kind + 2 ^ 8 + 2 ^ 64 * 0x5000 + 2 ^ 128 * 0x6000 + 2 ^ 192)
def mvS (kind : Nat) : State := { installWord State.reset 32 0 with agenda := [], engines := [cmdEngine ⟨1, 0x1000, some (mvE kind), 0, false, false, none, ⟨[], [], false⟩⟩], copies := [{ cp 0 false false with entry := mvE kind }] }
theorem move_done {p : CmdRes} (h : (match p with | .done _ _ => true | _ => false) = true) : ∃ s st, p = .done s st := by
  rcases p with ⟨s, st⟩ | _ | _ <;> first | exact ⟨_, _, rfl⟩ | cases h
theorem places_ok {α : Type} {p : α × MoveRes} (l : List Place) (h : (match p.2 with | .ok ps => decide (ps = l) | _ => false) = true) : p = (p.1, .ok l) := by
  rcases p with ⟨a, ps | n | f⟩
  · exact congrArg _ (congrArg _ (of_decide_eq_true h))
  · cases h
  · cases h
-- The same with an open choice: the byte is read now and written later.
def mvL (kind : Nat) : State := { mvS kind with choices := [0, 1] }
def mvN : Moved := ⟨[], [], false⟩
theorem move_later {p : CmdRes} (h : (match p with | .later _ _ => true | _ => false) = true) : ∃ s m, p = .later s m := by
  rcases p with _ | _ | ⟨s, m⟩ <;> first | exact ⟨_, _, rfl⟩ | cases h
def mv1 : State × MoveRes := enginePlaces (mvS 1) (some 2) 1 .read 1 [BitVec.ofNat 64 0x5000]
theorem witness_EngineCommands_move : (∀ k ∈ [1, 2], (entryOf (mvE k)).ok true [] = true ∧ (entryOf (mvE k)).kind = k ∧ (entryOf (mvE k)).count = 1 ∧ (entryOf (mvE k)).dkind = 0 ∧ (entryOf (mvE k)).skind = 0 ∧
      (entryOf (mvE k)).elem = 1 ∧ (entryOf (mvE k)).src = 0x5000 ∧ (entryOf (mvE k)).dst = 0x6000) ∧ engineCore ⟨2, 0⟩ = some 2 ∧ poisoned mv1.1 0x5000 1 = false ∧ pendOverlap mv1.1 2 0x6000 1 = false ∧ 0x6000 + 1 ≤ physTop := by
  decide +kernel
theorem witness_EngineCommands_places : mv1 = (mv1.1, .ok [.mem 0x5000 false]) ∧ (enginePlaces mv1.1 (some 2) 1 .write 1 [BitVec.ofNat 64 0x6000]) = ((enginePlaces mv1.1 (some 2) 1 .write 1 [BitVec.ofNat 64 0x6000]).1, .ok [.mem 0x6000 false]) ∧
    (∃ s st, move (mvS 1) 1 (engineCore ⟨2, 0⟩) none (entryOf (mvE 1)) mvN = .done s st) ∧ (∃ s st, move (mvS 2) 1 (some 0) ((mvS 2).block? (blockOf gref)) (entryOf (mvE 2)) mvN = .done s st) ∧
    (∃ s m, move (mvL 1) 1 (engineCore ⟨2, 0⟩) none (entryOf (mvE 1)) mvN = .later s m) ∧ (∃ s m, move (mvL 1) 1 (some 0) ((mvL 1).block? (blockOf gref)) (entryOf (mvE 1)) mvN = .later s m) ∧
    (enginePlaces mv1.1 (some 2) 1 .write 1 [BitVec.ofNat 64 0x6000]).1.choices = [] :=
  ⟨places_ok _ (by decide +kernel), places_ok _ (by decide +kernel), move_done (by decide +kernel), move_done (by decide +kernel), move_later (by decide +kernel), move_later (by decide +kernel), by decide +kernel⟩
-- A WAIT on timeline 3 of engine 2's own handle, for values 0 and 3, and on an engine that is not there.
def wtE (dst : Nat) (h : Nat) : Slot64 := BitVec.ofNat 512 (4 + 2 ^ 64 * h + 2 ^ 128 * dst)
theorem witness_EngineCommands_wait : (∀ x ∈ [(0, 0x20000000001), (3, 0x20000000001), (3, 0x20000000002)], (entryOf (wtE x.1 x.2)).ok true [] = true ∧ (entryOf (wtE x.1 x.2)).dst = x.1) ∧
    (handleCtx (chS 0) 1 (BitVec.ofNat 64 0x20000000002) = none) ∧ ((handleCtx (chS 0) 1 (BitVec.ofNat 64 0x20000000001)).map (·.timeline)) = some 0 := by decide +kernel
def endS (p c : Bool) (st : Nat) : State := cmdState 0 fun _ => ⟨1, 0x1000, some 0, st, p, c, none, ⟨[], [], false⟩⟩
def endOk (p c : Bool) (st : Nat) : Bool := ((endS p c st).engine? ⟨2, 0⟩).any fun e => !e.stopped && (e.cmds.find? (·.n = 1)).any (fun k => k.performed == p && k.completed == c && k.status == st) && e.cmds.all fun c => c.n < 2 ^ 64
def mvK : GCopy := ⟨gref, 1, 1, some 1, mvE 1, 0, 0, false, false, false, none, ⟨[], [], false⟩⟩
theorem witness_EngineCommands_ends : endOk false false 0 = true ∧ endOk true true 0 = true ∧ endOk true false 0 = true ∧ endOk true false 5 = true ∧ freeId wordCtx = some 0 ∧
    (mvS 1).copies.find? (fun k => k.g = gref && k.n = 1) = some mvK ∧ engineServes (mvS 1) 0 = true := by decide +kernel
-- A timeline whose advances act on other cores, reached by a WAIT; core 2 with a write that is not acknowledged.
theorem witness_EngineCommands_releases : ((handleCtx (chS 0) 1 (BitVec.ofNat 64 0x20000000001)).map fun y => decide (y.acts ≠ 0)) = some true ∧ engineCore ⟨2, 0⟩ = some 2 ∧
    (({ endS true true 0 with cores := List.replicate 3 { Core.reset with pend := [⟨0x100, [1], false, .scalar gref, 0⟩] } } : State).core 2).pend ≠ [] ∧ ((endS true true 0).core 2).pend = [] := by decide +kernel

-- Islands: two records of which the lower tag goes first, a record that has no room; a pass of the adder; a record for its queue, with room and full.
def isI (n : Nat) : State := islState { Island.reset with input := [{ rec0 with tag := 0x01000040 }, rec0], flight := List.replicate n { rec0 with words := [] } }
theorem witness_IslandEvents_accept : ((isI 0).island 0).state = 2 ∧ ((isI 0).island 0).input[1]? = some rec0 ∧ shareUsed (isI 0) 0 (tagCtx rec0.tag) < 64 ∧ ¬ shareUsed (isI 64) 0 (tagCtx rec0.tag) < 64 ∧
    rec0.tag.toNat ≤ (0x01000040#32).toNat ∧ rec0.ray = none ∧ (isI 0).group? (tagGroup rec0.tag) = some (sg []) ∧ ((isI 0).island 0).flight.any (fun r => r.wait.isSome) = false := by decide +kernel
def img3 : Image := { addImage with bytes := addImage.bytes.set 1026 66 }
def isP : State := islState { Island.reset with flight := [rec0] }
theorem fire_ok {α : Type} {p : CellRes α} (h : (match p with | .ok _ _ => true | _ => false) = true) : ∃ s r, p = .ok s r := by
  rcases p with ⟨s, r⟩ | _ | _ <;> first | exact ⟨_, _, rfl⟩ | cases h
theorem witness_IslandEvents_pass : (∃ s r, firePass 0 addImage rec0 (List.range 64) isP [] = .ok s r) ∧ (isP.island 0).image = some addImage ∧ (isP.island 0).flight = [rec0] ∧ rec0.wait = none ∧
    (img3.opc 0 = 2 ∧ img3.mode 0 = 0 ∧ img3.sel 0 0 = 64 ∧ img3.sel 0 1 = 65 ∧ img3.sel 0 2 = 66 ∧ (∀ m, m < 64 → 0 < m → img3.opc m = 0) ∧ img3.outw = 0 ∧ img3.field 64 1 = 0 ∧ img3.field 16 1 = 83) :=
  ⟨fire_ok (by decide +kernel), by decide +kernel, by decide +kernel, by decide +kernel, by decide +kernel⟩
def isD (n : Nat) (r : IslandRecord) : State := { islState { Island.reset with out := [r] } with blocks := [{ wordBlock with islq := [⟨3, List.replicate n none⟩] }] }
theorem witness_IslandEvents_deliver : (∀ n ∈ [0, 31, 32], ((isD n rec0).island 0).out = rec0 :: [] ∧ inOrder ((isD n rec0).island 0) rec0 = true ∧ ((isD n rec0).block? rec0.b).isSome = true ∧
      (((isD n rec0).block? rec0.b).bind fun b => islandQueue b rec0.port).map (·.entries.length) = some n) ∧ addImage.outkind = 0 ∧ rec0.close = false ∧
    (((isD 0 rec0).block? rec0.b).bind fun b => islandQueue b 4) = none := by decide +kernel
-- The shader table at 0x1000 of one entry; a hit record of kind 0 with index 0 and 1, of kind 2, and no entry.
def shY (out : List W32) : Ray := ⟨1, gref, 1, 2, 7, 0x1000, 0, 0, some out, none, false, 0⟩
def shS (out : List W32) (e : Nat) : State := put 0x1000 4 1 (put 0x1040 8 e { installWord State.reset 32 0 with agenda := [], groups := [sg []], rays := [shY out] })
def shT : State × Except (Deny × W64) (List Byte) := readVirt (shS [0, 0] 0) 1 false 0x1000 4
theorem witness_IslandEvents_shader : (∀ o ∈ [[0, 0], [0, 1], [2]], (shS o 0).rays.find? (fun y => y.island = (0#5).toNat && y.out.isSome && y.wait.isNone) = some (shY o) ∧ ((shS o 0).ctx? 1).any (fun x => x.desc.flags.getLsbD 3) = false) ∧
    shT.2.toOption = some [1, 0, 0, 0] ∧ (readVirt shT.1 1 false (0x1000 + BitVec.ofNat 64 (64 + 32 * 0)) 32).2.toOption = some (List.replicate 32 0) ∧
    (unitEnqueue (shS [0, 0] 0) 1 7 0 0 (hitRecord 1 [0, 0]) matches .closed _) = true ∧
    (unitEnqueue (put 0x20000 8 0x40000 (put 0x20008 2 0x101 (shS [0, 0] 0))) 1 7 0 0 (hitRecord 1 [0, 0]) matches .accepted _) = true ∧ (∀ y ∈ base.rays, y.island = 0) := by decide +kernel
-- A ray's record, whose TRACE waits for it; a record with a FATAL verdict; one that waits for an ID to free.
def trG2 : Group := { sg [] with traces := [⟨0, [7], 0⟩] }
theorem witness_IslandEvents_traces : ([({ rec0 with ray := some 7 } : IslandRecord), { rec0 with fatal := true }, rec0].map fun r => (r.ray, r.fatal, decide (r.res = []), r.due.isNone)) =
    [(some 7, false, true, true), (none, true, true, true), (none, false, true, true)] ∧ trG2.traces.all (fun w => w.rays.contains 7) = true := by decide +kernel

-- The loader: a request of each kind, of none, malformed, for a context that is bound and for one that is not. Whether a signed blob is good is a free constant's matter.
theorem witness_LoaderRequests : (∀ k ∈ [0, 1, 2, 3, 4, 5, 6, 7, 8, 9], (loadState k 1).loadWait = none ∧ (loadState k 1).loadDead = false ∧ (headRequest? (loadState k 1)).any (fun r => r.kind == k && r.ctx == 1 && r.comp == 0x6000 && !r.bad) = true) ∧
    ((loadState 3 1).ctx? 1).any (fun x => x.ports.isEmpty) = true ∧ ((loadState 1 9).ctx? 9).isNone = true ∧ 0x6000 + 8 ≤ physTop ∧ (headRequest? (put 0x4004 1 1 (loadState 5 1))).any (·.bad) = true := by decide +kernel
theorem witness_LoaderRequests_slot : (headSlot? (loadState 5 1)).any (fun pa => poisoned { loadState 5 1 with poison := [pa + 63] } pa 64) = true := by decide +kernel

-- The dispatcher: one candidate, aged and not, that fits and that fits no core; a launch that is ready, sound and not; a record whose join counter is due.
def agS (serves : Bool) : State := { taskState readyRecord with cycle := 600000, cores := List.replicate 64 { Core.reset with inService := serves } }
theorem pop_done {p : PopRes} (h : (match p with | .dispatched _ => true | _ => false) = true) : ∃ s, p = .dispatched s := by
  rcases p with ⟨s⟩ | ⟨s⟩ | _ <;> first | exact ⟨_, rfl⟩ | cases h
def cand0 (s : State) : Cand := (s.ctxs.flatMap (candsOf s)).headD ⟨0, [], none, 0, 0, []⟩
def mem0 (s : State) : Member := (cand0 s).members.headD testMember
theorem witness_DispatcherEvents_dispatch : agedCands (taskState readyRecord) = [] ∧ (taskState readyRecord).ctxs.flatMap (candsOf (taskState readyRecord)) = [cand0 (taskState readyRecord)] ∧
    (cand0 (taskState readyRecord)).prio < 8 ∧ (agedCands (agS true)).map (fun a => match a.2 with | .cand c => decide (c = cand0 (agS true)) | _ => false) = [true] ∧
    (popCand (agS false) (cand0 (agS false)) matches .noFit) = true ∧ (cand0 (agS true)).members = [mem0 (agS true)] ∧ agedCands base = [] ∧ base.ctxs.flatMap (candsOf base) = [] := by decide +kernel
theorem witness_DispatcherEvents_pop : (∃ s, popCand (taskState readyRecord) (cand0 (taskState readyRecord)) = .dispatched s) ∧ (∃ s, popCand (agS true) (cand0 (agS true)) = .dispatched s) ∧
    ((agS true).ctx? (cand0 (agS true)).ctx).any (fun x => !(recordBad x (mem0 (agS true)).record (mem0 (agS true)).prio) && (kernelOf x (mem0 (agS true)).record).any (fun k => k == wordKernel)) = true ∧
    (chooseVariant (agS true) wordKernel (recVset (mem0 (agS true)).record)).any (fun v => v.1 == 0 && v.2.1 == 0 && v.2.2.length == 1) = true ∧ wordKernel.variants[0]? = some wordVariant :=
  ⟨pop_done (by decide +kernel), pop_done (by decide +kernel), by decide +kernel, by decide +kernel, by decide +kernel⟩
-- A launch of 2 by 1 by 1 blocks with its done counter at 0x1000, and one of no blocks.
def laR : Slot64 := BitVec.ofNat 512 (0x11000 + 2 ^ 60 + 2 ^ 304)
def laE (x : Nat) : Slot64 := BitVec.ofNat 512 (2 ^ 128 * x + 2 ^ 144 + 2 ^ 160 + 2 ^ 192 * 0x1000 + 2 ^ 256 * 5)
def laK (x : Nat) : Slot := { readySlot laR with ext := some (laE x) }
def laX (x : Nat) : Ctx := { wordCtx with kernels := [wordKernel], slots := [laK x] }
def laS (x : Nat) : State := put 0x20000 8 0x40000 (put 0x20008 2 0x101 { installWord State.reset 32 0 with agenda := [], ctxs := [laX x], groups := [], blocks := [] })
def la1 (x : Nat) : State × Except Hold W64 := slotAddr (laS x) 1 (laK x)
def la2 : State × Except (Deny × W64) (List Nat) := spanOf (popSlot (la1 0).1 1 (laK 0)) 1 .write false 0x1000 4
theorem witness_DispatcherEvents_launch : (∀ x ∈ [0, 2], (readyLaunches (laS x)).map (fun l => (l.2.1, l.2.2.1, l.2.2.2.1, l.2.2.2.2)) = [(laX x, laK x, laR, laE x)]) ∧ rf (laE 2) 63 0 = 0 ∧ rf (laE 2) 127 64 = 0 ∧
    (la1 2).2.toOption = some 0x40000 ∧ launchErrors (laX 2) (laK 2) laR (laE 2) ⟨[], [], true, []⟩ = [] ∧ launchErrors (laX 0) (laK 0) laR (laE 0) ⟨[], [], true, []⟩ = [2] ∧ ((la1 2).1.ctx? 1).isSome = true ∧
    extDone (laE 0) = 0x1000 ∧ la2.2.toOption = some [0x1000, 0x1001, 0x1002, 0x1003] ∧ 0x1000 + 4 ≤ physTop ∧ readyLaunches base = [] := by decide +kernel
-- A record whose join counter at 0x5000 is read again after 64 microseconds.
def joR : Slot64 := BitVec.ofNat 512 (0x11000 + 2 ^ 60 + 2 ^ 128 * 0x5000)
def joK (ready : Option Nat) : Slot := Slot.mk 0 0 0 ready false none false (some joR) none none (some 0x5000) 0 [] true
def joX (ready : Option Nat) : Ctx := { wordCtx with slots := [joK ready] }
def joT (v cycle : Nat) : State := put 0x5000 4 v { installWord State.reset 32 0 with agenda := [], ctxs := [joX none], cycle := cycle }
theorem witness_DispatcherEvents_join : (joT 0 76800).ctxs = [joX none] ∧ (joX none).dones = [] ∧ (joX none).slots = [joK none] ∧ (joK none).read = some joR ∧ (joK none).lastJoin + 76800 ≤ (joT 0 76800).cycle ∧
    ¬ (joK none).lastJoin + 76800 ≤ (joT 0 76799).cycle ∧ recJoin joR = 0x5000 ∧ (unitRead (joT 0 76800) 1 7 0 0x5000 4).2.toOption = some [0, 0, 0, 0] ∧ (unitRead (joT 1 76800) 1 7 0 0x5000 4).2.toOption = some [1, 0, 0, 0] := by
  decide +kernel
-- Moves: a block that could move up, with a choice of 0 and of 1; and a core whose 128 lanes are full, where marking its four blocks makes room.
def mvB (n v vset : Nat) (k : Kernel) : Block := { freshBlock ⟨0, BitVec.ofNat 3 n⟩ 1 k v (k.variants.getD v wordVariant) { testMember with record := BitVec.ofNat 512 (0x11000 + 2 ^ 60 * vset) } 1 [] with k := [] }
def upS (c : List Nat) : State := { base with blocks := [mvB 0 0 7 swK], choices := c }
theorem witness_DispatcherEvents_up : (∀ c ∈ [[], [0], [1]], (upS c).choices = c ∧ waitingAll (upS c) = []) ∧ (upMark (upS [1])).isSome = true ∧ upMark base = none := by decide +kernel
def fullV (n : Nat) : Variant := { wordVariant with vcnt := n, groups := 32, scratch := 0, priv := 32, accrows := 0, bslots := 0, scalekb := 0, msec := false }
def fullK : Kernel := { wordKernel with variants := [fullV 8, fullV 176] }
def fullS : State :=
  { State.reset with ctxs := [{ wordCtx with kernels := [{ fullK with variants := [{ fullV 8 with groups := 1 }] }], slots := [readySlot readyRecord] }], cores := Core.reset :: List.replicate 63 { Core.reset with inService := false }
                     blocks := (List.range 4).map fun n => mvB n 1 3 fullK
                     groups := (List.range 128).map fun n => freshGroup ⟨0, BitVec.ofNat 3 (n / 32), BitVec.ofNat 5 n⟩ 1 1 (fullV 176) ⟨n, 0, false, 24⟩ 0 }
def fullW : Waiting := (waitingAll fullS).headD .launch
theorem witness_DispatcherEvents_down : fullS.markOut = false ∧ (waitingAll fullS).find? (·.stuck fullS) = some fullW ∧ (downMarks fullS fullW).any (fun ms => ms.length == 4) = true ∧
    movable fullS 0 ≠ [] ∧ fullW.wouldFit (asMoved fullS (movable fullS 0)) = true := by decide +kernel
-- With the records' block fitting a free core nothing is stuck; a launch not expanded is, and marks nothing.
theorem witness_DispatcherEvents_stuck : waitingAll (taskState readyRecord) ≠ [] ∧ (∀ w ∈ waitingAll (taskState readyRecord), w.stuck (taskState readyRecord) = false) ∧
    (waitingAll (laS 2)).find? (·.stuck (laS 2)) = some .launch ∧ downMarks (laS 2) .launch = none := by decide +kernel
theorem witness_DispatcherEvents_retire : base.block? wordBlockRef = some wordBlock ∧ wordBlock.test = false ∧ retires base wordBlock = false ∧
    retires (mach .none { sg [] with exited := true } { wordBlock with seq := { wordBlock.seq with idle := true } }) { wordBlock with seq := { wordBlock.seq with idle := true } } = true := by decide +kernel
-- A block that retires with a done counter at 0x1000, with and without a write of its core not yet acknowledged; a join counter that is due while its page waits.
def rtB : Block := { wordBlock with test := false, done := some (0x1000, 6), seq := { wordBlock.seq with idle := true } }
def rtS (ws : List PendWrite) : State := { installWord State.reset 32 0 with agenda := [], groups := [{ sg [] with exited := true }], blocks := [rtB], cores := [{ Core.reset with pend := ws }] }
theorem witness_DispatcherEvents_counter : (∀ ws ∈ [[], [⟨0x100, [1], false, .scalar gref, 0⟩]], (rtS ws).block? rtB.ref = some rtB ∧ retires (rtS ws) rtB = true ∧ ((rtS ws).core 0).pend = ws) ∧ rtB.pels = [] ∧
    (unitAtomic (removeBlock (postFailures (rtS []) rtB) rtB.ref) 1 7 0 0x1000).2.toOption = some 0x1000 ∧ ((rtS []).ctx? 1).isSome = true := by decide +kernel

/-! The whole machine -/

theorem witness_StepKeepsOk : State.reset.Ok ∧ (∃ t, step State.reset = .next t) := ⟨by unfold State.Ok; decide +kernel, _, rfl⟩
theorem witness_EncodeDecode : (Instr.sel 31 30 29 28).wf = true ∧ (encode (.sel 31 30 29 28)).isSome = true ∧ (encode (.iadd lw)).isSome = true ∧ (encode (.mgear (mw 248 0xE))).isSome = true ∧ encode .fsyncInPulse = none ∧
    streamOf .fsyncInPulse = none ∧ (decodeScalar 0x08A40040).toOption = some (.addImmediate 5 4 0x40) ∧ (decodeLane (pack 1 lw)).toOption = some (.iadd lw) ∧ (decodeMatrix (pack 0x186 (mw 248 0xE))).isOk = true := by decide +kernel
theorem next_of {o : Host.Outcome State Fault Refusal} (h : (match o with | .next _ => true | _ => false) = true) : ∃ t, o = .next t := by
  rcases o with t | f | r
  · exact ⟨t, rfl⟩
  · cases h
  · cases h
theorem next_with {o : Host.Outcome State Fault Refusal} {v : Bool} (h : (match o with | .next t => t.issued == v | _ => false) = true) : ∃ t, o = .next t ∧ t.issued = v := by
  rcases o with t | f | r
  · exact ⟨t, rfl, eq_of_beq h⟩
  · cases h
  · cases h
-- A scalar turn: ADD immediate issues. A lane turn: the same of IADD, the first word of its run. A matrix turn: MGEAR.
def srS : State := { installWord { State.reset with agenda := [] } 32 0x08A40040 with agenda := [.scalar 0 0], issued := false }
def srG : Group := wordGroup .scalar
def srF : State × Except (Deny × W64) (List Byte) := fetchCode { srS with agenda := [] } false 1 0 (some 0) srG.spc 4
def srE : State := { srF.1.modGroup srG.ref (fun g => g.setWord .scalar (word96 ((srF.2.toOption).getD []))) with cur := .scalar srG.ref, selfRefresh := false }
theorem witness_StepRunsDecoded_scalar : srS.power = .d0 ∧ srS.booted = true ∧ scalarGroups { srS with agenda := [] } 0 0 = [srG.ref] ∧ StreamFree (clearLeft { srS with agenda := [] } srG.ref) srG wordBlock ∧ srG.parkS = none ∧
    breakAt srS 1 1 srG.spc = false ∧ pairsWith srF.1 srG (word32 ((srF.2.toOption).getD [])) = true ∧ srF.2.toOption.map (fun bs => (decodeScalar (word32 bs)).toOption) = some (some (.addImmediate 5 4 0x40)) ∧
    ∃ t, exec (.addImmediate 5 4 0x40) srE = .next t ∧ t.issued = true :=
  ⟨by decide +kernel, by decide +kernel, by decide +kernel, by unfold StreamFree; decide +kernel, by decide +kernel, by decide +kernel, by decide +kernel, by decide +kernel, next_with (by decide +kernel)⟩
-- LWAIT while the lane is busy begins and waits; a fence does not issue while a write of the core is not performed.
theorem witness_StepRunsDecoded_waits : (∃ t, exec .lwait { scal { sg [] with laneUntil := 1 } with issued := false } = .next t ∧ t.issued = true) ∧
    ∃ t, exec (.fenceRel 1) { pendCore with issued := false } = .next t ∧ t.issued = false := ⟨next_with (by decide +kernel), next_with (by decide +kernel)⟩
def slG : Group := { wordGroup .lane with runs := [⟨BitVec.ofNat 52 wordAddr, 1, true, 1, [], [], [], [], []⟩] }
def slS : State := { installWord { State.reset with agenda := [] } 96 0x0000100040102FE000000000 with groups := [slG], agenda := [.lane 0 0], issued := false }
def slU : State := rescan ({ slS with agenda := [] }.modGroup slG.ref fun _ => slG.startRun) slG.startRun
def slF : State × Except (Deny × W64) (List Byte) := fetchCode slU false 1 0 (some 0) slG.startRun.lpc 12
def slE : State := { slF.1.modGroup slG.ref (fun g => g.setWord .lane (word96 ((slF.2.toOption).getD []))) with cur := .lane slG.ref, selfRefresh := false }
theorem witness_StepRunsDecoded_lane : slS.power = .d0 ∧ slS.booted = true ∧ laneGroups { slS with agenda := [] } 0 0 = [slG.ref] ∧ StreamFree (clearLeft { slS with agenda := [] } slG.ref) slG wordBlock ∧ slG.parkL = none ∧ slG.queue ≠ [] ∧
    slG.held = none ∧ breakAt slU 1 2 slG.startRun.lpc = false ∧ slG.startRun.loopWord = none ∧ slF.2.toOption.map (fun bs => (decodeLane (word96 bs)).toOption) = some (some (.iadd lw)) ∧
    ∃ t, exec (.iadd lw) slE = .next t ∧ t.issued = true :=
  ⟨by decide +kernel, by decide +kernel, by decide +kernel, by unfold StreamFree; decide +kernel, by decide +kernel, by decide +kernel, by decide +kernel, by decide +kernel, by decide +kernel, by decide +kernel, next_with (by decide +kernel)⟩
def smS : State := { installWord { State.reset with agenda := [] } 96 0x18600FEF8FEFE00000000E with agenda := [.matrix wordBlockRef] }
def smF : State × Except (Deny × W64) (List Byte) := fetchCode { smS with agenda := [], issued := false } false 1 0 none wordBlock.seq.mpc 12
def smI : Option Instr := smF.2.toOption.bind fun bs => (decodeMatrix (word96 bs)).toOption
theorem witness_StepRunsDecoded_matrix : smS.power = .d0 ∧ smS.booted = true ∧ smS.block? wordBlock.ref = some wordBlock ∧ wordBlock.test = false ∧ (smS.ctx? 1).any (·.saving) = false ∧
    wordBlock.seq.idle = false ∧ wordBlock.seq.halted = false ∧ wordBlock.seq.stopped = false ∧ wordBlock.seq.ready ≤ smS.cycle ∧ wordBlock.seq.park = none ∧ wordBlock.seq.pass = none ∧ breakAt smS 1 3 wordBlock.seq.mpc = false ∧
    smI = some (.mgear { mw 248 0xE with b := 254, c := 254 }) ∧ (decodeMatrix (pack 0x180 (qsW 0x80))).toOption = some (.mma (qsW 0x80)) ∧ (mmaOf (pack 0x180 (qsW 0x80))).src = 2 := by decide +kernel
theorem witness_StepRunsDecoded_event : isEvent .fsyncInPulse = true ∧ State.reset.power = .d0 ∧ State.reset.booted = true ∧ ∃ t, exec .fsyncInPulse State.reset = .next t :=
  ⟨by decide +kernel, by decide +kernel, by decide +kernel, next_of (by decide +kernel)⟩

end Sys2Proof.Tests
end

section
/-! PROOF. Every instruction answers with a state on the stream it acts on. -/

namespace Sys2Proof.Machine

open Sys2Proof

/-- The stream whose word is executed has what executes it: its group with the group's block, or its sequencer's block. -/
def StreamLive (s : State) : Stream → Prop
  | .scalar => ∃ r g b, s.cur = .scalar r ∧ s.group? r = some g ∧ s.block? (blockOf r) = some b
  | .lane => ∃ r g b, s.cur = .lane r ∧ s.group? r = some g ∧ s.block? (blockOf r) = some b
  | .matrix => ∃ r b, s.cur = .matrix r ∧ s.block? r = some b

/-- The stream that an instruction acts on: that of its word, or the one that met bits which name no instruction (R124). -/
def actsOn : Instr → Option Stream
  | .illegalEncoding st => some st
  | i => streamOf i

section
variable {s : State} {w : LaneWord} {cs : List (BitVec 8)}

theorem scalarWord_next {uses : List (BitVec 5)} {closes : Bool} {f : Group → Block → WordRes} (h : StreamLive s .scalar) :
    ∃ t, scalarWord s uses closes f = .next t := by
  obtain ⟨r, g, b, hc, hg, hb⟩ := h
  simp [scalarWord, hc, hg, hb]

theorem laneWord_next {u : LaneUse} {f : Group → Block → Mask → WordRes} (h : StreamLive s .lane) : ∃ t, laneWord s w u f = .next t := by
  obtain ⟨r, g, b, hc, hg, hb⟩ := h
  simp [laneWord, hc, hg, hb]

theorem matrixWord_next {closes : Bool} {clash : MLoad → Bool} {f : Block → MatRes} (h : StreamLive s .matrix) :
    ∃ t, matrixWord s closes clash f = .next t := by
  obtain ⟨r, b, hc, hb⟩ := h
  simp [matrixWord, hc, hb]

theorem execIllegalEncoding_next {st : Stream} (h : StreamLive s st) : ∃ t, execIllegalEncoding st s = .next t := by
  cases st with
  | scalar | lane => obtain ⟨r, g, b, hc, hg, -⟩ := h; simp [execIllegalEncoding, illegalWord, hc, hg]
  | matrix => obtain ⟨r, b, hc, hb⟩ := h; simp [execIllegalEncoding, illegalWord, hc, hb]

theorem arithWord_next {vs : List Nat} {wide : Bool} {check : Check} {val : Env → Nat → W64 × Exc} {ps : List Nat}
    (h : StreamLive s .lane) : ∃ t, arithWord s w cs vs wide check val ps = .next t := laneWord_next h
theorem intWord_next {check : Check} {val : Env → Nat → Int} (h : StreamLive s .lane) : ∃ t, intWord s w cs check val = .next t := by
  unfold intWord; exact arithWord_next h
theorem shiftWord_next {f : Nat → Int → Nat → Int} (h : StreamLive s .lane) : ∃ t, shiftWord s w f = .next t := by
  unfold shiftWord; exact arithWord_next h
theorem wordWord_next {val : Env → Nat → W32} {ps : List Nat} (h : StreamLive s .lane) : ∃ t, wordWord s w cs val ps = .next t :=
  arithWord_next h
theorem f32Word_next {val : Env → Nat → Nat × Exc} (h : StreamLive s .lane) : ∃ t, f32Word s w cs val = .next t := arithWord_next h
theorem predWord_next {wide : Bool} {val : Env → Mask → Nat → Bool × Exc} {ps : List Nat} (h : StreamLive s .lane) :
    ∃ t, predWord s w cs wide val ps = .next t := laneWord_next h
theorem memWord_next {ds rs ps : List Nat} {f : Group → Block → Mask → Env → WordRes} (h : StreamLive s .lane) :
    ∃ t, memWord s w cs ds rs ps f = .next t := laneWord_next h
theorem transWord_next {f : Val → Val × Exc} (h : StreamLive s .lane) : ∃ t, transWord s w f = .next t := f32Word_next h
theorem packWord_next {val : Env → Nat → Nat → Val × Bool} (h : StreamLive s .lane) : ∃ t, packWord s w cs val = .next t :=
  f32Word_next h
theorem predOp_next {f : Mask → Mask → Mask} (h : StreamLive s .lane) : ∃ t, predOp s w f = .next t := predWord_next h
theorem laneLoad_next {op : Nat} {const : Bool} (h : StreamLive s .lane) : ∃ t, laneLoad s w op const = .next t := by
  unfold laneLoad; exact memWord_next h
theorem laneAtomic_next (h : StreamLive s .lane) : ∃ t, laneAtomic s w = .next t := by unfold laneAtomic; exact memWord_next h
theorem controlWord_next {f : Group → Block → WordRes} (h : StreamLive s .lane) : ∃ t, controlWord s w cs f = .next t :=
  laneWord_next h
theorem execVdot4_next (h : StreamLive s .lane) : ∃ t, execVdot4 w s = .next t := by
  unfold execVdot4; split <;> exact arithWord_next h
end

/-- Every instruction has an answer, on the stream it acts on: no meaning ends in a fault or a refusal. -/
theorem exec_next {s : State} (i : Instr) (h : ∀ st, actsOn i = some st → StreamLive s st) : ∃ t, exec i s = .next t := by
  cases i with
  | add _ _ _ _ | sub _ _ _ _ | mul _ _ _ _ | mulh _ _ _ _ | and _ _ _ | or _ _ _ | xor _ _ _ | shl _ _ _ _ | shr _ _ _ _
  | sha _ _ _ _ | min _ _ _ _ | max _ _ _ _ | cmp _ _ _ _ _ | sel _ _ _ _ | addImmediate _ _ _ | andImmediate _ _ _
  | orImmediate _ _ _ | xorImmediate _ _ _ | shlImmediate _ _ _ _ | shrImmediate _ _ _ _ | shaImmediate _ _ _ _
  | cmpImmediate _ _ _ _ _ | movi _ _ | movhi _ _ _ | lea _ _ | ldN8 _ _ _ _ | ldN16 _ _ _ _ | ldN32 _ _ _ _ | ldN64 _ _ _ _
  | ldI8 _ _ _ _ | ldI16 _ _ _ _ | ldI32 _ _ _ _ | ldOrdered _ _ _ _ _ _ | stN8 _ _ _ _ | stN16 _ _ _ _ | stN32 _ _ _ _
  | stN64 _ _ _ _ | stOrdered _ _ _ _ _ _ | atom _ _ _ _ _ _ _ | lds _ _ _ _ | sts _ _ _ _ | br _ | brc _ _ _ | call _ | jmp _
  | calli _ | ret | lrun _ _ | lwait | wbind _ _ | wread _ _ | rgrowB _ | rgrowC _ _ | rshrink _ | barArrive _ _ | barWait _
  | barParrive _ _ | barWaitPel _ | qpush _ _ | qpop _ _ | ctail _ _ | cclose _ _ | cwait _ | tlwait _ _ | tlread _ _
  | fenceAcq _ | fenceRel _ | fenceAr _ | fenceI _ | lnarm _ _ | lnwait _ _ | spawn _ _ _ | join _ _ | amsend _ _ _ | swpt _
  | syscall _ | trap _ | yield | exit | causew _ | srseed _ | sprd _ _ | spwr _ _ | replay _ _ => unfold exec; exact scalarWord_next (h .scalar rfl)
  | iadd _ | isub _ | imul _ | imad _ | imulh _ | idiv _ | imin _ | imax _ | mov _ => unfold exec; exact intWord_next (h .lane rfl)
  | laneShl _ | laneShr _ | laneSha _ => unfold exec; exact shiftWord_next (h .lane rfl)
  | bfe _ | vdot8 _ => unfold exec; exact arithWord_next (h .lane rfl)
  | laneAnd _ | laneOr _ | laneXor _ | not _ | bfi _ | popc _ | clz _ | brev _ | bilv _ | bdlv _ | laneSel _ => unfold exec; exact wordWord_next (h .lane rfl)
  | fadd _ | fmul _ | ffma _ | fmin _ | fmax _ => unfold exec; exact f32Word_next (h .lane rfl)
  | frcp _ | frsq _ | fsqrt _ | fexp2 _ | flog2 _ | fsin _ | fcos _ => unfold exec; exact transWord_next (h .lane rfl)
  | pkfma _ | pkadd _ => unfold exec; exact packWord_next (h .lane rfl)
  | icmp _ | fcmp _ => unfold exec; exact predWord_next (h .lane rfl)
  | pand _ | por _ | pxor _ | pnot _ => unfold exec; exact predOp_next (h .lane rfl)
  | laneLd _ | ldc _ => unfold exec; exact laneLoad_next (h .lane rfl)
  | laneAtom _ | red _ => unfold exec; exact laneAtomic_next (h .lane rfl)
  | cpy _ | refill _ => unfold exec; exact memWord_next (h .lane rfl)
  | split _ | joinL _ | lcall _ | lret _ => unfold exec; exact controlWord_next (h .lane rfl)
  | fenceL _ | mbar _ | qclose _ => unfold exec; exact laneWord_next (h .lane rfl)
  | mma _ | mloadb _ | mscale _ | aclr _ | aout _ | amove _ | mgear _ | mbudget _ | mwaitq _ | matrixBarArrive _
  | matrixBarWait _ | matrixQpop _ | matrixQpush _ | matrixTlwait _ | mend _ | mendLoop _ => unfold exec; exact matrixWord_next (h .matrix rfl)
  | ballot _ => unfold exec execBallot; exact arithWord_next (h .lane rfl)
  | shfl _ => unfold exec execShfl; exact arithWord_next (h .lane rfl)
  | vote _ => unfold exec execVote; exact predWord_next (h .lane rfl)
  | laneSt _ => unfold exec execLaneSt; exact memWord_next (h .lane rfl)
  | laneLds _ => unfold exec execLaneLds; exact memWord_next (h .lane rfl)
  | laneSts _ => unfold exec execLaneSts; exact memWord_next (h .lane rfl)
  | ldp _ => unfold exec execLdp; exact memWord_next (h .lane rfl)
  | stp _ => unfold exec execStp; exact memWord_next (h .lane rfl)
  | atoms _ => unfold exec execAtoms; exact memWord_next (h .lane rfl)
  | attr _ => unfold exec execAttr; exact memWord_next (h .lane rfl)
  | trace _ => unfold exec execTrace; exact memWord_next (h .lane rfl)
  | neval _ => unfold exec execNeval; exact memWord_next (h .lane rfl)
  | cvt _ => unfold exec execCvt; exact laneWord_next (h .lane rfl)
  | isubIsl _ => unfold exec execIsubIsl; exact laneWord_next (h .lane rfl)
  | qread _ => unfold exec execQread; exact laneWord_next (h .lane rfl)
  | vdot4 _ => unfold exec; exact execVdot4_next (h .lane rfl)
  | mstat _ => unfold exec execMstat; exact matrixWord_next (h .matrix rfl)
  | illegalEncoding st => unfold exec; exact execIllegalEncoding_next (h st rfl)
  | doorbell _ _ | d2dsyncRead | msigen _ _ | sysdone _ _ | faultRetry _ _ _ _ | faultFatal _ _ _ _ | faultPost _ | bind _ _ _
  | makeres _ _ _ | preempt _ _ _ | reset _ _ _ | release _ _ _ | firstDeadline _ | secondDeadline _ | stop _ _ _ | resume _ _ _
  | stepL _ _ _ | stepS _ _ _ | tlbInvalidatePage _ _ | tlbInvalidateContext _ _ | tlbInvalidateAll _ _ | tlbInvalidationDone
  | scpartWrite _ _ _ | pwrpoolWrite _ _ | registerWrite _ _ _ | powerSave _ | powerOff _ | powerReset _ | powerGood | perst
  | functionLevelReset | d3hotEntry | d3hotExit | gddr7SelfRefresh | enter _ _ | start _ _ | leave _ _ | selfTest _ _
  | handover _ _ | headRelease _ _ | frameStart _ | budgetGrant _ | budgetTick _ | grantTimeout | blockRetire _
  | writeAcknowledge _ _ | lnwaitTimeout _ | longLatencyResolve _ _ _ | nop _ | copy _ | fill _ | link _ | wait _
  | commandComplete _ | islandAccept _ | islandPass _ | islandDeliver _ | shaderTableLookup _ | tileWindowClose _
  | draftTileRun _ | arrayGrant _ | attemptEnd _ | trapEntry _ | powerRemoval _ | fsyncInPulse | engineTailWrite _ _ | loadobj
  | bindisl | relport | attest | genkey | keyinstall | keyrevoke | lcchange | dispatch | launchExpand | joinCounterReread
  | candidateAged | moveMark =>
    exact ⟨_, rfl⟩

end Sys2Proof.Machine
end

section
/-! PROOF. Which groups and blocks exist does not depend on translations, fetches and notes of words. -/

namespace Sys2Proof.Machine

open Sys2Proof

/-- The groups and the blocks that exist are the same. -/
def SameRefs (s t : State) : Prop :=
  t.groups.map Group.ref = s.groups.map Group.ref ∧ t.blocks.map Block.ref = s.blocks.map Block.ref

theorem SameRefs.refl (s : State) : SameRefs s s := ⟨rfl, rfl⟩
theorem SameRefs.trans {s t u : State} (h : SameRefs s t) (h' : SameRefs t u) : SameRefs s u :=
  ⟨h'.1.trans h.1, h'.2.trans h.2⟩
theorem SameRefs.of_eq {s t : State} (hg : t.groups = s.groups) (hb : t.blocks = s.blocks) : SameRefs s t :=
  ⟨congrArg _ hg, congrArg _ hb⟩
theorem State.group?_isSome (s : State) (r : GroupRef) : (s.group? r).isSome = true ↔ r ∈ s.groups.map Group.ref := by
  simp [State.group?]
theorem State.block?_isSome (s : State) (r : BlockRef) : (s.block? r).isSome = true ↔ r ∈ s.blocks.map Block.ref := by
  simp [State.block?]
theorem SameRefs.group? {s t : State} (h : SameRefs s t) {r : GroupRef} (hr : (s.group? r).isSome = true) :
    (t.group? r).isSome = true := by
  rw [State.group?_isSome, h.1]; rwa [State.group?_isSome] at hr
theorem SameRefs.block? {s t : State} (h : SameRefs s t) {r : BlockRef} (hr : (s.block? r).isSome = true) :
    (t.block? r).isSome = true := by
  rw [State.block?_isSome, h.2]; rwa [State.block?_isSome] at hr

theorem SameRefs.modGroup (s : State) (r : GroupRef) {f : Group → Group} (hf : ∀ g, g.ref = r → (f g).ref = r) :
    SameRefs s (s.modGroup r f) := by
  refine ⟨?_, rfl⟩
  rw [State.modGroup_groups, List.map_map]
  refine List.map_congr_left fun g _ => ?_
  by_cases hg : g.ref = r
  · simp [hg, hf g hg]
  · simp [hg]
theorem SameRefs.modBlock (s : State) (r : BlockRef) {f : Block → Block} (hf : ∀ b, b.ref = r → (f b).ref = r) :
    SameRefs s (s.modBlock r f) := by
  refine ⟨rfl, ?_⟩
  rw [State.modBlock_blocks, List.map_map]
  refine List.map_congr_left fun b _ => ?_
  by_cases hb : b.ref = r
  · simp [hb, hf b hb]
  · simp [hb]

/-- A relation of states that nothing which translating an address changes can break: the stacked cache's lines, registers, interrupts,
writes at L2, and the TLBs of a site. -/
structure Survives (site : Site) (R : State → State → Prop) : Prop where
  refl : ∀ s, R s s
  trans : ∀ {s t u}, R s t → R t u → R s u
  choose : ∀ s : State, R s s.choose.2
  write : ∀ s pa bs, R s (performWrite s pa bs)
  lines : ∀ (s : State) ls, R s { s with lines := ls }
  regs : ∀ (s : State) f, R s (s.modRegs f)
  msix : ∀ (s : State) l, R s { s with msix := l }
  ioInts : ∀ (s : State) l, R s { s with ioInts := l }
  fill : ∀ s e, R s (fillTlb s site e)
  near : ∀ s e, R s (fillNear s site e)

theorem rel_ite {R : State → State → Prop} {s t u : State} (p : Prop) [Decidable p] (ht : R s t) (hu : R s u) : R s (if p then t else u) := by
  split
  · exact ht
  · exact hu

section
variable {site : Site} {R : State → State → Prop} (hR : Survives site R)
include hR

theorem Survives.foldl {α : Type} {f : State → α → State} (h : ∀ s x, R s (f s x)) (l : List α) (s : State) : R s (l.foldl f s) := by
  induction l generalizing s with
  | nil => exact hR.refl s
  | cons x l ih => exact hR.trans (h s x) (ih _)
theorem Survives.chooseIf (s : State) (b : Bool) : R s (if b then s.choose else (0, s)).2 := by
  cases b
  · exact hR.refl s
  · exact hR.choose s
theorem Survives.sendMsi (s : State) (v : Nat) : R s (sendMsi s v) := rel_ite _ (hR.regs ..) (hR.msix ..)
theorem Survives.allocateIn (s : State) (part : Nat) (pin : Bool) (pa n : Nat) : R s (allocateIn s part pin pa n) :=
  hR.foldl (f := fun s l => { s with lines := stackedAfter s part pin l }) (fun _ _ => hR.lines ..) _ _
theorem Survives.allocate (s : State) (p : Pte) (pa n : Nat) : R s (allocate s p pa n) := rel_ite _ (hR.refl s) (hR.allocateIn ..)
theorem Survives.logError (s : State) (cls kind unit result addr : Nat) : R s (logError s cls kind unit result addr) := by
  refine hR.trans (hR.regs s fun g => { g with errCount := g.errCount + 1 }) ?_
  unfold Machine.logError
  dsimp only
  generalize s.modRegs (fun g => { g with errCount := g.errCount + 1 }) = u
  split
  · exact hR.refl u
  · exact rel_ite _ (hR.trans (hR.write ..) (hR.sendMsi ..)) <| hR.trans (hR.allocateIn ..) <| hR.trans (hR.write ..) <|
      hR.trans (hR.regs ..) <| hR.trans (hR.sendMsi ..) (hR.ioInts ..)
theorem Survives.logPoison (s : State) (pa : Nat) : R s (logPoison s pa) := hR.logError ..

/-- A translation updates tables and TLBs only (R52-R57). -/
theorem Survives.translate (s : State) (c : BitVec 8) (k : Access) (engine : Bool) (va : W64) :
    R s (translate s site c k engine va).1 := by
  unfold Machine.translate
  dsimp only
  split
  · exact hR.refl s
  split
  · split <;> exact hR.refl s
  split
  · exact hR.refl s
  · have h0 := hR.chooseIf s ((tlbHits s site c va.toNat k).1.isSome || (tlbHits s site c va.toNat k).2.isSome)
    generalize (if ((tlbHits s site c va.toNat k).1.isSome || (tlbHits s site c va.toNat k).2.isSome) = true then s.choose else (0, s)) = r at h0 ⊢
    refine hR.trans h0 ?_
    split
    · split <;> exact rel_ite _ (hR.refl _) (hR.near ..)
    · split
      · exact hR.refl _
      · exact hR.refl _
      · exact hR.logPoison ..
      · split <;> exact hR.trans (rel_ite _ (hR.refl _) (hR.write ..)) (hR.fill ..)
theorem Survives.translateSpan (c : BitVec 8) (k : Access) (engine : Bool) (f : Nat) (s : State) (va : W64) (n : Nat) :
    R s (translateSpan s site c k engine f va n).1 := by
  induction f generalizing s va n with
  | zero => exact hR.refl s
  | succ f ih =>
    unfold Machine.translateSpan
    split
    · exact hR.refl s
    · have h := hR.translate s c k engine va
      dsimp only
      split
      · rename_i e; rw [e] at h; exact h
      · rename_i s1 x e
        rw [e] at h
        have h' := ih s1 (va + BitVec.ofNat 64 (min n (4096 - va.toNat % 4096))) (n - min n (4096 - va.toNat % 4096))
        split
        · rename_i e'; rw [e'] at h'; exact hR.trans h h'
        · rename_i e'; rw [e'] at h'; exact hR.trans (hR.trans h h') (hR.allocate ..)
theorem Survives.spanAt (s : State) (c : BitVec 8) (k : Access) (engine : Bool) (va : W64) (n : Nat) :
    R s (spanAt s site c k engine va n).1 := by
  have h := hR.translateSpan c k engine (n / 4096 + 2) s va n
  unfold Machine.spanAt partsAt
  split <;> rename_i e <;> rw [e] at h <;> exact h
end

theorem SameRefs.performWrite (s : State) (pa : Nat) (bs : List Byte) : SameRefs s (performWrite s pa bs) := by
  unfold Machine.performWrite
  split
  · exact .refl s
  · refine ⟨?_, rfl⟩
    unfold triggerMonitors
    rw [List.map_map]; rfl
theorem SameRefs.survives (site : Site) : Survives site SameRefs where
  refl := .refl
  trans := .trans
  choose s := by unfold State.choose; split <;> exact .refl s
  write := .performWrite
  lines _ _ := .of_eq rfl rfl
  regs _ _ := .of_eq rfl rfl
  msix _ _ := .of_eq rfl rfl
  ioInts _ _ := .of_eq rfl rfl
  fill s e := by cases site <;> exact .refl s
  near s e := by cases site <;> exact .refl s
theorem SameRefs.codeSpan (s : State) (site : Site) (test : Bool) (c : BitVec 8) (pc : VAddr) (n : Nat) :
    SameRefs s (codeSpan s site test c pc n).1 := by
  unfold Machine.codeSpan
  split
  · split <;> exact .refl s
  · exact (SameRefs.survives site).spanAt ..

theorem SameRefs.fillBuffer (s : State) (core : Nat) (sched : Option Nat) (k : LineCopy) : SameRefs s (fillBuffer s core sched k) := by
  cases sched <;> exact .refl s
theorem SameRefs.keepMid (s : State) (h : Nat) (f : Nat → Bool) : SameRefs s (keepMid s h f) :=
  SameRefs.trans (t := { s with imid := _ }) (.of_eq rfl rfl) ((SameRefs.survives none).foldl (f := fun s n => s.modCore n fun c => keepCode c f) (fun _ _ => .of_eq rfl rfl) _ _)
theorem SameRefs.fillMid (s : State) (h : Nat) (k : LineCopy) : SameRefs s (fillMid s h k) :=
  SameRefs.trans (t := { s with imid := listSet s.imid h (putLine 8192 k (midOf s h)) }) (.of_eq rfl rfl) (.keepMid ..)
theorem SameRefs.fillCode (s : State) (core : Nat) (k : LineCopy) : SameRefs s (fillCode s core k) := .of_eq rfl rfl
/-- A fetched line changes the code caches only (R48). -/
theorem SameRefs.fetchLine (s : State) (core : Nat) (sched : Option Nat) (l : Nat) : SameRefs s (fetchLine s core sched l).1 := by
  unfold Machine.fetchLine
  dsimp only
  have h := (SameRefs.survives none).chooseIf s ((midOf s (chamberOf core)).find? fun k => k.line = l).isSome
  generalize (if ((midOf s (chamberOf core)).find? fun k => k.line = l).isSome = true then s.choose else (0, s)) = r at h ⊢
  refine h.trans ?_
  split
  · exact .refl _
  · exact .fillBuffer ..
  · exact (SameRefs.fillCode ..).trans (.fillBuffer ..)
  · refine SameRefs.trans ?_ ((SameRefs.fillMid ..).trans ((SameRefs.fillCode ..).trans (.fillBuffer ..)))
    split
    · exact .keepMid ..
    · exact .refl _
theorem SameRefs.fetchLines (core : Nat) (sched : Option Nat) (ls : List Nat) (s : State) :
    SameRefs s (fetchLines s core sched ls).1 := by
  induction ls generalizing s with
  | nil => exact .refl s
  | cons l ls ih => exact (SameRefs.fetchLine s core sched l).trans (ih _)
theorem SameRefs.fetchBytes (s : State) (core : Nat) (sched : Option Nat) (pas : List Nat) :
    SameRefs s (fetchBytes s core sched pas).1 := .fetchLines ..

/-- A fetch changes tables, TLBs and code caches only. -/
theorem SameRefs.fetchCode (s : State) (test : Bool) (c : BitVec 8) (core : Nat) (sched : Option Nat) (pc : VAddr) (n : Nat) :
    SameRefs s (fetchCode s test c core sched pc n).1 := by
  have h := SameRefs.codeSpan s (some core) test c pc n
  unfold Machine.fetchCode
  split <;> rename_i e <;> rw [e] at h
  · exact h
  · split
    · exact h.trans ((SameRefs.survives none).logPoison ..)
    · exact h.trans (.fetchBytes ..)
theorem Group.setWord_ref (g : Group) (st : Stream) (w : W96) : (g.setWord st w).ref = g.ref := by unfold Group.setWord; split <;> rfl
theorem SameRefs.setWord (s : State) (r : GroupRef) (st : Stream) (w : W96) : SameRefs s (s.modGroup r fun g => g.setWord st w) :=
  .modGroup s r fun g h => (g.setWord_ref st w).trans h
theorem SameRefs.fetchWord (s : State) (g : Group) (b : Block) (st : Stream) (pc : VAddr) : SameRefs s (fetchWord s g b st pc).1 := by
  have h := SameRefs.fetchCode s b.test g.ctx g.ref.core.toNat (some (g.lane.toNat / 32)) pc (if st = .scalar then 4 else 12)
  unfold Machine.fetchWord
  dsimp only
  split <;> rename_i e <;> rw [e] at h <;> exact h.trans (.setWord ..)
theorem SameRefs.rescan (s : State) (g : Group) : SameRefs s (rescan s g) := by
  unfold Machine.rescan
  split
  · exact .refl s
  · exact .modGroup s _ fun h hr => (Group.setQueue_ref ..).trans hr

end Sys2Proof.Machine
end

section
/-! PROOF. What the decoders answer belongs to its stream, and every turn prepares a word that has what executes it: every state steps. -/

namespace Sys2Proof.Machine

open Sys2Proof

/-- What a decoder of a stream answers: an error, or an instruction of the stream, behind a check or not. -/
inductive Decodes (st : Stream) : Except DecodeError Instr → Prop where
  | zeros {ok : Bool} {i : Instr} (h : streamOf i = some st) : Decodes st (zeros ok i)
  | ok {i : Instr} (h : streamOf i = some st) : Decodes st (.ok i)
  | error {e : DecodeError} : Decodes st (.error e)

theorem Decodes.streamOf_eq {st : Stream} {r : Except DecodeError Instr} {i : Instr} (h : Decodes st r) (hr : r = .ok i) :
    streamOf i = some st := by
  cases h with
  | zeros h =>
    unfold Sys2Proof.zeros at hr
    split at hr <;> cases hr
    exact h
  | ok h => cases hr; exact h
  | error => cases hr
theorem Decodes.checked {st : Stream} {r : Except DecodeError Instr} (h : Decodes st r) : Decodes st (checked r) := by
  unfold Sys2Proof.checked
  split
  · split
    · exact .ok (h.streamOf_eq rfl)
    · exact .error
  · exact .error

theorem decodes_decodeRegister (d a b fn : BitVec 5) (md : BitVec 6) : Decodes .scalar (decodeRegister d a b fn md) := by
  unfold decodeRegister
  dsimp only
  split <;> (try split) <;> constructor <;> rfl
theorem decodes_decodeScalar (w : BitVec 32) : Decodes .scalar (decodeScalar w) := by
  refine Decodes.checked ?_
  unfold decodeScalarRaw
  dsimp only
  split
  · exact decodes_decodeRegister ..
  all_goals (try split) <;> constructor <;> rfl
theorem streamOf_laneOf {op : Nat} {w : LaneWord} {i : Instr} (h : laneOf op w = some i) : streamOf i = some .lane := by
  unfold laneOf at h
  split at h <;> cases h <;> rfl
theorem decodes_decodeLane (w : W96) : Decodes .lane (decodeLane w) := by
  unfold decodeLane
  dsimp only
  split
  · rename_i h; exact (Decodes.ok (streamOf_laneOf h)).checked
  · exact .error
theorem streamOf_matrixOf {op : Nat} {w : LaneWord} {i : Instr} (h : matrixOf op w = some i) : streamOf i = some .matrix := by
  unfold matrixOf at h
  split at h <;> (try split at h) <;> cases h <;> rfl
theorem decodes_decodeMatrix (w : W96) : Decodes .matrix (decodeMatrix w) := by
  unfold decodeMatrix
  dsimp only
  split
  · rename_i h; exact (Decodes.ok (streamOf_matrixOf h)).checked
  · exact .error
theorem decodes_decodeBytes (st : Stream) (bs : List Byte) : Decodes st (decodeBytes st bs) := by
  cases st with
  | scalar => exact decodes_decodeScalar _
  | lane => exact decodes_decodeLane _
  | matrix => exact decodes_decodeMatrix _

theorem actsOn_eq {i : Instr} {st st' : Stream} (hi : streamOf i = some st) (h : actsOn i = some st') : st' = st := by
  unfold actsOn at h
  split at h
  · cases hi
  · exact Option.some.inj (h.symm.trans hi)
theorem actsOn_event {i : Instr} (h : isEvent i = true) : actsOn i = none := by
  unfold actsOn
  split
  · exact absurd h Bool.false_ne_true
  · unfold isEvent at h
    split at h
    · cases h
    · simpa using h

/-- A word that is about to execute, on a stream that has what executes it. -/
def Prep.Ready : Prep → Prop
  | .settled _ => True
  | .run i s => ∀ st, actsOn i = some st → StreamLive s st

theorem runPrep_next {p : Prep} (h : p.Ready) : ∃ t, runPrep p = .next t := by
  cases p with
  | settled s => exact ⟨s, rfl⟩
  | run i s =>
    obtain ⟨t, ht⟩ := exec_next i h
    exact ⟨settle t, by simp only [runPrep, ht]⟩

theorem runAs_ready {s : State} {c : Cur} {st : Stream} {i : Instr} (hi : streamOf i = some st)
    (h : StreamLive { s with cur := c, selfRefresh := false } st) : (runAs s c i).Ready :=
  fun _ hs => actsOn_eq hi hs ▸ h
theorem runAs_illegal_ready {s : State} {c : Cur} {st : Stream} (h : StreamLive { s with cur := c, selfRefresh := false } st) :
    (runAs s c (.illegalEncoding st)).Ready :=
  fun _ hs => Option.some.inj hs ▸ h
theorem decoded_ready {s : State} {c : Cur} {st : Stream} {bs : List Byte} (h : StreamLive { s with cur := c, selfRefresh := false } st) :
    (decoded s c st bs).Ready := by
  unfold decoded
  split
  · rename_i hd; exact runAs_ready ((decodes_decodeBytes st bs).streamOf_eq hd) h
  · exact runAs_illegal_ready h

/-- A group and its block exist. -/
def GroupThere (s : State) (r : GroupRef) : Prop := (s.group? r).isSome = true ∧ (s.block? (blockOf r)).isSome = true

theorem GroupThere.of_sameRefs {s t : State} {r : GroupRef} (h : GroupThere s r) (ht : SameRefs s t) : GroupThere t r :=
  ⟨ht.group? h.1, ht.block? h.2⟩
/-- The streams of a group that exists, with its block, have what executes them. -/
theorem GroupThere.live {s : State} {r : GroupRef} (h : GroupThere s r) {st : Stream} (hst : st = .scalar ∨ st = .lane) :
    StreamLive { s with cur := curOf r st, selfRefresh := false } st := by
  obtain ⟨hg, hb⟩ := h
  obtain ⟨g, hg⟩ := Option.isSome_iff_exists.mp hg
  obtain ⟨b, hb⟩ := Option.isSome_iff_exists.mp hb
  cases hst with
  | inl e => subst e; exact ⟨r, g, b, rfl, hg, hb⟩
  | inr e => subst e; exact ⟨r, g, b, rfl, hg, hb⟩

@[simp] theorem Group.atEntry_ref (g : Group) (e : Replay) : (g.atEntry e).ref = g.ref := by
  unfold Group.atEntry; dsimp only; split <;> rfl
@[simp] theorem Group.entryFetched_ref (g : Group) (e : Replay) (w : W96) : (g.entryFetched e w).ref = g.ref := rfl
@[simp] theorem Group.startRun_ref (g : Group) : g.startRun.ref = g.ref := by
  unfold Group.startRun; split <;> (try split) <;> simp

/-- A group's state put in its place leaves every group and block there. -/
theorem SameRefs.putGroup (s : State) {r : GroupRef} {g : Group} (h : g.ref = r) : SameRefs s (s.modGroup r fun _ => g) :=
  .modGroup s r fun _ _ => h

theorem prepEntry_ready {s : State} {g : Group} {b : Block} {e : Replay} (h : GroupThere s g.ref)
    (hst : e.stream = .scalar ∨ e.stream = .lane) : (prepEntry s g b e).Ready := by
  have h' : GroupThere (s.modGroup g.ref fun _ => g.atEntry e) g.ref := h.of_sameRefs (.putGroup s (g.atEntry_ref e))
  have hf := SameRefs.fetchCode (s.modGroup g.ref fun _ => g.atEntry e) b.test g.ctx g.ref.core.toNat (some (g.lane.toNat / 32)) e.pc
    (if e.stream = .scalar then 4 else 12)
  unfold prepEntry
  extract_lets begun g' s' go
  have hgo : go.Ready := by
    unfold go
    split
    · split
      · trivial
      · rename_i u bs hu
        rw [hu] at hf
        exact decoded_ready (((h'.of_sameRefs hf).of_sameRefs (.putGroup u (((g.atEntry e).entryFetched_ref e _).trans (g.atEntry_ref e)))).live hst)
    · split
      · split
        · rename_i i hd
          refine runAs_ready ?_ (h'.live hst)
          split at hd
          · rename_i hs; rw [hs]; exact (decodes_decodeScalar _).streamOf_eq hd
          · rename_i hs; rw [hst.resolve_left hs]; exact (decodes_decodeLane _).streamOf_eq hd
        · exact runAs_illegal_ready (h'.live hst)
      · split <;> trivial
  split
  · exact hgo
  · split
    · trivial
    · split
      · trivial
      · split
        · exact hgo
        · trivial

theorem scalarNext_ready {s : State} {g : Group} {b : Block} (h : GroupThere s g.ref) : (scalarNext s g b).Ready := by
  have hf := SameRefs.fetchWord s g b .scalar g.spc
  unfold scalarNext
  split
  · trivial
  split
  · trivial
  split
  · trivial
  · rename_i u bs hu
    rw [hu] at hf
    have hl : StreamLive { u with cur := .scalar g.ref, selfRefresh := false } .scalar := (h.of_sameRefs hf).live (.inl rfl)
    split
    · trivial
    split
    · split
      · exact runAs_illegal_ready hl
      · exact decoded_ready hl
    · exact decoded_ready hl

theorem laneNext_ready {s : State} {g : Group} {b : Block} (h : GroupThere s g.ref) : (laneNext s g b).Ready := by
  have h' : GroupThere (rescan (s.modGroup g.startRun.ref fun _ => g.startRun) g.startRun) g.startRun.ref := by
    rw [g.startRun_ref]
    exact (h.of_sameRefs (.putGroup s g.startRun_ref)).of_sameRefs (.rescan ..)
  have hf := SameRefs.fetchWord (rescan (s.modGroup g.startRun.ref fun _ => g.startRun) g.startRun) g.startRun b .lane g.startRun.lpc
  unfold laneNext
  split
  · trivial
  split
  · trivial
  split
  · trivial
  dsimp only
  split
  · trivial
  split
  · exact decoded_ready ((h'.of_sameRefs (.setWord ..)).live (.inr rfl))
  · split
    · trivial
    · rename_i u bs hu
      rw [hu] at hf
      exact decoded_ready ((h'.of_sameRefs hf).live (.inr rfl))

/-- A turn of a group's stream prepares a word only for a group that exists, with its block. -/
theorem groupTurn_ready (s : State) (r : GroupRef) {st : Stream} {go : State → Group → Block → Prep} (hst : st = .scalar ∨ st = .lane)
    (hgo : ∀ s g b, GroupThere s g.ref → (go s g b).Ready) : (groupTurn s r st go).Ready := by
  unfold groupTurn
  dsimp only
  split
  · rename_i g b hg hb
    have h : GroupThere (clearLeft (takeStop s r) r) g.ref := by
      rw [State.group?_ref hg]
      exact ⟨Option.isSome_iff_exists.mpr ⟨g, hg⟩, Option.isSome_iff_exists.mpr ⟨b, hb⟩⟩
    split
    · trivial
    split
    · trivial
    split
    · split
      · rename_i he; exact prepEntry_ready h (he ▸ hst)
      · trivial
    · split
      · trivial
      split
      · trivial
      · exact hgo _ g b h
  · trivial

theorem matrixNext_ready {s : State} {b : Block} (h : (s.block? b.ref).isSome = true) : (matrixNext s b).Ready := by
  have live : ∀ u : State, (u.block? b.ref).isSome = true → StreamLive { u with cur := .matrix b.ref, selfRefresh := false } .matrix :=
    fun u hu => ⟨b.ref, (u.block? b.ref).get hu, rfl, (Option.some_get hu).symm⟩
  have hf := SameRefs.fetchCode s b.test b.ctx b.ref.core.toNat none b.seq.mpc 12
  unfold matrixNext
  dsimp only
  split
  · trivial
  split
  · split <;> trivial
  · split
    · split
      · rename_i hd; exact runAs_ready ((decodes_decodeMatrix _).streamOf_eq hd) (live s h)
      · trivial
    · trivial
  · split
    · trivial
    split
    · split <;> trivial
    · rename_i u bs hu
      rw [hu] at hf
      refine decoded_ready (live _ (SameRefs.block? (hf.trans (.modBlock u b.ref ?_)) h))
      exact fun _ hc => hc

theorem otherTurn_ready (s : State) (t : Turn) : (otherTurn s t).Ready := by
  unfold otherTurn
  split
  case h_3 =>
    split
    · rename_i r _ b hb
      exact matrixNext_ready (by rw [State.block?_ref hb, hb]; rfl)
    · trivial
  case h_4 =>
    split
    · rename_i hi; exact fun st hs => nomatch (actsOn_event hi).symm.trans hs
    · trivial
  all_goals trivial

theorem runLane_cons {s t : State} {r : GroupRef} (rs : List GroupRef) (h : runPrep (groupTurn s r .lane laneNext) = .next t) :
    runLane s (r :: rs) = if t.issued then .next t else runLane t rs := by
  simp only [runLane, h]
theorem runScalar_cons {s t : State} {r : GroupRef} (done : Bool) (rs : List GroupRef)
    (h : runPrep (groupTurn { s with issued := false } r .scalar scalarNext) = .next t) :
    runScalar s done (r :: rs) =
      if t.issued then runScalar (if done then s else t) true rs else runScalar (notReady t r) done rs := by
  simp only [runScalar, h]
  cases done <;> rfl

theorem runLane_next (rs : List GroupRef) (s : State) : ∃ t, runLane s rs = .next t := by
  induction rs generalizing s with
  | nil => exact ⟨s, rfl⟩
  | cons r rs ih =>
    obtain ⟨t, ht⟩ := runPrep_next (groupTurn_ready (go := laneNext) s r (.inr rfl) fun _ _ _ => laneNext_ready)
    rw [runLane_cons rs ht]
    split
    · exact ⟨t, rfl⟩
    · exact ih t
theorem runScalar_next (rs : List GroupRef) (s : State) (done : Bool) : ∃ t, runScalar s done rs = .next t := by
  induction rs generalizing s done with
  | nil => exact ⟨_, rfl⟩
  | cons r rs ih =>
    obtain ⟨t, ht⟩ := runPrep_next
      (groupTurn_ready (go := scalarNext) { s with issued := false } r (.inl rfl) fun _ _ _ => scalarNext_ready)
    rw [runScalar_cons done rs ht]
    split <;> exact ih ..

/-- What a turn comes to has what executes it. -/
def Turned.Ready : Turned → Prop
  | .one p => p.Ready
  | _ => True

theorem turnOf_ready (s : State) (t : Turn) : (turnOf s t).Ready := by
  unfold turnOf
  split
  · trivial
  · trivial
  · exact otherTurn_ready ..
theorem prepare_ready (s : State) : (prepare s).Ready := by
  unfold prepare
  split
  · trivial
  · dsimp only
    split
    · exact turnOf_ready ..
    · trivial

/-- Settles O57: a turn prepares a word only on a stream that has what executes it, and there every meaning answers with a state. -/
theorem stepAlwaysNext : Obligations.StepAlwaysNext := by
  intro s
  have h := prepare_ready s
  unfold step
  split <;> rename_i hp
  · rw [hp] at h; exact runPrep_next h
  · exact runLane_next ..
  · exact runScalar_next ..

end Sys2Proof.Machine
end

section
/-! PROOF. A turn runs the word that the bytes at its stream's counter decode to. -/

namespace Sys2Proof.Machine

open Sys2Proof

theorem State.group?_of_modGroup {s : State} {r : GroupRef} {f : Group → Group} {h : Group} (hf : ∀ g, g.ref = r → (f g).ref = r)
    (hh : (s.modGroup r f).group? r = some h) : ∃ g, s.group? r = some g ∧ f g = h := by
  have hs : (s.group? r).isSome = true := by
    rw [State.group?_isSome, ← (SameRefs.modGroup s r hf).1, ← State.group?_isSome, hh]; rfl
  obtain ⟨g, hg⟩ := Option.isSome_iff_exists.mp hs
  exact ⟨g, hg, Option.some.inj ((State.group?_modGroup f hg hf).symm.trans hh)⟩

/-- A group that no STOP command waits for is not stopped. -/
theorem takeStop_none {s : State} {r : GroupRef} {g : Group} (hg : s.group? r = some g) (h : g.stopReq = false) : takeStop s r = s := by
  simp [takeStop, hg, h]
theorem Group.redirected_nil {g : Group} (st : Stream) (h : g.redirect = []) : g.redirected st = g := by
  simp [Group.redirected, h]
theorem holdsBack_run {g : Group} (st : Stream) (h : g.hold = .run) : holdsBack g st = false := by simp [holdsBack, h]

/-- A turn of a group whose stream may execute its next word comes to that word. -/
theorem groupTurn_free {s : State} {g : Group} {b : Block} (st : Stream) (go : State → Group → Block → Prep)
    (h : StreamFree (clearLeft s g.ref) g b) : groupTurn s g.ref st go = go (clearLeft s g.ref) g b := by
  obtain ⟨hg, hb, hx, hh, hs, hp, hr, hd, hv⟩ := h
  obtain ⟨g0, hg0, e⟩ := State.group?_of_modGroup (f := fun g => { g with left := g.left.filter fun l => !(l.complete s g) })
    (fun _ hr => hr) hg
  have hs0 : g0.stopReq = false := by rw [← hs, ← e]
  have hsave : (!b.test && ((clearLeft s g.ref).ctx? g.ctx).any (·.saving)) = false := by
    cases hv with
    | inl ht => simp [ht]
    | inr hc => rw [hc, Bool.and_false]
  unfold groupTurn
  rw [takeStop_none hg0 hs0]
  simp only [hg, hb, hx, hh, hp, hr, hsave, holdsBack_run st hh, Group.redirected_nil st hd]
  simp

theorem runPrep_runAs {s t : State} {c : Cur} {i : Instr} (h : exec i { s with cur := c, selfRefresh := false } = .next t) :
    runPrep (runAs s c i) = .next { t with cur := .none } := by
  simp only [runAs, runPrep, h]; rfl
theorem decoded_ok {s : State} {c : Cur} {st : Stream} {bs : List Byte} {i : Instr} (h : decodeBytes st bs = .ok i) :
    decoded s c st bs = runAs s c i := by
  simp only [decoded, h]

theorem fetchWord_ok {s u : State} {g : Group} {b : Block} {st : Stream} {pc : VAddr} {bs : List Byte}
    (h : fetchCode s b.test g.ctx g.ref.core.toNat (some (g.lane.toNat / 32)) pc (if st = .scalar then 4 else 12) = (u, .ok bs)) :
    fetchWord s g b st pc = (u.modGroup g.ref fun g => g.setWord st (word96 bs), .ok bs) := by
  simp only [fetchWord, h]

/-- The next scalar word is the one that the fetched bytes decode to. -/
theorem scalarNext_fetched {u s1 : State} {g : Group} {b : Block} {bs : List Byte} {i : Instr} (hp : g.parkS = none)
    (hbp : b.test = true ∨ g.trapm = true ∨ g.blockedS = true ∨ g.skipbp = some g.spc ∨ breakAt u g.ctx 1 g.spc = false)
    (hf : fetchCode u b.test g.ctx g.ref.core.toNat (some (g.lane.toNat / 32)) g.spc 4 = (s1, .ok bs))
    (hpair : pairsWith s1 g (word32 bs) = true) (hd : decodeScalar (word32 bs) = .ok i)
    (hl : ∀ x y, i = .replay x y → b.test = false ∨ (s1.core g.ref.core.toNat).loopMode = false ∨ replayLow (word32 bs) = true) :
    scalarNext u g b = runAs (s1.modGroup g.ref fun g => g.setWord .scalar (word96 bs)) (.scalar g.ref) i := by
  have hbp' : (!b.test && !g.trapm && !g.blockedS && decide (g.skipbp ≠ some g.spc) && breakAt u g.ctx 1 g.spc) = false := by
    rcases hbp with h | h | h | h | h <;> simp [h]
  have hpair' : (!pairsWith (s1.modGroup g.ref fun g => g.setWord .scalar (word96 bs)) g (word32 bs)) = false := by
    rw [show pairsWith (s1.modGroup g.ref fun g => g.setWord .scalar (word96 bs)) g (word32 bs) = true from hpair]; rfl
  have hdec := decoded_ok (s := s1.modGroup g.ref fun g => g.setWord .scalar (word96 bs)) (c := .scalar g.ref) (st := .scalar) hd
  unfold scalarNext
  simp only [hp, hbp', fetchWord_ok (st := .scalar) hf, hpair', Bool.false_eq_true, if_false, hdec]
  split
  · rename_i x y e
    have hno : (b.test && (s1.core g.ref.core.toNat).loopMode && !(replayLow (word32 bs))) = false := by
      rcases hl x y (Except.ok.inj (hd.symm.trans e)) with h | h | h <;> simp [h]
    exact if_neg (ne_true_of_eq_false hno)
  · rfl

theorem scalarTurn : scalarTurnRule := by
  refine ⟨fun s rest c d ha hpw hbt => ?_, fun _ _ => rfl, ?_⟩
  · simp [step, prepare, ha, heard, turnOf, hpw, hbt]
  · intro s s1 t done after g b bs i u hfree hp hbp hf hpair hd hl hx v
    have ht : runPrep (groupTurn { s with issued := false } g.ref .scalar scalarNext) = .next v := by
      rw [groupTurn_free .scalar scalarNext hfree, scalarNext_fetched hp hbp hf hpair hd hl]
      exact runPrep_runAs hx
    have hv : v.issued = t.issued := rfl
    rw [runScalar_cons done after ht, hv]
    exact ⟨fun h => if_pos h, fun h => by rw [h]; rfl⟩

@[simp] theorem Group.startRun_ctx (g : Group) : g.startRun.ctx = g.ctx := by
  unfold Group.startRun; split <;> (try split) <;> simp
@[simp] theorem Group.startRun_lane (g : Group) : g.startRun.lane = g.lane := by
  unfold Group.startRun; split <;> (try split) <;> simp
@[simp] theorem Group.startRun_trapm (g : Group) : g.startRun.trapm = g.trapm := by
  unfold Group.startRun; split <;> (try split) <;> simp

/-- The parts of a number, low and high, put together again. -/
theorem ofNat_append_ofNat (a b v : Nat) : BitVec.ofNat a (v / 2 ^ b) ++ BitVec.ofNat b v = BitVec.ofNat (a + b) v := by
  refine BitVec.eq_of_getLsbD_eq fun i hi => ?_
  rw [BitVec.getLsbD_append, BitVec.getLsbD_ofNat, BitVec.getLsbD_ofNat, BitVec.getLsbD_ofNat]
  by_cases h : i < b
  · simp [h, hi]
  · have hi' : i - b < a := by omega
    simp [h, hi, hi', Nat.testBit_div_two_pow, Nat.sub_add_cancel (Nat.le_of_not_lt h)]
theorem word32_bytesOf (n v : Nat) : word32 (bytesOf (n + 4) v) = BitVec.ofNat 32 v := by
  have h1 := ofNat_append_ofNat 8 8 (v / 256 / 256)
  have h2 := ofNat_append_ofNat 16 8 (v / 256)
  have h3 := ofNat_append_ofNat 24 8 v
  simp only [word32, bytesOf, List.getD_cons_zero, List.getD_cons_succ]
  rw [show (256 : Nat) = 2 ^ 8 from rfl] at *
  rw [h1, h2, h3]
theorem drop_bytesOf (n v : Nat) : (bytesOf (n + 4) v).drop 4 = bytesOf n (v / 2 ^ 32) := by
  have hv : v / 2 ^ 32 = v / 256 / 256 / 256 / 256 := by omega
  exact (congrArg (bytesOf n) hv).symm
/-- The bytes of a word, read back, are the word. -/
theorem word96_bytesOf (w : W96) : word96 (bytesOf 12 w.toNat) = w := by
  have h8 : (bytesOf 12 w.toNat).drop 8 = bytesOf 4 (w.toNat / 2 ^ 32 / 2 ^ 32) := by
    rw [← drop_bytesOf 4, ← drop_bytesOf 8, List.drop_drop]
  rw [word96, h8, drop_bytesOf 8, word32_bytesOf 0, word32_bytesOf 4, word32_bytesOf 8]
  calc BitVec.ofNat 32 (w.toNat / 2 ^ 32 / 2 ^ 32) ++ BitVec.ofNat 32 (w.toNat / 2 ^ 32) ++ BitVec.ofNat 32 w.toNat
      = BitVec.ofNat 96 w.toNat := by rw [ofNat_append_ofNat 32 32]; exact ofNat_append_ofNat 64 32 w.toNat
    _ = w := by simp

/-- The word and the state that a lane's turn of a group comes to: the loop buffer's word at LPC, or the bytes fetched there. -/
theorem laneNext_fetched {s s1 : State} {g : Group} {b : Block} {bs : List Byte} {i : Instr}
    (hp : g.parkL = none) (hq : g.queue ≠ []) (hh : g.trapm = true ∨ g.held = none)
    (hbp : b.test = true ∨ g.trapm = true ∨ g.startRun.blockedL = true ∨ g.startRun.fenced = true ∨
      g.startRun.skipbpL = some g.startRun.lpc ∨
      breakAt (rescan (s.modGroup g.ref fun _ => g.startRun) g.startRun) g.ctx 2 g.startRun.lpc = false)
    (hf : (match g.startRun.loopWord with
      | some w => (rescan (s.modGroup g.ref fun _ => g.startRun) g.startRun, Except.ok (bytesOf 12 w.toNat))
      | none => fetchCode (rescan (s.modGroup g.ref fun _ => g.startRun) g.startRun) b.test g.ctx g.ref.core.toNat
          (some (g.lane.toNat / 32)) g.startRun.lpc 12) = (s1, .ok bs))
    (hd : decodeLane (word96 bs) = .ok i) :
    laneNext s g b = runAs (s1.modGroup g.ref fun g => g.setWord .lane (word96 bs)) (.lane g.ref) i := by
  have hheld : (if g.trapm then none else g.held) = none := by rcases hh with h | h <;> simp [h]
  have hbp' : (!b.test && !g.trapm && !g.startRun.blockedL && !g.startRun.fenced && decide (g.startRun.skipbpL ≠ some g.startRun.lpc) &&
      breakAt (rescan (s.modGroup g.ref fun _ => g.startRun) g.startRun) g.ctx 2 g.startRun.lpc) = false := by
    rcases hbp with h | h | h | h | h | h <;> simp [h]
  have hdec := decoded_ok (s := s1.modGroup g.ref fun g => g.setWord .lane (word96 bs)) (c := .lane g.ref) (st := .lane) hd
  unfold laneNext
  simp only [hp, List.isEmpty_eq_false_iff.mpr hq, hheld, Bool.false_eq_true, if_false, Group.startRun_ref, Group.startRun_ctx,
    Group.startRun_trapm, hbp']
  cases hw : g.startRun.loopWord with
  | some w =>
    rw [hw] at hf
    obtain ⟨hs, hb⟩ := Prod.mk.inj hf
    rw [← hs, ← Except.ok.inj hb, word96_bytesOf] at hdec
    rw [← hs, ← Except.ok.inj hb, word96_bytesOf]
    exact hdec
  | none =>
    rw [hw] at hf
    rw [fetchWord_ok (st := .lane) (s := rescan (s.modGroup g.ref fun _ => g.startRun) g.startRun) (by simpa using hf)]
    simpa using hdec

theorem laneTurn : laneTurnRule := by
  refine ⟨fun s rest c l ha hpw hbt => ?_, fun _ => rfl, ?_⟩
  · simp [step, prepare, ha, heard, turnOf, hpw, hbt]
  · intro s s1 t after g b bs i h s0 u hfree hp hq hh hbp hf hd hx v
    have ht : runPrep (groupTurn s g.ref .lane laneNext) = .next v := by
      rw [groupTurn_free .lane laneNext hfree, laneNext_fetched hp hq hh hbp hf hd]
      exact runPrep_runAs hx
    have hv : v.issued = t.issued := rfl
    rw [runLane_cons after ht, hv]
    exact ⟨fun h => if_pos h, fun h => by rw [h]; rfl⟩

/-- A turn that the device hears, of anything but a lane or a scalar unit, is a word prepared, or what the turn itself does. -/
theorem step_one {s : State} {t : Turn} {rest : List Turn} (ha : s.agenda = t :: rest)
    (hh : heard { s with agenda := rest, issued := false } t = true)
    (ht : turnOf { s with agenda := rest, issued := false } t = .one (otherTurn { s with agenda := rest, issued := false } t)) :
    step s = runPrep (otherTurn { s with agenda := rest, issued := false } t) := by
  simp only [step, prepare, ha, hh, if_true, ht]

/-- A sequencer that may go on, in a context that is not being saved, passes what holds its turn back. -/
theorem seq_free {s : State} {b : Block} (hc : b.test = true ∨ (s.ctx? b.ctx).any (·.saving) = false) (hi : b.seq.idle = false)
    (hh : b.seq.halted = false) (hs : b.seq.stopped = false) (hr : b.seq.ready ≤ s.cycle) :
    (b.seq.idle || b.seq.halted || b.seq.stopped || decide (s.cycle < b.seq.ready) || (!b.test && (s.ctx? b.ctx).any (·.saving))) = false := by
  rcases hc with h | h <;> simp [hi, hh, hs, h, Nat.not_lt.mpr hr]

theorem matrixTurn : matrixTurnRule := by
  intro s t rest b i u ha hpw hbt hb hc hi hh hst hr hpk runs
  have hgo : step s = runPrep (matrixNext u b) := by
    rw [step_one ha (by simp [heard, hpw, hbt]) rfl]
    simp only [otherTurn]
    rw [show State.block? { s with agenda := rest, issued := false } b.ref = some b from hb]
  have hfree := seq_free (s := u) hc hi hh hst hr
  refine ⟨fun s1 bs hn hbp hf hd hx => ?_, fun p hs hsrc hd hx => ?_⟩
  · have hbp' : (!b.test && !b.seq.skipbp && breakAt u b.ctx 3 b.seq.mpc) = false := by
      rcases hbp with h | h | h
      · simp [h]
      · simp [h]
      · simp [show breakAt u b.ctx 3 b.seq.mpc = false from h]
    have hdec := decoded_ok (s := s1.modBlock b.ref fun b => { b with seq := { b.seq with word := word96 bs } }) (c := .matrix b.ref)
      (st := .matrix) hd
    rw [hgo]
    unfold matrixNext
    simp only [hfree, hpk, hn, hbp', hf, hdec, Bool.false_eq_true, if_false]
    exact runPrep_runAs hx
  · rw [hgo]
    unfold matrixNext
    simp only [hfree, hpk, hs, hsrc, hd, Bool.false_eq_true, if_false, if_true]
    exact runPrep_runAs hx

/-- Settles O60: each kind of turn comes to the word at its counter, and its outcome is what executing that word answers. -/
theorem stepRunsDecoded : Obligations.StepRunsDecoded := by
  refine ⟨scalarTurn, laneTurn, matrixTurn, fun s t rest i ha hpw hbt hi hx => ?_⟩
  rw [step_one ha (by simp [heard, hpw, hbt]) rfl]
  simp only [otherTurn, hi, if_true, runPrep, hx]
  rfl

end Sys2Proof.Machine
end

section
/-! PROOF. LRUN appends the run that the scanned words give, and LWAIT waits for the lanes. -/

namespace Sys2Proof.Machine

open Sys2Proof

/-- The words of a run of n words at `first`, as LRUN scans them. -/
def runWords (s : State) (g : Group) (b : Block) (first : VAddr) (n : Nat) : List (Option (Option Instr)) :=
  (List.range n).map fun i => scanWord s g b.test (first + BitVec.ofNat 52 (12 * i))
/-- The selector that a scanned word captures. -/
def scannedCapture (w : Option (Option Instr)) : Option (BitVec 8 × Nat) := w.join.bind captureOf
/-- The places of the words that could not be read. -/
def unreadWords (ws : List (Option (Option Instr))) : List Nat := ((ws.zipIdx).filter fun (w, _) => w.isNone).map (·.2)
/-- Whether LRUN waits for a register's write. -/
def runPending (g : Group) (ws : List (Option (Option Instr))) : Bool :=
  (ws.any fun w => (scannedCapture w).any fun (c, n) => c = 249#8 && g.pendingS (BitVec.ofNat 5 n)) ||
    (!(unreadWords ws).isEmpty && (List.range 32).any fun n => g.pendingS (BitVec.ofNat 5 n))
/-- The run that LRUN appends. -/
def lrunRun (s : State) (g : Group) (b : Block) (first : VAddr) (n : Nat) : Run :=
  let ws := runWords s g b first n
  { first := first, words := n, started := false, depth := 0
    caps := ws.map fun w => ((scannedCapture w).map fun (c, n) => liveS s g b c n).getD 0
    marks := (ws.zipIdx).filterMap fun (w, i) => (w.join.bind laneMark).map fun d => (i, d)
    later := unreadWords ws
    snapS := if (unreadWords ws).isEmpty then [] else g.s
    snapK := if (unreadWords ws).isEmpty then [] else b.settled s.cycle }
/-- The first word of an LRUN's run. -/
def lrunFirst (s : State) (g : Group) (b : Block) (off : BitVec 21) : VAddr := laneBase s g b + BitVec.ofNat 52 (12 * off.toNat)

/-- What LRUN's word comes to: no entry of the queue is free, a write is waited for, or the run is appended. -/
def lrunBody (s : State) (nw : BitVec 5) (off : BitVec 21) (g : Group) (b : Block) : WordRes :=
  if (if g.trapm then 4 else 16) ≤ g.queue.length then .block s
  else if runPending g (runWords s g b (lrunFirst s g b off) (nw.toNat + 1)) then .wait s
  else .done (s.modGroup g.ref fun h => h.setQueue (h.queue ++ [lrunRun s g b (lrunFirst s g b off) (nw.toNat + 1)]))
theorem exec_lrun (nw : BitVec 5) (off : BitVec 21) (s : State) :
    exec (.lrun nw off) s = scalarWord s [] true (lrunBody s nw off) := rfl

theorem getElem?_runWords {s : State} {g : Group} {b : Block} {first : VAddr} {n k : Nat} (h : k < n) :
    (runWords s g b first n)[k]? = some (scanWord s g b.test (first + BitVec.ofNat 52 (12 * k))) := by
  simp [runWords, h]
theorem mem_runWords {s : State} {g : Group} {b : Block} {first : VAddr} {n : Nat} {w : Option (Option Instr)} :
    w ∈ runWords s g b first n ↔ ∃ k < n, scanWord s g b.test (first + BitVec.ofNat 52 (12 * k)) = w := by
  simp [runWords]
theorem mem_unreadWords {s : State} {g : Group} {b : Block} {first : VAddr} {n k : Nat} :
    k ∈ unreadWords (runWords s g b first n) ↔ k < n ∧ scanWord s g b.test (first + BitVec.ofNat 52 (12 * k)) = none := by
  simp only [unreadWords, List.mem_map, List.mem_filter, Prod.exists, List.mem_zipIdx_iff_getElem?, Option.isNone_iff_eq_none]
  constructor
  · rintro ⟨w, i, ⟨hi, hw⟩, rfl⟩
    subst hw
    by_cases h : i < n
    · exact ⟨h, Option.some.inj ((getElem?_runWords h).symm.trans hi)⟩
    · simp [runWords, h] at hi
  · rintro ⟨h, hw⟩
    exact ⟨none, k, ⟨hw ▸ getElem?_runWords h, rfl⟩, rfl⟩
theorem unreadWords_isEmpty {s : State} {g : Group} {b : Block} {first : VAddr} {n : Nat} :
    (unreadWords (runWords s g b first n)).isEmpty = false ↔
      ∃ k < n, scanWord s g b.test (first + BitVec.ofNat 52 (12 * k)) = none := by
  rw [List.isEmpty_eq_false_iff_exists_mem]
  exact exists_congr fun k => mem_unreadWords
theorem scannedCapture_eq {w : Option (Option Instr)} {c : BitVec 8 × Nat} :
    scannedCapture w = some c ↔ ∃ i, w = some (some i) ∧ captureOf i = some c := by
  rcases w with - | - | i <;> simp [scannedCapture]

/-- LRUN waits where a word of the run captures a register with a write pending, or a word is not read and any register has one. -/
theorem runPending_iff {s : State} {g : Group} {b : Block} {first : VAddr} {n : Nat} :
    runPending g (runWords s g b first n) = true ↔
      ∃ r : BitVec 5, g.pendingS r = true ∧
        ((∃ k < n, scanWord s g b.test (first + BitVec.ofNat 52 (12 * k)) = none) ∨
          ∃ k m, k < n ∧ (∃ w, scanWord s g b.test (first + BitVec.ofNat 52 (12 * k)) = some (some w) ∧
            captureOf w = some (249#8, m)) ∧ r = BitVec.ofNat 5 m) := by
  have hany : ((List.range 32).any fun n => g.pendingS (BitVec.ofNat 5 n)) = true ↔ ∃ r : BitVec 5, g.pendingS r = true := by
    rw [List.any_eq_true]
    constructor
    · rintro ⟨m, -, h⟩; exact ⟨_, h⟩
    · rintro ⟨r, h⟩; exact ⟨r.toNat, List.mem_range.mpr r.isLt, by simpa using h⟩
  have hcap : ((runWords s g b first n).any fun w =>
        (scannedCapture w).any fun (c, n) => c = 249#8 && g.pendingS (BitVec.ofNat 5 n)) = true ↔
      ∃ k m, k < n ∧ (∃ w, scanWord s g b.test (first + BitVec.ofNat 52 (12 * k)) = some (some w) ∧
        captureOf w = some (249#8, m)) ∧ g.pendingS (BitVec.ofNat 5 m) = true := by
    simp only [List.any_eq_true, Option.any_eq_true, mem_runWords, Prod.exists, Bool.and_eq_true, decide_eq_true_eq, scannedCapture_eq]
    constructor
    · rintro ⟨_, ⟨k, hk, rfl⟩, _, m, hw, rfl, hp⟩; exact ⟨k, m, hk, hw, hp⟩
    · rintro ⟨k, m, hk, hw, hp⟩; exact ⟨_, ⟨k, hk, rfl⟩, _, m, hw, rfl, hp⟩
  have hlater : (!(unreadWords (runWords s g b first n)).isEmpty) = true ↔
      ∃ k < n, scanWord s g b.test (first + BitVec.ofNat 52 (12 * k)) = none := by
    rw [Bool.not_eq_true', unreadWords_isEmpty]
  rw [runPending, Bool.or_eq_true, Bool.and_eq_true, hany, hcap, hlater]
  constructor
  · rintro (⟨k, m, hk, hw, hp⟩ | ⟨ho, r, hp⟩)
    · exact ⟨_, hp, .inr ⟨k, m, hk, hw, rfl⟩⟩
    · exact ⟨r, hp, .inl ho⟩
  · rintro ⟨r, hp, ho | ⟨k, m, hk, hw, rfl⟩⟩
    · exact .inr ⟨ho, r, hp⟩
    · exact .inl ⟨k, m, hk, hw, hp⟩

theorem lrunRun_caps {s : State} {g : Group} {b : Block} {first : VAddr} {n k m : Nat} {w : Instr} (hk : k < n)
    (hw : scanWord s g b.test (first + BitVec.ofNat 52 (12 * k)) = some (some w)) (hc : captureOf w = some (249#8, m)) :
    (lrunRun s g b first n).caps[k]? = some (g.readS (BitVec.ofNat 5 m)) := by
  simp [lrunRun, getElem?_runWords hk, hw, scannedCapture, hc, liveS]

@[simp] theorem Group.waitsAgain_ref (g : Group) (st : Stream) : (g.waitsAgain st).ref = g.ref := by
  unfold Group.waitsAgain; split <;> (try split) <;> rfl
theorem Group.waitsAgain_of_inject_none {g : Group} (st : Stream) (h : g.inject = none) : g.waitsAgain st = g := by
  simp [Group.waitsAgain, h]
/-- What a scalar word that blocks outside a re-injection answers: one that has no room does not begin. -/
theorem finishWord_block {s : State} {g : Group} (hi : g.inject = none) :
    finishWord s g .scalar 4 (.block s) =
      if g.blockedS = false ∧ 12 ≤ inFlight s g then s
      else (issueWord s g .scalar).modGroup g.ref fun h => ({ h with blockedS := true } : Group).waitsAgain .scalar := by
  simp [finishWord, hi]

/-- A scalar word whose body blocks has begun and waits, where it has room. -/
theorem scalarWord_block {s : State} {g : Group} {b : Block} {i : Instr} {uses : List (BitVec 5)} {closes : Bool} {f : Group → Block → WordRes}
    (hs : ScalarAt s g b uses closes) (he : exec i s = scalarWord s uses closes f) (hf : f g b = .block s) : BlocksS s g i := by
  obtain ⟨⟨-, hg, -⟩, -, -, -, hi⟩ := id hs
  have hend : exec i s = .next (finishWord s g .scalar 4 (.block s)) := by rw [he, scalarWord_eq hs, hf]
  have hfull : ¬ roomS s g ↔ g.blockedS = false ∧ 12 ≤ inFlight s g := by simp [roomS]
  refine ⟨fun h => ?_, fun h => ?_⟩
  · refine ⟨_, hend, ?_⟩
    rw [finishWord_block hi, if_neg (fun hn => hfull.mpr hn h)]
    have ho := State.groupOnly_modGroup (s := issueWord s g .scalar) (fun h => ({ h with blockedS := true } : Group).waitsAgain .scalar)
      (by rw [issueWord_scalar_group?, hg]) fun x => Group.waitsAgain_ref ..
    rwa [Group.waitsAgain_of_inject_none .scalar (g := { g with blockedS := true }) hi] at ho
  · rw [hend, finishWord_block hi, if_pos (hfull.mp h)]

/-- A scalar word whose body waits does not issue. -/
theorem scalarWord_wait {s : State} {g : Group} {b : Block} {i : Instr} {uses : List (BitVec 5)} {closes : Bool} {f : Group → Block → WordRes}
    (hs : ScalarAt s g b uses closes) (he : exec i s = scalarWord s uses closes f) (hf : f g b = .wait s) : WaitsS s i := by
  rw [WaitsS, he, scalarWord_eq hs, hf]; rfl

theorem laneRuns : laneRunsRule := by
  intro s g b nw off hs room first word captures open' pending
  have he := exec_lrun nw off s
  have hpend : pending ↔ runPending g (runWords s g b first (nw.toNat + 1)) = true := by
    rw [runPending_iff]
    simp only [Nat.lt_succ_iff]
    rfl
  refine ⟨fun hq => ?_, fun hq hp => ?_, fun hq hp => ?_⟩
  · exact scalarWord_block hs he (if_pos hq)
  · exact scalarWord_wait hs he ((if_neg (Nat.not_le.mpr hq)).trans (if_pos (hpend.mp hp)))
  · have hbody : lrunBody s nw off g b =
        .done (s.modGroup g.ref fun x => x.setQueue (x.queue ++ [lrunRun s g b first (nw.toNat + 1)])) :=
      (if_neg (Nat.not_le.mpr hq)).trans (if_neg (mt hpend.mpr hp))
    obtain ⟨-, -, -, -, hi⟩ := id hs
    obtain ⟨t, ht, ho⟩ := scalarWord_group (h := fun x => x.setQueue (x.queue ++ [lrunRun s g b first (nw.toNat + 1)])) hs hbody
      (fun x => x.setQueue_ref _) ((g.setQueue_inject _).trans hi)
    have hlater : ∀ k, k ∈ (lrunRun s g b first (nw.toNat + 1)).later ↔ open' k := fun k => by
      rw [show (k ∈ (lrunRun s g b first (nw.toNat + 1)).later) ↔ _ from mem_unreadWords, Nat.lt_succ_iff]
    refine ⟨lrunRun s g b first (nw.toNat + 1), ⟨t, he.trans ht, ?_⟩, rfl, rfl, rfl, ?_, ?_, hlater, ?_⟩
    · simpa using ho
    · simp [lrunRun, runWords]
    · rintro k n hk ⟨w, hw, hc⟩
      exact lrunRun_caps (Nat.lt_succ_of_le hk) hw hc
    · rintro ⟨k, hk⟩
      have : (unreadWords (runWords s g b first (nw.toNat + 1))).isEmpty = false :=
        List.isEmpty_eq_false_iff_exists_mem.mpr ⟨k, (hlater k).mpr hk⟩
      simp [lrunRun, this]

theorem lanesDone_iff (s : State) (g : Group) :
    lanesDone s g = true ↔ g.queue = [] ∧ g.laneUntil ≤ s.cycle ∧ (∀ l ∈ g.loads, l.stream ≠ .lane) ∧ g.traces = [] ∧
      ∀ n ∈ (s.core g.ref.core.toNat).nevals, n.g ≠ g.ref := by
  simp [lanesDone, and_assoc]

theorem lwaitWaitsForLanes : lwaitWaitsForLanesRule := by
  intro s g b hs
  have he : exec .lwait s = scalarWord s [] true fun g _ => if lanesDone s g then .done s else .block s := rfl
  refine ⟨fun h => ?_, fun h => ?_, lanesDone_iff s g⟩
  · obtain ⟨-, -, -, -, hi⟩ := id hs
    have hid : s.modGroup g.ref (fun x => x) = s := by simp [State.modGroup]
    have hbody : (if lanesDone s g then WordRes.done s else .block s) = .done (s.modGroup g.ref fun x => x) := by rw [if_pos h, hid]
    exact scalarWord_group (h := fun x => x) hs hbody (fun _ => rfl) hi
  · exact scalarWord_block hs he (if_neg (ne_true_of_eq_false h))

/-- Settles O10: LRUN's answer is the run that the scanned words give, and both words follow the common end of a scalar word. -/
theorem laneRunsAndWaits : Obligations.LaneRunsAndWaits := ⟨laneRuns, lwaitWaitsForLanes⟩

end Sys2Proof.Machine
end

section
/-! PROOF. What the accesses of device units leave unchanged. -/

namespace Sys2Proof.Machine

open Sys2Proof

section
variable {R : State → State → Prop} (hR : Survives none R)
include hR

theorem Survives.spanOf (s : State) (c : BitVec 8) (k : Access) (engine : Bool) (va : W64) (n : Nat) :
    R s (spanOf s c k engine va n).1 := hR.spanAt ..
theorem Survives.readVirt (s : State) (c : BitVec 8) (engine : Bool) (va : W64) (n : Nat) : R s (readVirt s c engine va n).1 := by
  have h := hR.spanOf s c .read engine va n
  unfold Machine.readVirt
  split <;> rename_i e <;> rw [e] at h
  · exact h
  · split
    · exact hR.trans h (hR.logPoison ..)
    · exact h
theorem Survives.writeEach (as : List Nat) (bs : List Byte) (s : State) : R s (writeEach s as bs) := by
  induction as generalizing s bs with
  | nil => exact hR.refl s
  | cons a as ih =>
    cases bs with
    | nil => exact hR.refl s
    | cons b bs => exact hR.trans (hR.write s a [b]) (ih ..)
theorem Survives.writeVirt (s : State) (c : BitVec 8) (va : W64) (bs : List Byte) : R s (writeVirt s c va bs).1 := by
  have h := hR.spanOf s c .write false va bs.length
  unfold Machine.writeVirt
  split <;> rename_i e <;> rw [e] at h
  · exact h
  · exact hR.trans h (rel_ite _ (hR.write ..) (hR.writeEach ..))
end

/-- A group without its monitors, which any write at L2 may trigger (R86). -/
def Group.bare (g : Group) : Group := { g with mons := [] }

/-- The groups, but for their monitors, the blocks, the cores and the grids are the same. -/
structure Keeps (s t : State) : Prop where
  groups : t.groups.map Group.bare = s.groups.map Group.bare
  blocks : t.blocks = s.blocks
  cores : t.cores = s.cores
  grids : t.grids = s.grids
  nextGrid : t.nextGrid = s.nextGrid
/-- And the contexts. -/
structure KeepsCtxs (s t : State) : Prop extends Keeps s t where
  ctxs : t.ctxs = s.ctxs

theorem Keeps.refl (s : State) : Keeps s s := ⟨rfl, rfl, rfl, rfl, rfl⟩
theorem Keeps.trans {s t u : State} (h : Keeps s t) (h' : Keeps t u) : Keeps s u :=
  ⟨h'.groups.trans h.groups, h'.blocks.trans h.blocks, h'.cores.trans h.cores, h'.grids.trans h.grids, h'.nextGrid.trans h.nextGrid⟩
theorem Keeps.foldl {α : Type} {f : State → α → State} (h : ∀ s x, Keeps s (f s x)) (l : List α) (s : State) : Keeps s (l.foldl f s) := by
  induction l generalizing s with
  | nil => exact .refl s
  | cons x l ih => exact (h s x).trans (ih _)
theorem Keeps.modCtx (s : State) (c : BitVec 8) (f : Ctx → Ctx) : Keeps s (s.modCtx c f) := ⟨rfl, rfl, rfl, rfl, rfl⟩
theorem Keeps.performWrite (s : State) (pa : Nat) (bs : List Byte) : Keeps s (performWrite s pa bs) := by
  refine ⟨?_, by simp, by simp, by simp, by simp⟩
  unfold Machine.performWrite
  split
  · rfl
  · unfold triggerMonitors
    rw [List.map_map]; rfl
theorem KeepsCtxs.survives : Survives none KeepsCtxs where
  refl s := ⟨.refl s, rfl⟩
  trans h h' := ⟨h.toKeeps.trans h'.toKeeps, h'.ctxs.trans h.ctxs⟩
  choose s := by unfold State.choose; split <;> exact ⟨⟨rfl, rfl, rfl, rfl, rfl⟩, rfl⟩
  write s pa bs := ⟨.performWrite s pa bs, by simp⟩
  lines _ _ := ⟨⟨rfl, rfl, rfl, rfl, rfl⟩, rfl⟩
  regs _ _ := ⟨⟨rfl, rfl, rfl, rfl, rfl⟩, rfl⟩
  msix _ _ := ⟨⟨rfl, rfl, rfl, rfl, rfl⟩, rfl⟩
  ioInts _ _ := ⟨⟨rfl, rfl, rfl, rfl, rfl⟩, rfl⟩
  fill _ _ := ⟨⟨rfl, rfl, rfl, rfl, rfl⟩, rfl⟩
  near _ _ := ⟨⟨rfl, rfl, rfl, rfl, rfl⟩, rfl⟩

theorem Keeps.block? {s t : State} (h : Keeps s t) (r : BlockRef) : t.block? r = s.block? r := by
  unfold State.block?; rw [h.blocks]
theorem Keeps.core {s t : State} (h : Keeps s t) (n : Nat) : t.core n = s.core n := by
  unfold State.core; rw [h.cores]
/-- A group of the state before is there, but for its monitors. -/
theorem Keeps.exists_group {s t : State} (h : Keeps s t) {g : Group} (hg : g ∈ s.groups) : ∃ g' ∈ t.groups, g'.bare = g.bare := by
  have hm : g.bare ∈ t.groups.map Group.bare := h.groups ▸ List.mem_map_of_mem hg
  exact List.mem_map.mp hm
/-- Every group was there before, but for its monitors. -/
theorem Keeps.exists_old_group {s t : State} (h : Keeps s t) {g : Group} (hg : g ∈ t.groups) : ∃ g' ∈ s.groups, g'.bare = g.bare := by
  have hm : g.bare ∈ s.groups.map Group.bare := h.groups ▸ List.mem_map_of_mem hg
  exact List.mem_map.mp hm
theorem KeepsCtxs.ctx? {s t : State} (h : KeepsCtxs s t) (c : BitVec 8) : t.ctx? c = s.ctx? c := by
  unfold State.ctx?; rw [h.ctxs]

theorem Keeps.postPlain (s : State) (c : BitVec 8) (kind agent unit slots : Nat) (va info : W64) :
    Keeps s (postPlain s c kind agent unit slots va info) := .modCtx ..
theorem Keeps.postFault (s : State) (c : BitVec 8) (kind k : Nat) (va : W64) (agent unit slots : Nat) :
    Keeps s (postFault s c kind k va agent unit slots).1 := by
  unfold Machine.postFault
  split
  · exact .refl s
  · dsimp only
    split
    · exact .refl s
    · split
      · exact .refl s
      · exact (Keeps.modCtx ..).trans (.modCtx ..)
theorem Keeps.unitHold (s : State) (c : BitVec 8) (k : Access) (agent unit : Nat) (d : Deny × W64) :
    Keeps s (unitHold s c k agent unit d).1 := by
  unfold Machine.unitHold
  split
  · exact .refl s
  · exact .postFault ..
theorem Keeps.unitAtomic (s : State) (c : BitVec 8) (agent unit : Nat) (va : W64) : Keeps s (unitAtomic s c agent unit va).1 := by
  have h := (KeepsCtxs.survives.translate s c .atomic false va).toKeeps
  unfold Machine.unitAtomic
  split <;> rename_i e <;> rw [e] at h
  · split
    · exact h.trans (KeepsCtxs.survives.logPoison ..).toKeeps
    · exact h
  · exact h.trans (.unitHold ..)
/-- A read that a unit makes leaves the contexts; only one that is denied posts a fault. -/
theorem unitRead_ok {s t : State} {c : BitVec 8} {agent unit : Nat} {va : W64} {n : Nat} {bs : List Byte}
    (h : unitRead s c agent unit va n = (t, .ok bs)) : KeepsCtxs s t := by
  have hk := KeepsCtxs.survives.readVirt s c false va n
  unfold Machine.unitRead at h
  split at h <;> rename_i e
  · rw [e] at hk; cases h; exact hk
  · cases h

theorem Keeps.notifyJoins (s : State) (pa n : Nat) : Keeps s (notifyJoins s pa n) := ⟨rfl, rfl, rfl, rfl, rfl⟩
/-- The access of a done counter that a rejected launch makes leaves groups, blocks, cores and grids. -/
theorem Keeps.tryDone_code {s : State} {c : BitVec 8} {d : DoneWrite} {k : Nat} (fatal : Bool) (hk : d.code = some k) :
    Keeps s (tryDone s c d fatal) := by
  have h := (KeepsCtxs.survives.spanOf s c .write false d.va 4).toKeeps
  unfold Machine.tryDone
  simp only [hk]
  split
  · exact .postPlain ..
  split
  · exact .modCtx ..
  generalize hr : spanOf s c .write false d.va 4 = r at h ⊢
  obtain ⟨u, pas | e⟩ := r
  · have hu := h.trans (.unitHold u c .write 7 0 pas)
    dsimp only
    generalize Machine.unitHold u c .write 7 0 pas = w at hu ⊢
    obtain ⟨v, id | _⟩ := w
    · exact hu.trans (.modCtx ..)
    · exact hu.trans (.postPlain ..)
  · exact h.trans (.performWrite ..)
/-- And so does that of a retirement. -/
theorem Keeps.tryDone_noCode {s : State} {c : BitVec 8} {d : DoneWrite} (fatal : Bool) (hk : d.code = none) :
    Keeps s (tryDone s c d fatal) := by
  have h := Keeps.unitAtomic s c 7 0 d.va
  unfold Machine.tryDone
  simp only [hk]
  split
  · exact .postPlain ..
  split
  · exact .modCtx ..
  generalize Machine.unitAtomic s c 7 0 d.va = r at h ⊢
  obtain ⟨u, (id | _) | pa⟩ := r
  · exact h.trans (.modCtx ..)
  · exact h.trans (.postPlain ..)
  · exact (h.trans (.performWrite ..)).trans (.notifyJoins ..)
theorem Keeps.tryDone (s : State) (c : BitVec 8) (d : DoneWrite) (fatal : Bool) : Keeps s (tryDone s c d fatal) := by
  cases hk : d.code with
  | none => exact .tryDone_noCode fatal hk
  | some k => exact .tryDone_code fatal hk

/-- What `Keeps` says, and each context is there with the launches that it expands. -/
structure KeepsOffers (s t : State) : Prop extends Keeps s t where
  offers : ∀ c x, s.ctx? c = some x → ∃ y, t.ctx? c = some y ∧ y.expansions = x.expansions

theorem KeepsOffers.trans {s t u : State} (h : KeepsOffers s t) (h' : KeepsOffers t u) : KeepsOffers s u :=
  ⟨h.toKeeps.trans h'.toKeeps, fun c x hx => by
    obtain ⟨y, hy, e⟩ := h.offers c x hx
    obtain ⟨z, hz, e'⟩ := h'.offers c y hy
    exact ⟨z, hz, e'.trans e⟩⟩
theorem KeepsCtxs.keepsOffers {s t : State} (h : KeepsCtxs s t) : KeepsOffers s t :=
  ⟨h.toKeeps, fun c x hx => ⟨x, (h.ctx? c).trans hx, rfl⟩⟩
theorem KeepsOffers.foldl {α : Type} {f : State → α → State} (h : ∀ s x, KeepsOffers s (f s x)) (l : List α) (s : State) :
    KeepsOffers s (l.foldl f s) := by
  induction l generalizing s with
  | nil => exact (KeepsCtxs.survives.refl s).keepsOffers
  | cons x l ih => exact (h s x).trans (ih _)
theorem State.ctx?_modCtx_ne {s : State} {c d : BitVec 8} (f : Ctx → Ctx) (h : d ≠ c) (hf : ∀ y : Ctx, (f y).id = y.id) :
    (s.modCtx c f).ctx? d = s.ctx? d := by
  unfold State.ctx?
  rw [State.modCtx_ctxs]
  induction s.ctxs with
  | nil => rfl
  | cons x l ih =>
    by_cases hx : x.id = c
    · have hd : ¬ c = d := fun e => h e.symm
      simpa [List.find?, hf, hx, hd] using ih
    · by_cases hd : x.id = d
      · simp [List.find?, hd, h]
      · simpa [List.find?, hx, hd] using ih
theorem KeepsOffers.modCtx (s : State) (c : BitVec 8) {f : Ctx → Ctx} (hi : ∀ x, (f x).id = x.id)
    (he : ∀ x, (f x).expansions = x.expansions) : KeepsOffers s (s.modCtx c f) := by
  refine ⟨.modCtx .., fun d x hx => ?_⟩
  by_cases hd : d = c
  · subst hd
    exact ⟨f x, State.ctx?_modCtx f hx fun y hy => (hi y).trans hy, he x⟩
  · exact ⟨x, by rw [State.ctx?_modCtx_ne f hd hi, hx], rfl⟩

/-- A record that leaves its ring changes memory and the slots of its context. -/
theorem KeepsOffers.advanceHead (s : State) (c : BitVec 8) (q p : Nat) : KeepsOffers s (advanceHead s c q p) := by
  have hrefl := (KeepsCtxs.survives.refl s).keepsOffers
  unfold Machine.advanceHead
  split
  · exact hrefl
  · dsimp only
    have h := (KeepsCtxs.survives.readVirt s c false (queueVa s c q + BitVec.ofNat 64 (64 + 8 * p)) 4).keepsOffers
    split <;> rename_i e <;> rw [e] at h
    · exact h
    · rename_i x _ _ u bs
      split
      · exact h
      · have h' := (KeepsCtxs.survives.writeVirt u c (queueVa s c q + BitVec.ofNat 64 (64 + 8 * p))
          (bytesOf 4 (advanceFrom x q p x.slots.length (leNat bs)).1)).keepsOffers
        split <;> rename_i e' <;> rw [e'] at h'
        · exact h.trans h'
        · exact (h.trans h').trans (.modCtx _ c (fun _ => rfl) fun _ => rfl)
theorem KeepsOffers.modSlot (s : State) (c : BitVec 8) (q p h : Nat) (f : Slot → Slot) : KeepsOffers s (modSlot s c q p h f) :=
  .modCtx s c (fun _ => rfl) fun _ => rfl
theorem KeepsOffers.popSlot (s : State) (c : BitVec 8) (k : Slot) : KeepsOffers s (popSlot s c k) :=
  (KeepsOffers.modSlot ..).trans (.advanceHead ..)

end Sys2Proof.Machine
end

section
/-! PROOF. A launch is expanded, or rejected with the lowest code. -/

namespace Sys2Proof.Machine

open Sys2Proof

/-- The lowest of some error codes is one of them. -/
theorem foldl_min_spec (as : List Nat) (a : Nat) : as.foldl min a ∈ a :: as ∧ ∀ b ∈ a :: as, as.foldl min a ≤ b :=
  List.min?_eq_some_iff.mp List.min?_cons'

/-- A launch that names no table comes to its checks at once. -/
theorem tryLaunch_noTables {s s1 : State} {x : Ctx} {k : Slot} {h e : Slot64} {va : W64} (hp : rf e 63 0 = 0) (hm : rf e 127 64 = 0)
    (ha : slotAddr s x.id k = (s1, .ok va)) :
    tryLaunch s x k h e = match launchErrors x k h e ⟨[], [], true, []⟩ with
      | a :: as => rejectLaunch s1 x.id k e va (as.foldl min a)
      | [] => acceptLaunch s1 x.id k h e va ⟨[], [], true, []⟩ [] := by
  unfold tryLaunch
  simp only [ha, hp, hm, BitVec.ofNat_eq_ofNat, decide_true, Bool.true_or, if_true, readMap, readPels]
  cases launchErrors x k h e ⟨[], [], true, []⟩ <;> rfl

theorem launchErrors_nil {x : Ctx} {k : Slot} {h e : Slot64} {t : LaunchTables} (hn : launchErrors x k h e t = []) :
    0 < extX e * extY e * extZ e := by
  refine Nat.pos_of_ne_zero fun h0 => ?_
  simp [launchErrors, h0] at hn

/-- The expansion of a launch that names no table. -/
def plainExpansion (s : State) (k : Slot) (h e : Slot64) (va : W64) : Expansion :=
  { grid := s.nextGrid, head := h, ext := e, va := va, stamp := k.ready.getD 0, q := k.q, slot := k.slot, map := [], next := 0, gangs := [] }
/-- The state with a launch's grid and its expansion. -/
def withExpansion (s : State) (c : BitVec 8) (f : Expansion) : State :=
  { s with grids := s.grids ++ [Grid.mk s.nextGrid c []], nextGrid := s.nextGrid + 1 }.modCtx c fun y =>
    { y with expansions := y.expansions ++ [f] }
theorem acceptLaunch_noTables (s : State) (c : BitVec 8) (k : Slot) (h e : Slot64) (va : W64) :
    acceptLaunch s c k h e va ⟨[], [], true, []⟩ [] = dropExpansions (popSlot (withExpansion s c (plainExpansion s k h e va)) c k) c := rfl

theorem acceptLaunch_offers {s : State} {c : BitVec 8} {k : Slot} {h e : Slot64} {va : W64} (hn : 0 < extX e * extY e * extZ e)
    (hx : ∃ y, s.ctx? c = some y) :
    ∃ y, (acceptLaunch s c k h e va ⟨[], [], true, []⟩ []).ctx? c = some y ∧ plainExpansion s k h e va ∈ y.expansions := by
  obtain ⟨y, hy⟩ := hx
  have hw : (withExpansion s c (plainExpansion s k h e va)).ctx? c =
      some { y with expansions := y.expansions ++ [plainExpansion s k h e va] } := State.ctx?_modCtx _ hy fun _ hz => hz
  obtain ⟨z, hz, he⟩ := (KeepsOffers.popSlot _ c k).offers _ _ hw
  rw [acceptLaunch_noTables]
  refine ⟨_, State.ctx?_modCtx _ hz fun _ h => h, List.mem_filter.mpr ⟨?_, (Bool.or_eq_true_iff ..).mpr (.inl (decide_eq_true hn))⟩⟩
  rw [he]
  exact List.mem_append_right _ (List.mem_singleton.mpr rfl)

/-- A done counter's access that rejects a launch writes the code in its four bytes. -/
theorem tryDone_code {s s2 : State} {c : BitVec 8} {d : DoneWrite} {k pa : Nat} {pas : List Nat} (hk : d.code = some k) (hc : d.core = none)
    (ha : d.va.toNat % 4 = 0) (hs : spanOf s c .write false d.va 4 = (s2, .ok (pa :: pas))) :
    tryDone s c d false = performWrite s2 pa (bytesOf 4 (2 ^ 31 + k)) := by
  unfold tryDone
  simp [hk, hc, ha, hs]

/-- A number written at L2 as n bytes is read back there. -/
theorem memNat_performWrite {s : State} {pa n : Nat} (v : Nat) (h : pa + n ≤ physTop) :
    memNat (performWrite s pa (bytesOf n v)) pa n = v % 256 ^ n := by
  have hb : memBytes (performWrite s pa (bytesOf n v)) pa n = bytesOf n v := by
    refine List.ext_getElem (by simp [memBytes, bytesOf_length]) fun i hi hj => ?_
    have hin : i < n := by simpa [memBytes] using hi
    simp only [memBytes, List.getElem_map, List.getElem_range]
    rw [memByte_performWrite _ _ _ _ (by omega) (by omega), if_pos (by rw [bytesOf_length]; omega)]
    simp [hj]
  rw [memNat, hb, leNat_bytesOf]

theorem launchExpands : launchRule := by
  intro s
  refine ⟨fun h => by simp only [exec, execLaunchExpand, h, event], ?_⟩
  intro key x k h e rest s1 va hr hp hm ha errs
  have hx : exec .launchExpand s = .next (tryLaunch s x k h e) := by simp only [exec, execLaunchExpand, hr, event]
  rw [tryLaunch_noTables hp hm ha] at hx
  refine ⟨fun he hc => ?_, fun a as s2 pa pas he hd hal hs hpa => ?_⟩
  · rw [show launchErrors x k h e ⟨[], [], true, []⟩ = [] from he] at hx
    have hk := KeepsOffers.popSlot (withExpansion s1 x.id (plainExpansion s1 k h e va)) x.id k
    obtain ⟨y, hy, hf⟩ := acceptLaunch_offers (k := k) (h := h) (va := va) (launchErrors_nil he) hc
    exact ⟨_, y, _, hx, hk.grids, hk.nextGrid, hk.blocks, hy, hf, rfl, rfl, rfl, rfl, rfl, rfl, rfl⟩
  · rw [show launchErrors x k h e ⟨[], [], true, []⟩ = a :: as from he] at hx
    obtain ⟨hmem, hmin⟩ := foldl_min_spec as a
    have ht : rejectLaunch s1 x.id k e va (as.foldl min a) = performWrite s2 pa (bytesOf 4 (2 ^ 31 + as.foldl min a)) := by
      rw [rejectLaunch, if_neg hd]
      exact tryDone_code rfl rfl hal hs
    dsimp only at hx
    rw [ht] at hx
    refine ⟨_, as.foldl min a, hx, he ▸ hmem, fun b hb => hmin b (he ▸ hb), ?_, State.performWrite_grids .., fun hlt => ?_⟩
    · simpa only [bytesOf_length] using sameMemBut_performWrite s2 pa (bytesOf 4 (2 ^ 31 + as.foldl min a))
    · rw [memNat_performWrite _ hpa, Nat.mod_eq_of_lt (by omega)]

end Sys2Proof.Machine
end

section
/-! PROOF. Join counters are read again. -/

namespace Sys2Proof.Machine

open Sys2Proof

theorem sameMem_of_eq {s t : State} (hm : t.mem = s.mem) (hc : t.cores = s.cores) : SameMem s t := by
  intro a
  unfold memByte
  split
  · unfold scopeByte inScope State.core; simp only [hc]
  · rw [hm]

theorem SameMem.memNat {s t : State} (h : SameMem s t) (pa n : Nat) : memNat t pa n = memNat s pa n :=
  congrArg leNat (List.map_congr_left fun i _ => h (pa + i))

/-- The slots of a context that are neither ready nor gone. -/
def idleSlots (x : Ctx) : List Slot := x.slots.filter fun k => k.ready.isNone && !k.popped
/-- Whether an idle record is to be read, or its counter (R265). -/
def Slot.due (now : Nat) (k : Slot) : Bool := k.wait.isNone && (k.read.isNone || k.joinPa.isNone || k.lastJoin + 76800 ≤ now)
/-- Whether the counter of a record whose page waits is to be read. -/
def Slot.heldDue (now : Nat) (k : Slot) : Bool := k.wait.isSome && k.read.isSome && k.lastJoin + 76800 ≤ now
theorem State.ctx?_modSlot {s : State} {c : BitVec 8} {x : Ctx} {q p n : Nat} {f : Slot → Slot} (h : s.ctx? c = some x) :
    (modSlot s c q p n f).ctx? c =
      some { x with slots := x.slots.map fun k => if k.q = q && k.prio = p && k.slot = n then f k else k } :=
  State.ctx?_modCtx _ h fun _ hy => hy

/-- The look of the dispatcher at one context's waiting records (R265). -/
def joinLook (s : State) (x : Ctx) : State :=
  let t := ((idleSlots x).filter (·.heldDue s.cycle)).foldl (fun s k => checkJoin s x.id k) s
  tendDones (((idleSlots x).filter (·.due s.cycle)).foldl (fun s k => tendSlot s x.id k.q k.prio k.slot) t) x.id
theorem exec_joinCounterReread (s : State) : exec .joinCounterReread s = .next (s.ctxs.foldl joinLook s) := rfl

theorem State.modCtx_id {s : State} {c : BitVec 8} {f : Ctx → Ctx} (h : ∀ x ∈ s.ctxs, x.id = c → f x = x) : s.modCtx c f = s := by
  have hm : (s.ctxs.map fun x => if x.id = c then f x else x) = s.ctxs := by
    refine (List.map_congr_left fun x hx => ?_).trans (List.map_id _)
    split
    · rename_i hc; exact h x hx hc
    · rfl
  simp only [State.modCtx, hm]
theorem tendDones_nil {s : State} (c : BitVec 8) (h : ∀ x ∈ s.ctxs, x.dones = []) : tendDones s c = s := by
  unfold tendDones
  split
  · rfl
  · rename_i x hx
    rw [h x (List.mem_of_find?_eq_some hx)]
    refine State.modCtx_id fun y hy _ => ?_
    have hy := h y hy
    cases y
    cases hy
    rfl

/-- A record that is not looked at: ready, gone, or read and its counter not due. -/
def Slot.Rests (k : Slot) (now : Nat) : Prop :=
  k.ready.isSome = true ∨ k.popped = true ∨ k.wait.isSome = true ∧ (k.read = none ∨ now < k.lastJoin + 76800) ∨
    k.read.isSome = true ∧ k.joinPa.isSome = true ∧ now < k.lastJoin + 76800
theorem Slot.Rests.due_eq {k : Slot} {now : Nat} (h : k.Rests now) (hi : k.ready = none) (hp : k.popped = false) :
    k.due now = false ∧ k.heldDue now = false := by
  rcases h with hr | hp' | ⟨hw, hr | hc⟩ | ⟨hr, hj, hc⟩
  · simp [hi] at hr
  · simp [hp] at hp'
  · simp [Slot.due, Slot.heldDue, hw, hr]
  · simp [Slot.due, Slot.heldDue, Option.isNone_eq_false_iff.mpr hw, Nat.not_le.mpr hc]
  · simp [Slot.due, Slot.heldDue, Option.isNone_eq_false_iff.mpr hr, Option.isNone_eq_false_iff.mpr hj, Nat.not_le.mpr hc]
theorem joinLook_rests {s : State} {x : Ctx} (hd : ∀ y ∈ s.ctxs, y.dones = []) (h : ∀ k ∈ x.slots, k.Rests s.cycle) : joinLook s x = s := by
  have hidle : ∀ k ∈ idleSlots x, k.due s.cycle = false ∧ k.heldDue s.cycle = false := fun k hk => by
    obtain ⟨hk, hi⟩ := List.mem_filter.mp hk
    simp only [Bool.and_eq_true, Option.isNone_iff_eq_none, Bool.not_eq_true'] at hi
    exact (h k hk).due_eq hi.1 hi.2
  have hdue : (idleSlots x).filter (·.due s.cycle) = [] := List.filter_eq_nil_iff.mpr fun k hk => by simp [(hidle k hk).1]
  have hheld : (idleSlots x).filter (·.heldDue s.cycle) = [] := List.filter_eq_nil_iff.mpr fun k hk => by simp [(hidle k hk).2]
  rw [joinLook, hdue, hheld]
  exact tendDones_nil _ hd

/-- What a look at a record's counter leaves of the record. -/
def Slot.looked (k : Slot) (now : Nat) (pa : Option Nat) (bs : List Byte) : Slot :=
  { k with wait := none, lastJoin := now, joinPa := pa, ready := if leNat bs = 0 then some now else none }
theorem checkJoin_read {s s1 : State} {c : BitVec 8} {k : Slot} {r : Slot64} {bs : List Byte} (hk : k.read = some r) (hj : recJoin r ≠ 0)
    (hu : unitRead s c 7 0 (recJoin r) 4 = (s1, .ok bs)) :
    ∃ pa, checkJoin s c k = modSlot s1 c k.q k.prio k.slot fun k => k.looked s1.cycle pa bs := by
  unfold checkJoin
  simp only [hk, hj, if_false, hu]
  exact ⟨_, rfl⟩

/-- A record that is read and waits for its counter alone is looked at in its place. -/
theorem tendSlot_read {s : State} {x : Ctx} {k : Slot} (hx : s.ctx? x.id = some x) (hs : x.slots = [k]) (hr : k.ready = none)
    (hp : k.popped = false) (hw : k.wait = none) (hk : k.read.isSome = true) : tendSlot s x.id k.q k.prio k.slot = checkJoin s x.id k := by
  have hf : x.slots.find? (fun j => j.q = k.q && j.prio = k.prio && j.slot = k.slot) = some k := by simp [hs]
  have hn : k.read.isNone = false := Option.isNone_eq_false_iff.mpr hk
  unfold tendSlot
  simp [hx, hf, hp, hr, hw, hn]

theorem joinLook_due {s s1 : State} {x : Ctx} {k : Slot} {r : Slot64} {bs : List Byte} (hc : s.ctxs = [x]) (hd : x.dones = []) (hs : x.slots = [k])
    (hr : k.ready = none) (hp : k.popped = false) (hk : k.read = some r)
    (hw : k.wait = none ∧ k.joinPa = none ∨ k.lastJoin + 76800 ≤ s.cycle) (hj : recJoin r ≠ 0)
    (hu : unitRead s x.id 7 0 (recJoin r) 4 = (s1, .ok bs)) :
    ∃ pa, joinLook s x = modSlot s1 x.id k.q k.prio k.slot fun k => k.looked s1.cycle pa bs := by
  obtain ⟨pa, hpa⟩ := checkJoin_read hk hj hu
  have hx : s.ctx? x.id = some x := by simp [State.ctx?, hc]
  have hs1 : s1.ctxs = [x] := (unitRead_ok hu).ctxs.trans hc
  have hdones : ∀ y ∈ (modSlot s1 x.id k.q k.prio k.slot fun k => k.looked s1.cycle pa bs).ctxs, y.dones = [] := by
    simp [modSlot, hs1, hd]
  have hidle : idleSlots x = [k] := by simp [idleSlots, hs, hr, hp]
  refine ⟨pa, ?_⟩
  rw [joinLook, hidle]
  cases hwk : k.wait with
  | none =>
    have hdue : k.due s.cycle = true := by
      rcases hw with h | h
      · simp [Slot.due, hwk, h.2]
      · simp [Slot.due, hwk, h]
    have hheld : k.heldDue s.cycle = false := by simp [Slot.heldDue, hwk]
    simp only [List.filter_cons, List.filter_nil, hdue, hheld, Bool.false_eq_true, if_true, if_false, List.foldl_cons, List.foldl_nil]
    rw [tendSlot_read hx hs hr hp hwk (by simp [hk]), hpa, tendDones_nil _ hdones]
  | some id =>
    have hlate : k.lastJoin + 76800 ≤ s.cycle := hw.resolve_left fun h => by simp [hwk] at h
    have hdue : k.due s.cycle = false := by simp [Slot.due, hwk]
    have hheld : k.heldDue s.cycle = true := by simp [Slot.heldDue, hwk, hk, hlate]
    simp only [List.filter_cons, List.filter_nil, hdue, hheld, Bool.false_eq_true, if_true, if_false, List.foldl_cons, List.foldl_nil]
    rw [hpa, tendDones_nil _ hdones]

theorem joinCounters : joinRule := by
  refine ⟨fun s h => ?_, fun s x k r s1 bs hc hd hs hr hp hk hw hj hu => ?_⟩
  · have hfold : ∀ l : List Ctx, (∀ x ∈ l, x ∈ s.ctxs) → l.foldl joinLook s = s := fun l hl => by
      induction l with
      | nil => rfl
      | cons x l ih =>
        rw [List.foldl_cons, joinLook_rests (fun y hy => (h y hy).1) (h x (hl x (by simp))).2, ih fun y hy => hl y (by simp [hy])]
    rw [exec_joinCounterReread, hfold s.ctxs fun _ hx => hx]
  · obtain ⟨pa, hl⟩ := joinLook_due hc hd hs hr hp hk hw hj hu
    have hs1 : s1.ctxs = [x] := (unitRead_ok hu).ctxs.trans hc
    have hx : s1.ctx? x.id = some x := by simp [State.ctx?, hs1]
    have hy : (modSlot s1 x.id k.q k.prio k.slot fun k => k.looked s1.cycle pa bs).ctx? x.id = some { x with slots := [k.looked s1.cycle pa bs] } := by
      rw [State.ctx?_modSlot hx]
      simp [hs]
    have ht : exec .joinCounterReread s = .next (modSlot s1 x.id k.q k.prio k.slot fun k => k.looked s1.cycle pa bs) := by
      rw [exec_joinCounterReread, hc, List.foldl_cons, List.foldl_nil, hl]
    exact ⟨_, _, k.looked s1.cycle pa bs, ht, sameMem_of_eq rfl rfl, hy, rfl, rfl, rfl, rfl, hk⟩

end Sys2Proof.Machine
end

section
/-! PROOF. Marks for variant moves. -/

namespace Sys2Proof.Machine

open Sys2Proof

/-- A block as a set of marks leaves it. -/
def Block.markedBy (ms : List (BlockRef × Nat)) (b : Block) : Block :=
  ms.foldl (fun b m => if b.ref = m.1 then { b with mark := some m.2 } else b) b

theorem Block.markedBy_cases (ms : List (BlockRef × Nat)) (b : Block) :
    (∀ p ∈ ms, p.1 ≠ b.ref) ∧ b.markedBy ms = b ∨ ∃ v, (b.ref, v) ∈ ms ∧ b.markedBy ms = { b with mark := some v } := by
  induction ms generalizing b with
  | nil => exact .inl ⟨by simp, rfl⟩
  | cons m ms ih =>
    by_cases hm : b.ref = m.1
    · have hs : b.markedBy (m :: ms) = ({ b with mark := some m.2 } : Block).markedBy ms := by
        simp only [Block.markedBy, List.foldl_cons, hm, if_true]
      rw [hs]
      rcases ih { b with mark := some m.2 } with ⟨-, h⟩ | ⟨v, hv, h⟩
      · exact .inr ⟨m.2, by simp [hm], h⟩
      · exact .inr ⟨v, List.mem_cons_of_mem _ hv, h⟩
    · have hs : b.markedBy (m :: ms) = b.markedBy ms := by simp only [Block.markedBy, List.foldl_cons, hm, if_false]
      rw [hs]
      rcases ih b with ⟨hn, h⟩ | ⟨v, hv, h⟩
      · exact .inl ⟨fun p hp => (List.mem_cons.mp hp).elim (fun e => e ▸ fun e' => hm e'.symm) (hn p), h⟩
      · exact .inr ⟨v, List.mem_cons_of_mem _ hv, h⟩
theorem Block.markedBy_ref (ms : List (BlockRef × Nat)) (b : Block) : (b.markedBy ms).ref = b.ref := by
  rcases b.markedBy_cases ms with ⟨-, h⟩ | ⟨v, -, h⟩ <;> rw [h]
/-- The last of the marks of a block is the one that it has. -/
theorem Block.markedBy_append (ms : List (BlockRef × Nat)) (b : Block) (v : Nat) :
    b.markedBy (ms ++ [(b.ref, v)]) = { b with mark := some v } := by
  have hs : b.markedBy (ms ++ [(b.ref, v)]) = { b.markedBy ms with mark := some v } := by
    rw [Block.markedBy, List.foldl_append]
    exact if_pos (b.markedBy_ref ms)
  rw [hs]
  rcases b.markedBy_cases ms with ⟨-, h⟩ | ⟨v', -, h⟩ <;> rw [h]

/-- Marks change the marks of blocks only. -/
theorem setMarks_eq (s : State) (ms : List (BlockRef × Nat)) : setMarks s ms = { s with blocks := s.blocks.map (Block.markedBy ms) } := by
  induction ms generalizing s with
  | nil => rw [show s.blocks.map (Block.markedBy []) = s.blocks from List.map_id _]; rfl
  | cons m ms ih =>
    have hs : setMarks s (m :: ms) = setMarks (s.modBlock m.1 fun b => { b with mark := some m.2 }) ms := rfl
    rw [hs, ih, State.modBlock_blocks, List.map_map]
    rfl
theorem State.block?_mapBlocks (s : State) {f : Block → Block} (hf : ∀ b, (f b).ref = b.ref) (r : BlockRef) :
    State.block? { s with blocks := s.blocks.map f } r = (s.block? r).map f := by
  simp only [State.block?, List.find?_map]
  exact congrArg (Option.map f) (congrArg (List.find? · s.blocks) (funext fun b => by simp [hf]))
theorem setMarks_block? (s : State) (ms : List (BlockRef × Nat)) (r : BlockRef) :
    (setMarks s ms).block? r = (s.block? r).map (Block.markedBy ms) := by
  rw [setMarks_eq]; exact s.block?_mapBlocks (Block.markedBy_ref ms) r
theorem setMarks_block?_of_not_mem {s : State} {ms : List (BlockRef × Nat)} {r : BlockRef} (h : ∀ p ∈ ms, p.1 ≠ r) :
    (setMarks s ms).block? r = s.block? r := by
  rw [setMarks_block?]
  cases hb : s.block? r with
  | none => rfl
  | some b =>
    rcases b.markedBy_cases ms with ⟨-, e⟩ | ⟨v, hv, -⟩
    · rw [Option.map_some, e]
    · exact absurd (State.block?_ref hb) (h _ hv)
theorem setMarks_block?_of_mem {s : State} {ms : List (BlockRef × Nat)} {p : BlockRef × Nat} {b : Block} (hp : p ∈ ms)
    (hb : s.block? p.1 = some b) : ∃ v, (p.1, v) ∈ ms ∧ (setMarks s ms).block? p.1 = some { b with mark := some v } := by
  have hr := State.block?_ref hb
  rcases b.markedBy_cases ms with ⟨hn, -⟩ | ⟨v, hv, e⟩
  · exact absurd hr.symm (hn p hp)
  · exact ⟨v, hr ▸ hv, by rw [setMarks_block?, hb, Option.map_some, e]⟩

theorem lowerTarget_lt {b : Block} {t : Nat} (h : lowerTarget b = some t) : t < b.variant := by
  have ht := List.mem_filter.mp (List.mem_of_getLast? h)
  simpa using ht.2
theorem mem_movable {s : State} {c : Nat} {m : BlockRef × Nat} (h : m ∈ movable s c) :
    ∃ b ∈ s.blocks, b.ref = m.1 ∧ m.2 < b.variant := by
  obtain ⟨b, hb, he⟩ := List.mem_filterMap.mp h
  split at he
  · cases he
  · obtain ⟨t, ht, rfl⟩ := Option.map_eq_some_iff.mp he
    exact ⟨b, (List.mem_filter.mp hb).1, rfl, lowerTarget_lt ht⟩
/-- The marks of a core's downward moves are outstanding once they are set. -/
theorem settleMarks_movable {s : State} {c : Nat} (h : movable s c ≠ []) :
    settleMarks (setMarks s (movable s c)) = { setMarks s (movable s c) with markOut := true } := by
  obtain ⟨b, hb, hr, hlt⟩ := mem_movable (List.getLast_mem h)
  have he : (movable s c).dropLast ++ [(b.ref, ((movable s c).getLast h).2)] = movable s c := by
    rw [hr]
    exact List.dropLast_concat_getLast h
  have hm := Block.markedBy_append (movable s c).dropLast b ((movable s c).getLast h).2
  rw [he] at hm
  have hany : ((setMarks s (movable s c)).blocks.any fun b => b.mark.any (· < b.variant)) = true := by
    rw [setMarks_eq, List.any_eq_true]
    exact ⟨b.markedBy (movable s c), List.mem_map_of_mem hb, by rw [hm]; simpa using hlt⟩
  rw [settleMarks, hany]

/-- A core whose moves make room for what waits. -/
def MakesRoom (s : State) (w : Waiting) (c : Nat) : Prop := movable s c ≠ [] ∧ w.wouldFit (asMoved s (movable s c)) = true
/-- One core looked at for the fewest marks. -/
def fewerMarks (s : State) (w : Waiting) (best : Option (List (BlockRef × Nat))) (c : Nat) : Option (List (BlockRef × Nat)) :=
  let ms := movable s c
  if ms.isEmpty || !w.wouldFit (asMoved s ms) then best
  else match best with
    | none => some ms
    | some b => if ms.length < b.length then some ms else some b
theorem downMarks_eq (s : State) (w : Waiting) : downMarks s w = (List.range 64).foldl (fewerMarks s w) none := rfl
theorem fewerMarks_cases (s : State) (w : Waiting) (best : Option (List (BlockRef × Nat))) (c : Nat) :
    ¬ MakesRoom s w c ∧ fewerMarks s w best c = best ∨
    MakesRoom s w c ∧ (fewerMarks s w best c = some (movable s c) ∧ (∀ b, best = some b → (movable s c).length ≤ b.length) ∨
      ∃ b, best = some b ∧ fewerMarks s w best c = some b ∧ b.length ≤ (movable s c).length) := by
  unfold fewerMarks MakesRoom
  dsimp only
  split
  · rename_i h
    refine .inl ⟨fun hm => ?_, rfl⟩
    simp [hm.1, hm.2] at h
  · rename_i h
    refine .inr ⟨by simpa using h, ?_⟩
    cases best with
    | none => exact .inl ⟨rfl, nofun⟩
    | some b =>
      by_cases hl : (movable s c).length < b.length
      · exact .inl ⟨if_pos hl, fun b' e => by cases e; omega⟩
      · exact .inr ⟨b, rfl, if_neg hl, by omega⟩
theorem foldl_fewerMarks {s : State} {w : Waiting} {ms : List (BlockRef × Nat)} (l : List Nat) (best : Option (List (BlockRef × Nat)))
    (h : l.foldl (fewerMarks s w) best = some ms) :
    (best = some ms ∨ ∃ c ∈ l, MakesRoom s w c ∧ ms = movable s c) ∧ (∀ b, best = some b → ms.length ≤ b.length) ∧
    ∀ c ∈ l, MakesRoom s w c → ms.length ≤ (movable s c).length := by
  induction l generalizing best with
  | nil => exact ⟨.inl h, fun b hb => by cases hb.symm.trans h; exact Nat.le_refl _, by simp⟩
  | cons c l ih =>
    obtain ⟨hex, hle, hmin⟩ := ih _ h
    rcases fewerMarks_cases s w best c with ⟨hn, e⟩ | ⟨hm, ⟨e, hb⟩ | ⟨b, hb, e, hl⟩⟩ <;> rw [e] at hex hle
    · refine ⟨hex.imp id fun ⟨d, hd, hx⟩ => ⟨d, List.mem_cons_of_mem _ hd, hx⟩, hle, fun d hd hx => ?_⟩
      exact (List.mem_cons.mp hd).elim (fun e => absurd (e ▸ hx) hn) fun hd => hmin d hd hx
    · have hc := hle _ rfl
      refine ⟨.inr ?_, fun b e => Nat.le_trans hc (hb b e), fun d hd hx => ?_⟩
      · rcases hex with e | ⟨d, hd, hx⟩
        · exact ⟨c, by simp, hm, (Option.some.inj e).symm⟩
        · exact ⟨d, List.mem_cons_of_mem _ hd, hx⟩
      · exact (List.mem_cons.mp hd).elim (fun e => e ▸ hc) fun hd => hmin d hd hx
    · subst hb
      refine ⟨hex.imp id fun ⟨d, hd, hx⟩ => ⟨d, List.mem_cons_of_mem _ hd, hx⟩, hle, fun d hd hx => ?_⟩
      exact (List.mem_cons.mp hd).elim (fun e => e ▸ Nat.le_trans (hle b rfl) hl) fun hd => hmin d hd hx
theorem downMarks_spec {s : State} {w : Waiting} {ms : List (BlockRef × Nat)} (h : downMarks s w = some ms) :
    (∃ c < 64, MakesRoom s w c ∧ ms = movable s c) ∧ ∀ c < 64, MakesRoom s w c → ms.length ≤ (movable s c).length := by
  obtain ⟨hex, -, hmin⟩ := foldl_fewerMarks _ _ ((downMarks_eq s w).symm.trans h)
  obtain ⟨c, hc, hx⟩ := hex.resolve_left nofun
  exact ⟨⟨c, List.mem_range.mp hc, hx⟩, fun d hd => hmin d (List.mem_range.mpr hd)⟩

/-- With something waiting, marks are set for the first that is stuck, where some core's moves make room for it. -/
theorem exec_moveMark_waiting {s : State} (h : waitingAll s ≠ []) :
    exec .moveMark s = .next (if s.markOut then s
      else match ((waitingAll s).find? (·.stuck s)).bind (downMarks s) with
        | some ms => settleMarks (setMarks s ms)
        | none => s) := by
  unfold exec execMoveMark
  cases hw : waitingAll s with
  | nil => exact absurd hw h
  | cons w ws => rfl
theorem exec_moveMark_idle {s : State} (h : waitingAll s = []) :
    exec .moveMark s = .next (match upMark s with
      | none => s
      | some m => if s.choose.1 = 0 then s.choose.2 else setMarks s.choose.2 [m]) := by
  unfold exec execMoveMark
  rw [h]
  cases upMark s <;> rfl

theorem moveMarks : moveRule := by
  intro s ws some'
  refine ⟨fun hws => ⟨fun h => ?_, fun r v n rest hu hc => ?_⟩, fun hws h => ?_, fun w ms h => ?_, fun w ms hm hw hd => ?_⟩
  · rw [exec_moveMark_idle hws]
    cases hu : upMark s with
    | none => rfl
    | some m =>
      have hc : s.choose = (0, s) := by simp [State.choose, h.resolve_left (by simp [hu])]
      simp only [hc, if_true]
  · have hch : s.choose = (n, { s with choices := rest }) := by simp [State.choose, hc]
    have hx := exec_moveMark_idle hws
    simp only [hu, hch] at hx
    refine ⟨_, hx, ?_, fun b hb => ?_⟩
    · split
      · rfl
      · rw [setMarks_eq]
    · split
      · exact hb
      · obtain ⟨v', hv, he⟩ := setMarks_block?_of_mem (s := { s with choices := rest }) (List.mem_singleton.mpr (rfl : (r, v) = (r, v))) hb
        cases List.mem_singleton.mp hv
        exact he
  · rw [exec_moveMark_waiting hws]
    rcases h with h | h | ⟨w, hw, hd⟩
    · rw [if_pos h]
    · have hn : (waitingAll s).find? (·.stuck s) = none := List.find?_eq_none.mpr fun w hw => by simp [h w hw]
      simp [hn]
    · have hw : (waitingAll s).find? (·.stuck s) = some w := hw
      simp [hw, hd]
  · obtain ⟨⟨c, hc, hr, rfl⟩, hmin⟩ := downMarks_spec h
    exact ⟨hr.2, ⟨c, hc, rfl⟩, fun d hd hne hf => hmin d hd ⟨hne, hf⟩⟩
  · obtain ⟨⟨c, hc, hr, rfl⟩, -⟩ := downMarks_spec hd
    have hw : (waitingAll s).find? (·.stuck s) = some w := hw
    have hws : waitingAll s ≠ [] := fun e => by rw [e] at hw; cases hw
    have hx := exec_moveMark_waiting hws
    simp only [hm, hw, Option.bind_some, hd, Bool.false_eq_true, if_false, settleMarks_movable hr.1] at hx
    refine ⟨_, hx, by rw [setMarks_eq], fun r hn => setMarks_block?_of_not_mem hn, fun p hp b hb => setMarks_block?_of_mem hp hb⟩

end Sys2Proof.Machine
end

section
/-! PROOF. A block retires. -/

namespace Sys2Proof.Machine

open Sys2Proof

theorem Group.ref_of_bare {g h : Group} (e : g.bare = h.bare) : g.ref = h.ref := (congrArg Group.ref e : g.bare.ref = h.bare.ref)
theorem KeepsOffers.postFailures (s : State) (b : Block) : KeepsOffers s (postFailures s b) :=
  KeepsOffers.foldl (f := fun s (c : GCopy) => postPlain s c.ctx 6 3 b.ref.core.toNat (slotsOf b.ref.bslot.toNat c.g.slot.toNat) c.va
    (BitVec.ofNat 64 (copyCause c.status + 256 * c.status))) (fun s _ => .modCtx s _ (fun _ => rfl) fun _ => rfl) _ s

theorem removeBlock_block? (s : State) (r : BlockRef) : (removeBlock s r).block? r = none := by
  show (s.blocks.filter (·.ref ≠ r)).find? (fun b => b.ref = r) = none
  simp [List.find?_eq_none]
theorem removeBlock_block?_ne (s : State) {r q : BlockRef} (h : q ≠ r) : (removeBlock s r).block? q = s.block? q := by
  show (s.blocks.filter (·.ref ≠ r)).find? (fun b => b.ref = q) = s.blocks.find? fun b => b.ref = q
  rw [List.find?_filter]
  refine congrArg (List.find? · s.blocks) (funext fun b => ?_)
  by_cases hb : b.ref = q <;> simp [hb, h]
theorem removeBlock_groups {s : State} {r : BlockRef} {g : Group} (h : g ∈ (removeBlock s r).groups) : blockOf g.ref ≠ r := by
  have h : g ∈ s.groups.filter fun g => blockOf g.ref ≠ r := h
  simpa using (List.mem_filter.mp h).2
theorem Keeps.checkDrained (s : State) (c : BitVec 8) : Keeps s (checkDrained s c) := by
  unfold Machine.checkDrained
  split
  · exact .refl s
  · split
    · exact .refl s
    · exact ⟨rfl, rfl, rfl, rfl, rfl⟩
@[simp] theorem checkDrained_mem (s : State) (c : BitVec 8) : (checkDrained s c).mem = s.mem := by
  unfold checkDrained
  split
  · rfl
  · split <;> rfl
/-- A pre-emption that ends leaves the done writes of its context. -/
theorem checkDrained_dones {s : State} {c : BitVec 8} {x : Ctx} (h : s.ctx? c = some x) :
    ∃ y, (checkDrained s c).ctx? c = some y ∧ y.dones = x.dones := by
  unfold checkDrained
  rw [h]
  dsimp only
  split
  · exact ⟨x, h, rfl⟩
  · exact ⟨_, State.ctx?_modCtx (s := s) (fun x => { x with st := .defined, preStart := none, restores := [] }) h fun _ hy => hy, rfl⟩

/-- A retirement's access waits for the release of its core. -/
theorem tryDone_waits {s : State} {c : BitVec 8} {d : DoneWrite} {n : Nat} (hc : d.core = some n) (ha : d.va.toNat % 4 = 0)
    (hp : (s.core n).pend ≠ []) : tryDone s c d false = s.modCtx c fun x => { x with dones := x.dones ++ [d] } := by
  unfold tryDone
  simp [hc, ha, released, hp]
/-- With the release made, it decrements the counter. -/
theorem tryDone_decrements {s s2 : State} {c : BitVec 8} {d : DoneWrite} {n pa : Nat} (hk : d.code = none) (hl : d.leave = false)
    (hc : d.core = some n) (ha : d.va.toNat % 4 = 0) (hp : (s.core n).pend = []) (hu : unitAtomic s c 7 0 d.va = (s2, .ok pa)) :
    tryDone s c d false = notifyJoins (performWrite s2 pa (bytesOf 4 (memNat s2 pa 4 + 2 ^ 32 - 1))) pa 4 := by
  unfold tryDone
  simp only [hk, hc, ha, released, hp, hu, retiredBytes, hl, bytesOf_length, Option.any_some, List.isEmpty_nil, Bool.or_true, Bool.not_true,
    Bool.false_or, ne_eq, not_true_eq_false, decide_false, Bool.false_eq_true, if_false]

/-- The access of a retirement that owes no leave: its done counter's. -/
theorem retireWrites_done {b : Block} (s : State) {va : W64} {sc : Nat} (hd : b.done = some (va, sc)) (hp : ∀ a ∈ b.pels, a.owed = false) :
    retireWrites s b = [DoneWrite.mk va none 0 none (some b.ref.core.toNat) false] := by
  have hn : b.pels.filter (·.owed) = [] := List.filter_eq_nil_iff.mpr fun a ha => by simp [hp a ha]
  simp [retireWrites, hn, hd]

theorem retires_iff_exited {s : State} {b : Block} (h : retires s b = true) :
    (∀ g ∈ s.groups, blockOf g.ref = b.ref → g.exited = true) ∧ (b.seq.idle = true ∨ b.seq.stopped = true) := by
  simp only [retires, Bool.and_eq_true, State.groupsOf, List.all_filter, List.all_eq_true, Bool.or_eq_true] at h
  obtain ⟨⟨⟨⟨⟨hg, hs⟩, -⟩, -⟩, -⟩, -⟩ := h
  exact ⟨fun g hm hr => by simpa [hr] using hg g hm, hs⟩

/-- A retirement's end: the block's slot is free, and its accesses leave blocks and groups. -/
theorem retireBlock_keeps (s : State) (b : Block) : Keeps (removeBlock (postFailures s b) b.ref) (checkDrained (retireBlock s b) b.ctx) :=
  (Keeps.foldl (f := fun s d => tryDone s b.ctx d false) (fun s d => .tryDone s b.ctx d false) _ _).trans (.checkDrained ..)

theorem retirement : retireRule := by
  intro s b hb ht
  have hx : exec (.blockRetire b.ref) s = .next (if retires s b then checkDrained (retireBlock s b) b.ctx else s) := by
    unfold exec execBlockRetire
    simp only [hb, ht, event, Bool.false_eq_true, if_false]
  refine ⟨fun h => by rw [hx, h]; rfl, fun h => ⟨(retires_iff_exited h).1, (retires_iff_exited h).2, ?_⟩⟩
  have hk := retireBlock_keeps s b
  have hf := KeepsOffers.postFailures s b
  refine ⟨checkDrained (retireBlock s b) b.ctx, by rw [hx, if_pos h], ?_, fun g hg => ?_, fun r hr => ?_, ?_⟩
  · rw [hk.block?, removeBlock_block?]
  · obtain ⟨g', hg', e⟩ := hk.exists_old_group hg
    exact Group.ref_of_bare e ▸ removeBlock_groups hg'
  · rw [hk.block?, removeBlock_block?_ne _ hr, hf.block?]
  · intro va sc hd hp ha n
    have hpend : (removeBlock (postFailures s b) b.ref).core n = s.core n := hf.core n
    have hrb : retireBlock s b = tryDone (removeBlock (postFailures s b) b.ref) b.ctx (DoneWrite.mk va none 0 none (some n) false) false := by
      rw [retireBlock, retireWrites_done s hd hp]; rfl
    refine ⟨fun hn s2 pa hu hpa => ?_, fun hn hc => ?_⟩
    · rw [hrb, tryDone_decrements rfl rfl rfl ha (hpend ▸ hn) hu]
      have hmem : SameMem (performWrite s2 pa (bytesOf 4 (memNat s2 pa 4 + 2 ^ 32 - 1)))
          (checkDrained (notifyJoins (performWrite s2 pa (bytesOf 4 (memNat s2 pa 4 + 2 ^ 32 - 1))) pa 4) b.ctx) :=
        sameMem_of_eq (checkDrained_mem ..) (Keeps.checkDrained ..).cores
      refine ⟨?_, fun a ha => (hmem a).trans (sameMemBut_performWrite s2 pa _ a (by rwa [bytesOf_length]))⟩
      rw [hmem.memNat, memNat_performWrite _ hpa, show 256 ^ 4 = 2 ^ 32 from rfl]
    · obtain ⟨x, hx⟩ := hc
      obtain ⟨y, hy, -⟩ := hf.offers _ _ hx
      rw [hrb, tryDone_waits rfl ha (hpend ▸ hn)]
      obtain ⟨z, hz, e⟩ := checkDrained_dones (State.ctx?_modCtx (s := removeBlock (postFailures s b) b.ref)
        (fun x => { x with dones := x.dones ++ [DoneWrite.mk va none 0 none (some n) false] }) hy fun _ hz => hz)
      exact ⟨z, hz, by rw [e]; simp⟩

end Sys2Proof.Machine
end

section
/-! PROOF. A dispatch, and the events of the dispatcher. -/

namespace Sys2Proof.Machine

open Sys2Proof

/-- With one candidate, the priority cycle comes to the slot that serves it. -/
theorem popCycle_single {s s1 : State} {a : Cand} (hp : popCand s a = .dispatched s1) (f n : Nat)
    (h : ∃ j, 1 ≤ j ∧ j ≤ f ∧ slotPriority ((n + j) % 255) = a.prio) :
    ∃ m < 255, slotPriority m = a.prio ∧ popCycle s [a] f n = { s1 with dispSlot := m } := by
  induction f generalizing n with
  | zero => obtain ⟨j, h1, h2, -⟩ := h; omega
  | succ f ih =>
    by_cases hn : slotPriority ((n + 1) % 255) = a.prio
    · refine ⟨(n + 1) % 255, Nat.mod_lt _ (by omega), hn, ?_⟩
      simp [popCycle, hn, popFirst, hp]
    · obtain ⟨j, h1, h2, h3⟩ := h
      have hj : j ≠ 1 := fun e => hn (e ▸ h3)
      have hmod : ((n + 1) % 255 + (j - 1)) % 255 = (n + j) % 255 := by omega
      obtain ⟨m, hm, hs, he⟩ := ih ((n + 1) % 255) ⟨j - 1, by omega, by omega, by rw [hmod, h3]⟩
      have hn' : ¬ a.prio = slotPriority ((n + 1) % 255) := fun e => hn e.symm
      exact ⟨m, hm, hs, by simpa [popCycle, hn', popFirst] using he⟩
/-- Every priority has a slot of the cycle (R267). -/
theorem exists_slotPriority (p : Nat) (h : p < 8) : ∃ m < 255, slotPriority m = p := by
  have : ∀ p < 8, slotPriority (2 ^ (7 - p) - 1) = p ∧ 2 ^ (7 - p) - 1 < 255 := by decide
  exact ⟨_, (this p h).2, (this p h).1⟩
theorem popCycle_nil (s : State) (f n : Nat) : popCycle s [] f n = s := by
  induction f generalizing n with
  | zero => rfl
  | succ f ih => simpa [popCycle, popFirst] using ih _

theorem dispatchAged_nil {s : State} (h : agedCands s = []) : dispatchAged s = none := by
  unfold dispatchAged; rw [h]
/-- The state that taking a candidate leaves. -/
def PopRes.left (s : State) : PopRes → State
  | .noFit => s
  | .discarded t => t
  | .dispatched t => t
theorem dispatchAged_cand {s : State} {key : List Nat} {a : Cand} {rest : List (List Nat × Aged)}
    (h : agedCands s = (key, .cand a) :: rest) :
    dispatchAged s = some ((popCand s a).left s) := by
  unfold dispatchAged; rw [h]; rfl
theorem exec_dispatch_aged {s t : State} (h : dispatchAged s = some t) {i : Instr} (hi : i = .dispatch ∨ i = .candidateAged) :
    exec i s = .next t := by
  rcases hi with rfl | rfl
  · unfold exec execDispatch; rw [h]; rfl
  · unfold exec execCandidateAged; rw [h]; rfl
theorem exec_dispatch_cycle {s : State} (h : agedCands s = []) :
    exec .dispatch s = .next (popCycle s (sortKeys Cand.key (s.ctxs.flatMap (candsOf s))) 255 s.dispSlot) := by
  unfold exec execDispatch; rw [dispatchAged_nil h]; rfl

/-- The only candidate, where it can be taken and none is aged, is taken in a slot of its priority. -/
theorem exec_dispatch_single {s s1 : State} {a : Cand} (ha : agedCands s = []) (hc : s.ctxs.flatMap (candsOf s) = [a]) (hp : a.prio < 8)
    (hd : popCand s a = .dispatched s1) : ∃ n < 255, slotPriority n = a.prio ∧ exec .dispatch s = .next { s1 with dispSlot := n } := by
  obtain ⟨m, hm, hs⟩ := exists_slotPriority a.prio hp
  have hj : ∃ j, 1 ≤ j ∧ j ≤ 255 ∧ slotPriority ((s.dispSlot + j) % 255) = a.prio := by
    refine ⟨if s.dispSlot % 255 < m then m - s.dispSlot % 255 else m + 255 - s.dispSlot % 255, ?_, ?_, ?_⟩
    · split <;> omega
    · split <;> omega
    · rw [← hs]; congr 1; split <;> omega
  obtain ⟨n, hn, hsn, he⟩ := popCycle_single hd 255 s.dispSlot hj
  exact ⟨n, hn, hsn, by rw [exec_dispatch_cycle ha, hc]; exact congrArg _ he⟩

theorem Keeps.takeMember (s : State) (c : BitVec 8) (m : Member) : Keeps s (takeMember s c m) := by
  unfold Machine.takeMember
  split
  · split
    · exact (KeepsOffers.popSlot ..).toKeeps
    · exact .refl s
  · exact .refl s
/-- A candidate that is taken leaves what offered it, and nothing else of the machine changes. -/
theorem Keeps.takeCand (s : State) (a : Cand) : Keeps s (takeCand s a) := by
  have h := Keeps.foldl (fun s m => .takeMember s a.ctx m) a.members s
  unfold Machine.takeCand
  dsimp only
  generalize a.members.foldl (fun s m => Machine.takeMember s a.ctx m) s = u at h ⊢
  refine h.trans (.trans ?_ (.modCtx ..))
  split
  · exact .modCtx ..
  · split
    · split
      · exact .modCtx ..
      · exact .refl u
    · exact .refl u

theorem coreFits_freeSlot {s : State} {c : Nat} {v : Variant} {draft : Bool} {us : List Nat} {ps : List Placed}
    (h : coreFits s c v draft us = some ps) : ∃ slot, freeSlot s c = some slot := by
  unfold coreFits at h
  split at h
  · rename_i hc
    simp only [Bool.and_eq_true] at hc
    exact Option.isSome_iff_exists.mp hc.1.2
  · cases h
/-- One core looked at for a place (R269). -/
def betterCore (s : State) (v : Variant) (draft : Bool) (us : List Nat) (best : Option (Nat × List Placed)) (c : Nat) :
    Option (Nat × List Placed) :=
  match coreFits s c v draft us with
  | none => best
  | some p => match best with
    | none => some (c, p)
    | some (d, q) =>
      let n := (s.blocksOn c).length
      let m := (s.blocksOn d).length
      if n < m || (n = m && coreFree s d < coreFree s c) then some (c, p) else some (d, q)
theorem chooseCore_eq (s : State) (v : Variant) (draft : Bool) (us : List Nat) :
    chooseCore s v draft us = (List.range 64).foldl (betterCore s v draft us) none := rfl
theorem betterCore_cases (s : State) (v : Variant) (draft : Bool) (us : List Nat) (best : Option (Nat × List Placed)) (c : Nat) :
    betterCore s v draft us best c = best ∨
      ∃ p, coreFits s c v draft us = some p ∧ betterCore s v draft us best c = some (c, p) := by
  unfold betterCore
  split
  · exact .inl rfl
  · rename_i p hp
    split
    · exact .inr ⟨p, hp, rfl⟩
    · dsimp only
      split
      · exact .inr ⟨p, hp, rfl⟩
      · exact .inl rfl
/-- A core that is chosen fits. -/
theorem chooseCore_fits {s : State} {v : Variant} {draft : Bool} {us : List Nat} {c : Nat} {ps : List Placed}
    (h : chooseCore s v draft us = some (c, ps)) : coreFits s c v draft us = some ps := by
  have hfold : ∀ (l : List Nat) best, (∀ c ps, best = some (c, ps) → coreFits s c v draft us = some ps) →
      ∀ c ps, l.foldl (betterCore s v draft us) best = some (c, ps) → coreFits s c v draft us = some ps := fun l => by
    induction l with
    | nil => exact fun best hb => hb
    | cons d l ih =>
      refine fun best hb => ih _ fun c ps hc => ?_
      rcases betterCore_cases s v draft us best d with e | ⟨p, hp, e⟩ <;> rw [e] at hc
      · exact hb c ps hc
      · cases hc; exact hp
  exact hfold _ none nofun c ps ((chooseCore_eq ..).symm.trans h)
theorem chooseVariant_freeSlot {s : State} {k : Kernel} {vset v c : Nat} {ps : List Placed} (h : chooseVariant s k vset = some (v, c, ps)) :
    ∃ slot, freeSlot s c = some slot := by
  obtain ⟨n, -, hn⟩ := List.exists_of_findSome?_eq_some h
  split at hn
  · cases hn
  split at hn
  · cases hn
  · obtain ⟨⟨d, qs⟩, hd, he⟩ := Option.map_eq_some_iff.mp hn
    cases he
    exact coreFits_freeSlot (chooseCore_fits hd)

/-- No line of an earlier block is left in a core's L1 or constant cache (R41, R168, R169, R212). -/
theorem clearForBlock_caches (s : State) (c : Nat) (us : List Nat) :
    ((clearForBlock s c us).core c).l1 = [] ∧ ((clearForBlock s c us).core c).cc = [] := by
  show (((s.modCore c _).modCore c fun c => { c with l1 := [], cc := [] }).core c).l1 = [] ∧
    (((s.modCore c _).modCore c fun c => { c with l1 := [], cc := [] }).core c).cc = []
  rw [State.core_modCore, State.modCore_cores, length_listSet]
  by_cases hc : c < s.cores.length
  · simp [hc]
  · have hr : (s.modCore c fun k => { k with l1 := k.l1.filter fun l => !(us.contains l.unit) }).core c = Core.reset := by
      simp [State.core, length_listSet, Nat.not_lt.mp hc]
    simp only [hc, and_false, if_false, hr]
    exact ⟨rfl, rfl⟩

/-- Registers set one by one. -/
theorem get_foldl_set {w : Nat} (f : Nat → BitVec w) (m : Sparse w) (n j : Nat) :
    ((List.range n).foldl (fun s i => s.set i (f i)) m).get j = if j < n then f j else m.get j := by
  induction n with
  | zero => simp
  | succ n ih =>
    rw [List.range_succ, List.foldl_append, List.foldl_cons, List.foldl_nil, Sparse.get_set, ih]
    by_cases h : j = n
    · simp [h]
    · have hl : j < n + 1 ↔ j < n := by omega
      simp [h, hl]
theorem freshBlock_k (ref : BlockRef) (ctx : BitVec 8) (k : Kernel) (vi : Nat) (v : Variant) (m : Member) (grid : Nat) (us : List Nat) :
    let b := freshBlock ref ctx k vi v m grid us
    b.k.get 0 = BitVec.ofNat 64 (recFrame m.record) ∧ b.k.get 1 = BitVec.ofNat 64 (recBidx m.record) ∧ b.k.get 2 = m.extent ∧
      b.k.get 3 = m.record.extractLsb' 320 64 ∧ b.k.get 6 = m.record.extractLsb' 256 64 := by
  unfold freshBlock
  dsimp only
  simp only [get_foldl_set]
  exact ⟨rfl, rfl, rfl, rfl, rfl⟩
/-- The registers and counters of a group that has only its monitors apart from a fresh one (R25). -/
theorem eq_fresh_of_bare {g : Group} {ref : GroupRef} {ctx : BitVec 8} {vi : Nat} {v : Variant} {p : Placed} {now : Nat}
    (e : g.bare = (freshGroup ref ctx vi v p now).bare) :
    g.ref = ref ∧ g.spc = v.sentry ∧ g.lpc = v.lbase + BitVec.ofNat 52 (12 * v.lentry) ∧ g.vcnt = v.vcnt ∧
      g.readS 31 = BitVec.ofNat 64 (v.priv - 32) ∧ g.v = [] ∧ g.p = [] ∧ g.stack = [⟨1, 0, 0, 0xFFFFFFFF⟩] := by
  have hs : g.s = Sparse.set [] 31 (BitVec.ofNat 64 (v.priv - 32)) := (congrArg Group.s e : g.bare.s = _)
  refine ⟨Group.ref_of_bare e, (congrArg Group.spc e : g.bare.spc = _), (congrArg Group.lpc e : g.bare.lpc = _),
    (congrArg Group.vcnt e : g.bare.vcnt = _), ?_, (congrArg Group.v e : g.bare.v = _), (congrArg Group.p e : g.bare.p = _),
    (congrArg Group.stack e : g.bare.stack = _)⟩
  simp [Group.readS, hs]

/-- What starting a block on a core with a free slot adds (R25). -/
theorem startBlock_adds {s : State} {ctx : BitVec 8} {k : Kernel} {m : Member} {vi c slot : Nat} {ps : List Placed} {v : Variant}
    (hs : freeSlot s c = some slot) (hv : k.variants[vi]? = some v) :
    let ref : BlockRef := ⟨BitVec.ofNat 6 c, BitVec.ofNat 3 slot⟩
    let t := startBlock s ctx k m vi c ps
    (∃ grid us, freshBlock ref ctx k vi v m grid us ∈ t.blocks) ∧
    (∀ j (hj : j < ps.length), freshGroup ⟨ref.core, ref.bslot, BitVec.ofNat 5 j⟩ ctx vi v ps[j] s.cycle ∈ t.groups) ∧
    (t.core c).l1 = [] ∧ (t.core c).cc = [] := by
  have hgroup : ∀ j (hj : j < ps.length), (ps[j], j) ∈ ps.zipIdx := fun j hj => by
    simp [List.mem_zipIdx_iff_getElem?, hj]
  unfold startBlock
  simp only [hs, hv]
  cases m.grid with
  | none =>
    refine ⟨⟨_, _, List.mem_append_right _ (List.mem_singleton.mpr rfl)⟩, fun j hj => List.mem_append_right _ ?_, clearForBlock_caches ..⟩
    exact List.mem_map_of_mem (f := fun q : Placed × Nat => freshGroup _ ctx vi v q.1 s.cycle) (hgroup j hj)
  | some g =>
    refine ⟨⟨_, _, List.mem_append_right _ (List.mem_singleton.mpr rfl)⟩, fun j hj => List.mem_append_right _ ?_, clearForBlock_caches ..⟩
    exact List.mem_map_of_mem (f := fun q : Placed × Nat => freshGroup _ ctx vi v q.1 s.cycle) (hgroup j hj)

/-- A record that passes its checks and fits is dispatched. -/
theorem popCand_single {s : State} {a : Cand} {x : Ctx} {m : Member} {k : Kernel} {v c : Nat} {ps : List Placed} (hx : s.ctx? a.ctx = some x)
    (hm : a.members = [m]) (hb : m.slot.isSome = true → recordBad x m.record m.prio = false) (hk : kernelOf x m.record = some k)
    (hv : chooseVariant s k (recVset m.record) = some (v, c, ps)) :
    popCand s a = .dispatched (takeCand (startBlock s x.id k m v c ps) a) := by
  have hfind : a.members.find? (fun m => m.slot.isSome && recordBad x m.record m.prio) = none := by
    rw [hm, List.find?_eq_none]
    intro m' hm'
    cases List.mem_singleton.mp hm'
    cases hs : m.slot.isSome with
    | false => simp
    | true => simp [hb hs]
  have hplace : placeMembers x a.members s = some (startBlock s x.id k m v c ps) := by
    simp [hm, placeMembers, placeMember, hk, hv]
  unfold popCand
  simp only [hx, hfind, hplace]

/-- The first dispatch's state: the block stands on its core, with its groups. -/
theorem startBlock_taken {s : State} {ctx : BitVec 8} {k : Kernel} {m : Member} {vi c : Nat} {ps : List Placed} {y : Variant} (a : Cand)
    (hs : ∃ slot, freeSlot s c = some slot) (hv : k.variants[vi]? = some y) :
    let t := takeCand (startBlock s ctx k m vi c ps) a
    ∃ ref grid us, ref.core = BitVec.ofNat 6 c ∧ freshBlock ref ctx k vi y m grid us ∈ t.blocks ∧ (t.core c).l1 = [] ∧ (t.core c).cc = [] ∧
      ∀ j (hj : j < ps.length), ∃ g ∈ t.groups, g.bare = (freshGroup ⟨ref.core, ref.bslot, BitVec.ofNat 5 j⟩ ctx vi y ps[j] s.cycle).bare := by
  obtain ⟨slot, hs⟩ := hs
  obtain ⟨⟨grid, us, hb⟩, hg, hl, hc⟩ := startBlock_adds (ctx := ctx) (m := m) (ps := ps) hs hv
  have hk := Keeps.takeCand (startBlock s ctx k m vi c ps) a
  refine ⟨_, grid, us, rfl, ?_, ?_, ?_, fun j hj => hk.exists_group (hg j hj)⟩
  · rw [hk.blocks]; exact hb
  · rw [hk.core]; exact hl
  · rw [hk.core]; exact hc

theorem dispatches : dispatchRule := by
  refine fun s => ⟨fun ha => ⟨?_, fun hc => ?_, fun a s1 hc hp hd => ?_⟩, fun key a rest ha i hi => ?_⟩
  · unfold exec execCandidateAged
    rw [dispatchAged_nil ha]; rfl
  · rw [exec_dispatch_cycle ha, hc]
    exact congrArg _ (popCycle_nil ..)
  · exact exec_dispatch_single ha hc hp hd
  · have hage := dispatchAged_cand ha
    refine ⟨fun hp => exec_dispatch_aged (by rw [hage, hp]; rfl) hi, fun s1 hp => exec_dispatch_aged (by rw [hage, hp]; rfl) hi, ?_⟩
    intro x m k v y c ps hx hm hb hk hv hy
    obtain ⟨ref, grid, us, href, hblock, hl, hcc, hg⟩ := startBlock_taken (s := s) (ctx := x.id) (m := m) (ps := ps) a (chooseVariant_freeSlot hv) hy
    obtain ⟨h0, h1, h2, h3, h6⟩ := freshBlock_k ref x.id k v y m grid us
    refine ⟨_, _, exec_dispatch_aged (by rw [hage, popCand_single hx hm hb hk hv]; rfl) hi, hblock, href, rfl, rfl, rfl, rfl, rfl, rfl,
      h0, h1, h2, h3, h6, hl, hcc, fun j hj _ => ?_⟩
    obtain ⟨g, hg, e⟩ := hg j hj
    exact ⟨g, hg, eq_fresh_of_bare e⟩

/-- Settles O54: each event of the dispatcher is followed through its own loop, and what units write for contexts leaves groups, blocks,
cores and grids. -/
theorem dispatcherEvents : Obligations.DispatcherEvents := ⟨dispatches, launchExpands, joinCounters, moveMarks, retirement⟩

end Sys2Proof.Machine
end

section
/-! PROOF. How a lane word ends, and what its issue leaves. -/

namespace Sys2Proof.Machine

open Sys2Proof

theorem SameRegs.refl (g : Group) : SameRegs g g := by simp [SameRegs]
theorem SameRegs.trans {g h k : Group} (h1 : SameRegs g h) (h2 : SameRegs h k) : SameRegs g k := by simp_all [SameRegs]
theorem SameRegs.fsr {g h : Group} (e : SameRegs g h) : h.fsr = g.fsr := by
  obtain ⟨-, -, -, -, -, -, -, -, -, -, -, h, -⟩ := e; exact h
theorem SameRegs.sr {g h : Group} (e : SameRegs g h) : h.sr = g.sr := by
  obtain ⟨-, -, -, -, -, -, -, -, -, -, -, -, h, -⟩ := e; exact h
theorem SameRegs.readS {g h : Group} (e : SameRegs g h) (n : BitVec 5) : h.readS n = g.readS n := by unfold Group.readS; rw [e.1]
theorem SameRegs.readV {g h : Group} (e : SameRegs g h) (n k : Nat) : h.readV n k = g.readV n k := by unfold Group.readV; rw [e.2.1]
theorem SameRegs.readH {g h : Group} (e : SameRegs g h) (n k : Nat) : h.readH n k = g.readH n k := by unfold Group.readH; rw [e.2.2.1]

theorem SameMem.trans {s t u : State} (h : SameMem s t) (h' : SameMem t u) : SameMem s u := fun a => (h' a).trans (h a)
theorem sameMem_modCore {s : State} {n : Nat} {f : Core → Core} (h : ∀ c, (f c).inService = c.inService)
    (hp : ∀ c, (f c).pend = c.pend) : SameMem s (s.modCore n f) :=
  (SameView.modCore s n f h fun c a b => by rw [hp]).2.1

/-- The issue of a lane word is noted by its lane, by the group that occupies it, and in the windows of traversals: memory,
blocks and the cycle stand, and of the group at most the end of its occupancy changes. -/
theorem issueWord_lane {s : State} {g h : Group} (hg : s.group? g.ref = some h) :
    SameMem s (issueWord s g .lane) ∧ (issueWord s g .lane).blocks = s.blocks ∧
      ∃ n, (issueWord s g .lane).group? g.ref = some { h with laneUntil := n } := by
  unfold issueWord
  rw [if_neg (by decide)]
  have age : ∀ u : State, SameMem u (ageNevals u g.ref) := fun _ => sameMem_modCore (fun _ => rfl) fun _ => rfl
  split
  · exact ⟨age s, rfl, h.laneUntil, hg⟩
  · refine ⟨SameMem.trans ?_ (age _), rfl, s.cycle + occupancy g (g.wordOf .lane), ?_⟩
    · exact (sameMem_modCore (f := fun c => { c with lanePtr := c.lanePtr.set g.lane.toNat (BitVec.ofNat 2 (g.pos + 1)) })
        (fun _ => rfl) fun _ => rfl)
    · exact State.group?_modGroup (fun h => { h with laneUntil := s.cycle + occupancy g (g.wordOf .lane) })
        (s := s.modCore g.ref.core.toNat fun c => { c with lanePtr := c.lanePtr.set g.lane.toNat (BitVec.ofNat 2 (g.pos + 1)) })
        hg fun _ hx => hx

/-- The end of a run leaves the registers and the program counters (R205). -/
theorem Group.runOver_keeps (g : Group) : SameRegs g g.runOver ∧ g.runOver.lpc = g.lpc ∧ g.runOver.spc = g.spc := by
  unfold Group.runOver
  split
  · exact ⟨.refl g, rfl, rfl⟩
  · dsimp only
    split
    · split <;> simp [SameRegs]
    · exact ⟨.refl g, rfl, rfl⟩

/-- The common end of a lane word that is done: its group goes on with the next word, and nothing else of what its body left changes. -/
theorem finishWord_lane_done {s t : State} {g h : Group} (hg : t.group? g.ref = some h) (hi : h.inject = none) (hh : g.hold = .run)
    (hl : h.lpc = g.lpc) (hs : h.spc = g.spc) : AdvancesL (finishWord s g .lane 12 (.done t)) g h ∧
      SameMem t (finishWord s g .lane 12 (.done t)) ∧ (finishWord s g .lane 12 (.done t)).blocks = t.blocks := by
  obtain ⟨hm, hb, n, hn⟩ := issueWord_lane hg
  have ht : finishWord s g .lane 12 (.done t) = (issueWord t g .lane).modGroup g.ref fun x =>
      x.issuedAt .lane g.lpc (x.spc + 12) (x.lpc + 12) t.cycle := by
    simp only [finishWord, Group.steps_run .lane hh, afterWord_run]
    rfl
  rw [ht]
  refine ⟨⟨_, State.group?_modGroup _ hn fun x hx => by simpa using hx, ?_⟩, hm, hb⟩
  rw [Group.issuedAt_lane _ _ _ _ _ (by exact hi)]
  obtain ⟨hr, hpc, hsc⟩ := Group.runOver_keeps
    { h.issued .lane with laneUntil := n, lpc := h.lpc + 12, blockedL := false, fenced := false, skipbpL := Group.skipAfter h.skipbpL g.lpc }
  exact ⟨hr, hpc.trans (by rw [hl]), hsc.trans hs⟩

end Sys2Proof.Machine
end

section
/-! PROOF. What a write of a lane word's destination sets, and what it keeps. -/

namespace Sys2Proof.Machine

open Sys2Proof

@[simp] theorem mem_threadsOf (m : Mask) (k : Nat) : k ∈ threadsOf m ↔ k < 32 ∧ m.getLsbD k = true := by
  simp [threadsOf]
theorem nodup_threadsOf (m : Mask) : (threadsOf m).Nodup := List.nodup_range.filter _

/-- Register cells of thread numbers below 32 are distinct for distinct registers or threads. -/
theorem cell_eq_iff {n m t k : Nat} (ht : t < 32) (hk : k < 32) : 32 * m + k = 32 * n + t ↔ m = n ∧ k = t := by omega
theorem Group.readV_writeV (g : Group) {n t m k : Nat} (v : W32) (ht : t < 32) (hk : k < 32) :
    (g.writeV n t v).readV m k = if m = n ∧ k = t then v else g.readV m k := by
  simp only [Group.readV, Group.writeV, Sparse.get_set, cell_eq_iff ht hk]
theorem Group.readH_writeH (g : Group) {n t m k : Nat} (v : W32) (ht : t < 32) (hk : k < 32) :
    (g.writeH n t v).readH m k = if m = n ∧ k = t then v else g.readH m k := by
  simp only [Group.readH, Group.writeH, Sparse.get_set, cell_eq_iff ht hk]
theorem Group.readS_writeS (g : Group) (n m : BitVec 5) (v : W64) :
    (g.writeS n v).readS m = if m = n ∧ m ≠ 0 then v else g.readS m := by
  unfold Group.readS Group.writeS
  by_cases hm : m = 0
  · simp [hm]
  by_cases hn : n = 0
  · rw [if_pos hn, if_neg hm, if_neg fun h => hm (h.1.trans hn)]
  · rw [if_neg hn, if_neg hm]
    simp [Sparse.get_set, BitVec.toNat_inj, show m ≠ 0#5 from hm]
@[simp] theorem Group.readS_withRuns (g : Group) (l r : List Run) (n : BitVec 5) :
    Group.readS { g with trapRuns := l, runs := r } n = g.readS n := rfl
/-- A mark that is cleared is in one of the lane queues (R15). -/
theorem Group.clearMarks_eq (g : Group) (pc : VAddr) : ∃ l r, g.clearMarks pc = { g with trapRuns := l, runs := r } := by
  unfold Group.clearMarks
  split
  · exact ⟨g.trapRuns, g.runs, rfl⟩
  · split
    · unfold Group.setQueue
      split
      · exact ⟨_, g.runs, rfl⟩
      · exact ⟨g.trapRuns, _, rfl⟩
    · exact ⟨g.trapRuns, g.runs, rfl⟩

/-- A step per selected thread that sets cells of its own thread only: the other threads' cells stand. -/
theorem read_foldl_threadsOf {read : Group → Nat → Nat → W32} {f : Group → Nat → Group} {new : Nat → Nat → W32 → W32}
    (hf : ∀ g t n k, t < 32 → k < 32 → read (f g t) n k = if k = t then new n k (read g n k) else read g n k)
    (m : Mask) (g : Group) {n k : Nat} (hk : k < 32) :
    read ((threadsOf m).foldl f g) n k = if m.getLsbD k = true then new n k (read g n k) else read g n k := by
  have go : ∀ (l : List Nat) (g : Group), l.Nodup → (∀ t ∈ l, t < 32) →
      read (l.foldl f g) n k = if k ∈ l then new n k (read g n k) else read g n k := by
    intro l
    induction l with
    | nil => simp
    | cons t l ih =>
      intro g hn hl
      obtain ⟨ht, hn⟩ := List.nodup_cons.mp hn
      rw [List.foldl_cons, ih _ hn fun u hu => hl u (List.mem_cons_of_mem _ hu), hf g t n k (hl t (List.mem_cons_self ..)) hk]
      by_cases hkt : k = t
      · subst hkt; simp [ht]
      · simp [hkt]
  rw [go _ _ (nodup_threadsOf m) fun t ht => ((mem_threadsOf m t).mp ht).1]
  simp [hk]

/-- Two groups that differ at most in their V registers and the poison of these. -/
def SameButV (g h : Group) : Prop := ∃ v bad, h = { g with v := v, badV := bad }
/-- Two groups that differ at most in their H registers and the poison of these. -/
def SameButH (g h : Group) : Prop := ∃ v bad, h = { g with h := v, badH := bad }
theorem SameButV.refl (g : Group) : SameButV g g := ⟨g.v, g.badV, rfl⟩
theorem SameButH.refl (g : Group) : SameButH g g := ⟨g.h, g.badH, rfl⟩
theorem SameButV.writeV {g h : Group} (n t : Nat) (v : W32) : SameButV g h → SameButV g (h.writeV n t v) := by
  rintro ⟨_, _, rfl⟩; exact ⟨_, _, rfl⟩
theorem SameButH.writeH {g h : Group} (n t : Nat) (v : W32) : SameButH g h → SameButH g (h.writeH n t v) := by
  rintro ⟨_, _, rfl⟩; exact ⟨_, _, rfl⟩
theorem SameButV.foldl {α : Type} {f : Group → α → Group} (hf : ∀ g h x, SameButV g h → SameButV g (f h x)) (l : List α) {g h : Group}
    (h0 : SameButV g h) : SameButV g (l.foldl f h) := List.foldlRecOn l f h0 fun h hh x _ => hf g h x hh
theorem SameButH.foldl {α : Type} {f : Group → α → Group} (hf : ∀ g h x, SameButH g h → SameButH g (f h x)) (l : List α) {g h : Group}
    (h0 : SameButH g h) : SameButH g (l.foldl f h) := List.foldlRecOn l f h0 fun h hh x _ => hf g h x hh

/-- A V register, or the pair that begins with it, written for a thread. -/
def Group.putV (c : Nat) (wide : Bool) (val : Nat → W64) (g : Group) (t : Nat) : Group :=
  let g := g.writeV c t ((val t).setWidth 32)
  if wide then g.writeV (c + 1) t ((val t).extractLsb' 32 32) else g
theorem SameButV.putV {g h : Group} (c : Nat) (wide : Bool) (val : Nat → W64) (t : Nat) (hh : SameButV g h) :
    SameButV g (h.putV c wide val t) := by
  unfold Group.putV
  dsimp only
  split
  · exact (hh.writeV ..).writeV ..
  · exact hh.writeV ..
theorem Group.readV_putV (g : Group) {c t n k : Nat} (wide : Bool) (val : Nat → W64) (ht : t < 32) (hk : k < 32) :
    (g.putV c wide val t).readV n k = if k = t then
      (if n = c then (val k).setWidth 32 else if wide = true ∧ n = c + 1 then (val k).extractLsb' 32 32 else g.readV n k) else g.readV n k := by
  unfold Group.putV
  by_cases hkt : k = t
  · subst hkt
    cases wide
    · simp [Group.readV_writeV _ _ hk hk]
    · simp only [if_true, Group.readV_writeV _ _ hk hk, and_true, true_and]
      by_cases hn : n = c
      · simp [hn]
      · simp [hn]
  · cases wide <;> simp [Group.readV_writeV _ _ ht hk, hkt]

/-- What a write of a lane word's destination sets in its group (R117, R178), and what it keeps. -/
structure DstSet (w : LaneWord) (sel : Mask) (wide : Bool) (val : Nat → W64) (g h : Group) : Prop where
  regs : SameRegs { g with s := h.s, v := h.v, h := h.h } h
  lpc : h.lpc = g.lpc
  spc : h.spc = g.spc
  inject : h.inject = g.inject
  readV : ∀ n k, k < 32 → h.readV n k =
    if isV w.d = true ∧ sel.getLsbD k = true ∧ n = w.d.toNat then (val k).setWidth 32
    else if isV w.d = true ∧ wide = true ∧ sel.getLsbD k = true ∧ n = w.d.toNat + 1 then (val k).extractLsb' 32 32
    else g.readV n k
  readH : ∀ n k, k < 32 → h.readH n k =
    if w.d = 253 ∧ sel.getLsbD k = true ∧ n = w.ix % 8 then (val k).setWidth 32 else g.readH n k
  readS : ∀ n : BitVec 5, h.readS n = if w.d = 249 ∧ n = BitVec.ofNat 5 w.ix ∧ n ≠ 0 then val (lowest sel) else g.readS n

/-- A destination that is in no register of the group: nothing of the group is set. -/
theorem DstSet.refl {w : LaneWord} (hv : isV w.d = false) (hs : w.d ≠ 249) (hh : w.d ≠ 253) (sel : Mask) (wide : Bool)
    (val : Nat → W64) (g : Group) : DstSet w sel wide val g g where
  regs := .refl g
  lpc := rfl
  spc := rfl
  inject := rfl
  readV := by simp [hv]
  readH := fun _ _ _ => (if_neg fun h => hh h.1).symm
  readS := fun _ => (if_neg fun h => hs h.1).symm

theorem dstSet_v {w : LaneWord} (hv : isV w.d = true) (sel : Mask) (wide : Bool) (val : Nat → W64) (g : Group) :
    DstSet w sel wide val g ((threadsOf sel).foldl (Group.putV w.d.toNat wide val) g) := by
  have hread := fun n k hk => read_foldl_threadsOf (n := n) (k := k) (read := Group.readV) (new := fun n k old =>
    if n = w.d.toNat then (val k).setWidth 32 else if wide = true ∧ n = w.d.toNat + 1 then (val k).extractLsb' 32 32 else old)
    (fun g t n k ht hk => g.readV_putV wide val ht hk) sel g hk
  have hs : w.d ≠ 249 := fun h => by rw [h] at hv; exact absurd hv (by decide)
  have hh : w.d ≠ 253 := fun h => by rw [h] at hv; exact absurd hv (by decide)
  obtain ⟨v, bad, e⟩ := SameButV.foldl (fun g h t => SameButV.putV w.d.toNat wide val t) (threadsOf sel) (SameButV.refl g)
  rw [e] at hread ⊢
  refine ⟨by simp [SameRegs], rfl, rfl, rfl, fun n k hk => ?_, fun _ _ _ => (if_neg fun h => hh h.1).symm, fun _ => (if_neg fun h => hs h.1).symm⟩
  rw [hread n k hk]
  by_cases hsel : sel.getLsbD k = true
  · simp [hsel, hv]
  · simp [hsel]

theorem dstSet_h {w : LaneWord} (hd : w.d = 253) (sel : Mask) (wide : Bool) (val : Nat → W64) (g : Group) :
    DstSet w sel wide val g ((threadsOf sel).foldl (fun g t => g.writeH (w.ix % 8) t ((val t).setWidth 32)) g) := by
  have hread := fun n k hk => read_foldl_threadsOf (n := n) (k := k)
    (new := fun n k old => if n = w.ix % 8 then (val k).setWidth 32 else old) (read := Group.readH)
    (f := fun g t => g.writeH (w.ix % 8) t ((val t).setWidth 32)) (fun g t n k ht hk => by
      rw [Group.readH_writeH _ _ ht hk]
      by_cases hkt : k = t
      · simp [hkt]
      · simp [hkt]) sel g hk
  obtain ⟨v, bad, e⟩ := SameButH.foldl (fun g h t => SameButH.writeH (w.ix % 8) t ((val t).setWidth 32)) (threadsOf sel) (SameButH.refl g)
  have hv : isV w.d = false := by rw [hd]; rfl
  rw [e] at hread ⊢
  refine ⟨by simp [SameRegs], rfl, rfl, rfl, by simp [hv, Group.readV], fun n k hk => ?_, by simp [hd, Group.readS]⟩
  rw [hread n k hk]
  by_cases hsel : sel.getLsbD k = true
  · simp [hsel, hd]
  · simp [hsel]

theorem dstSet_s {w : LaneWord} (hd : w.d = 249) (sel : Mask) (wide : Bool) (val : Nat → W64) (g : Group) (pc : VAddr) :
    DstSet w sel wide val g ((g.writeS (BitVec.ofNat 5 w.ix) (val (lowest sel))).clearMarks pc) := by
  have hv : isV w.d = false := by rw [hd]; rfl
  obtain ⟨l, r, e⟩ := (g.writeS (BitVec.ofNat 5 w.ix) (val (lowest sel))).clearMarks_eq pc
  rw [e]
  refine ⟨by simp [SameRegs], by simp, by simp, by simp, by simp [hv, Group.readV], by simp [hd, Group.readH], fun n => ?_⟩
  rw [Group.readS_withRuns, Group.readS_writeS]
  simp [hd]

/-- The destination of a lane word, written in its group. -/
theorem writeDst_group {s : State} {g gu : Group} (hg : s.group? g.ref = some gu) (w : LaneWord) (sel : Mask) (wide : Bool) (val : Nat → W64) :
    ∃ h, (writeDst s g w sel wide val).group? g.ref = some h ∧ DstSet w sel wide val gu h := by
  unfold writeDst
  dsimp only
  split
  case isTrue hv =>
    refine ⟨_, State.group?_modGroup _ hg fun x hx => ?_, dstSet_v hv sel wide val gu⟩
    obtain ⟨v, bad, e⟩ := SameButV.foldl (fun g h t => SameButV.putV w.d.toNat wide val t) (threadsOf sel) (SameButV.refl x)
    exact (congrArg Group.ref e).trans hx
  case isFalse hv =>
    have code : ∀ {c : BitVec 8}, w.d.toNat = c.toNat → w.d = c := BitVec.eq_of_toNat_eq
    split
    case h_1 hd =>
      exact ⟨_, State.group?_modGroup _ hg fun x hx => by simpa using hx, dstSet_s (code (c := 249) hd) sel wide val gu _⟩
    case h_2 hd =>
      have hd : w.d = 250 := code hd
      exact ⟨gu, hg, .refl (by simpa using hv) (by rw [hd]; decide) (by rw [hd]; decide) ..⟩
    case h_3 hd =>
      refine ⟨_, State.group?_modGroup _ hg fun x hx => ?_, dstSet_h (code (c := 253) hd) sel wide val gu⟩
      obtain ⟨v, bad, e⟩ := SameButH.foldl (fun g h t => SameButH.writeH (w.ix % 8) t ((val t).setWidth 32)) (threadsOf sel) (SameButH.refl x)
      exact (congrArg Group.ref e).trans hx
    case h_4 h249 _ h253 =>
      exact ⟨gu, hg, .refl (by simpa using hv) (fun h => h249 (by rw [h]; rfl)) (fun h => h253 (by rw [h]; rfl)) ..⟩

/-- Of the blocks a destination changes a K register of its group's own (R17). -/
theorem writeDst_block {s : State} {g : Group} {b : Block} (hb : s.block? (blockOf g.ref) = some b) (w : LaneWord) (sel : Mask) (wide : Bool)
    (val : Nat → W64) : (writeDst s g w sel wide val).block? (blockOf g.ref) =
      some (if w.d = 250 then b.writeK s.cycle (w.ix % 16) g.ref.slot.toNat (val (lowest sel)) else b) := by
  have code : w.d = 250 ↔ w.d.toNat = 250 := ⟨fun h => by rw [h]; rfl, fun h => BitVec.eq_of_toNat_eq h⟩
  unfold writeDst
  dsimp only
  split
  case isTrue hv =>
    rw [if_neg fun h => absurd hv (by rw [h]; decide)]
    exact hb
  case isFalse =>
    split
    case h_2 hd => rw [if_pos (code.mpr hd)]; exact State.block?_modBlock _ hb fun x hx => hx
    case h_1 hd => rw [if_neg (mt code.mp (by omega))]; exact hb
    case h_3 hd => rw [if_neg (mt code.mp (by omega))]; exact hb
    case h_4 hd _ => rw [if_neg (mt code.mp hd)]; exact hb

theorem sameMem_writeDst (s : State) (g : Group) (w : LaneWord) (sel : Mask) (wide : Bool) (val : Nat → W64) :
    SameMem s (writeDst s g w sel wide val) := by
  unfold writeDst
  dsimp only
  split
  · exact sameMem_of_eq rfl rfl
  · split <;> exact sameMem_of_eq rfl rfl

end Sys2Proof.Machine
end

section
/-! PROOF. An arithmetic lane word completes with its values, or raises the lowest enabled exception. -/

namespace Sys2Proof.Machine

open Sys2Proof

theorem popQ_value {s u : State} {b : Block} {party k : Nat} {v : W32} (h : popQ s b party k = .value v u) :
    ∃ f : Block → Block, (∀ x, (f x).ref = x.ref) ∧ u = s.modBlock b.ref f := by
  unfold popQ at h
  dsimp only at h
  split at h
  · split at h
    · cases h
    · split at h
      · cases h; refine ⟨_, ?_, rfl⟩; exact fun _ => rfl
      · cases h
  · split at h
    · cases h
    · split at h
      · cases h
      · split at h
        · split at h
          · cases h; refine ⟨_, ?_, rfl⟩; exact fun _ => rfl
          · cases h
        · cases h
        · cases h
  · cases h

/-- A group with other walkers and walker flags. -/
def Group.withWalkers (g : Group) (x : List Walker × BitVec 6 × BitVec 3) : Group :=
  { g with walkers := x.1, e := x.2.1, wlast := x.2.2 }
/-- A walker read changes the walkers and their flags (R156). -/
theorem readWalker_keeps (g : Group) (k : Nat) : ∃ x, (readWalker g k).2 = g.withWalkers x := by
  unfold readWalker
  split
  · exact ⟨(g.walkers, _, _), rfl⟩
  · split
    · exact ⟨(g.walkers, _, _), rfl⟩
    · exact ⟨(_, _, _), rfl⟩

/-- Where the selector gives a value, its group is there, changed in its walkers at most, and so is its block. -/
theorem selector_ok {s u : State} {g : Group} {b : Block} {w : LaneWord} {cs : List (BitVec 8)} {gv : W64}
    (hg : s.group? g.ref = some g) (hb : s.block? (blockOf g.ref) = some b) (h : selector s g b w cs = .ok u gv) :
    (∃ x, u.group? g.ref = some (g.withWalkers x)) ∧ ∃ bu, u.block? (blockOf g.ref) = some bu := by
  have same : ∃ x, s.group? g.ref = some (g.withWalkers x) := ⟨(g.walkers, g.e, g.wlast), hg⟩
  unfold selector at h
  split at h
  · cases h; exact ⟨same, b, hb⟩
  · split at h
    · cases h
      obtain ⟨x, hw⟩ := readWalker_keeps g (w.ix % 8)
      have hr : (readWalker g (w.ix % 8)).2.ref = g.ref := by rw [hw]; rfl
      exact ⟨⟨x, (State.group?_modGroup (fun _ => (readWalker g (w.ix % 8)).2) hg fun _ _ => hr).trans (congrArg some hw)⟩, b, hb⟩
    · split at h
      · split at h
        · rename_i hv
          cases h
          obtain ⟨f, hf, rfl⟩ := popQ_value hv
          rw [State.block?_ref hb]
          exact ⟨same, f b, State.block?_modBlock f hb fun x hx => (hf x).trans hx⟩
        · cases h
        · cases h
      · cases h; exact ⟨same, b, hb⟩

/-- The destination's registers are those of the group's place and word, whatever else of the group has changed. -/
theorem writeDst_congr {x g : Group} (hr : x.ref = g.ref) (hl : x.lpc = g.lpc) (s : State) (w : LaneWord) (sel : Mask) (wide : Bool)
    (val : Nat → W64) : writeDst s x w sel wide val = writeDst s g w sel wide val := by
  unfold writeDst
  rw [hr, hl]

/-- A group after a word's exceptions (R95). -/
def Group.flagged (ex : Exc) (g : Group) : Group := { g with fsr := stickyFlags g.fsr ex }

/-- A lane word that is done once its flags and its destination are written; `u` is the state after its operands are read. -/
theorem laneWrote_done {s u : State} {g gu : Group} {b bu : Block} (w : LaneWord) (sel : Mask) (wide : Bool) (val : Nat → W64)
    (ex : Exc) (hg : u.group? g.ref = some gu) (hb : u.block? b.ref = some bu) (hr : b.ref = blockOf g.ref) (hh : g.hold = .run)
    (hi : gu.inject = none) (hl : gu.lpc = g.lpc) (hs : gu.spc = g.spc) :
    LaneWrote u (finishWord s g .lane 12 (.done (writeDst (u.modGroup g.ref (Group.flagged ex)) g w sel wide val))) g b w sel wide val
      (stickyFlags gu.fsr ex) := by
  obtain ⟨h, hd, set⟩ := writeDst_group (State.group?_modGroup (Group.flagged ex) hg fun _ hx => hx) w sel wide val
  have hk := writeDst_block (s := u.modGroup g.ref (Group.flagged ex)) (g := g) (hr ▸ hb) w sel wide val
  have hm : SameMem u _ := sameMem_writeDst (u.modGroup g.ref (Group.flagged ex)) g w sel wide val
  obtain ⟨⟨h', ht, regs, hl', hs'⟩, hm', hbl⟩ := finishWord_lane_done (s := s) hd (set.inject.trans hi) hh
    (set.lpc.trans hl) (set.spc.trans hs)
  refine ⟨gu, bu, h', hg, hb, ht, ?_, hl', hs', hm.trans hm', ?_, ?_, ?_, ?_⟩
  · obtain ⟨es, ev, eh, -⟩ := id regs
    rw [es, ev, eh]
    exact set.regs.trans regs
  · exact fun n k hk => (regs.readV n k).trans (set.readV n k hk)
  · exact fun n k hk => (regs.readH n k).trans (set.readH n k hk)
  · exact fun n => (regs.readS n).trans (set.readS n)
  · rw [hr]
    simp only [State.block?, hbl]
    exact hk

/-- What a word comes to that has a value and exceptions for each selected thread: it waits or raises a cause where its selector
or its own check does, raises the lowest enabled exception, or ends as `fin` says. `s0` is the state in which a word that waits
stands, `s` the one that its operands are read from. -/
def valueBody (s0 s : State) (g : Group) (b : Block) (w : LaneWord) (cs : List (BitVec 8)) (check : Check) (exc : Env → Nat → Exc)
    (fin : State → Env → Exc → WordRes) (sel : Mask) : WordRes :=
  if sel = 0 then .done s
  else match selector s g b w cs with
    | .block => .block s0
    | .cause code sub fa => .cause code sub sel fa
    | .ok u gv =>
      let e : Env := ⟨g, w, gv⟩
      match check e (passes w sel) with
      | some (code, tm) => .cause code 0 tm 0
      | none =>
        match enabledCause g.fsr (combine (passes w sel) (exc e)) with
        | some code => .cause code 0 ((threadsOf (passes w sel)).foldl (fun m t =>
            if enabledCause g.fsr (exc e t) = some code then m ||| threadBit t else m) 0) 0
        | none => fin u e (combine (passes w sel) (exc e))

section
variable {s0 s u : State} {g : Group} {b : Block} {w : LaneWord} {cs : List (BitVec 8)} {check : Check} {exc : Env → Nat → Exc}
  {fin : State → Env → Exc → WordRes} {sel : Mask} {gv : W64}

theorem valueBody_none : valueBody s0 s g b w cs check exc fin 0 = .done s := if_pos rfl

theorem valueBody_done (h0 : sel ≠ 0) (h : selector s g b w cs = .ok u gv) (hc : check ⟨g, w, gv⟩ (passes w sel) = none)
    (hx : enabledCause g.fsr (wordExc w sel (exc ⟨g, w, gv⟩)) = none) : valueBody s0 s g b w cs check exc fin sel =
      fin u ⟨g, w, gv⟩ (wordExc w sel (exc ⟨g, w, gv⟩)) := by
  unfold wordExc at hx
  simp only [valueBody, if_neg h0, h, hc, hx, wordExc]

theorem valueBody_cause {code : Nat} (h0 : sel ≠ 0) (h : selector s g b w cs = .ok u gv) (hc : check ⟨g, w, gv⟩ (passes w sel) = none)
    (hx : enabledCause g.fsr (wordExc w sel (exc ⟨g, w, gv⟩)) = some code) :
    ∃ tm, valueBody s0 s g b w cs check exc fin sel = .cause code 0 tm 0 := by
  unfold wordExc at hx
  exact ⟨_, by simp only [valueBody, if_neg h0, h, hc, hx]; rfl⟩
end

/-- What an arithmetic word that may issue answers. -/
theorem arithWord_eq {s : State} {g : Group} {b : Block} {w : LaneWord} {cs : List (BitVec 8)} {vs ps : List Nat} {wide : Bool} {check : Check}
    {val : Env → Nat → W64 × Exc} (hs : LaneAt s g b (w.d :: cs) vs false) (hp : ∀ n ∈ w.gp.toNat :: ps, n < 48) :
    arithWord s w cs vs wide check val ps = .next (finishWord s g .lane 12 (valueBody s s g b w cs check (fun e t => (val e t).2)
      (fun u e ex => .done (writeDst (u.modGroup g.ref (Group.flagged ex)) g w (laneSelected g w) wide fun t =>
        (val e (passThread w (laneSelected g w) t)).1)) (laneSelected g w))) :=
  laneWord_eq (u := { codes := w.d :: cs, vs := vs, ps := ps, rs := vs.drop (vregs wide [w.d]).length, src := cs })
    (f := fun g b sel => valueBody s s g b w cs check (fun e t => (val e t).2)
      (fun u e ex => .done (writeDst (u.modGroup g.ref (Group.flagged ex)) g w sel wide fun t => (val e (passThread w sel t)).1)) sel)
    hs (fun _ => List.mem_of_mem_drop) (fun _ => List.mem_cons_of_mem _) hp

/-- An arithmetic word whose guard selects no thread has no effect; else it completes with its values, or raises the lowest
enabled exception before any effect (R95, R178). `ok` implies that its own check passes. -/
theorem laneArith_of_arithWord {i : Instr} {w : LaneWord} {cs : List (BitVec 8)} {vs ps : List Nat} {wide : Bool} {check : Check}
    {ok : Env → Mask → Prop} {val : Env → Nat → W64 × Exc} (he : ∀ s, exec i s = arithWord s w cs vs wide check val ps)
    (hp : ∀ n ∈ w.gp.toNat :: ps, n < 48) (hc : ∀ e m, ok e m → check e m = none) : LaneArith i w cs vs wide ok val := by
  intro s u g blk gv hs
  have hw := (he s).trans (arithWord_eq hs hp)
  obtain ⟨⟨-, hg, hb⟩, -, -, -, -, -, hh, hi, -, -⟩ := id hs
  intro sel e ex
  refine ⟨fun h0 => ?_, fun h0 hsel hok => ⟨fun hx => ?_, fun code hx => ?_⟩⟩
  · obtain ⟨ha, hm, hbl⟩ := finishWord_lane_done (s := s) hg hi hh rfl rfl
    rw [show laneSelected g w = 0 from h0, valueBody_none] at hw
    exact ⟨_, hw, ha, hm, hbl⟩
  · rw [valueBody_done h0 hsel (hc _ _ hok) hx] at hw
    obtain ⟨⟨x, hgu⟩, bu, hbu⟩ := selector_ok hg hb hsel
    have hr := State.block?_ref hb
    exact ⟨_, hw, laneWrote_done (gu := g.withWalkers x) w sel wide _ ex hgu (hr ▸ hbu) hr hh hi rfl rfl⟩
  · obtain ⟨tm, hv⟩ := valueBody_cause (exc := fun e t => (val e t).2) h0 hsel (hc _ _ hok) hx
    exact ⟨tm, 0, hw.trans (by rw [hv]; rfl)⟩

end Sys2Proof.Machine
end

section
/-! PROOF. The lane floating-point and dot-product words. -/

namespace Sys2Proof.Machine

open Sys2Proof

/-- A word outside the long-latency class that is well formed has a predicate of the group as its guard. -/
theorem gp_lt_of_shortOk {w : LaneWord} (h : shortOk w = true) : w.gp.toNat < 48 := by
  simp only [shortOk, guardOk, Bool.and_eq_true, decide_eq_true_eq] at h
  exact h.2
theorem shortOk_of_floatWf {w : LaneWord} {n : Nat} {fs : List (BitVec 8)} (h : floatWf w n fs = true) : shortOk w = true := by
  simp only [floatWf, Bool.and_eq_true, and_assoc] at h; exact h.1
theorem shortOk_of_fminWf {w : LaneWord} (h : fminWf w = true) : shortOk w = true := by
  simp only [fminWf, Bool.and_eq_true, and_assoc] at h; exact h.1
theorem shortOk_of_packWf {w : LaneWord} {fs : List (BitVec 8)} (h : packWf w fs = true) : shortOk w = true := by
  simp only [packWf, Bool.and_eq_true, and_assoc] at h; exact h.1
theorem shortOk_of_vdotWf {w : LaneWord} {eight : Bool} (h : vdotWf w eight = true) : shortOk w = true := by
  simp only [vdotWf, Bool.and_eq_true, and_assoc] at h; exact h.1
theorem shortOk_of_cvtWf {w : LaneWord} (h : cvtWf w = true) : shortOk w = true := by
  simp only [cvtWf, Bool.and_eq_true, and_assoc] at h; exact h.1

/-- A well-formed lane word whose value is a number and its exceptions, with no check of its own. -/
theorem laneArith_number {i : Instr} {w : LaneWord} {cs : List (BitVec 8)} {vs : List Nat} {val : Env → Nat → Nat × Exc}
    (h : shortOk w = true)
    (he : ∀ s, exec i s = arithWord s w cs vs false noCheck fun e k => (BitVec.ofNat 64 (val e k).1, (val e k).2)) :
    LaneArith i w cs vs false (fun _ _ => True) fun e k => (BitVec.ofNat 64 (val e k).1, (val e k).2) :=
  laneArith_of_arithWord he (fun _ hn => List.mem_singleton.mp hn ▸ gp_lt_of_shortOk h) fun _ _ _ => rfl

theorem laneFloats : laneFloatRule := by
  intro w x hx hwf
  simp only [laneFloatTable, List.mem_append, List.mem_cons, List.not_mem_nil, or_false] at hx
  rcases hx with ((rfl | rfl | rfl | rfl | rfl | rfl | rfl | rfl | rfl | rfl | rfl | rfl | rfl | rfl) | hx) | rfl
  iterate 3 exact laneArith_number (shortOk_of_floatWf hwf) fun _ => rfl
  iterate 2 exact laneArith_number (shortOk_of_fminWf hwf) fun _ => rfl
  iterate 7 exact laneArith_number (shortOk_of_floatWf hwf) fun _ => rfl
  iterate 2 exact laneArith_number (shortOk_of_packWf hwf) fun _ => rfl
  · split at hx
    · rename_i hty
      cases List.mem_singleton.mp hx
      refine laneArith_number (shortOk_of_vdotWf hwf) fun s => ?_
      simp only [BitVec.ofNat_toNat, BitVec.setWidth_eq]
      exact if_pos (by simpa using hty)
    · rename_i hty
      cases List.mem_singleton.mp hx
      exact laneArith_number (shortOk_of_vdotWf hwf) fun s => if_neg (by simpa using hty)
  · exact laneArith_number (shortOk_of_vdotWf hwf) fun _ => rfl

end Sys2Proof.Machine
end

section
/-! PROOF. The conversion words. -/

namespace Sys2Proof.Machine

open Sys2Proof

/-- The registers from `c` on, written for a thread with the parts of its value, the lowest first. -/
def Group.putSpan (c span : Nat) (val : Nat → Nat) (g : Group) (t : Nat) : Group :=
  (List.range span).foldl (fun g i => g.writeV (c + i) t (BitVec.ofNat 32 (val t / 2 ^ (32 * i)))) g
theorem SameButV.putSpan {g h : Group} (c span : Nat) (val : Nat → Nat) (t : Nat) (hh : SameButV g h) :
    SameButV g (h.putSpan c span val t) := .foldl (fun _ _ _ hh => hh.writeV ..) _ hh
theorem Group.readV_putSpan (g : Group) {c span t r k : Nat} (val : Nat → Nat) (ht : t < 32) (hk : k < 32) :
    (g.putSpan c span val t).readV r k = if k = t then
      (if c ≤ r ∧ r < c + span then BitVec.ofNat 32 (val k / 2 ^ (32 * (r - c))) else g.readV r k) else g.readV r k := by
  unfold Group.putSpan
  induction span with
  | zero => simp [show ¬ (c ≤ r ∧ r < c) by omega]
  | succ m ih =>
    rw [List.range_succ, List.foldl_append, List.foldl_cons, List.foldl_nil, Group.readV_writeV _ _ ht hk, ih]
    by_cases hkt : k = t
    · subst hkt
      by_cases hr : r = c + m
      · simp [hr]
      · simp [hr, show r < c + m ↔ r < c + (m + 1) by omega]
    · simp [hkt]

/-- The registers of every selected thread. -/
theorem readV_putSpans (g : Group) (c span : Nat) (val : Nat → Nat) (sel : Mask) {r k : Nat} (hk : k < 32) :
    ((threadsOf sel).foldl (Group.putSpan c span val) g).readV r k =
      if sel.getLsbD k = true ∧ c ≤ r ∧ r < c + span then BitVec.ofNat 32 (val k / 2 ^ (32 * (r - c))) else g.readV r k := by
  rw [read_foldl_threadsOf (read := Group.readV) (new := fun r k old =>
    if c ≤ r ∧ r < c + span then BitVec.ofNat 32 (val k / 2 ^ (32 * (r - c))) else old)
    (fun g t r k ht hk => g.readV_putSpan val ht hk) sel g hk]
  by_cases hsel : sel.getLsbD k = true
  · simp [hsel]
  · simp [hsel]

/-- A group as a .SR word finds it: its generator has stepped (R98). -/
def Group.stepped (w : LaneWord) (g : Group) : Group := if w.rm = 4 then { g with sr := lfsrStep g.sr } else g
/-- The state in which the generator of a .SR word's group has stepped. -/
def steppedIn (s : State) (w : LaneWord) (g : Group) : State :=
  if w.rm = 4 then s.modGroup g.ref fun g => { g with sr := lfsrStep g.sr } else s

theorem Group.stepped_eq (w : LaneWord) (g : Group) : ∃ x, g.stepped w = { g with sr := x } := by
  unfold Group.stepped
  split
  · exact ⟨_, rfl⟩
  · exact ⟨g.sr, rfl⟩
theorem group?_steppedIn {s : State} {g : Group} (w : LaneWord) (hg : s.group? g.ref = some g) :
    (steppedIn s w g).group? g.ref = some (g.stepped w) := by
  unfold steppedIn Group.stepped
  split
  · exact State.group?_modGroup (fun g => { g with sr := lfsrStep g.sr }) hg fun _ hx => hx
  · exact hg
theorem block?_steppedIn (s : State) (w : LaneWord) (g : Group) (r : BlockRef) : (steppedIn s w g).block? r = s.block? r := by
  unfold steppedIn; split <;> rfl
theorem sameMem_steppedIn (s : State) (w : LaneWord) (g : Group) : SameMem s (steppedIn s w g) := by
  unfold steppedIn
  split
  · exact sameMem_of_eq rfl rfl
  · exact sameMem_of_eq rfl rfl

/-- The elements that a conversion converts for each thread (R193). -/
def cvtLen (w : LaneWord) : Nat := cvtCount (elemWidth w.stype) (elemWidth w.ty)
/-- The destination of a thread, and its exceptions (R194). -/
def cvtVal (w : LaneWord) (e : Env) (t : Nat) : Nat × Exc := cvtAll e (elemWidth w.stype) (elemWidth w.ty) (cvtLen w) t
/-- What a conversion declares beside its effect. -/
def cvtUse (w : LaneWord) : LaneUse where
  codes := [w.d, w.a]
  vs := cvtRegs w.d (cvtLen w) (elemWidth w.ty) ++ cvtRegs w.a (cvtLen w) (elemWidth w.stype) ++ vregs false [w.b]
  rs := cvtRegs w.a (cvtLen w) (elemWidth w.stype) ++ vregs false [w.b]
  src := [w.a]
/-- The destinations of the selected threads in V registers. -/
def Group.cvtPut (w : LaneWord) (sel : Mask) (e : Env) (g : Group) : Group :=
  (threadsOf sel).foldl (Group.putSpan w.d.toNat (cvtSpan (cvtLen w) (elemWidth w.ty)) fun t => (cvtVal w e (passThread w sel t)).1) g
theorem Group.cvtPut_sameButV (w : LaneWord) (sel : Mask) (e : Env) (g : Group) : SameButV g (g.cvtPut w sel e) :=
  .foldl (fun _ _ t => .putSpan _ _ _ t) _ (.refl g)
/-- The destination of a thread as it is written into one register. -/
def cvtWide (w : LaneWord) (v : Nat) : W64 :=
  if elemWidth w.ty = 64 then BitVec.ofNat 64 v else widen 32 (w.ty = 0 || w.ty = 2 || w.ty = 4) v

/-- The common end of a conversion: its flags, then its destination (R193, R194). -/
def cvtDone (g : Group) (w : LaneWord) (sel : Mask) (u : State) (e : Env) (ex : Exc) : WordRes :=
  let s := u.modGroup g.ref (Group.flagged ex)
  if isV w.d then .done (s.modGroup g.ref (Group.cvtPut w sel e))
  else .done (writeDst s g w sel (elemWidth w.ty = 64) fun t => cvtWide w (cvtVal w e (passThread w sel t)).1)

/-- What a conversion that may issue answers. -/
theorem exec_cvt_eq {s : State} {g : Group} {b : Block} {w : LaneWord} (hwf : (Instr.cvt w).wf = true)
    (hs : LaneAt s g b (cvtUse w).codes (cvtUse w).vs false) :
    exec (.cvt w) s = .next (finishWord s g .lane 12 (valueBody s (steppedIn s w g) (g.stepped w) b w [w.a] noCheck
      (fun e t => (cvtVal w e t).2) (cvtDone (g.stepped w) w (laneSelected g w)) (laneSelected g w))) :=
  laneWord_eq (u := cvtUse w)
    (f := fun g b sel => valueBody s (steppedIn s w g) (g.stepped w) b w [w.a] noCheck (fun e t => (cvtVal w e t).2)
      (cvtDone (g.stepped w) w sel) sel)
    hs (fun n hn => by simp only [cvtUse, List.append_assoc]; exact List.mem_append_right _ hn) (fun _ => List.mem_cons_of_mem _)
    fun _ hn => List.mem_singleton.mp hn ▸ gp_lt_of_shortOk (shortOk_of_cvtWf hwf)

section
variable {s u : State} {x g gu : Group} {w : LaneWord} (sel : Mask) (e : Env) (ex : Exc) (hx : x.ref = g.ref)
  (hg : u.group? g.ref = some gu) (hh : g.hold = .run) (hi : gu.inject = none) (hl : gu.lpc = g.lpc) (hs : gu.spc = g.spc)
include hx hg hh hi hl hs

/-- A conversion into V registers writes those that each selected thread's elements span. -/
theorem finishWord_cvtDone_v (hv : isV w.d = true) : ∃ h, (finishWord s g .lane 12 (cvtDone x w sel u e ex)).group? g.ref = some h ∧
    h.lpc = g.lpc + 12 ∧ h.spc = g.spc ∧ SameMem u (finishWord s g .lane 12 (cvtDone x w sel u e ex)) ∧
    SameRegs { gu with v := h.v, fsr := stickyFlags gu.fsr ex } h ∧ ∀ r k, k < 32 → h.readV r k =
      if sel.getLsbD k = true ∧ w.d.toNat ≤ r ∧ r < w.d.toNat + cvtSpan (cvtLen w) (elemWidth w.ty) then
        BitVec.ofNat 32 ((cvtVal w e (passThread w sel k)).1 / 2 ^ (32 * (r - w.d.toNat))) else gu.readV r k := by
  have hput := State.group?_modGroup (Group.cvtPut w sel e) (State.group?_modGroup (Group.flagged ex) hg fun _ hy => hy) fun y hy => by
    obtain ⟨v, bad, eq⟩ := y.cvtPut_sameButV w sel e
    rw [eq]; exact hy
  have hread : ∀ r k, k < 32 → ((gu.flagged ex).cvtPut w sel e).readV r k = _ := fun r k hk => readV_putSpans _ _ _ _ sel hk
  obtain ⟨v, bad, eq⟩ := (gu.flagged ex).cvtPut_sameButV w sel e
  rw [eq] at hput hread
  obtain ⟨⟨h, ht, regs, hl', hs'⟩, hm, -⟩ := finishWord_lane_done (s := s) hput hi hh hl hs
  simp only [cvtDone, hx, hv, if_true]
  refine ⟨h, ht, hl', hs', hm, ?_, fun r k hk => (regs.readV r k).trans (hread r k hk)⟩
  obtain ⟨-, ev, -⟩ := id regs
  rw [ev]
  exact regs

/-- Another conversion writes its destination as every lane word does. -/
theorem laneWrote_cvtDone {b bu : Block} (hv : isV w.d = false) (hxl : x.lpc = g.lpc) (hb : u.block? b.ref = some bu)
    (hr : b.ref = blockOf g.ref) : LaneWrote u (finishWord s g .lane 12 (cvtDone x w sel u e ex)) g b w sel (elemWidth w.ty = 64)
      (fun k => cvtWide w (cvtVal w e (passThread w sel k)).1) (stickyFlags gu.fsr ex) := by
  simp only [cvtDone, hx, hv, Bool.false_eq_true, if_false, writeDst_congr hx hxl]
  exact laneWrote_done w sel _ _ ex hg hb hr hh hi hl hs
end

theorem conversions : conversionsRule := by
  intro s u g blk w gv hwf ws wd n stepped sel e ex val hs
  have hw := exec_cvt_eq hwf hs
  obtain ⟨⟨-, hg, hb⟩, -, -, -, -, -, hh, hi, -, -⟩ := id hs
  have hst := group?_steppedIn w hg
  have hbs := (block?_steppedIn s w g _).trans hb
  obtain ⟨y, hy⟩ := g.stepped_eq w
  have hstepped : stepped = { g with sr := y } := hy
  have hf : stepped.fsr = g.fsr := by rw [hstepped]
  refine ⟨fun h0 => ?_, fun h0 hsel => ⟨fun code hx => ?_, fun hx => ?_⟩⟩
  · rw [show laneSelected g w = 0 from h0, valueBody_none] at hw
    rw [hstepped]
    rw [hy] at hst
    obtain ⟨ha, hm, -⟩ := finishWord_lane_done (s := s) hst hi hh rfl rfl
    exact ⟨_, hw, ha, (sameMem_steppedIn s w g).trans hm⟩
  · obtain ⟨tm, hv⟩ := valueBody_cause (s0 := s) (check := noCheck) (exc := fun e t => (cvtVal w e t).2)
      (fin := cvtDone (g.stepped w) w (laneSelected g w)) h0 hsel rfl (hf ▸ hx)
    exact ⟨tm, 0, hw.trans (congrArg _ (congrArg _ hv))⟩
  · have hv := valueBody_done (s0 := s) (check := noCheck) (exc := fun e t => (cvtVal w e t).2)
      (fin := cvtDone (g.stepped w) w (laneSelected g w)) h0 hsel rfl (hf ▸ hx)
    replace hw := hw.trans (congrArg _ (congrArg _ hv))
    rw [hy] at hst hw
    obtain ⟨⟨z, hgu⟩, bu, hbu⟩ := selector_ok (g := { g with sr := y }) hst hbs (hstepped ▸ hsel)
    have hsr : stepped.sr = y := by rw [hstepped]
    rw [hsr]
    by_cases hd : isV w.d = true
    · obtain ⟨h, ht, hl, hp, hm, regs, hread⟩ :=
        finishWord_cvtDone_v (s := s) (x := { g with sr := y }) (g := g) sel e ex rfl hgu hh hi rfl rfl hd
      exact ⟨_, h, _, hw, ht, hgu, hl, hp, regs.sr, regs.fsr, hm, fun _ => ⟨by rw [regs.fsr]; exact regs, hread⟩,
        fun hn => absurd hd (by simp [hn])⟩
    · have hn : isV w.d = false := by simpa using hd
      have hr := State.block?_ref hb
      have hwrote := laneWrote_cvtDone (s := s) (x := { g with sr := y }) (g := g) (b := blk)
        sel e ex rfl hgu hh hi rfl rfl hn rfl (hr ▸ hbu) hr
      obtain ⟨gu, -, h, hgu', -, ht, regs, hl, hp, hm, -⟩ := id hwrote
      cases hgu.symm.trans hgu'
      refine ⟨_, h, _, hw, ht, hgu, hl, hp, regs.sr, regs.fsr, hm, fun hv => absurd hv hd, fun _ => ?_⟩
      rw [regs.fsr]
      simp only [Bool.decide_or, ← Bool.or_assoc]
      exact hwrote

/-- Settles O24: each word runs as the common arithmetic word with its table's value; a conversion has its own destination, and steps the
generator before its operands are read. -/
theorem laneFloatWords : Obligations.LaneFloatWords := ⟨laneFloats, conversions⟩

end Sys2Proof.Machine
end
